-- ==== Sys2Proof/Word.lean ====
section
/-!
DEFINITION. The word types of the Oxath X8 and the plain-data types that its device steps carry.
-/

namespace Sys2Proof

/-- A 64-bit scalar register, address or system register (R123). -/
abbrev Word := BitVec 64
/-- One byte of memory. -/
abbrev Byte := BitVec 8
/-- One vector or scale register: 512 bytes, lane `l` in bits 64l+63 : 64l (R11, R17). -/
abbrev VReg := BitVec 4096
/-- One predicate register: bit `e` belongs to element `e` (R187). -/
abbrev PReg := BitVec 1024

/-- The path a memory access is made on (R42). -/
inductive Path where
  | core | copy | gather | matrix | remote
  deriving DecidableEq, Repr

/-- The path's number (R42). -/
def Path.num : Path → Nat
  | .core => 0 | .copy => 1 | .gather => 2 | .matrix => 3 | .remote => 4

/-- The kind of access a race record holds (R47): read 0, write 1, atomic 2, synchronising 3. A synchronising access
counts as a write unless it is a WAITC (R46). -/
inductive AccKind where
  | read | write | atomic | syncWrite | syncRead
  deriving DecidableEq, Repr

/-- What a translation is asked for (R40). -/
structure Access where
  write : Bool
  fetch : Bool
  user  : Bool
  deriving DecidableEq, Repr

/-- The values a trap record takes (R100, R101, R108), and whether the word is at fault in the lane of element `telem` (R103). -/
structure TrapInfo where
  cause  : BitVec 8
  tpc    : Word
  tval   : Word
  telem  : Nat
  tidx   : Word
  taux0  : Word
  taux1  : Word
  apw    : Bool
  strip  : Bool
  estart : Nat
  inLane : Bool := false
  deriving DecidableEq, Repr

/-- One line packet of a RADD.v or RMCST as it arrives at its target package (R293 to R297): the target's offset in this
package, the format of a RADD.v, the sent elements (RADD.v) or bytes (RMCST), the data, whether the sender's page is checked (R46),
and the sender's identity for the race record. -/
structure LinePacket where
  off    : Nat
  f32    : Bool
  mask   : BitVec 128
  data   : BitVec 1024
  rd     : Bool
  launch : Nat
  berth  : BitVec 32
  member : BitVec 2
  prior  : List Nat
  deriving DecidableEq, Repr

/-- A race record of a sector (R46, R47, R49). -/
structure RaceRec where
  sector : Nat
  id     : Nat
  berth  : BitVec 32
  member : BitVec 2
  path   : Path
  kind   : AccKind
  pc     : Word
  launch : Nat
  deriving DecidableEq, Repr

/-- What a `.rlx` store carries for the fence pair edge (R45, R55): the launch, berth name and die of its context, and for each scope of an
earlier FENCE.rel of that context the set of its latest one. -/
structure RelNote where
  launch : Nat
  berth  : BitVec 32
  die    : Nat
  rels   : List (Nat × List Nat)
  deriving DecidableEq, Repr

/-- An increment of a counter word since its latest ordinary store: the value it reached and what it carries to each path
(R45, R51, R52). -/
structure Increment where
  reached : Nat
  carries : List (Path × List Nat)
  deriving DecidableEq, Repr

/-- The increments of one counter word since its latest ordinary store, and the value that store left (R52). -/
structure CounterHist where
  addr : Nat
  base : Nat
  incs : List Increment
  deriving DecidableEq, Repr

/-- What is kept of a line as it goes from one package to another (R45, R46, R52, R285, R286): its bytes where they go with it, the race
records of its sectors, newest first, the histories of its counter words, and what `.rlx` stores left at its bytes. -/
structure LineNews where
  bits  : Option (BitVec 1024)
  recs  : List RaceRec
  ctrs  : List CounterHist
  notes : List (Nat × RelNote)
  deriving DecidableEq, Repr

/-- How the target of a transfer answered (R46, R288, R291, R292): a race names the access recorded first. -/
inductive AckResult where
  | ok
  | nack (reason : Nat)
  | gone
  | hold
  | moved
  | race (first : RaceRec)
  deriving DecidableEq, Repr

/-- Whose access crosses the fabric: a CORE access, the fetch or the reads of the word being issued, a copy channel's, or a completion
write of a remote command (R42, R288); `nobody` is the one whose access is gone, while the line it asked for is still to come. -/
inductive Agent where
  | core
  | fetch
  | matrix
  | table
  | channel (i : Nat)
  | port (id : Nat)
  | nobody
  deriving DecidableEq, Repr

/-- The access is of the word being issued. -/
def Agent.ofWord : Agent → Bool
  | .channel _ => false
  | .port _ => false
  | .nobody => false
  | _ => true

/-- Who of another package makes an access here, as its race record names it (R46, R47); `rd` says whether the page is checked there. -/
structure Sender where
  launch : Nat
  berth  : BitVec 32
  member : BitVec 2
  path   : Path
  kind   : AccKind
  pc     : Word
  rd     : Bool
  prior  : List Nat
  deriving DecidableEq, Repr

/-- What a package asks of a line for a read or a write there (R286): `n` bytes from `first` on. -/
structure LineAsk where
  line  : Nat
  first : Nat
  n     : Nat
  who   : Sender
  deriving DecidableEq, Repr

/-- What a read request asks (R285): how many bytes, and for whom. -/
structure ReadAsk where
  n   : Nat
  who : Sender
  deriving DecidableEq, Repr

/-- What a write of another package does here beside its bytes (R45, R52): an ordinary store with the note of a `.rlx` one, or an increment
of a counter word with the sets it carries. -/
inductive FarEffect where
  | store (note : Option RelNote)
  | count (amount : Nat) (carries : List (Path × List Nat))
  deriving DecidableEq, Repr

/-- What a write request brings (R160, R161, R285): its bytes, what it does beside them, and from whom. -/
structure WriteAsk where
  bytes  : List Byte
  effect : FarEffect
  who    : Sender
  deriving DecidableEq, Repr

/-- The data of the waiting access with a place returns (R151, R285), and what is kept of its line at the home. -/
structure Returned where
  place : Nat
  news  : LineNews
  deriving DecidableEq, Repr

/-- Which access of an agent a transfer is for (R285): its line, and for one to a SLICE or NOCACHE page the place in the line, counted from
1, with the element and indices of the access; a CACHED page's line is asked for once to read and once to write. -/
structure FarKey where
  line : Nat
  off  : Nat
  wr   : Bool
  elem : Nat
  idx  : Word
  deriving DecidableEq, Repr

/-- What a barrier message brings (R26, R45): the launch whose POD barrier it is, and what happened before it. -/
structure BarrierNews where
  launch : Nat
  h      : List (Path × List Nat)
  deriving DecidableEq, Repr

/-- What a receiver asks to be replayed (R289): a transfer of a remote command, or the access with a place among those that wait. -/
inductive Replayed where
  | command (id : Nat)
  | access (place : Nat)
  deriving DecidableEq, Repr

/-- A post as it travels (R303, R304): the name it is addressed to, its descriptor, the width, the mask of the indices sent, the image of
the source (index j at bits width × j), whether it was forwarded, the sender's command number, whether this package sent it, and the
happens-before sets it carries (R45). `src` is the package that sent it, where its answer goes. -/
structure Post where
  name    : BitVec 32
  desc    : Word
  width   : Nat
  mask    : PReg
  data    : VReg
  fwd     : Bool
  id      : Nat
  local_  : Bool
  src     : Nat
  prior   : List (Path × List Nat)
  deriving DecidableEq, Repr

/-- Where the firmware places an accepted record's group on this core's package (R317, R298): the save area, the scratch
image and the berth slot it allocates, and whether the firmware of another placed package refuses its groups (R313). These arrive with
the step. -/
structure Placing where
  save    : Nat
  scratch : Nat
  slot    : Nat
  refused : Bool
  deriving DecidableEq, Repr

/-- The end of a context that the firmware is told of (R311, R316, R328): the exit of one of a launch on another package, or of the one with
a save area on another core of this package; or the failure, by a trap that nobody serves, of the context with a save area, or of one on
another package, with its name, member, TCAUSE and TPC. -/
inductive ExitEvent where
  | elsewhere (launch : Nat)
  | here (save : Nat)
  | failed (save : Nat)
  | failedElsewhere (launch : Nat) (berth : BitVec 32) (member : BitVec 2) (tcause tpc : Word)
  deriving DecidableEq, Repr

/-- The members that a barrier arrival counts for (R26): those of a launch, at QUAD scope of a group, and at DIE scope of the die that the
launch placed them on. -/
structure Members where
  launch : Nat
  berth  : BitVec 32
  die    : Nat
  deriving DecidableEq, Repr

/-- Who writes a control-space register (R330). -/
inductive Writer where
  | user | supervisor | management | host
  deriving DecidableEq, Repr

end Sys2Proof
end

