-- ==== Sys2Proof/Config.lean ====
section
/-!
DEFINITION. The free values: what the manual leaves open, or leaves to sources outside itself. Each is a constant with no
body, so a claim holds whatever it is. `State.tick` indexes those that change from step to step.
-/

namespace Sys2Proof.Config

/-- Cycles that one step takes (R1, R76: no architectural result depends on cycle counts). Log entry 5. -/
opaque stepCycles : Nat → Word
/-- Cycles with stall reason 4 that a vector memory word adds to STALLBANK, within R220's bounds (R164, R220). Log entry 5. -/
opaque bankStalls : Nat → Word
/-- Whether the data of a load is still on its way when a QW of its register issues (R157). Log entry 5. -/
opaque loadLate : Nat → Bool
/-- Whether a QBR that found its entry had reported stall reason 13 for a cycle first (R157, R339). Log entry 5. -/
opaque qbrStalled : Nat → Bool
/-- A lane's commit pointer at a trap: the number of words it had begun at or after F, taken modulo 50 (R103: 0 to 49).
Log entry 5. -/
opaque commitPointer : Nat → Nat → Nat
/-- Whether a translation that is cached and still usable is used again or walked anew (R41). Log entry 6. -/
opaque tlbUsed : Nat → Bool
/-- Whether a fetch returns the word its core fetched before, where no IFENCE came between (R57). Log entry 7. -/
opaque fetchStale : Nat → Bool
/-- The value of a register that a fatal event makes undefined (R8, R112): by tick and register. Log entry 8. -/
opaque undefWord : Nat → Nat → Word
/-- As `undefWord`, for a vector or scale register. Log entry 8. -/
opaque undefVec : Nat → Nat → VReg
/-- As `undefWord`, for a predicate register. Log entry 8. -/
opaque undefPred : Nat → Nat → PReg
/-- The program-counter sampling stall reason of a lane agent (R29, R342), modulo 16. Log entry 5. -/
opaque sampleReason : Nat → Nat
/-- What the device of another core shows in its slot table entry (R320), by tick and offset. Log entry 76. -/
opaque otherSlot : Nat → Nat → Word
/-- Whether the trace ring's path cannot take a record (R341). Log entry 5. -/
opaque ringFull : Nat → Bool
/-- Whether the trace port cannot take a record (R341). Log entry 5. -/
opaque portFull : Nat → Bool
/-- SHA3-512 of FIPS 202 (R333, R335). Log entry 9. -/
opaque sha3 : List Byte → BitVec 512
/-- The key digest fused at manufacture (R333). Log entry 9. -/
opaque keyDigest : BitVec 512
/-- FIPS 204 ML-DSA-87 verification with an empty context string (R333): public key, 64-byte message, signature. Log entry 9. -/
opaque mldsaVerify : List Byte → BitVec 512 → List Byte → Bool
/-- Whether HBM trains at a boot (R331), by tick, where no step says so. Log entry 9. -/
opaque hbmTrains : Nat → Bool
/-- The flash image that the ROM finds at reset (R331). Log entry 9. -/
opaque flashImage : List Byte
/-- The identity public key (R335). Log entry 9. -/
opaque identityKey : List Byte
/-- The 4,627-byte ML-DSA-87 signature by the identity key over a 64-byte digest (R335). Log entry 9. -/
opaque identitySign : BitVec 512 → BitVec 37016
/-- The HBM offset of META_BASE that the ROM chooses (R332), in 64 KiB units. Log entry 9. -/
opaque romMetaBase : Nat

/-- Whether an engine, the port or the dispatch hardware takes its turn before the context's next word, where one is due (R20, R33: their
progress is concurrent with the context's). Log entry 5. -/
opaque engineTurn : Nat → Bool
/-- Whether this package gives up a line of another package that it holds (R286). Log entry 5. -/
opaque evicts : Nat → Bool
/-- Whether byte `i` of a B tile re-reads as memory's new value after a swap-in (R247). Log entry 5. -/
opaque tileReread : Nat → Nat → Bool

end Sys2Proof.Config
end

