-- ==== Sys2Proof/Syntax.lean ====
section
/-!
DEFINITION. The instruction words and the device steps of the Oxath X8: one constructor for each row of the opcode
table. A word's constructor carries the fields of its encoding at their encoded widths (R64, R65), so that the
register classes and reserved values are checked in one place, `Instr.wf` of WellFormed. `cs` is the convoy-start
bit S (R61). A device step that has no encoding carries as plain data what arrives with it.
-/

namespace Sys2Proof

/-- One constructor for each row of the opcode table: 274 words, then 63 device steps (spec file 95). -/
inductive Instr where
  -- opcode 0x1, PFX
  /-- PFX (R69): Lends a predicate, and optionally a copy of the vector result, to the next word issued. -/
  | pfx (p : BitVec 4) (n : BitVec 1) (c : BitVec 1) (v : BitVec 5)
  -- opcode 0x2, ALU
  /-- ADD (R136): Adds two scalar registers modulo 2^64. -/
  | add (d : BitVec 5) (a : BitVec 5) (b : BitVec 5)
  /-- SUB (R136): Subtracts two scalar registers modulo 2^64. -/
  | sub (d : BitVec 5) (a : BitVec 5) (b : BitVec 5)
  /-- AND (R136): Bitwise AND of two scalar registers. -/
  | and (d : BitVec 5) (a : BitVec 5) (b : BitVec 5)
  /-- OR (R136): Bitwise OR of two scalar registers. -/
  | or (d : BitVec 5) (a : BitVec 5) (b : BitVec 5)
  /-- XOR (R136): Bitwise XOR of two scalar registers. -/
  | xor (d : BitVec 5) (a : BitVec 5) (b : BitVec 5)
  /-- ANDN (R136): AND of xa with the complement of xb. -/
  | andn (d : BitVec 5) (a : BitVec 5) (b : BitVec 5)
  /-- ORN (R136): OR of xa with the complement of xb. -/
  | orn (d : BitVec 5) (a : BitVec 5) (b : BitVec 5)
  /-- SLL (R136): Logical shift left by xb[5:0]. -/
  | sll (d : BitVec 5) (a : BitVec 5) (b : BitVec 5)
  /-- SRL (R136): Logical shift right by xb[5:0]. -/
  | srl (d : BitVec 5) (a : BitVec 5) (b : BitVec 5)
  /-- SRA (R136): Arithmetic shift right by xb[5:0]. -/
  | sra (d : BitVec 5) (a : BitVec 5) (b : BitVec 5)
  /-- ROTL (R136): Rotate left by xb[5:0]. -/
  | rotl (d : BitVec 5) (a : BitVec 5) (b : BitVec 5)
  /-- ROTR (R136): Rotate right by xb[5:0]. -/
  | rotr (d : BitVec 5) (a : BitVec 5) (b : BitVec 5)
  /-- SLT (R136): Sets 1 if xa is less than xb, signed. -/
  | slt (d : BitVec 5) (a : BitVec 5) (b : BitVec 5)
  /-- SLTU (R136): Sets 1 if xa is less than xb, unsigned. -/
  | sltu (d : BitVec 5) (a : BitVec 5) (b : BitVec 5)
  /-- SEQ (R136): Sets 1 if xa equals xb. -/
  | seq (d : BitVec 5) (a : BitVec 5) (b : BitVec 5)
  /-- SNE (R136): Sets 1 if xa differs from xb. -/
  | sne (d : BitVec 5) (a : BitVec 5) (b : BitVec 5)
  /-- MIN (R136): Signed minimum. -/
  | min (d : BitVec 5) (a : BitVec 5) (b : BitVec 5)
  /-- MAX (R136): Signed maximum. -/
  | max (d : BitVec 5) (a : BitVec 5) (b : BitVec 5)
  /-- MINU (R136): Unsigned minimum. -/
  | minu (d : BitVec 5) (a : BitVec 5) (b : BitVec 5)
  /-- MAXU (R136): Unsigned maximum. -/
  | maxu (d : BitVec 5) (a : BitVec 5) (b : BitVec 5)
  /-- ADDS (R136): Signed saturating add. -/
  | adds (d : BitVec 5) (a : BitVec 5) (b : BitVec 5)
  /-- SUBS (R136): Signed saturating subtract. -/
  | subs (d : BitVec 5) (a : BitVec 5) (b : BitVec 5)
  /-- ADDUS (R136): Unsigned saturating add. -/
  | addus (d : BitVec 5) (a : BitVec 5) (b : BitVec 5)
  /-- SUBUS (R136): Unsigned saturating subtract. -/
  | subus (d : BitVec 5) (a : BitVec 5) (b : BitVec 5)
  /-- MUL (R136): Low 64 bits of the product. -/
  | mul (d : BitVec 5) (a : BitVec 5) (b : BitVec 5)
  /-- MULH (R136): High 64 bits of the signed product. -/
  | mulh (d : BitVec 5) (a : BitVec 5) (b : BitVec 5)
  /-- MULHU (R136): High 64 bits of the unsigned product. -/
  | mulhu (d : BitVec 5) (a : BitVec 5) (b : BitVec 5)
  /-- MULHSU (R136): High 64 bits of the signed-by-unsigned product. -/
  | mulhsu (d : BitVec 5) (a : BitVec 5) (b : BitVec 5)
  /-- DIV (R137): Signed quotient truncated toward zero, never trapping. -/
  | div (d : BitVec 5) (a : BitVec 5) (b : BitVec 5)
  /-- DIVU (R137): Unsigned quotient, never trapping. -/
  | divu (d : BitVec 5) (a : BitVec 5) (b : BitVec 5)
  /-- REM (R137): Signed remainder with the sign of xa. -/
  | rem (d : BitVec 5) (a : BitVec 5) (b : BitVec 5)
  /-- REMU (R137): Unsigned remainder. -/
  | remu (d : BitVec 5) (a : BitVec 5) (b : BitVec 5)
  /-- ADDW (R136): 32-bit add, sign-extended. -/
  | addw (d : BitVec 5) (a : BitVec 5) (b : BitVec 5)
  /-- SUBW (R136): 32-bit subtract, sign-extended. -/
  | subw (d : BitVec 5) (a : BitVec 5) (b : BitVec 5)
  /-- SLLW (R136): 32-bit shift left, sign-extended. -/
  | sllw (d : BitVec 5) (a : BitVec 5) (b : BitVec 5)
  /-- SRLW (R136): 32-bit logical shift right, sign-extended. -/
  | srlw (d : BitVec 5) (a : BitVec 5) (b : BitVec 5)
  /-- SRAW (R136): 32-bit arithmetic shift right, sign-extended. -/
  | sraw (d : BitVec 5) (a : BitVec 5) (b : BitVec 5)
  /-- MULW (R136): 32-bit multiply, sign-extended. -/
  | mulw (d : BitVec 5) (a : BitVec 5) (b : BitVec 5)
  /-- CLZ (R136): Counts leading zero bits. -/
  | clz (d : BitVec 5) (a : BitVec 5)
  /-- CTZ (R136): Counts trailing zero bits. -/
  | ctz (d : BitVec 5) (a : BitVec 5)
  /-- POPC (R136): Counts one bits. -/
  | popc (d : BitVec 5) (a : BitVec 5)
  /-- BREV (R136): Reverses the bit order. -/
  | brev (d : BitVec 5) (a : BitVec 5)
  /-- SEXTB (R136): Sign-extends bits 7:0. -/
  | sextb (d : BitVec 5) (a : BitVec 5)
  /-- SEXTH (R136): Sign-extends bits 15:0. -/
  | sexth (d : BitVec 5) (a : BitVec 5)
  /-- SEXTW (R136): Sign-extends bits 31:0. -/
  | sextw (d : BitVec 5) (a : BitVec 5)
  /-- ZEXTW (R136): Zero-extends bits 31:0. -/
  | zextw (d : BitVec 5) (a : BitVec 5)
  /-- JR (R138): Jumps to the address in xa. -/
  | jr (a : BitVec 5)
  /-- JALR (R138): Jumps to the address in xa and links PC + 4 in xd. -/
  | jalr (d : BitVec 5) (a : BitVec 5)
  -- opcode 0x3, ALUI
  /-- ADDI (R139): Adds a signed 12-bit immediate. -/
  | addi (d : BitVec 5) (a : BitVec 5) (i : BitVec 12)
  /-- ANDI (R139): AND with a signed immediate. -/
  | andi (d : BitVec 5) (a : BitVec 5) (i : BitVec 12)
  /-- ORI (R139): OR with a signed immediate. -/
  | ori (d : BitVec 5) (a : BitVec 5) (i : BitVec 12)
  /-- XORI (R139): XOR with a signed immediate. -/
  | xori (d : BitVec 5) (a : BitVec 5) (i : BitVec 12)
  /-- SLTI (R139): Signed compare with an immediate. -/
  | slti (d : BitVec 5) (a : BitVec 5) (i : BitVec 12)
  /-- SLTIU (R139): Unsigned compare with an immediate. -/
  | sltiu (d : BitVec 5) (a : BitVec 5) (i : BitVec 12)
  /-- SLLI (R139): Logical shift left by an immediate amount. -/
  | slli (d : BitVec 5) (a : BitVec 5) (h : BitVec 6)
  /-- SRLI (R139): Logical shift right by an immediate amount. -/
  | srli (d : BitVec 5) (a : BitVec 5) (h : BitVec 6)
  /-- SRAI (R139): Arithmetic shift right by an immediate amount. -/
  | srai (d : BitVec 5) (a : BitVec 5) (h : BitVec 6)
  /-- ROTRI (R139): Rotate right by an immediate amount. -/
  | rotri (d : BitVec 5) (a : BitVec 5) (h : BitVec 6)
  /-- ADDIW (R139): 32-bit add of an immediate, sign-extended. -/
  | addiw (d : BitVec 5) (a : BitVec 5) (i : BitVec 12)
  -- opcode 0x4, LIH
  /-- LIH (R140): Loads a 20-bit immediate shifted left by 12, sign-extended from 32 bits. -/
  | lih (d : BitVec 5) (i : BitVec 20)
  -- opcode 0x5, BR
  /-- BEQZ (R141): Branches when xa is zero. -/
  | beqz (a : BitVec 5) (t : BitVec 16)
  /-- BNEZ (R141): Branches when xa is not zero. -/
  | bnez (a : BitVec 5) (t : BitVec 16)
  /-- BLTZ (R141): Branches when xa is negative. -/
  | bltz (a : BitVec 5) (t : BitVec 16)
  /-- BGEZ (R141): Branches when xa is not negative. -/
  | bgez (a : BitVec 5) (t : BitVec 16)
  /-- BGTZ (R141): Branches when xa is positive. -/
  | bgtz (a : BitVec 5) (t : BitVec 16)
  /-- BLEZ (R141): Branches when xa is not positive. -/
  | blez (a : BitVec 5) (t : BitVec 16)
  /-- BRA (R141): Branches unconditionally. -/
  | bra (t : BitVec 16)
  -- opcode 0x6, JC
  /-- J (R142): Jumps by a signed word offset. -/
  | j (t : BitVec 24)
  /-- CALL (R142): Sets x1 to PC + 4 and jumps. -/
  | call (t : BitVec 24)
  -- opcode 0x7, LOOP
  /-- LOOP (R130): Sets up a hardware loop level with a count and body length, or skips the body. -/
  | loop (l : BitVec 2) (c : BitVec 5) (n : BitVec 9)
  -- opcode 0x8, LD
  /-- LB (R149): Loads a sign-extended byte through an address register. -/
  | lb (d : BitVec 5) (a : BitVec 4) (i : BitVec 13)
  /-- LH (R149): Loads a sign-extended halfword. -/
  | lh (d : BitVec 5) (a : BitVec 4) (i : BitVec 13)
  /-- LW (R149): Loads a sign-extended word. -/
  | lw (d : BitVec 5) (a : BitVec 4) (i : BitVec 13)
  /-- LD (R149): Loads 8 bytes. -/
  | ld (d : BitVec 5) (a : BitVec 4) (i : BitVec 13)
  /-- LBU (R149): Loads a zero-extended byte. -/
  | lbu (d : BitVec 5) (a : BitVec 4) (i : BitVec 13)
  /-- LHU (R149): Loads a zero-extended halfword. -/
  | lhu (d : BitVec 5) (a : BitVec 4) (i : BitVec 13)
  /-- LWU (R149): Loads a zero-extended word. -/
  | lwu (d : BitVec 5) (a : BitVec 4) (i : BitVec 13)
  /-- PREF (R154): Optionally brings a line into the caches; checks nothing and never faults. -/
  | pref (a : BitVec 4) (o : BitVec 11)
  -- opcode 0x9, ST
  /-- SB (R149): Stores a byte. -/
  | sb (xs : BitVec 5) (a : BitVec 4) (i : BitVec 13)
  /-- SH (R149): Stores a halfword. -/
  | sh (xs : BitVec 5) (a : BitVec 4) (i : BitVec 13)
  /-- SW (R149): Stores a word. -/
  | sw (xs : BitVec 5) (a : BitVec 4) (i : BitVec 13)
  /-- SD (R149): Stores 8 bytes. -/
  | sd (xs : BitVec 5) (a : BitVec 4) (i : BitVec 13)
  /-- ATADD (R152): 64-bit atomic add returning the old value. -/
  | atadd (d : BitVec 5) (a : BitVec 4)
  /-- ATAND (R152): 64-bit atomic AND. -/
  | atand (d : BitVec 5) (a : BitVec 4)
  /-- ATOR (R152): 64-bit atomic OR. -/
  | ator (d : BitVec 5) (a : BitVec 4)
  /-- ATXOR (R152): 64-bit atomic XOR. -/
  | atxor (d : BitVec 5) (a : BitVec 4)
  /-- ATMIN (R152): 64-bit atomic signed minimum. -/
  | atmin (d : BitVec 5) (a : BitVec 4)
  /-- ATMAX (R152): 64-bit atomic signed maximum. -/
  | atmax (d : BitVec 5) (a : BitVec 4)
  /-- ATMINU (R152): 64-bit atomic unsigned minimum. -/
  | atminu (d : BitVec 5) (a : BitVec 4)
  /-- ATMAXU (R152): 64-bit atomic unsigned maximum. -/
  | atmaxu (d : BitVec 5) (a : BitVec 4)
  /-- ATSWP (R152): 64-bit atomic swap. -/
  | atswp (d : BitVec 5) (a : BitVec 4)
  /-- ATCAS (R152): 64-bit atomic compare-and-swap against x[xd+1]. -/
  | atcas (d : BitVec 5) (a : BitVec 4)
  /-- ATADDW (R152): 32-bit atomic add. -/
  | ataddw (d : BitVec 5) (a : BitVec 4)
  /-- ATANDW (R152): 32-bit atomic AND. -/
  | atandw (d : BitVec 5) (a : BitVec 4)
  /-- ATORW (R152): 32-bit atomic OR. -/
  | atorw (d : BitVec 5) (a : BitVec 4)
  /-- ATXORW (R152): 32-bit atomic XOR. -/
  | atxorw (d : BitVec 5) (a : BitVec 4)
  /-- ATMINW (R152): 32-bit atomic signed minimum. -/
  | atminw (d : BitVec 5) (a : BitVec 4)
  /-- ATMAXW (R152): 32-bit atomic signed maximum. -/
  | atmaxw (d : BitVec 5) (a : BitVec 4)
  /-- ATMINUW (R152): 32-bit atomic unsigned minimum. -/
  | atminuw (d : BitVec 5) (a : BitVec 4)
  /-- ATMAXUW (R152): 32-bit atomic unsigned maximum. -/
  | atmaxuw (d : BitVec 5) (a : BitVec 4)
  /-- ATSWPW (R152): 32-bit atomic swap. -/
  | atswpw (d : BitVec 5) (a : BitVec 4)
  /-- ATCASW (R152): 32-bit atomic compare-and-swap. -/
  | atcasw (d : BitVec 5) (a : BitVec 4)
  -- opcode 0xa, AR
  /-- AMK (R144): Makes an address register from a base and a length with full permissions. -/
  | amk (d : BitVec 5) (a : BitVec 5) (b : BitVec 5)
  /-- AMOV (R144): Copies an address register. -/
  | amov (d : BitVec 5) (a : BitVec 5)
  /-- APERM (R144): Copies an address register with new permission bits. -/
  | aperm (d : BitVec 5) (a : BitVec 5) (b : BitVec 5)
  /-- AADD (R128): Advances an address register's pointer by a signed amount, within its bounds. -/
  | aadd (d : BitVec 5) (a : BitVec 5) (b : BitVec 5)
  /-- ANAR (R144): Narrows an address register to a span from its pointer. -/
  | anar (d : BitVec 5) (a : BitVec 5) (b : BitVec 5)
  /-- ASET (R144): Sets an address register's pointer as an advance. -/
  | aset (d : BitVec 5) (a : BitVec 5) (b : BitVec 5)
  /-- ADIFF (R144): Writes the difference of two pointers. -/
  | adiff (d : BitVec 5) (a : BitVec 5) (b : BitVec 5)
  /-- AGET (R144): Reads an address register's pointer. -/
  | aget (d : BitVec 5) (a : BitVec 5)
  /-- AGETB (R144): Reads an address register's base. -/
  | agetb (d : BitVec 5) (a : BitVec 5)
  /-- AGETL (R144): Reads an address register's limit. -/
  | agetl (d : BitVec 5) (a : BitVec 5)
  /-- AGETP (R144): Reads an address register's permission word. -/
  | agetp (d : BitVec 5) (a : BitVec 5)
  /-- DSET (R144): Sets a dimension register's length and stride. -/
  | dset (d : BitVec 5) (a : BitVec 5) (b : BitVec 5)
  /-- DGETL (R144): Reads a dimension register's length. -/
  | dgetl (d : BitVec 5) (a : BitVec 5)
  /-- DGETS (R144): Reads a dimension register's stride, sign-extended. -/
  | dgets (d : BitVec 5) (a : BitVec 5)
  /-- MTLC (R145): Writes a loop counter. -/
  | mtlc (d : BitVec 5) (a : BitVec 5)
  /-- MFLC (R144): Reads a loop counter. -/
  | mflc (d : BitVec 5) (a : BitVec 5)
  /-- MFLB (R144): Reads a loop descriptor. -/
  | mflb (d : BitVec 5) (a : BitVec 5)
  /-- MTLB (R134): Writes a loop descriptor without checks. -/
  | mtlb (d : BitVec 5) (a : BitVec 5)
  -- opcode 0xb, QOP
  /-- QW (R156): Appends a scalar to an AP-to-EP queue, waiting while it is full. -/
  | qw (a : BitVec 5) (n : BitVec 3)
  /-- QR (R156): Removes the oldest entry of an EP-to-AP queue into a scalar register. -/
  | qr (d : BitVec 5) (n : BitVec 3)
  /-- QBR (R156): Removes a queue entry and branches when it is not zero. -/
  | qbr (n : BitVec 5) (t : BitVec 16)
  /-- QBRZ (R156): Removes a queue entry and branches when it is zero. -/
  | qbrz (n : BitVec 5) (t : BitVec 16)
  -- opcode 0xc, SYNC
  /-- BAR (R158): Issues a barrier at a scope. -/
  | bar (c : BitVec 3)
  /-- SIGNAL (R160): Adds an amount to a counter word, saturating, after committing stores. -/
  | signal (d : BitVec 5) (a : BitVec 5) (o : BitVec 12)
  /-- WAITC (R160): Begins waiting until a counter word reaches a target. -/
  | waitc (d : BitVec 5) (a : BitVec 5) (o : BitVec 12)
  /-- FENCE (R55): Release, acquire or both fence at a scope. -/
  | fence (k : BitVec 2) (c : BitVec 3)
  /-- XFENCE (R56): Orders accesses across a named set of paths. -/
  | xfence (m : BitVec 5)
  /-- IFENCE (R57): Empties the instruction cache and loop buffer. -/
  | ifence
  -- opcode 0xd, SYS
  /-- TRAP (R162): Raises TRAP with an immediate. -/
  | trap (i : BitVec 12)
  /-- TRET (R109): Returns from a trap to TPC, replaying from ESTART, or resumes a faulted channel or remote report. -/
  | tret
  /-- AEXIT (R115): Leaves the arrival handler and continues at ARPC. -/
  | aexit
  /-- MFSR (R165): Reads a system register, waiting where the register requires. -/
  | mfsr (d : BitVec 5) (r : BitVec 12)
  /-- MTSR (R165): Writes a system register under its access codes; SEED marks z stale, VFMT is checked. -/
  | mtsr (a : BitVec 5) (r : BitVec 12)
  /-- XINV (R163): Commits stores and starts invalidating cached translations. -/
  | xinv (a : BitVec 5) (k : BitVec 2)
  -- opcode 0xe, CPY
  /-- CPY (R169): Starts a copy of up to three dimensions on a channel after issue checks. -/
  | cpy (d : BitVec 5) (a : BitVec 5) (b : BitVec 5) (h : BitVec 2) (v : BitVec 1) (n : BitVec 2)
  /-- CST (R168): Reads a copy channel's state word. -/
  | cst (d : BitVec 5) (h : BitVec 2)
  /-- CABT (R177): Abandons a faulted copy channel. -/
  | cabt (h : BitVec 2)
  -- opcode 0xf, GTH
  /-- GTH (R170): Starts a gather of table rows named by an index list. -/
  | gth (d : BitVec 5) (t : BitVec 5) (i : BitVec 5) (h : BitVec 2) (v : BitVec 1) (z : BitVec 1) (c : BitVec 4)
  -- opcode 0x10, VI
  /-- VADD (R192): Vector integer add. -/
  | vadd (cs : BitVec 1) (t : BitVec 1) (d : BitVec 5) (a : BitVec 5) (b : BitVec 5) (f : BitVec 4)
  /-- VSUB (R192): Vector integer subtract. -/
  | vsub (cs : BitVec 1) (t : BitVec 1) (d : BitVec 5) (a : BitVec 5) (b : BitVec 5) (f : BitVec 4)
  /-- VMUL (R192): Vector integer multiply, low bits. -/
  | vmul (cs : BitVec 1) (t : BitVec 1) (d : BitVec 5) (a : BitVec 5) (b : BitVec 5) (f : BitVec 4)
  /-- VMULH (R192): Vector integer multiply, high bits. -/
  | vmulh (cs : BitVec 1) (t : BitVec 1) (d : BitVec 5) (a : BitVec 5) (b : BitVec 5) (f : BitVec 4)
  /-- VADDS (R192): Vector saturating add. -/
  | vadds (cs : BitVec 1) (t : BitVec 1) (d : BitVec 5) (a : BitVec 5) (b : BitVec 5) (f : BitVec 4)
  /-- VSUBS (R192): Vector saturating subtract. -/
  | vsubs (cs : BitVec 1) (t : BitVec 1) (d : BitVec 5) (a : BitVec 5) (b : BitVec 5) (f : BitVec 4)
  /-- VMIN (R192): Vector integer minimum. -/
  | vmin (cs : BitVec 1) (t : BitVec 1) (d : BitVec 5) (a : BitVec 5) (b : BitVec 5) (f : BitVec 4)
  /-- VMAX (R192): Vector integer maximum. -/
  | vmax (cs : BitVec 1) (t : BitVec 1) (d : BitVec 5) (a : BitVec 5) (b : BitVec 5) (f : BitVec 4)
  /-- VAND (R192): Vector AND. -/
  | vand (cs : BitVec 1) (t : BitVec 1) (d : BitVec 5) (a : BitVec 5) (b : BitVec 5) (f : BitVec 4)
  /-- VOR (R192): Vector OR. -/
  | vor (cs : BitVec 1) (t : BitVec 1) (d : BitVec 5) (a : BitVec 5) (b : BitVec 5) (f : BitVec 4)
  /-- VXOR (R192): Vector XOR. -/
  | vxor (cs : BitVec 1) (t : BitVec 1) (d : BitVec 5) (a : BitVec 5) (b : BitVec 5) (f : BitVec 4)
  /-- VANDN (R192): Vector AND NOT. -/
  | vandn (cs : BitVec 1) (t : BitVec 1) (d : BitVec 5) (a : BitVec 5) (b : BitVec 5) (f : BitVec 4)
  /-- VSLL (R192): Vector shift left. -/
  | vsll (cs : BitVec 1) (t : BitVec 1) (d : BitVec 5) (a : BitVec 5) (b : BitVec 5) (f : BitVec 4)
  /-- VSRL (R192): Vector logical shift right. -/
  | vsrl (cs : BitVec 1) (t : BitVec 1) (d : BitVec 5) (a : BitVec 5) (b : BitVec 5) (f : BitVec 4)
  /-- VSRA (R192): Vector arithmetic shift right. -/
  | vsra (cs : BitVec 1) (t : BitVec 1) (d : BitVec 5) (a : BitVec 5) (b : BitVec 5) (f : BitVec 4)
  /-- VRSHR (R192): Vector rounding shift right. -/
  | vrshr (cs : BitVec 1) (t : BitVec 1) (d : BitVec 5) (a : BitVec 5) (b : BitVec 5) (f : BitVec 4)
  /-- VABS (R192): Vector absolute value, saturating. -/
  | vabs (cs : BitVec 1) (t : BitVec 1) (d : BitVec 5) (a : BitVec 5) (f : BitVec 4)
  /-- VNEG (R192): Vector negate. -/
  | vneg (cs : BitVec 1) (t : BitVec 1) (d : BitVec 5) (a : BitVec 5) (f : BitVec 4)
  /-- VMOV (R192): Vector copy, bit for bit. -/
  | vmov (cs : BitVec 1) (t : BitVec 1) (d : BitVec 5) (a : BitVec 5) (f : BitVec 4)
  /-- VMACC (R192): Vector integer multiply-accumulate. -/
  | vmacc (cs : BitVec 1) (t : BitVec 1) (d : BitVec 5) (a : BitVec 5) (b : BitVec 5) (f : BitVec 4)
  /-- VID (R192): Writes SBASE + e into each element. -/
  | vid (cs : BitVec 1) (t : BitVec 1) (d : BitVec 5) (f : BitVec 4)
  /-- VWMACC (R192): Widening multiply-accumulate into 32 bits. -/
  | vwmacc (cs : BitVec 1) (t : BitVec 1) (d : BitVec 5) (a : BitVec 5) (b : BitVec 5) (f : BitVec 4)
  -- opcode 0x11, VF
  /-- VFADD (R193): Vector float add. -/
  | vfadd (cs : BitVec 1) (t : BitVec 1) (d : BitVec 5) (a : BitVec 5) (b : BitVec 5) (f : BitVec 4)
  /-- VFSUB (R193): Vector float subtract. -/
  | vfsub (cs : BitVec 1) (t : BitVec 1) (d : BitVec 5) (a : BitVec 5) (b : BitVec 5) (f : BitVec 4)
  /-- VFMUL (R193): Vector float multiply. -/
  | vfmul (cs : BitVec 1) (t : BitVec 1) (d : BitVec 5) (a : BitVec 5) (b : BitVec 5) (f : BitVec 4)
  /-- VFDIV (R193): Vector float divide, correctly rounded. -/
  | vfdiv (cs : BitVec 1) (t : BitVec 1) (d : BitVec 5) (a : BitVec 5) (b : BitVec 5) (f : BitVec 4)
  /-- VFMIN (R194): Vector float minimum. -/
  | vfmin (cs : BitVec 1) (t : BitVec 1) (d : BitVec 5) (a : BitVec 5) (b : BitVec 5) (f : BitVec 4)
  /-- VFMAX (R194): Vector float maximum. -/
  | vfmax (cs : BitVec 1) (t : BitVec 1) (d : BitVec 5) (a : BitVec 5) (b : BitVec 5) (f : BitVec 4)
  /-- VFMACC (R193): Fused multiply-add into vd. -/
  | vfmacc (cs : BitVec 1) (t : BitVec 1) (d : BitVec 5) (a : BitVec 5) (b : BitVec 5) (f : BitVec 4)
  /-- VFNMACC (R193): Fused negated multiply-add into vd. -/
  | vfnmacc (cs : BitVec 1) (t : BitVec 1) (d : BitVec 5) (a : BitVec 5) (b : BitVec 5) (f : BitVec 4)
  /-- VFABS (R193): Clears the sign. -/
  | vfabs (cs : BitVec 1) (t : BitVec 1) (d : BitVec 5) (a : BitVec 5) (f : BitVec 4)
  /-- VFNEG (R193): Inverts the sign. -/
  | vfneg (cs : BitVec 1) (t : BitVec 1) (d : BitVec 5) (a : BitVec 5) (f : BitVec 4)
  /-- VFWMACC (R193): Widening float multiply-accumulate into f32. -/
  | vfwmacc (cs : BitVec 1) (t : BitVec 1) (d : BitVec 5) (a : BitVec 5) (b : BitVec 5) (f : BitVec 4)
  -- opcode 0x12, VC
  /-- VCVT (R198): Converts between plain formats under rounding and overflow policy. -/
  | vcvt (cs : BitVec 1) (t : BitVec 1) (d : BitVec 5) (a : BitVec 5) (g : BitVec 4) (h : BitVec 4) (o : BitVec 2) (r : BitVec 3)
  /-- VCVT_BLOCK (R199): Decodes from or encodes into a block format using a scale register. -/
  | vcvtBlock (cs : BitVec 1) (t : BitVec 1) (d : BitVec 5) (a : BitVec 5) (g : BitVec 4) (h : BitVec 4) (o : BitVec 2) (r : BitVec 3)
  -- opcode 0x13, VP
  /-- VCMPEQ (R196): Compares for equality into a predicate. -/
  | vcmpeq (cs : BitVec 1) (d : BitVec 5) (a : BitVec 5) (b : BitVec 5) (f : BitVec 4)
  /-- VCMPNE (R196): Compares for inequality into a predicate. -/
  | vcmpne (cs : BitVec 1) (d : BitVec 5) (a : BitVec 5) (b : BitVec 5) (f : BitVec 4)
  /-- VCMPLT (R196): Compares less-than into a predicate. -/
  | vcmplt (cs : BitVec 1) (d : BitVec 5) (a : BitVec 5) (b : BitVec 5) (f : BitVec 4)
  /-- VCMPLE (R196): Compares less-or-equal into a predicate. -/
  | vcmple (cs : BitVec 1) (d : BitVec 5) (a : BitVec 5) (b : BitVec 5) (f : BitVec 4)
  /-- PAND (R197): Predicate AND. -/
  | pand (cs : BitVec 1) (d : BitVec 5) (a : BitVec 5) (b : BitVec 5)
  /-- POR (R197): Predicate OR. -/
  | por (cs : BitVec 1) (d : BitVec 5) (a : BitVec 5) (b : BitVec 5)
  /-- PXOR (R197): Predicate XOR. -/
  | pxor (cs : BitVec 1) (d : BitVec 5) (a : BitVec 5) (b : BitVec 5)
  /-- PANDN (R197): Predicate AND NOT. -/
  | pandn (cs : BitVec 1) (d : BitVec 5) (a : BitVec 5) (b : BitVec 5)
  /-- PNOT (R197): Predicate NOT. -/
  | pnot (cs : BitVec 1) (d : BitVec 5) (a : BitVec 5)
  /-- PSET (R197): Sets predicate bits. -/
  | pset (cs : BitVec 1) (d : BitVec 5)
  /-- PCLR (R197): Clears predicate bits. -/
  | pclr (cs : BitVec 1) (d : BitVec 5)
  -- opcode 0x14, VX
  /-- VX_VADD (R195): Vector add with a scalar or queue operand. -/
  | vxVadd (cs : BitVec 1) (t : BitVec 1) (d : BitVec 5) (a : BitVec 5) (x : BitVec 5) (q : BitVec 1) (f : BitVec 4)
  /-- VX_VSUB (R195): Vector minus scalar. -/
  | vxVsub (cs : BitVec 1) (t : BitVec 1) (d : BitVec 5) (a : BitVec 5) (x : BitVec 5) (q : BitVec 1) (f : BitVec 4)
  /-- VRSUB (R195): Scalar minus vector. -/
  | vrsub (cs : BitVec 1) (t : BitVec 1) (d : BitVec 5) (a : BitVec 5) (x : BitVec 5) (q : BitVec 1) (f : BitVec 4)
  /-- VX_VMUL (R195): Vector times scalar. -/
  | vxVmul (cs : BitVec 1) (t : BitVec 1) (d : BitVec 5) (a : BitVec 5) (x : BitVec 5) (q : BitVec 1) (f : BitVec 4)
  /-- VX_VMIN (R195): Vector-scalar integer minimum. -/
  | vxVmin (cs : BitVec 1) (t : BitVec 1) (d : BitVec 5) (a : BitVec 5) (x : BitVec 5) (q : BitVec 1) (f : BitVec 4)
  /-- VX_VMAX (R195): Vector-scalar integer maximum. -/
  | vxVmax (cs : BitVec 1) (t : BitVec 1) (d : BitVec 5) (a : BitVec 5) (x : BitVec 5) (q : BitVec 1) (f : BitVec 4)
  /-- VX_VAND (R195): Vector-scalar AND. -/
  | vxVand (cs : BitVec 1) (t : BitVec 1) (d : BitVec 5) (a : BitVec 5) (x : BitVec 5) (q : BitVec 1) (f : BitVec 4)
  /-- VX_VOR (R195): Vector-scalar OR. -/
  | vxVor (cs : BitVec 1) (t : BitVec 1) (d : BitVec 5) (a : BitVec 5) (x : BitVec 5) (q : BitVec 1) (f : BitVec 4)
  /-- VX_VXOR (R195): Vector-scalar XOR. -/
  | vxVxor (cs : BitVec 1) (t : BitVec 1) (d : BitVec 5) (a : BitVec 5) (x : BitVec 5) (q : BitVec 1) (f : BitVec 4)
  /-- VX_VSLL (R195): Shift left by a scalar amount. -/
  | vxVsll (cs : BitVec 1) (t : BitVec 1) (d : BitVec 5) (a : BitVec 5) (x : BitVec 5) (q : BitVec 1) (f : BitVec 4)
  /-- VX_VSRL (R195): Logical shift right by a scalar amount. -/
  | vxVsrl (cs : BitVec 1) (t : BitVec 1) (d : BitVec 5) (a : BitVec 5) (x : BitVec 5) (q : BitVec 1) (f : BitVec 4)
  /-- VX_VSRA (R195): Arithmetic shift right by a scalar amount. -/
  | vxVsra (cs : BitVec 1) (t : BitVec 1) (d : BitVec 5) (a : BitVec 5) (x : BitVec 5) (q : BitVec 1) (f : BitVec 4)
  /-- VX_VRSHR (R195): Rounding shift right by a scalar amount. -/
  | vxVrshr (cs : BitVec 1) (t : BitVec 1) (d : BitVec 5) (a : BitVec 5) (x : BitVec 5) (q : BitVec 1) (f : BitVec 4)
  /-- VBCAST (R195): Broadcasts a scalar into every element. -/
  | vbcast (cs : BitVec 1) (t : BitVec 1) (d : BitVec 5) (x : BitVec 5) (q : BitVec 1) (f : BitVec 4)
  /-- VX_VWMACC (R195): Widening multiply-accumulate with a scalar. -/
  | vxVwmacc (cs : BitVec 1) (t : BitVec 1) (d : BitVec 5) (a : BitVec 5) (x : BitVec 5) (q : BitVec 1) (f : BitVec 4)
  /-- VX_VMACC (R195): Multiply-accumulate with a scalar. -/
  | vxVmacc (cs : BitVec 1) (t : BitVec 1) (d : BitVec 5) (a : BitVec 5) (x : BitVec 5) (q : BitVec 1) (f : BitVec 4)
  /-- VX_VFADD (R195): Float add with a scalar. -/
  | vxVfadd (cs : BitVec 1) (t : BitVec 1) (d : BitVec 5) (a : BitVec 5) (x : BitVec 5) (q : BitVec 1) (f : BitVec 4)
  /-- VX_VFSUB (R195): Float vector minus scalar. -/
  | vxVfsub (cs : BitVec 1) (t : BitVec 1) (d : BitVec 5) (a : BitVec 5) (x : BitVec 5) (q : BitVec 1) (f : BitVec 4)
  /-- VFRSUB (R195): Float scalar minus vector. -/
  | vfrsub (cs : BitVec 1) (t : BitVec 1) (d : BitVec 5) (a : BitVec 5) (x : BitVec 5) (q : BitVec 1) (f : BitVec 4)
  /-- VX_VFMUL (R195): Float multiply by a scalar. -/
  | vxVfmul (cs : BitVec 1) (t : BitVec 1) (d : BitVec 5) (a : BitVec 5) (x : BitVec 5) (q : BitVec 1) (f : BitVec 4)
  /-- VX_VFMIN (R195): Float minimum with a scalar. -/
  | vxVfmin (cs : BitVec 1) (t : BitVec 1) (d : BitVec 5) (a : BitVec 5) (x : BitVec 5) (q : BitVec 1) (f : BitVec 4)
  /-- VX_VFMAX (R195): Float maximum with a scalar. -/
  | vxVfmax (cs : BitVec 1) (t : BitVec 1) (d : BitVec 5) (a : BitVec 5) (x : BitVec 5) (q : BitVec 1) (f : BitVec 4)
  /-- VX_VFMACC (R195): Fused multiply-add with a scalar. -/
  | vxVfmacc (cs : BitVec 1) (t : BitVec 1) (d : BitVec 5) (a : BitVec 5) (x : BitVec 5) (q : BitVec 1) (f : BitVec 4)
  /-- VX_VFNMACC (R195): Fused negated multiply-add with a scalar. -/
  | vxVfnmacc (cs : BitVec 1) (t : BitVec 1) (d : BitVec 5) (a : BitVec 5) (x : BitVec 5) (q : BitVec 1) (f : BitVec 4)
  -- opcode 0x15, VL
  /-- VLD (R212): Vector load, plain or sweep. -/
  | vld (cs : BitVec 1) (d : BitVec 5) (a : BitVec 4) (m : BitVec 3) (w : BitVec 3) (r : BitVec 1) (f : BitVec 4)
  /-- VLDFF (R215): First-fault vector load that trims at a faulting element and writes FFS. -/
  | vldff (cs : BitVec 1) (d : BitVec 5) (a : BitVec 4) (m : BitVec 3) (w : BitVec 3) (r : BitVec 1) (f : BitVec 4)
  -- opcode 0x16, VS
  /-- VST (R212): Vector store into the lane store buffers. -/
  | vst (cs : BitVec 1) (d : BitVec 5) (a : BitVec 4) (m : BitVec 3) (w : BitVec 3) (r : BitVec 1) (f : BitVec 4)
  -- opcode 0x17, VR
  /-- VPERM (R222): Permutes elements by an index vector through the ring chamber. -/
  | vperm (cs : BitVec 1) (t : BitVec 1) (d : BitVec 5) (a : BitVec 5) (b : BitVec 5) (f : BitVec 4)
  /-- VPERMP (R223): Permutes elements by a plan register. -/
  | vpermp (cs : BitVec 1) (t : BitVec 1) (d : BitVec 5) (a : BitVec 5) (b : BitVec 5) (f : BitVec 4)
  /-- PPLAN (R223): Builds a permute plan from an index vector without a rendezvous. -/
  | pplan (cs : BitVec 1) (t : BitVec 1) (d : BitVec 5) (a : BitVec 5)
  /-- VREDSUM (R224): Sum reduction, optionally appended to a queue. -/
  | vredsum (cs : BitVec 1) (t : BitVec 1) (d : BitVec 5) (a : BitVec 5) (q : BitVec 5) (f : BitVec 4)
  /-- VREDMIN (R224): Minimum reduction. -/
  | vredmin (cs : BitVec 1) (t : BitVec 1) (d : BitVec 5) (a : BitVec 5) (q : BitVec 5) (f : BitVec 4)
  /-- VREDMAX (R224): Maximum reduction. -/
  | vredmax (cs : BitVec 1) (t : BitVec 1) (d : BitVec 5) (a : BitVec 5) (q : BitVec 5) (f : BitVec 4)
  /-- VREDAND (R224): AND reduction. -/
  | vredand (cs : BitVec 1) (t : BitVec 1) (d : BitVec 5) (a : BitVec 5) (q : BitVec 5) (f : BitVec 4)
  /-- VREDOR (R224): OR reduction. -/
  | vredor (cs : BitVec 1) (t : BitVec 1) (d : BitVec 5) (a : BitVec 5) (q : BitVec 5) (f : BitVec 4)
  /-- VREDXOR (R224): XOR reduction. -/
  | vredxor (cs : BitVec 1) (t : BitVec 1) (d : BitVec 5) (a : BitVec 5) (q : BitVec 5) (f : BitVec 4)
  /-- VSCAN (R224): Inclusive prefix sum. -/
  | vscan (cs : BitVec 1) (t : BitVec 1) (d : BitVec 5) (a : BitVec 5) (f : BitVec 4)
  /-- VBRD (R222): Broadcasts one source element selected by vb[0]. -/
  | vbrd (cs : BitVec 1) (t : BitVec 1) (d : BitVec 5) (a : BitVec 5) (b : BitVec 5) (f : BitVec 4)
  -- opcode 0x18, VK
  /-- VFMT (R184): Sets the element format, register group and scale pairing. -/
  | vfmt (cs : BitVec 1) (e : BitVec 5) (k : BitVec 5) (r : BitVec 3) (g : BitVec 2)
  /-- VLOOP (R204): Starts hardware strip-mining over n elements or skips the body. -/
  | vloop (cs : BitVec 1) (h : BitVec 5) (a : BitVec 5) (j : BitVec 5)
  /-- SCOMMIT (R208): Records a commit point for buffered stores. -/
  | scommit (cs : BitVec 1)
  /-- VPART (R217): Writes a predicate of the elements below FFS.FE. -/
  | vpart (cs : BitVec 1) (d : BitVec 5)
  /-- VTRIM (R217): Trims the strip's VL to FFS.FE. -/
  | vtrim (cs : BitVec 1)
  -- opcode 0x19, VN
  /-- VRCP (R201): Reciprocal. -/
  | vrcp (cs : BitVec 1) (t : BitVec 1) (d : BitVec 5) (a : BitVec 5) (f : BitVec 4)
  /-- VRSQ (R201): Reciprocal square root. -/
  | vrsq (cs : BitVec 1) (t : BitVec 1) (d : BitVec 5) (a : BitVec 5) (f : BitVec 4)
  /-- VSQRT (R201): Square root. -/
  | vsqrt (cs : BitVec 1) (t : BitVec 1) (d : BitVec 5) (a : BitVec 5) (f : BitVec 4)
  /-- VEXP2 (R201): Base-2 exponential. -/
  | vexp2 (cs : BitVec 1) (t : BitVec 1) (d : BitVec 5) (a : BitVec 5) (f : BitVec 4)
  /-- VLOG2 (R201): Base-2 logarithm. -/
  | vlog2 (cs : BitVec 1) (t : BitVec 1) (d : BitVec 5) (a : BitVec 5) (f : BitVec 4)
  /-- VSINPI (R201): sin(pi x). -/
  | vsinpi (cs : BitVec 1) (t : BitVec 1) (d : BitVec 5) (a : BitVec 5) (f : BitVec 4)
  /-- VCOSPI (R201): cos(pi x). -/
  | vcospi (cs : BitVec 1) (t : BitVec 1) (d : BitVec 5) (a : BitVec 5) (f : BitVec 4)
  /-- VTANH (R201): Hyperbolic tangent. -/
  | vtanh (cs : BitVec 1) (t : BitVec 1) (d : BitVec 5) (a : BitVec 5) (f : BitVec 4)
  /-- VRAND (R202): Fills elements with Sluice bits. -/
  | vrand (cs : BitVec 1) (t : BitVec 1) (d : BitVec 5) (h : BitVec 5) (j : BitVec 5) (f : BitVec 4)
  -- opcode 0x1a, VG
  /-- VGATH (R218): Gathers elements through a 32-bit index vector. -/
  | vgath (cs : BitVec 1) (d : BitVec 5) (a : BitVec 4) (i : BitVec 5) (r : BitVec 1) (f : BitVec 4)
  /-- VSCAT (R218): Scatters elements through a 32-bit index vector. -/
  | vscat (cs : BitVec 1) (d : BitVec 5) (a : BitVec 4) (i : BitVec 5) (r : BitVec 1) (f : BitVec 4)
  -- opcode 0x21, MC
  /-- MATT (R249): Attaches with as many free row blocks as available, up to the request. -/
  | matt (cs : BitVec 1) (n : BitVec 2)
  /-- MATT_FULL (R249): Requests all asked row blocks, waiting with reservation until they are free. -/
  | mattFull (cs : BitVec 1) (n : BitVec 2)
  /-- MDET (R250): Detaches after older matrix issues complete, releasing the tile and row blocks. -/
  | mdet (cs : BitVec 1)
  /-- MLDB (R252): Loads a dense B tile, releasing the previous one. -/
  | mldb (cs : BitVec 1) (a : BitVec 5) (k : BitVec 3) (h : BitVec 5)
  /-- MLDB_SP (R252): Loads a 2:4-sparse B tile. -/
  | mldbSp (cs : BitVec 1) (a : BitVec 5) (k : BitVec 3) (h : BitVec 5)
  /-- MSWAP (R259): Exchanges an accumulator's working and visible banks. -/
  | mswap (cs : BitVec 1) (m : BitVec 2)
  /-- MST (R260): Stores rows of the visible bank to memory. -/
  | mst (cs : BitVec 1) (m : BitVec 2) (a : BitVec 5) (k : BitVec 3)
  /-- MMOV (R261): Copies one visible-bank row into a vector register. -/
  | mmov (cs : BitVec 1) (m : BitVec 2) (d : BitVec 5) (r : BitVec 5) (j : BitVec 5)
  /-- MGTAB (R256): Records a group table, B register and shape. -/
  | mgtab (cs : BitVec 1) (a : BitVec 5) (k : BitVec 3) (g : BitVec 5) (h : BitVec 5)
  /-- MCTR (R251): Records the matrix counter address. -/
  | mctr (cs : BitVec 1) (a : BitVec 5)
  -- opcode 0x20, MA
  /-- MMA (R253): Dense product of lane operand A and the B tile into an accumulator. -/
  | mma (cs : BitVec 1) (m : BitVec 2) (a : BitVec 5) (k : BitVec 3) (g : BitVec 5) (h : BitVec 5) (z : BitVec 1)
  /-- MMAC (R255): Product with A taken from an accumulator's visible bank through the down-converter. -/
  | mmac (cs : BitVec 1) (m : BitVec 2) (a : BitVec 5) (g : BitVec 5) (h : BitVec 5) (z : BitVec 1)
  /-- MMAG (R256): Grouped product running every group of the recorded table. -/
  | mmag (cs : BitVec 1) (m : BitVec 2) (a : BitVec 5) (k : BitVec 3) (g : BitVec 5) (h : BitVec 5) (z : BitVec 1)
  -- opcode 0x22, MS
  /-- MMASP (R254): Product of two 2:4-compressed operands. -/
  | mmasp (cs : BitVec 1) (m : BitVec 2) (a : BitVec 5) (g : BitVec 5) (h : BitVec 5) (z : BitVec 1)
  /-- MMA_SEQ (R258): Product with the next kept key block of the sequencer. -/
  | mmaSeq (cs : BitVec 1) (m : BitVec 2) (a : BitVec 5) (k : BitVec 3) (g : BitVec 5) (h : BitVec 5) (z : BitVec 1)
  /-- MSEQ (R257): Reads a parameter block and builds the sequencer's kept-block list. -/
  | mseq (cs : BitVec 1) (a : BitVec 5) (k : BitVec 3) (q : BitVec 5) (h : BitVec 5)
  -- opcode 0x30, LZ
  /-- ZNEW (R273): Creates lazy uniforms at new generator positions. -/
  | znew (cs : BitVec 1) (d : BitVec 5) (a : BitVec 5)
  /-- ZFORK (R273): Derives new positions through Sluice domain 3. -/
  | zfork (cs : BitVec 1) (d : BitVec 5) (a : BitVec 5) (b : BitVec 5)
  /-- ZMOV (R273): Copies lazy uniforms with their held digits. -/
  | zmov (cs : BitVec 1) (d : BitVec 5) (a : BitVec 5)
  /-- ZPIN (R273): Pins leading digits of lazy uniforms. -/
  | zpin (cs : BitVec 1) (d : BitVec 5) (a : BitVec 5) (b : BitVec 5)
  /-- ZSET (R273): Sets positions from two 32-bit vectors. -/
  | zset (cs : BitVec 1) (d : BitVec 5) (a : BitVec 5) (b : BitVec 5)
  /-- ZLT (R274): Decides u < threshold exactly into a predicate. -/
  | zlt (cs : BitVec 1) (d : BitVec 5) (a : BitVec 5) (b : BitVec 5) (f : BitVec 1)
  /-- ZLE (R274): Decides u <= threshold into a predicate. -/
  | zle (cs : BitVec 1) (d : BitVec 5) (a : BitVec 5) (b : BitVec 5) (f : BitVec 1)
  /-- ZCMP (R275): Compares two lazy uniforms digit by digit. -/
  | zcmp (cs : BitVec 1) (d : BitVec 5) (a : BitVec 5) (b : BitVec 5)
  /-- ZCVT (R276): Converts a lazy uniform to f32. -/
  | zcvt (cs : BitVec 1) (t : BitVec 1) (d : BitVec 5) (a : BitVec 5)
  /-- ZLEN (R279): Reads prefix lengths. -/
  | zlen (cs : BitVec 1) (t : BitVec 1) (d : BitVec 5) (a : BitVec 5)
  /-- ZPOSL (R279): Reads position bits 31:0. -/
  | zposl (cs : BitVec 1) (t : BitVec 1) (d : BitVec 5) (a : BitVec 5)
  /-- ZPOSH (R279): Reads position bits 63:32. -/
  | zposh (cs : BitVec 1) (t : BitVec 1) (d : BitVec 5) (a : BitVec 5)
  /-- ZCNT (R277): Categorical draw per segment through a cross-lane chamber. -/
  | zcnt (cs : BitVec 1) (t : BitVec 1) (d : BitVec 5) (a : BitVec 5) (b : BitVec 5) (j : BitVec 3) (f : BitVec 1)
  -- opcode 0x28, RM
  /-- RADD_V (R295): Sends lines of a register as remote float atomic adds. -/
  | raddV (d : BitVec 5) (a : BitVec 5) (b : BitVec 5) (n : BitVec 2) (l : BitVec 2) (f : BitVec 1) (t : BitVec 1)
  /-- RMCST (R296): Multicasts lines of a register to the members of a group table. -/
  | rmcst (d : BitVec 5) (a : BitVec 5) (b : BitVec 5) (n : BitVec 2) (l : BitVec 2) (t : BitVec 1)
  -- opcode 0x29, BP
  /-- VPOST (R303): Posts indices of a register into a vector register of a berth's member. -/
  | vpost (d : BitVec 5) (a : BitVec 5) (b : BitVec 5) (t : BitVec 1)
  /-- HOLD (R302): Adds to a vector register's hold count after older instructions settle. -/
  | hold (d : BitVec 5) (a : BitVec 5)
  -- device steps without an encoding
  /-- QUEUE_ENTRY_FILL (R157): A load's returning data fills a queue entry that qw appended before the data arrived. -/
  | queueEntryFill (n : BitVec 3) (val : Word)
  /-- BARRIER_ARRIVAL (R158): The context arrives once older EP words complete and older commands issue, committing stores. -/
  | barrierArrival (scope : BitVec 3) (other : Option Members) (h : List (Path × List Nat))
  /-- BARRIER_MESSAGE (R26): A POD barrier message arrives over UALink and counts an arrival. -/
  | barrierMessage (m : BarrierNews)
  /-- WAITC_COMPLETE (R52): The counter reaches the target and the wait completes, taking its counted-wait edges. -/
  | waitcComplete
  /-- XINV_COMPLETE (R163): The invalidation completes once stores are visible to walkers and covered translations and walks are gone. -/
  | xinvComplete
  /-- COPY_CHUNK (R172): A channel completes the reads and writes of one 128-byte chunk. -/
  | copyChunk (ch : BitVec 2)
  /-- ENGINE_FAULT_TRAP (R176): The engine fault is taken as a trap at the oldest unsettled instruction. -/
  | engineFaultTrap (ch : BitVec 2)
  /-- GATHER_BURST (R178): A base-die gather unit returns a packed burst of rows to the channel. -/
  | gatherBurst (ch : BitVec 2)
  /-- COMMIT (R207): A commit takes effect once older instructions settle, making buffered stores visible. -/
  | commit
  /-- CHAMBER_ACT (R24): Once every partner has arrived, a chamber acts and releases all partners in one cycle. -/
  | chamberAct
  /-- MATT_FULL_GRANT (R249): A waiting matt.full receives its row blocks when enough become free. -/
  | mattFullGrant (held : BitVec 4)
  /-- MATRIX_ISSUE_COMPLETE (R243): A begun matrix issue completes its accumulator writes, memory writes and counter increment. -/
  | matrixIssueComplete
  /-- SLUICE_CALL (R270): A lane's Sluice call completes after 6 cycles and yields 128 digits of a draw. -/
  | sluiceCall (pos : Word) (draw : Nat)
  /-- REMOTE_ATOMIC_LINE (R295): A RADD.v line packet arrives and updates each sent element atomically. -/
  | remoteAtomicLine (l : LinePacket)
  /-- MULTICAST_COPY (R296): A multicast line copy arrives and is written at the member. -/
  | multicastCopy (l : LinePacket)
  /-- REMOTE_ACK (R291): An acknowledgement or refusal of a remote transfer arrives at the source port. -/
  | remoteAck (id : Nat) (ix : Nat) (r : AckResult) (hint : Option (BitVec 32))
  /-- AGGREGATED_ACK (R296): A memory node's single acknowledgement with a negative bitmap arrives for a replicated multicast. -/
  | aggregatedAck (id : Nat) (bitmap : BitVec 512)
  /-- REMOTE_REPORT_TRAP (R292): A negative outcome of a remote command is taken as a trap at the oldest unsettled instruction. -/
  | remoteReportTrap (id : Nat)
  /-- POST_DELIVERY (R304): A post arrives at the berth port and is refused, forwarded or routed to its member. -/
  | postDelivery (p : Post)
  /-- POST_APPLY (R305): Once BUSY is clear, the post is written to live registers or the save area, decrementing the hold. -/
  | postApply (p : Post)
  /-- RDS (R286): Read-for-sharing message arrives at the home. -/
  | rds (src : Nat) (ask : LineAsk)
  /-- RDX (R286): Read-for-ownership message arrives at the home. -/
  | rdx (src : Nat) (ask : LineAsk)
  /-- INV (R286): Invalidate message arrives at a holder. -/
  | inv (line : Nat)
  /-- IACK (R286): Invalidation acknowledgement arrives at the home. -/
  | iack (src : Nat) (line : Nat) (d : LineNews)
  /-- WB (R286): Write-back of a modified line arrives at the home. -/
  | wb (src : Nat) (line : Nat) (d : LineNews)
  /-- DATA (R286): Line data or a refusal arrives at the requester. -/
  | data (line : Nat) (d : LineNews) (r : AckResult)
  /-- MOVED_RESPONSE (R288): A moved response makes the port invalidate, re-walk and retry the access. -/
  | movedResponse (id : Nat)
  /-- UNFREEZE_BOUND_EXPIRY (R288): U cycles after the first moved response the access ends with REMOTE_NACK reason 2. -/
  | unfreezeBoundExpiry (id : Nat)
  /-- TRANSFER_REPLAY (R289): A receiver's replay request after a failed tag makes the sender resend, up to three times. -/
  | transferReplay (x : Replayed)
  /-- LINK_DOWN (R283): A port's link goes down; transfers routed to it end with REMOTE_NACK reason 3. -/
  | linkDown (port : BitVec 4)
  /-- TRANSLATION_WALK (R40): A translation walk completes with a translation, setting A and D, or a fault. -/
  | translationWalk (va : Word) (acc : Access)
  /-- TRAP_ENTRY (R108): After older instructions complete and state is rolled back, the trap record is written and PC goes to TVEC. -/
  | trapEntry (r : TrapInfo)
  /-- ARRIVAL_ENTRY (R114): A pending arrival is taken at user level, switching to the arrival set and AVEC. -/
  | arrivalEntry
  /-- FATAL_EVENT (R112): An uncorrectable error, poisoned read or late tag failure discards stores since the containment point. -/
  | fatalEvent (kind : BitVec 2) (pa : Word) (src : Word)
  /-- LWIN (R315): A write of a launch record address to the launch window is queued, or refused when full. -/
  | lwin (v : Word)
  /-- LAUNCH_ACCEPT (R313): The firmware drains a record, checks it, and accepts or rejects it. -/
  | launchAccept (pl : Placing)
  /-- DXIT (R328): The Active context's write to DXIT is checked and waits for older work and commands. -/
  | dxit
  /-- CONTEXT_EXIT (R328): After the waits, the context is detached, its partition freed, the slot emptied and XIT set. -/
  | contextExit
  /-- PRELOAD (R322): Bind record that claims a partition, reserves row blocks and fills the shadow slot. -/
  | preload (w : Word)
  /-- SWAP (R322): Bind record that makes the shadow context Active once READY. -/
  | swap (w : Word)
  /-- EVICT (R322): Bind record that swaps out the Active context with no successor. -/
  | evict (w : Word)
  /-- DROP (R322): Bind record that writes a Shadow context's postable state back and empties the slot. -/
  | drop (w : Word)
  /-- FILL_COMPLETE (R322): A preload's fill ends, setting READY and PRD, or parking the context on a bad save area. -/
  | fillComplete
  /-- SWAP_ACTIVATION (R116): The shadow context becomes Active 40 cycles after the swap, the outgoing one stopping at its oldest unsettled instruction. -/
  | swapActivation
  /-- SPILL_COMPLETE (R117): The spill engine finishes the save area, clears SPL and BUSY, frees the partition and sets SWD. -/
  | spillComplete
  /-- SLICE_BUDGET_EXPIRY (R323): USED reaches the core's slice budget and OVR is set. -/
  | sliceBudgetExpiry
  /-- AGING_INTERVAL (R318): Each aging interval raises a waiting context's effective priority. -/
  | agingInterval
  /-- FBIT_INV (R284): Writing INV discards cached inbound entries. -/
  | fbitInv
  /-- REGISTER_WRITE (R4): A write to a register with no behaviour of its own, under its access codes. -/
  | registerWrite (agent : Writer) (off : Nat) (v : Word)
  /-- PACKAGE_RESET (R331): The boot ROM trains HBM, sets the carve-out, verifies and starts the firmware. -/
  | packageReset (trained : Bool)
  /-- ENTER (R334): RLCTL ENTER ends every launch and enters RECOVERY with ERR 6. -/
  | enter
  /-- GO (R334): RLCTL GO in RECOVERY verifies and runs an image, writing it to flash with COMMIT. -/
  | go
  /-- ATTESTATION_REQUEST (R335): Writing 1 to the attestation trigger makes the firmware write a signed report. -/
  | attestationRequest
  /-- POWER_READING (R337): Each 1 ms reading is compared with PLIM, TWARN and TCRIT and acted on. -/
  | powerReading (pnow : Word) (tnow : Word)
  /-- THERMAL_TRIP (R337): A die at 115 C makes hardware remove package power and log the trip. -/
  | thermalTrip
  /-- D3HOT_ENTRY (R338): Entry to D3hot gates the cores and puts HBM in self-refresh. -/
  | d3hotEntry
  /-- D3HOT_EXIT (R338): Exit from D3hot returns the device to READY with HBM kept. -/
  | d3hotExit
  /-- SAMPLE (R340): When CYCLE is a multiple of INT x 256 an Active context emits a sample record. -/
  | sample
  /-- CXL_MEM_ACCESS (R329): A host CXL.mem read or write arrives: through decoder 0 it reaches HBM via the home slice, coherent with device caches; through decoder 1 only LWIN writes act, other writes are dropped and reads return zero. -/
  | cxlMemAccess (dec : BitVec 1) (wr : Bool) (off : Nat) (v : Word)
  /-- READ_REQUEST (R285): A UALink read request for a SLICE or NOCACHE page arrives at the home package, is checked against its inbound table and is served or refused. -/
  | readRequest (src off : Nat) (ask : ReadAsk)
  /-- WRITE_REQUEST (R285): A UALink write request for a SLICE or NOCACHE page arrives at the home package and is applied, refused, or answered moved under the inbound table. -/
  | writeRequest (src off : Nat) (ask : WriteAsk)
  /-- LINK_UP (R283): A UALink port's link comes up, so transfers routed to it are sent again instead of ending with REMOTE_NACK reason 3. -/
  | linkUp (port : BitVec 4)
  /-- LOAD_DATA_RETURN (R151): Data for an AP or lane load that missed returns from the slices, HBM or the fabric; the destination register is written and the waiting agent proceeds. -/
  | loadDataReturn (id : Returned)
  deriving DecidableEq, Repr

end Sys2Proof
end

