-- ==== Sys2Proof/Decode.lean ====
section
/-!
DEFINITION. The decoder and encoder of the 32-bit instruction word (R61 to R66), with the reserved values of R63 that a
word alone decides. The checks that need the machine's state (VFMT, prefix, privilege, convoy, transient results) belong
to the issue of the word, R67 steps 6 to 9. Lean's run-time limits an inductive to 244 constructors with fields in compiled code and Instr has more, so the
functions that build the later ones are marked noncomputable: the kernel evaluates them, only compiled code is left out.
-/

namespace Sys2Proof

/-- Bits `lo + n - 1 : lo` of a word (R3). -/
def fld (w : BitVec 32) (lo n : Nat) : BitVec n := BitVec.ofNat n (w.toNat / 2 ^ lo)

/-- Plain format codes of 4-bit elements: i4, n4, e2m1 (R79). -/
def fmt4 (f : BitVec 4) : Bool := f == 0#4 || f == 1#4 || f == 8#4
/-- Integer format codes (R79). -/
def fmtInt (f : BitVec 4) : Bool := f < 8#4
/-- f16, bf16 and f32 (R79). -/
def fmtFloat (f : BitVec 4) : Bool := 13#4 ≤ f

/-- The class of a matrix format code (R235): 0 for class I, 1 for F, 2 for H; `none` for a reserved code. Class I is
split by container width only for K, not for the pairing of fa and fb. -/
def matClass (f : BitVec 5) : Option Nat :=
  match f.toNat with
  | 0 | 1 | 2 | 3 => some 0
  | 4 | 5 | 6 | 7 | 8 => some 1
  | 9 | 10 => some 2
  | 11 | 12 | 13 | 14 | 15 | 16 | 17 | 18 | 19 => some 1
  | _ => none

/-- A matrix code that carries block scales (R79, R235). -/
def matBlock (f : BitVec 5) : Bool := 11#5 ≤ f && f ≤ 19#5

/-- fa and fb are codes of one class (R235). -/
def matPair (fa fb : BitVec 5) : Bool :=
  match matClass fa, matClass fb with
  | some x, some y => x == y
  | _, _ => false

/-- Whether an overflow policy is legal for a plain destination (R91). -/
def ovfOk (dfmt : BitVec 4) (ovf : BitVec 2) : Bool :=
  ovf == 0#2 || ovf == 3#2 || 11#4 ≤ dfmt

/-- Whether an overflow policy is legal for a block destination (R91): mxf8a, mxf8b and the dx formats take every
policy, the others only saturate and trap. -/
def ovfBlockOk (blk : BitVec 4) (ovf : BitVec 2) : Bool :=
  ovf == 0#2 || ovf == 3#2 || blk == 3#4 || blk == 4#4 || 6#4 ≤ blk

/-- The system registers (R164). -/
def sysNamed (r : BitVec 12) : Bool :=
  r ≤ 0x010#12 || (0x020#12 ≤ r && r ≤ 0x028#12) || (0x030#12 ≤ r && r ≤ 0x037#12)
    || (0x100#12 ≤ r && r ≤ 0x10F#12)

/-- The offset field of a load or store: in the advance form bits 10:5 are zero (R148). -/
def imm13Ok (i : BitVec 13) : Bool := !(i.getLsbD 11) || (i.toNat / 32) % 64 == 0

/-- Element width of a plain format in its register container (R182). -/
def plainWidth (f : BitVec 4) : Nat :=
  match f.toNat with
  | 0 | 1 | 8 => 4
  | 2 | 3 | 9 | 10 | 11 | 12 => 8
  | 4 | 5 | 13 | 14 => 16
  | _ => 32

/-- Element width of a block format in its register container (R182). -/
def blockWidth (b : Nat) : Nat := if b = 0 ∨ b = 6 then 4 else 8

/-- Whether a combination of VFMT fields is legal (R181, R182). -/
def vfmtFieldsOk (e blk kreg grp : Nat) : Bool :=
  decide (e < 16) && decide (blk < 10) && (blk != 0 || kreg == 0) && (blk == 0 || e == 0)
    && decide (2 ^ grp * 4096 / (if blk = 0 then plainWidth (BitVec.ofNat 4 e) else blockWidth (blk - 1)) ≤ 1024)

/-- The mode and sweep fields of a vector load or store (R210). -/
def modeSweepOk (m w : BitVec 3) (f : BitVec 4) : Bool :=
  m ≤ 1#3 && w ≤ 6#3 && (w == 0#3 || (m == 0#3 && !(fmt4 f)))

/-- The destination queue of a reduction, or of mseq: none, or q4 to q7 (R224, R257). -/
def redQueueOk (q : BitVec 5) : Bool := q == 0#5 || (4#5 ≤ q && q ≤ 7#5)

/-- VX: with Q = 1 the scalar names q0 to q3 (R189). -/
def vxOk (x : BitVec 5) (q : BitVec 1) : Bool := q == 0#1 || x < 4#5

/-- The values that a word's fields may take, where the word alone decides (R63 and each instruction's entry). A device
step has no encoding and no reserved field. -/
def fieldsOk : Instr → Bool
  | .pfx _ _ _ _ => true
  | .add _ _ _ => true
  | .sub _ _ _ => true
  | .and _ _ _ => true
  | .or _ _ _ => true
  | .xor _ _ _ => true
  | .andn _ _ _ => true
  | .orn _ _ _ => true
  | .sll _ _ _ => true
  | .srl _ _ _ => true
  | .sra _ _ _ => true
  | .rotl _ _ _ => true
  | .rotr _ _ _ => true
  | .slt _ _ _ => true
  | .sltu _ _ _ => true
  | .seq _ _ _ => true
  | .sne _ _ _ => true
  | .min _ _ _ => true
  | .max _ _ _ => true
  | .minu _ _ _ => true
  | .maxu _ _ _ => true
  | .adds _ _ _ => true
  | .subs _ _ _ => true
  | .addus _ _ _ => true
  | .subus _ _ _ => true
  | .mul _ _ _ => true
  | .mulh _ _ _ => true
  | .mulhu _ _ _ => true
  | .mulhsu _ _ _ => true
  | .div _ _ _ => true
  | .divu _ _ _ => true
  | .rem _ _ _ => true
  | .remu _ _ _ => true
  | .addw _ _ _ => true
  | .subw _ _ _ => true
  | .sllw _ _ _ => true
  | .srlw _ _ _ => true
  | .sraw _ _ _ => true
  | .mulw _ _ _ => true
  | .clz _ _ => true
  | .ctz _ _ => true
  | .popc _ _ => true
  | .brev _ _ => true
  | .sextb _ _ => true
  | .sexth _ _ => true
  | .sextw _ _ => true
  | .zextw _ _ => true
  | .jr _ => true
  | .jalr _ _ => true
  | .addi _ _ _ => true
  | .andi _ _ _ => true
  | .ori _ _ _ => true
  | .xori _ _ _ => true
  | .slti _ _ _ => true
  | .sltiu _ _ _ => true
  | .slli _ _ _ => true
  | .srli _ _ _ => true
  | .srai _ _ _ => true
  | .rotri _ _ _ => true
  | .addiw _ _ _ => true
  | .lih _ _ => true
  | .beqz _ _ => true
  | .bnez _ _ => true
  | .bltz _ _ => true
  | .bgez _ _ => true
  | .bgtz _ _ => true
  | .blez _ _ => true
  | .bra _ => true
  | .j _ => true
  | .call _ => true
  | .loop l _ n => l != 3#2 && n < 256#9
  | .lb _ _ i => imm13Ok i
  | .lh _ _ i => imm13Ok i
  | .lw _ _ i => imm13Ok i
  | .ld _ _ i => imm13Ok i
  | .lbu _ _ i => imm13Ok i
  | .lhu _ _ i => imm13Ok i
  | .lwu _ _ i => imm13Ok i
  | .pref _ _ => true
  | .sb _ _ i => imm13Ok i
  | .sh _ _ i => imm13Ok i
  | .sw _ _ i => imm13Ok i
  | .sd _ _ i => imm13Ok i
  | .atadd _ _ => true
  | .atand _ _ => true
  | .ator _ _ => true
  | .atxor _ _ => true
  | .atmin _ _ => true
  | .atmax _ _ => true
  | .atminu _ _ => true
  | .atmaxu _ _ => true
  | .atswp _ _ => true
  | .atcas d _ => 1#5 ≤ d && d ≤ 30#5
  | .ataddw _ _ => true
  | .atandw _ _ => true
  | .atorw _ _ => true
  | .atxorw _ _ => true
  | .atminw _ _ => true
  | .atmaxw _ _ => true
  | .atminuw _ _ => true
  | .atmaxuw _ _ => true
  | .atswpw _ _ => true
  | .atcasw d _ => 1#5 ≤ d && d ≤ 30#5
  | .amk d _ _ => d < 16#5
  | .amov d a => d < 16#5 && a < 16#5
  | .aperm d a _ => d < 16#5 && a < 16#5
  | .aadd d a _ => d < 16#5 && a < 16#5
  | .anar d a _ => d < 16#5 && a < 16#5
  | .aset d a _ => d < 16#5 && a < 16#5
  | .adiff _ a b => a < 16#5 && b < 16#5
  | .aget _ a => a < 16#5
  | .agetb _ a => a < 16#5
  | .agetl _ a => a < 16#5
  | .agetp _ a => a < 16#5
  | .dset d _ _ => d < 6#5
  | .dgetl _ a => a < 6#5
  | .dgets _ a => a < 6#5
  | .mtlc d _ => d < 3#5
  | .mflc _ a => a < 3#5
  | .mflb _ a => a < 3#5
  | .mtlb d _ => d < 3#5
  | .qw _ n => n < 4#3
  | .qr _ n => 4#3 ≤ n
  | .qbr n _ => 4#5 ≤ n && n ≤ 7#5
  | .qbrz n _ => 4#5 ≤ n && n ≤ 7#5
  | .bar c => c ≤ 5#3
  | .signal _ a _ => a < 16#5
  | .waitc _ a _ => a < 16#5
  | .fence k c => k != 0#2 && c ≤ 5#3
  | .xfence m => decide (2 ≤ (m.getLsbD 0).toNat + (m.getLsbD 1).toNat + (m.getLsbD 2).toNat + (m.getLsbD 3).toNat + (m.getLsbD 4).toNat)
  | .ifence => true
  | .trap _ => true
  | .tret => true
  | .aexit => true
  | .mfsr _ r => sysNamed r
  | .mtsr _ r => sysNamed r
  | .xinv a k => k == 0#2 || k == 2#2 || a == 0#5
  | .cpy d a b _ _ n => d < 16#5 && a < 16#5 && b < 16#5 && n != 0#2
  | .cst _ _ => true
  | .cabt _ => true
  | .gth d t i _ _ _ _ => d < 16#5 && t < 16#5 && i < 16#5
  | .vadd _ _ _ _ _ f => fmtInt f
  | .vsub _ _ _ _ _ f => fmtInt f
  | .vmul _ _ _ _ _ f => fmtInt f
  | .vmulh _ _ _ _ _ f => fmtInt f
  | .vadds _ _ _ _ _ f => fmtInt f
  | .vsubs _ _ _ _ _ f => fmtInt f
  | .vmin _ _ _ _ _ f => fmtInt f
  | .vmax _ _ _ _ _ f => fmtInt f
  | .vand _ _ _ _ _ f => fmtInt f
  | .vor _ _ _ _ _ f => fmtInt f
  | .vxor _ _ _ _ _ f => fmtInt f
  | .vandn _ _ _ _ _ f => fmtInt f
  | .vsll _ _ _ _ _ f => fmtInt f
  | .vsrl _ _ _ _ _ f => fmtInt f
  | .vsra _ _ _ _ _ f => fmtInt f
  | .vrshr _ _ _ _ _ f => fmtInt f
  | .vabs _ _ _ _ f => f == 0#4 || f == 2#4 || f == 4#4 || f == 6#4
  | .vneg _ _ _ _ f => fmtInt f
  | .vmov _ _ _ _ f => fmtInt f
  | .vmacc _ _ _ _ _ f => fmtInt f
  | .vid _ _ _ f => fmtInt f
  | .vwmacc _ _ _ _ _ f => f < 6#4
  | .vfadd _ _ _ _ _ f => fmtFloat f
  | .vfsub _ _ _ _ _ f => fmtFloat f
  | .vfmul _ _ _ _ _ f => fmtFloat f
  | .vfdiv _ _ _ _ _ f => fmtFloat f
  | .vfmin _ _ _ _ _ f => fmtFloat f
  | .vfmax _ _ _ _ _ f => fmtFloat f
  | .vfmacc _ _ _ _ _ f => fmtFloat f
  | .vfnmacc _ _ _ _ _ f => fmtFloat f
  | .vfabs _ _ _ _ f => fmtFloat f
  | .vfneg _ _ _ _ f => fmtFloat f
  | .vfwmacc _ _ _ _ _ f => f == 13#4 || f == 14#4
  | .vcvt _ _ _ _ g _ o r => r != 7#3 && ovfOk g o
  | .vcvtBlock _ _ _ _ g h o r => r != 7#3 && ((fmtFloat g && h < 9#4) || (g < 9#4 && fmtFloat h && ovfBlockOk g o))
  | .vcmpeq _ d _ _ f => d < 8#5 && (fmtInt f || fmtFloat f)
  | .vcmpne _ d _ _ f => d < 8#5 && (fmtInt f || fmtFloat f)
  | .vcmplt _ d _ _ f => d < 8#5 && (fmtInt f || fmtFloat f)
  | .vcmple _ d _ _ f => d < 8#5 && (fmtInt f || fmtFloat f)
  | .pand _ d a b => d < 8#5 && a < 8#5 && b < 8#5
  | .por _ d a b => d < 8#5 && a < 8#5 && b < 8#5
  | .pxor _ d a b => d < 8#5 && a < 8#5 && b < 8#5
  | .pandn _ d a b => d < 8#5 && a < 8#5 && b < 8#5
  | .pnot _ d a => d < 8#5 && a < 8#5
  | .pset _ d => d < 8#5
  | .pclr _ d => d < 8#5
  | .vxVadd _ _ _ _ x q f => vxOk x q && fmtInt f
  | .vxVsub _ _ _ _ x q f => vxOk x q && fmtInt f
  | .vrsub _ _ _ _ x q f => vxOk x q && fmtInt f
  | .vxVmul _ _ _ _ x q f => vxOk x q && fmtInt f
  | .vxVmin _ _ _ _ x q f => vxOk x q && fmtInt f
  | .vxVmax _ _ _ _ x q f => vxOk x q && fmtInt f
  | .vxVand _ _ _ _ x q f => vxOk x q && fmtInt f
  | .vxVor _ _ _ _ x q f => vxOk x q && fmtInt f
  | .vxVxor _ _ _ _ x q f => vxOk x q && fmtInt f
  | .vxVsll _ _ _ _ x q f => vxOk x q && fmtInt f
  | .vxVsrl _ _ _ _ x q f => vxOk x q && fmtInt f
  | .vxVsra _ _ _ _ x q f => vxOk x q && fmtInt f
  | .vxVrshr _ _ _ _ x q f => vxOk x q && fmtInt f
  | .vbcast _ _ _ x q f => vxOk x q && (fmtInt f || fmtFloat f)
  | .vxVwmacc _ _ _ _ x q f => vxOk x q && f < 6#4
  | .vxVmacc _ _ _ _ x q f => vxOk x q && fmtInt f
  | .vxVfadd _ _ _ _ x q f => vxOk x q && fmtFloat f
  | .vxVfsub _ _ _ _ x q f => vxOk x q && fmtFloat f
  | .vfrsub _ _ _ _ x q f => vxOk x q && fmtFloat f
  | .vxVfmul _ _ _ _ x q f => vxOk x q && fmtFloat f
  | .vxVfmin _ _ _ _ x q f => vxOk x q && fmtFloat f
  | .vxVfmax _ _ _ _ x q f => vxOk x q && fmtFloat f
  | .vxVfmacc _ _ _ _ x q f => vxOk x q && fmtFloat f
  | .vxVfnmacc _ _ _ _ x q f => vxOk x q && fmtFloat f
  | .vld _ _ _ m w _ f => modeSweepOk m w f
  | .vldff _ _ _ m w _ f => modeSweepOk m w f
  | .vst _ _ _ m w _ f => modeSweepOk m w f
  | .vperm _ _ _ _ _ _ => true
  | .vpermp _ _ _ _ _ _ => true
  | .pplan _ _ _ _ => true
  | .vredsum _ _ _ _ q f => redQueueOk q && (fmtInt f || fmtFloat f)
  | .vredmin _ _ _ _ q f => redQueueOk q && (fmtInt f || fmtFloat f)
  | .vredmax _ _ _ _ q f => redQueueOk q && (fmtInt f || fmtFloat f)
  | .vredand _ _ _ _ q f => redQueueOk q && fmtInt f
  | .vredor _ _ _ _ q f => redQueueOk q && fmtInt f
  | .vredxor _ _ _ _ q f => redQueueOk q && fmtInt f
  | .vscan _ _ _ _ f => fmtInt f || fmtFloat f
  | .vbrd _ _ _ _ _ _ => true
  | .vfmt _ e k r g => vfmtFieldsOk e.toNat k.toNat r.toNat g.toNat
  | .vloop _ _ _ _ => true
  | .scommit _ => true
  | .vpart _ d => d < 8#5
  | .vtrim _ => true
  | .vrcp _ _ _ _ f => fmtFloat f
  | .vrsq _ _ _ _ f => fmtFloat f
  | .vsqrt _ _ _ _ f => fmtFloat f
  | .vexp2 _ _ _ _ f => fmtFloat f
  | .vlog2 _ _ _ _ f => fmtFloat f
  | .vsinpi _ _ _ _ f => fmtFloat f
  | .vcospi _ _ _ _ f => fmtFloat f
  | .vtanh _ _ _ _ f => fmtFloat f
  | .vrand _ _ _ _ _ f => fmtInt f
  | .vgath _ _ _ _ _ f => !(fmt4 f)
  | .vscat _ _ _ _ _ f => !(fmt4 f)
  | .matt _ _ => true
  | .mattFull _ _ => true
  | .mdet _ => true
  | .mldb _ a k h => a < 16#5 && k < 6#3 && h < 20#5
  | .mldbSp _ a k h => a < 16#5 && k < 6#3 && h < 11#5
  | .mswap _ _ => true
  | .mst _ _ a k => a < 16#5 && k < 6#3
  | .mmov _ _ _ _ j => j < 2#5
  | .mgtab _ a k g h => a < 16#5 && k < 6#3 && g < 16#5 && h < 20#5
  | .mctr _ a => a < 16#5
  | .mma _ _ _ k g h _ => matPair g h && (matBlock g || k == 0#3)
  | .mmac _ _ a g h _ => a < 4#5 && matPair g h
  | .mmag _ _ _ k g h _ => matPair g h && (matBlock g || k == 0#3)
  | .mmasp _ _ _ g h _ => matPair g h && g < 11#5 && h < 11#5
  | .mmaSeq _ _ _ k g h _ => matPair g h && (matBlock g || k == 0#3)
  | .mseq _ a k q h => a < 16#5 && k < 6#3 && redQueueOk q && h < 20#5
  | .znew _ d _ => d < 8#5
  | .zfork _ d a _ => d < 8#5 && a < 8#5
  | .zmov _ d a => d < 8#5 && a < 8#5
  | .zpin _ d a _ => d < 8#5 && a.getLsbD 0 == false
  | .zset _ d _ _ => d < 8#5
  | .zlt _ d a _ _ => d < 8#5 && a < 8#5
  | .zle _ d a _ _ => d < 8#5 && a < 8#5
  | .zcmp _ d a b => d < 8#5 && a < 8#5 && b < 8#5
  | .zcvt _ _ _ a => a < 8#5
  | .zlen _ _ _ a => a < 8#5
  | .zposl _ _ _ a => a < 8#5
  | .zposh _ _ _ a => a < 8#5
  | .zcnt _ _ _ a _ _ _ => a < 8#5
  | .raddV d _ b n l _ _ => d < 16#5 && b < 16#5 && decide (l.toNat + n.toNat + 1 ≤ 4)
  | .rmcst d _ b n l _ => d < 16#5 && b < 16#5 && decide (l.toNat + n.toNat + 1 ≤ 4)
  | .vpost _ _ b _ => b < 16#5
  | .hold _ _ => true
  | .queueEntryFill _ _ => true
  | .barrierArrival _ _ _ => true
  | .barrierMessage _ => true
  | .waitcComplete => true
  | .xinvComplete => true
  | .copyChunk _ => true
  | .engineFaultTrap _ => true
  | .gatherBurst _ => true
  | .commit => true
  | .chamberAct => true
  | .mattFullGrant _ => true
  | .matrixIssueComplete => true
  | .sluiceCall _ _ => true
  | .remoteAtomicLine _ => true
  | .multicastCopy _ => true
  | .remoteAck _ _ _ _ => true
  | .aggregatedAck _ _ => true
  | .remoteReportTrap _ => true
  | .postDelivery _ => true
  | .postApply _ => true
  | .rds _ _ => true
  | .rdx _ _ => true
  | .inv _ => true
  | .iack _ _ _ => true
  | .wb _ _ _ => true
  | .data _ _ _ => true
  | .movedResponse _ => true
  | .unfreezeBoundExpiry _ => true
  | .transferReplay _ => true
  | .linkDown _ => true
  | .translationWalk _ _ => true
  | .trapEntry _ => true
  | .arrivalEntry => true
  | .fatalEvent _ _ _ => true
  | .lwin _ => true
  | .launchAccept _ => true
  | .dxit => true
  | .contextExit => true
  | .preload _ => true
  | .swap _ => true
  | .evict _ => true
  | .drop _ => true
  | .fillComplete => true
  | .swapActivation => true
  | .spillComplete => true
  | .sliceBudgetExpiry => true
  | .agingInterval => true
  | .fbitInv => true
  | .registerWrite _ _ _ => true
  | .packageReset _ => true
  | .enter => true
  | .go => true
  | .attestationRequest => true
  | .powerReading _ _ => true
  | .thermalTrip => true
  | .d3hotEntry => true
  | .d3hotExit => true
  | .sample => true
  | .cxlMemAccess _ _ _ _ => true
  | .readRequest _ _ _ => true
  | .writeRequest _ _ _ => true
  | .linkUp _ => true
  | .loadDataReturn _ => true

/-- Opcode 0x1 (PFX): the word's instruction by its function field (R66). -/
def rawPfx (w : BitVec 32) : Option Instr :=
  if fld w 0 14 == 0#14 then some (.pfx (fld w 21 4) (fld w 20 1) (fld w 19 1) (fld w 14 5)) else none

/-- Opcode 0x2 (ALU): the word's instruction by its function field (R66). -/
def rawAlu (w : BitVec 32) : Option Instr :=
  match (fld w 0 10).toNat with
  | 0 => some (.add (fld w 20 5) (fld w 15 5) (fld w 10 5))
  | 1 => some (.sub (fld w 20 5) (fld w 15 5) (fld w 10 5))
  | 2 => some (.and (fld w 20 5) (fld w 15 5) (fld w 10 5))
  | 3 => some (.or (fld w 20 5) (fld w 15 5) (fld w 10 5))
  | 4 => some (.xor (fld w 20 5) (fld w 15 5) (fld w 10 5))
  | 5 => some (.andn (fld w 20 5) (fld w 15 5) (fld w 10 5))
  | 6 => some (.orn (fld w 20 5) (fld w 15 5) (fld w 10 5))
  | 7 => some (.sll (fld w 20 5) (fld w 15 5) (fld w 10 5))
  | 8 => some (.srl (fld w 20 5) (fld w 15 5) (fld w 10 5))
  | 9 => some (.sra (fld w 20 5) (fld w 15 5) (fld w 10 5))
  | 10 => some (.rotl (fld w 20 5) (fld w 15 5) (fld w 10 5))
  | 11 => some (.rotr (fld w 20 5) (fld w 15 5) (fld w 10 5))
  | 12 => some (.slt (fld w 20 5) (fld w 15 5) (fld w 10 5))
  | 13 => some (.sltu (fld w 20 5) (fld w 15 5) (fld w 10 5))
  | 14 => some (.seq (fld w 20 5) (fld w 15 5) (fld w 10 5))
  | 15 => some (.sne (fld w 20 5) (fld w 15 5) (fld w 10 5))
  | 16 => some (.min (fld w 20 5) (fld w 15 5) (fld w 10 5))
  | 17 => some (.max (fld w 20 5) (fld w 15 5) (fld w 10 5))
  | 18 => some (.minu (fld w 20 5) (fld w 15 5) (fld w 10 5))
  | 19 => some (.maxu (fld w 20 5) (fld w 15 5) (fld w 10 5))
  | 20 => some (.adds (fld w 20 5) (fld w 15 5) (fld w 10 5))
  | 21 => some (.subs (fld w 20 5) (fld w 15 5) (fld w 10 5))
  | 22 => some (.addus (fld w 20 5) (fld w 15 5) (fld w 10 5))
  | 23 => some (.subus (fld w 20 5) (fld w 15 5) (fld w 10 5))
  | 24 => some (.mul (fld w 20 5) (fld w 15 5) (fld w 10 5))
  | 25 => some (.mulh (fld w 20 5) (fld w 15 5) (fld w 10 5))
  | 26 => some (.mulhu (fld w 20 5) (fld w 15 5) (fld w 10 5))
  | 27 => some (.mulhsu (fld w 20 5) (fld w 15 5) (fld w 10 5))
  | 28 => some (.div (fld w 20 5) (fld w 15 5) (fld w 10 5))
  | 29 => some (.divu (fld w 20 5) (fld w 15 5) (fld w 10 5))
  | 30 => some (.rem (fld w 20 5) (fld w 15 5) (fld w 10 5))
  | 31 => some (.remu (fld w 20 5) (fld w 15 5) (fld w 10 5))
  | 32 => some (.addw (fld w 20 5) (fld w 15 5) (fld w 10 5))
  | 33 => some (.subw (fld w 20 5) (fld w 15 5) (fld w 10 5))
  | 34 => some (.sllw (fld w 20 5) (fld w 15 5) (fld w 10 5))
  | 35 => some (.srlw (fld w 20 5) (fld w 15 5) (fld w 10 5))
  | 36 => some (.sraw (fld w 20 5) (fld w 15 5) (fld w 10 5))
  | 37 => some (.mulw (fld w 20 5) (fld w 15 5) (fld w 10 5))
  | 48 => if fld w 10 5 == 0#5 then some (.clz (fld w 20 5) (fld w 15 5)) else none
  | 49 => if fld w 10 5 == 0#5 then some (.ctz (fld w 20 5) (fld w 15 5)) else none
  | 50 => if fld w 10 5 == 0#5 then some (.popc (fld w 20 5) (fld w 15 5)) else none
  | 51 => if fld w 10 5 == 0#5 then some (.brev (fld w 20 5) (fld w 15 5)) else none
  | 52 => if fld w 10 5 == 0#5 then some (.sextb (fld w 20 5) (fld w 15 5)) else none
  | 53 => if fld w 10 5 == 0#5 then some (.sexth (fld w 20 5) (fld w 15 5)) else none
  | 54 => if fld w 10 5 == 0#5 then some (.sextw (fld w 20 5) (fld w 15 5)) else none
  | 55 => if fld w 10 5 == 0#5 then some (.zextw (fld w 20 5) (fld w 15 5)) else none
  | 62 => if fld w 10 5 == 0#5 && fld w 20 5 == 0#5 then some (.jr (fld w 15 5)) else none
  | 63 => if fld w 10 5 == 0#5 then some (.jalr (fld w 20 5) (fld w 15 5)) else none
  | _ => none

/-- Opcode 0x3 (ALUI): the word's instruction by its function field (R66). -/
def rawAlui (w : BitVec 32) : Option Instr :=
  match (fld w 12 3).toNat with
  | 0 => some (.addi (fld w 20 5) (fld w 15 5) (fld w 0 12))
  | 1 => some (.andi (fld w 20 5) (fld w 15 5) (fld w 0 12))
  | 2 => some (.ori (fld w 20 5) (fld w 15 5) (fld w 0 12))
  | 3 => some (.xori (fld w 20 5) (fld w 15 5) (fld w 0 12))
  | 4 => some (.slti (fld w 20 5) (fld w 15 5) (fld w 0 12))
  | 5 => some (.sltiu (fld w 20 5) (fld w 15 5) (fld w 0 12))
  | 7 => some (.addiw (fld w 20 5) (fld w 15 5) (fld w 0 12))
  | 6 =>
    match (fld w 6 6).toNat with
    | 0 => some (.slli (fld w 20 5) (fld w 15 5) (fld w 0 6))
    | 16 => some (.srli (fld w 20 5) (fld w 15 5) (fld w 0 6))
    | 32 => some (.srai (fld w 20 5) (fld w 15 5) (fld w 0 6))
    | 48 => some (.rotri (fld w 20 5) (fld w 15 5) (fld w 0 6))
    | _ => none
  | _ => none

/-- Opcode 0x4 (LIH): the word's instruction by its function field (R66). -/
def rawLih (w : BitVec 32) : Option Instr :=
  some (.lih (fld w 20 5) (fld w 0 20))

/-- Opcode 0x5 (BR): the word's instruction by its function field (R66). -/
def rawBr (w : BitVec 32) : Option Instr :=
  match (fld w 21 4).toNat with
  | 0 => some (.beqz (fld w 16 5) (fld w 0 16))
  | 1 => some (.bnez (fld w 16 5) (fld w 0 16))
  | 2 => some (.bltz (fld w 16 5) (fld w 0 16))
  | 3 => some (.bgez (fld w 16 5) (fld w 0 16))
  | 4 => some (.bgtz (fld w 16 5) (fld w 0 16))
  | 5 => some (.blez (fld w 16 5) (fld w 0 16))
  | 6 => if fld w 16 5 == 0#5 then some (.bra (fld w 0 16)) else none
  | _ => none

/-- Opcode 0x6 (JC): the word's instruction by its function field (R66). -/
def rawJc (w : BitVec 32) : Option Instr :=
  match (fld w 24 1).toNat with
  | 0 => some (.j (fld w 0 24))
  | 1 => some (.call (fld w 0 24))
  | _ => none

/-- Opcode 0x7 (LOOP): the word's instruction by its function field (R66). -/
def rawLoop (w : BitVec 32) : Option Instr :=
  if fld w 0 8 == 0#8 && fld w 17 1 == 0#1 then some (.loop (fld w 23 2) (fld w 18 5) (fld w 8 9)) else none

/-- Opcode 0x8 (LD): the word's instruction by its function field (R66). -/
def rawLd (w : BitVec 32) : Option Instr :=
  match (fld w 13 3).toNat with
  | 0 => some (.lb (fld w 20 5) (fld w 16 4) (fld w 0 13))
  | 1 => some (.lh (fld w 20 5) (fld w 16 4) (fld w 0 13))
  | 2 => some (.lw (fld w 20 5) (fld w 16 4) (fld w 0 13))
  | 3 => some (.ld (fld w 20 5) (fld w 16 4) (fld w 0 13))
  | 4 => some (.lbu (fld w 20 5) (fld w 16 4) (fld w 0 13))
  | 5 => some (.lhu (fld w 20 5) (fld w 16 4) (fld w 0 13))
  | 6 => some (.lwu (fld w 20 5) (fld w 16 4) (fld w 0 13))
  | 7 => if fld w 11 2 == 0#2 && fld w 20 5 == 0#5 then some (.pref (fld w 16 4) (fld w 0 11)) else none
  | _ => none

/-- Opcode 0x9 (ST): the word's instruction by its function field (R66). -/
def rawSt (w : BitVec 32) : Option Instr :=
  match (fld w 13 3).toNat with
  | 0 => some (.sb (fld w 20 5) (fld w 16 4) (fld w 0 13))
  | 1 => some (.sh (fld w 20 5) (fld w 16 4) (fld w 0 13))
  | 2 => some (.sw (fld w 20 5) (fld w 16 4) (fld w 0 13))
  | 3 => some (.sd (fld w 20 5) (fld w 16 4) (fld w 0 13))
  | 4 => if fld w 0 9 == 0#9 then
      match (fld w 9 4).toNat with
      | 0 => some (.ataddw (fld w 20 5) (fld w 16 4))
      | 1 => some (.atandw (fld w 20 5) (fld w 16 4))
      | 2 => some (.atorw (fld w 20 5) (fld w 16 4))
      | 3 => some (.atxorw (fld w 20 5) (fld w 16 4))
      | 4 => some (.atminw (fld w 20 5) (fld w 16 4))
      | 5 => some (.atmaxw (fld w 20 5) (fld w 16 4))
      | 6 => some (.atminuw (fld w 20 5) (fld w 16 4))
      | 7 => some (.atmaxuw (fld w 20 5) (fld w 16 4))
      | 8 => some (.atswpw (fld w 20 5) (fld w 16 4))
      | 9 => some (.atcasw (fld w 20 5) (fld w 16 4))
      | _ => none
    else none
  | 5 => if fld w 0 9 == 0#9 then
      match (fld w 9 4).toNat with
      | 0 => some (.atadd (fld w 20 5) (fld w 16 4))
      | 1 => some (.atand (fld w 20 5) (fld w 16 4))
      | 2 => some (.ator (fld w 20 5) (fld w 16 4))
      | 3 => some (.atxor (fld w 20 5) (fld w 16 4))
      | 4 => some (.atmin (fld w 20 5) (fld w 16 4))
      | 5 => some (.atmax (fld w 20 5) (fld w 16 4))
      | 6 => some (.atminu (fld w 20 5) (fld w 16 4))
      | 7 => some (.atmaxu (fld w 20 5) (fld w 16 4))
      | 8 => some (.atswp (fld w 20 5) (fld w 16 4))
      | 9 => some (.atcas (fld w 20 5) (fld w 16 4))
      | _ => none
    else none
  | _ => none

/-- Opcode 0xa (AR): the word's instruction by its function field (R66). -/
def rawAr (w : BitVec 32) : Option Instr :=
  match (fld w 0 10).toNat with
  | 0 => some (.amk (fld w 20 5) (fld w 15 5) (fld w 10 5))
  | 1 => if fld w 10 5 == 0#5 then some (.amov (fld w 20 5) (fld w 15 5)) else none
  | 2 => some (.aperm (fld w 20 5) (fld w 15 5) (fld w 10 5))
  | 3 => some (.aadd (fld w 20 5) (fld w 15 5) (fld w 10 5))
  | 4 => some (.anar (fld w 20 5) (fld w 15 5) (fld w 10 5))
  | 5 => some (.aset (fld w 20 5) (fld w 15 5) (fld w 10 5))
  | 6 => some (.adiff (fld w 20 5) (fld w 15 5) (fld w 10 5))
  | 8 => if fld w 10 5 == 0#5 then some (.aget (fld w 20 5) (fld w 15 5)) else none
  | 9 => if fld w 10 5 == 0#5 then some (.agetb (fld w 20 5) (fld w 15 5)) else none
  | 10 => if fld w 10 5 == 0#5 then some (.agetl (fld w 20 5) (fld w 15 5)) else none
  | 11 => if fld w 10 5 == 0#5 then some (.agetp (fld w 20 5) (fld w 15 5)) else none
  | 16 => some (.dset (fld w 20 5) (fld w 15 5) (fld w 10 5))
  | 17 => if fld w 10 5 == 0#5 then some (.dgetl (fld w 20 5) (fld w 15 5)) else none
  | 18 => if fld w 10 5 == 0#5 then some (.dgets (fld w 20 5) (fld w 15 5)) else none
  | 24 => if fld w 10 5 == 0#5 then some (.mtlc (fld w 20 5) (fld w 15 5)) else none
  | 25 => if fld w 10 5 == 0#5 then some (.mflc (fld w 20 5) (fld w 15 5)) else none
  | 26 => if fld w 10 5 == 0#5 then some (.mflb (fld w 20 5) (fld w 15 5)) else none
  | 27 => if fld w 10 5 == 0#5 then some (.mtlb (fld w 20 5) (fld w 15 5)) else none
  | _ => none

/-- Opcode 0xb (QOP): the word's instruction by its function field (R66). -/
def rawQop (w : BitVec 32) : Option Instr :=
  match (fld w 21 4).toNat with
  | 0 => if fld w 3 13 == 0#13 then some (.qw (fld w 16 5) (fld w 0 3)) else none
  | 1 => if fld w 3 13 == 0#13 then some (.qr (fld w 16 5) (fld w 0 3)) else none
  | 2 => some (.qbr (fld w 16 5) (fld w 0 16))
  | 3 => some (.qbrz (fld w 16 5) (fld w 0 16))
  | _ => none

/-- Opcode 0xc (SYNC): the word's instruction by its function field (R66). -/
def rawSync (w : BitVec 32) : Option Instr :=
  match (fld w 12 3).toNat with
  | 0 => if fld w 3 9 == 0#9 && fld w 15 10 == 0#10 then some (.bar (fld w 0 3)) else none
  | 1 => some (.signal (fld w 20 5) (fld w 15 5) (fld w 0 12))
  | 2 => some (.waitc (fld w 20 5) (fld w 15 5) (fld w 0 12))
  | 3 => if fld w 5 7 == 0#7 && fld w 15 10 == 0#10 then some (.fence (fld w 3 2) (fld w 0 3)) else none
  | 4 => if fld w 5 7 == 0#7 && fld w 15 10 == 0#10 then some (.xfence (fld w 0 5)) else none
  | 5 => if fld w 0 12 == 0#12 && fld w 15 10 == 0#10 then some (.ifence) else none
  | _ => none

/-- Opcode 0xd (SYS): the word's instruction by its function field (R66). -/
def rawSys (w : BitVec 32) : Option Instr :=
  match (fld w 12 3).toNat with
  | 0 => if fld w 15 10 == 0#10 then some (.trap (fld w 0 12)) else none
  | 1 => if fld w 0 12 == 0#12 && fld w 15 10 == 0#10 then some (.tret) else none
  | 2 => if fld w 0 12 == 0#12 && fld w 15 10 == 0#10 then some (.aexit) else none
  | 3 => if fld w 15 5 == 0#5 then some (.mfsr (fld w 20 5) (fld w 0 12)) else none
  | 4 => if fld w 20 5 == 0#5 then some (.mtsr (fld w 15 5) (fld w 0 12)) else none
  | 5 => if fld w 2 10 == 0#10 && fld w 20 5 == 0#5 then some (.xinv (fld w 15 5) (fld w 0 2)) else none
  | _ => none

/-- Opcode 0xe (CPY): the word's instruction by its function field (R66). -/
def rawCpy (w : BitVec 32) : Option Instr :=
  match (fld w 0 5).toNat with
  | 0 => some (.cpy (fld w 20 5) (fld w 15 5) (fld w 10 5) (fld w 8 2) (fld w 7 1) (fld w 5 2))
  | 1 => if fld w 5 3 == 0#3 && fld w 10 10 == 0#10 then some (.cst (fld w 20 5) (fld w 8 2)) else none
  | 2 => if fld w 5 3 == 0#3 && fld w 10 15 == 0#15 then some (.cabt (fld w 8 2)) else none
  | _ => none

/-- Opcode 0xf (GTH): the word's instruction by its function field (R66). -/
def rawGth (w : BitVec 32) : Option Instr :=
  if fld w 4 2 == 0#2 then some (.gth (fld w 20 5) (fld w 15 5) (fld w 10 5) (fld w 8 2) (fld w 7 1) (fld w 6 1) (fld w 0 4)) else none

/-- Opcode 0x10 (VI): the word's instruction by its function field (R66). -/
def rawVi (w : BitVec 32) : Option Instr :=
  match (fld w 4 5).toNat with
  | 0 => some (.vadd (fld w 31 1) (fld w 24 1) (fld w 19 5) (fld w 14 5) (fld w 9 5) (fld w 0 4))
  | 1 => some (.vsub (fld w 31 1) (fld w 24 1) (fld w 19 5) (fld w 14 5) (fld w 9 5) (fld w 0 4))
  | 2 => some (.vmul (fld w 31 1) (fld w 24 1) (fld w 19 5) (fld w 14 5) (fld w 9 5) (fld w 0 4))
  | 3 => some (.vmulh (fld w 31 1) (fld w 24 1) (fld w 19 5) (fld w 14 5) (fld w 9 5) (fld w 0 4))
  | 4 => some (.vadds (fld w 31 1) (fld w 24 1) (fld w 19 5) (fld w 14 5) (fld w 9 5) (fld w 0 4))
  | 5 => some (.vsubs (fld w 31 1) (fld w 24 1) (fld w 19 5) (fld w 14 5) (fld w 9 5) (fld w 0 4))
  | 6 => some (.vmin (fld w 31 1) (fld w 24 1) (fld w 19 5) (fld w 14 5) (fld w 9 5) (fld w 0 4))
  | 7 => some (.vmax (fld w 31 1) (fld w 24 1) (fld w 19 5) (fld w 14 5) (fld w 9 5) (fld w 0 4))
  | 8 => some (.vand (fld w 31 1) (fld w 24 1) (fld w 19 5) (fld w 14 5) (fld w 9 5) (fld w 0 4))
  | 9 => some (.vor (fld w 31 1) (fld w 24 1) (fld w 19 5) (fld w 14 5) (fld w 9 5) (fld w 0 4))
  | 10 => some (.vxor (fld w 31 1) (fld w 24 1) (fld w 19 5) (fld w 14 5) (fld w 9 5) (fld w 0 4))
  | 11 => some (.vandn (fld w 31 1) (fld w 24 1) (fld w 19 5) (fld w 14 5) (fld w 9 5) (fld w 0 4))
  | 12 => some (.vsll (fld w 31 1) (fld w 24 1) (fld w 19 5) (fld w 14 5) (fld w 9 5) (fld w 0 4))
  | 13 => some (.vsrl (fld w 31 1) (fld w 24 1) (fld w 19 5) (fld w 14 5) (fld w 9 5) (fld w 0 4))
  | 14 => some (.vsra (fld w 31 1) (fld w 24 1) (fld w 19 5) (fld w 14 5) (fld w 9 5) (fld w 0 4))
  | 15 => some (.vrshr (fld w 31 1) (fld w 24 1) (fld w 19 5) (fld w 14 5) (fld w 9 5) (fld w 0 4))
  | 16 => if fld w 9 5 == 0#5 then some (.vabs (fld w 31 1) (fld w 24 1) (fld w 19 5) (fld w 14 5) (fld w 0 4)) else none
  | 17 => if fld w 9 5 == 0#5 then some (.vneg (fld w 31 1) (fld w 24 1) (fld w 19 5) (fld w 14 5) (fld w 0 4)) else none
  | 18 => if fld w 9 5 == 0#5 then some (.vmov (fld w 31 1) (fld w 24 1) (fld w 19 5) (fld w 14 5) (fld w 0 4)) else none
  | 19 => some (.vmacc (fld w 31 1) (fld w 24 1) (fld w 19 5) (fld w 14 5) (fld w 9 5) (fld w 0 4))
  | 20 => if fld w 9 10 == 0#10 then some (.vid (fld w 31 1) (fld w 24 1) (fld w 19 5) (fld w 0 4)) else none
  | 21 => some (.vwmacc (fld w 31 1) (fld w 24 1) (fld w 19 5) (fld w 14 5) (fld w 9 5) (fld w 0 4))
  | _ => none

/-- Opcode 0x11 (VF): the word's instruction by its function field (R66). -/
def rawVf (w : BitVec 32) : Option Instr :=
  match (fld w 4 5).toNat with
  | 0 => some (.vfadd (fld w 31 1) (fld w 24 1) (fld w 19 5) (fld w 14 5) (fld w 9 5) (fld w 0 4))
  | 1 => some (.vfsub (fld w 31 1) (fld w 24 1) (fld w 19 5) (fld w 14 5) (fld w 9 5) (fld w 0 4))
  | 2 => some (.vfmul (fld w 31 1) (fld w 24 1) (fld w 19 5) (fld w 14 5) (fld w 9 5) (fld w 0 4))
  | 3 => some (.vfdiv (fld w 31 1) (fld w 24 1) (fld w 19 5) (fld w 14 5) (fld w 9 5) (fld w 0 4))
  | 4 => some (.vfmin (fld w 31 1) (fld w 24 1) (fld w 19 5) (fld w 14 5) (fld w 9 5) (fld w 0 4))
  | 5 => some (.vfmax (fld w 31 1) (fld w 24 1) (fld w 19 5) (fld w 14 5) (fld w 9 5) (fld w 0 4))
  | 6 => some (.vfmacc (fld w 31 1) (fld w 24 1) (fld w 19 5) (fld w 14 5) (fld w 9 5) (fld w 0 4))
  | 7 => some (.vfnmacc (fld w 31 1) (fld w 24 1) (fld w 19 5) (fld w 14 5) (fld w 9 5) (fld w 0 4))
  | 8 => if fld w 9 5 == 0#5 then some (.vfabs (fld w 31 1) (fld w 24 1) (fld w 19 5) (fld w 14 5) (fld w 0 4)) else none
  | 9 => if fld w 9 5 == 0#5 then some (.vfneg (fld w 31 1) (fld w 24 1) (fld w 19 5) (fld w 14 5) (fld w 0 4)) else none
  | 10 => some (.vfwmacc (fld w 31 1) (fld w 24 1) (fld w 19 5) (fld w 14 5) (fld w 9 5) (fld w 0 4))
  | _ => none

/-- Opcode 0x12 (VC): the word's instruction by its function field (R66). -/
def rawVc (w : BitVec 32) : Option Instr :=
  match (fld w 0 1).toNat with
  | 0 => some (.vcvt (fld w 31 1) (fld w 24 1) (fld w 19 5) (fld w 14 5) (fld w 10 4) (fld w 6 4) (fld w 4 2) (fld w 1 3))
  | 1 => some (.vcvtBlock (fld w 31 1) (fld w 24 1) (fld w 19 5) (fld w 14 5) (fld w 10 4) (fld w 6 4) (fld w 4 2) (fld w 1 3))
  | _ => none

/-- Opcode 0x13 (VP): the word's instruction by its function field (R66). -/
def rawVp (w : BitVec 32) : Option Instr :=
  match (fld w 4 5).toNat with
  | 0 => if fld w 24 1 == 0#1 then some (.vcmpeq (fld w 31 1) (fld w 19 5) (fld w 14 5) (fld w 9 5) (fld w 0 4)) else none
  | 1 => if fld w 24 1 == 0#1 then some (.vcmpne (fld w 31 1) (fld w 19 5) (fld w 14 5) (fld w 9 5) (fld w 0 4)) else none
  | 2 => if fld w 24 1 == 0#1 then some (.vcmplt (fld w 31 1) (fld w 19 5) (fld w 14 5) (fld w 9 5) (fld w 0 4)) else none
  | 3 => if fld w 24 1 == 0#1 then some (.vcmple (fld w 31 1) (fld w 19 5) (fld w 14 5) (fld w 9 5) (fld w 0 4)) else none
  | 16 => if fld w 0 4 == 0#4 && fld w 24 1 == 0#1 then some (.pand (fld w 31 1) (fld w 19 5) (fld w 14 5) (fld w 9 5)) else none
  | 17 => if fld w 0 4 == 0#4 && fld w 24 1 == 0#1 then some (.por (fld w 31 1) (fld w 19 5) (fld w 14 5) (fld w 9 5)) else none
  | 18 => if fld w 0 4 == 0#4 && fld w 24 1 == 0#1 then some (.pxor (fld w 31 1) (fld w 19 5) (fld w 14 5) (fld w 9 5)) else none
  | 19 => if fld w 0 4 == 0#4 && fld w 24 1 == 0#1 then some (.pandn (fld w 31 1) (fld w 19 5) (fld w 14 5) (fld w 9 5)) else none
  | 20 => if fld w 0 4 == 0#4 && fld w 9 5 == 0#5 && fld w 24 1 == 0#1 then some (.pnot (fld w 31 1) (fld w 19 5) (fld w 14 5)) else none
  | 21 => if fld w 0 4 == 0#4 && fld w 9 10 == 0#10 && fld w 24 1 == 0#1 then some (.pset (fld w 31 1) (fld w 19 5)) else none
  | 22 => if fld w 0 4 == 0#4 && fld w 9 10 == 0#10 && fld w 24 1 == 0#1 then some (.pclr (fld w 31 1) (fld w 19 5)) else none
  | _ => none

/-- Opcode 0x14 (VX): the word's instruction by its function field (R66). -/
def rawVx (w : BitVec 32) : Option Instr :=
  if fld w 0 4 < 8#4 then
    match (fld w 4 4).toNat with
    | 0 => some (.vxVadd (fld w 31 1) (fld w 24 1) (fld w 19 5) (fld w 14 5) (fld w 9 5) (fld w 8 1) (fld w 0 4))
    | 1 => some (.vxVsub (fld w 31 1) (fld w 24 1) (fld w 19 5) (fld w 14 5) (fld w 9 5) (fld w 8 1) (fld w 0 4))
    | 2 => some (.vrsub (fld w 31 1) (fld w 24 1) (fld w 19 5) (fld w 14 5) (fld w 9 5) (fld w 8 1) (fld w 0 4))
    | 3 => some (.vxVmul (fld w 31 1) (fld w 24 1) (fld w 19 5) (fld w 14 5) (fld w 9 5) (fld w 8 1) (fld w 0 4))
    | 4 => some (.vxVmin (fld w 31 1) (fld w 24 1) (fld w 19 5) (fld w 14 5) (fld w 9 5) (fld w 8 1) (fld w 0 4))
    | 5 => some (.vxVmax (fld w 31 1) (fld w 24 1) (fld w 19 5) (fld w 14 5) (fld w 9 5) (fld w 8 1) (fld w 0 4))
    | 6 => some (.vxVand (fld w 31 1) (fld w 24 1) (fld w 19 5) (fld w 14 5) (fld w 9 5) (fld w 8 1) (fld w 0 4))
    | 7 => some (.vxVor (fld w 31 1) (fld w 24 1) (fld w 19 5) (fld w 14 5) (fld w 9 5) (fld w 8 1) (fld w 0 4))
    | 8 => some (.vxVxor (fld w 31 1) (fld w 24 1) (fld w 19 5) (fld w 14 5) (fld w 9 5) (fld w 8 1) (fld w 0 4))
    | 9 => some (.vxVsll (fld w 31 1) (fld w 24 1) (fld w 19 5) (fld w 14 5) (fld w 9 5) (fld w 8 1) (fld w 0 4))
    | 10 => some (.vxVsrl (fld w 31 1) (fld w 24 1) (fld w 19 5) (fld w 14 5) (fld w 9 5) (fld w 8 1) (fld w 0 4))
    | 11 => some (.vxVsra (fld w 31 1) (fld w 24 1) (fld w 19 5) (fld w 14 5) (fld w 9 5) (fld w 8 1) (fld w 0 4))
    | 12 => some (.vxVrshr (fld w 31 1) (fld w 24 1) (fld w 19 5) (fld w 14 5) (fld w 9 5) (fld w 8 1) (fld w 0 4))
    | 13 => if fld w 14 5 == 0#5 then some (.vbcast (fld w 31 1) (fld w 24 1) (fld w 19 5) (fld w 9 5) (fld w 8 1) (fld w 0 4)) else none
    | 14 => some (.vxVwmacc (fld w 31 1) (fld w 24 1) (fld w 19 5) (fld w 14 5) (fld w 9 5) (fld w 8 1) (fld w 0 4))
    | 15 => some (.vxVmacc (fld w 31 1) (fld w 24 1) (fld w 19 5) (fld w 14 5) (fld w 9 5) (fld w 8 1) (fld w 0 4))
    | _ => none
  else
    match (fld w 4 4).toNat with
    | 0 => some (.vxVfadd (fld w 31 1) (fld w 24 1) (fld w 19 5) (fld w 14 5) (fld w 9 5) (fld w 8 1) (fld w 0 4))
    | 1 => some (.vxVfsub (fld w 31 1) (fld w 24 1) (fld w 19 5) (fld w 14 5) (fld w 9 5) (fld w 8 1) (fld w 0 4))
    | 2 => some (.vfrsub (fld w 31 1) (fld w 24 1) (fld w 19 5) (fld w 14 5) (fld w 9 5) (fld w 8 1) (fld w 0 4))
    | 3 => some (.vxVfmul (fld w 31 1) (fld w 24 1) (fld w 19 5) (fld w 14 5) (fld w 9 5) (fld w 8 1) (fld w 0 4))
    | 4 => some (.vxVfmin (fld w 31 1) (fld w 24 1) (fld w 19 5) (fld w 14 5) (fld w 9 5) (fld w 8 1) (fld w 0 4))
    | 5 => some (.vxVfmax (fld w 31 1) (fld w 24 1) (fld w 19 5) (fld w 14 5) (fld w 9 5) (fld w 8 1) (fld w 0 4))
    | 6 => some (.vxVfmacc (fld w 31 1) (fld w 24 1) (fld w 19 5) (fld w 14 5) (fld w 9 5) (fld w 8 1) (fld w 0 4))
    | 7 => some (.vxVfnmacc (fld w 31 1) (fld w 24 1) (fld w 19 5) (fld w 14 5) (fld w 9 5) (fld w 8 1) (fld w 0 4))
    | 13 => if fld w 14 5 == 0#5 then some (.vbcast (fld w 31 1) (fld w 24 1) (fld w 19 5) (fld w 9 5) (fld w 8 1) (fld w 0 4)) else none
    | _ => none

/-- Opcode 0x15 (VL): the word's instruction by its function field (R66). -/
def rawVl (w : BitVec 32) : Option Instr :=
  match (fld w 6 3).toNat with
  | 0 => if fld w 4 1 == 0#1 && fld w 24 1 == 0#1 then some (.vld (fld w 31 1) (fld w 19 5) (fld w 15 4) (fld w 12 3) (fld w 9 3) (fld w 5 1) (fld w 0 4)) else none
  | 1 => if fld w 4 1 == 0#1 && fld w 24 1 == 0#1 then some (.vldff (fld w 31 1) (fld w 19 5) (fld w 15 4) (fld w 12 3) (fld w 9 3) (fld w 5 1) (fld w 0 4)) else none
  | _ => none

/-- Opcode 0x16 (VS): the word's instruction by its function field (R66). -/
def rawVs (w : BitVec 32) : Option Instr :=
  match (fld w 6 3).toNat with
  | 0 => if fld w 4 1 == 0#1 && fld w 24 1 == 0#1 then some (.vst (fld w 31 1) (fld w 19 5) (fld w 15 4) (fld w 12 3) (fld w 9 3) (fld w 5 1) (fld w 0 4)) else none
  | _ => none

/-- Opcode 0x17 (VR): the word's instruction by its function field (R66). -/
def rawVr (w : BitVec 32) : Option Instr :=
  match (fld w 4 5).toNat with
  | 0 => some (.vperm (fld w 31 1) (fld w 24 1) (fld w 19 5) (fld w 14 5) (fld w 9 5) (fld w 0 4))
  | 1 => some (.vpermp (fld w 31 1) (fld w 24 1) (fld w 19 5) (fld w 14 5) (fld w 9 5) (fld w 0 4))
  | 2 => if fld w 0 4 == 5#4 && fld w 9 5 == 0#5 then some (.pplan (fld w 31 1) (fld w 24 1) (fld w 19 5) (fld w 14 5)) else none
  | 3 => some (.vredsum (fld w 31 1) (fld w 24 1) (fld w 19 5) (fld w 14 5) (fld w 9 5) (fld w 0 4))
  | 4 => some (.vredmin (fld w 31 1) (fld w 24 1) (fld w 19 5) (fld w 14 5) (fld w 9 5) (fld w 0 4))
  | 5 => some (.vredmax (fld w 31 1) (fld w 24 1) (fld w 19 5) (fld w 14 5) (fld w 9 5) (fld w 0 4))
  | 6 => some (.vredand (fld w 31 1) (fld w 24 1) (fld w 19 5) (fld w 14 5) (fld w 9 5) (fld w 0 4))
  | 7 => some (.vredor (fld w 31 1) (fld w 24 1) (fld w 19 5) (fld w 14 5) (fld w 9 5) (fld w 0 4))
  | 8 => some (.vredxor (fld w 31 1) (fld w 24 1) (fld w 19 5) (fld w 14 5) (fld w 9 5) (fld w 0 4))
  | 9 => if fld w 9 5 == 0#5 then some (.vscan (fld w 31 1) (fld w 24 1) (fld w 19 5) (fld w 14 5) (fld w 0 4)) else none
  | 10 => some (.vbrd (fld w 31 1) (fld w 24 1) (fld w 19 5) (fld w 14 5) (fld w 9 5) (fld w 0 4))
  | _ => none

/-- Opcode 0x18 (VK): the word's instruction by its function field (R66). -/
def rawVk (w : BitVec 32) : Option Instr :=
  match (fld w 0 9).toNat with
  | 1 => if fld w 24 1 == 0#1 then some (.vfmt (fld w 31 1) (fld w 19 5) (fld w 14 5) (fld w 11 3) (fld w 9 2)) else none
  | 2 => if fld w 24 1 == 0#1 then some (.vloop (fld w 31 1) (fld w 19 5) (fld w 14 5) (fld w 9 5)) else none
  | 3 => if fld w 9 16 == 0#16 then some (.scommit (fld w 31 1)) else none
  | 4 => if fld w 9 10 == 0#10 && fld w 24 1 == 0#1 then some (.vpart (fld w 31 1) (fld w 19 5)) else none
  | 5 => if fld w 9 16 == 0#16 then some (.vtrim (fld w 31 1)) else none
  | _ => none

/-- Opcode 0x19 (VN): the word's instruction by its function field (R66). -/
def rawVn (w : BitVec 32) : Option Instr :=
  match (fld w 4 5).toNat with
  | 0 => if fld w 9 5 == 0#5 then some (.vrcp (fld w 31 1) (fld w 24 1) (fld w 19 5) (fld w 14 5) (fld w 0 4)) else none
  | 1 => if fld w 9 5 == 0#5 then some (.vrsq (fld w 31 1) (fld w 24 1) (fld w 19 5) (fld w 14 5) (fld w 0 4)) else none
  | 2 => if fld w 9 5 == 0#5 then some (.vsqrt (fld w 31 1) (fld w 24 1) (fld w 19 5) (fld w 14 5) (fld w 0 4)) else none
  | 3 => if fld w 9 5 == 0#5 then some (.vexp2 (fld w 31 1) (fld w 24 1) (fld w 19 5) (fld w 14 5) (fld w 0 4)) else none
  | 4 => if fld w 9 5 == 0#5 then some (.vlog2 (fld w 31 1) (fld w 24 1) (fld w 19 5) (fld w 14 5) (fld w 0 4)) else none
  | 5 => if fld w 9 5 == 0#5 then some (.vsinpi (fld w 31 1) (fld w 24 1) (fld w 19 5) (fld w 14 5) (fld w 0 4)) else none
  | 6 => if fld w 9 5 == 0#5 then some (.vcospi (fld w 31 1) (fld w 24 1) (fld w 19 5) (fld w 14 5) (fld w 0 4)) else none
  | 7 => if fld w 9 5 == 0#5 then some (.vtanh (fld w 31 1) (fld w 24 1) (fld w 19 5) (fld w 14 5) (fld w 0 4)) else none
  | 16 => some (.vrand (fld w 31 1) (fld w 24 1) (fld w 19 5) (fld w 14 5) (fld w 9 5) (fld w 0 4))
  | _ => none

/-- Opcode 0x1a (VG): the word's instruction by its function field (R66). -/
def rawVg (w : BitVec 32) : Option Instr :=
  match (fld w 6 3).toNat with
  | 0 => if fld w 4 1 == 0#1 && fld w 14 1 == 0#1 && fld w 24 1 == 0#1 then some (.vgath (fld w 31 1) (fld w 19 5) (fld w 15 4) (fld w 9 5) (fld w 5 1) (fld w 0 4)) else none
  | 1 => if fld w 4 1 == 0#1 && fld w 14 1 == 0#1 && fld w 24 1 == 0#1 then some (.vscat (fld w 31 1) (fld w 19 5) (fld w 15 4) (fld w 9 5) (fld w 5 1) (fld w 0 4)) else none
  | _ => none

/-- Opcode 0x20 (MA): the word's instruction by its function field (R66). -/
noncomputable def rawMa (w : BitVec 32) : Option Instr :=
  match (fld w 0 4).toNat with
  | 0 => some (.mma (fld w 31 1) (fld w 23 2) (fld w 18 5) (fld w 15 3) (fld w 10 5) (fld w 5 5) (fld w 4 1))
  | 1 => if fld w 15 3 == 0#3 then some (.mmac (fld w 31 1) (fld w 23 2) (fld w 18 5) (fld w 10 5) (fld w 5 5) (fld w 4 1)) else none
  | 2 => some (.mmag (fld w 31 1) (fld w 23 2) (fld w 18 5) (fld w 15 3) (fld w 10 5) (fld w 5 5) (fld w 4 1))
  | _ => none

/-- Opcode 0x21 (MC): the word's instruction by its function field (R66). -/
noncomputable def rawMc (w : BitVec 32) : Option Instr :=
  match (fld w 0 5).toNat with
  | 0 => if fld w 5 18 == 0#18 then some (.matt (fld w 31 1) (fld w 23 2)) else none
  | 1 => if fld w 5 18 == 0#18 then some (.mattFull (fld w 31 1) (fld w 23 2)) else none
  | 2 => if fld w 5 20 == 0#20 then some (.mdet (fld w 31 1)) else none
  | 3 => if fld w 10 5 == 0#5 && fld w 23 2 == 0#2 then some (.mldb (fld w 31 1) (fld w 18 5) (fld w 15 3) (fld w 5 5)) else none
  | 4 => if fld w 10 5 == 0#5 && fld w 23 2 == 0#2 then some (.mldbSp (fld w 31 1) (fld w 18 5) (fld w 15 3) (fld w 5 5)) else none
  | 5 => if fld w 5 18 == 0#18 then some (.mswap (fld w 31 1) (fld w 23 2)) else none
  | 6 => if fld w 5 10 == 0#10 then some (.mst (fld w 31 1) (fld w 23 2) (fld w 18 5) (fld w 15 3)) else none
  | 7 => if fld w 15 3 == 0#3 then some (.mmov (fld w 31 1) (fld w 23 2) (fld w 18 5) (fld w 10 5) (fld w 5 5)) else none
  | 8 => if fld w 23 2 == 0#2 then some (.mgtab (fld w 31 1) (fld w 18 5) (fld w 15 3) (fld w 10 5) (fld w 5 5)) else none
  | 9 => if fld w 5 13 == 0#13 && fld w 23 2 == 0#2 then some (.mctr (fld w 31 1) (fld w 18 5)) else none
  | _ => none

/-- Opcode 0x22 (MS): the word's instruction by its function field (R66). -/
noncomputable def rawMs (w : BitVec 32) : Option Instr :=
  match (fld w 0 4).toNat with
  | 0 => if fld w 15 3 == 0#3 then some (.mmasp (fld w 31 1) (fld w 23 2) (fld w 18 5) (fld w 10 5) (fld w 5 5) (fld w 4 1)) else none
  | 1 => some (.mmaSeq (fld w 31 1) (fld w 23 2) (fld w 18 5) (fld w 15 3) (fld w 10 5) (fld w 5 5) (fld w 4 1))
  | 2 => if fld w 4 1 == 0#1 && fld w 23 2 == 0#2 then some (.mseq (fld w 31 1) (fld w 18 5) (fld w 15 3) (fld w 10 5) (fld w 5 5)) else none
  | _ => none

/-- Opcode 0x28 (RM): the word's instruction by its function field (R66). -/
noncomputable def rawRm (w : BitVec 32) : Option Instr :=
  match (fld w 0 3).toNat with
  | 0 => if fld w 4 1 == 0#1 then some (.raddV (fld w 20 5) (fld w 15 5) (fld w 10 5) (fld w 8 2) (fld w 6 2) (fld w 5 1) (fld w 3 1)) else none
  | 1 => if fld w 4 2 == 0#2 then some (.rmcst (fld w 20 5) (fld w 15 5) (fld w 10 5) (fld w 8 2) (fld w 6 2) (fld w 3 1)) else none
  | _ => none

/-- Opcode 0x29 (BP): the word's instruction by its function field (R66). -/
noncomputable def rawBp (w : BitVec 32) : Option Instr :=
  match (fld w 0 3).toNat with
  | 0 => if fld w 4 6 == 0#6 then some (.vpost (fld w 20 5) (fld w 15 5) (fld w 10 5) (fld w 3 1)) else none
  | 1 => if fld w 3 12 == 0#12 then some (.hold (fld w 20 5) (fld w 15 5)) else none
  | _ => none

/-- Opcode 0x30 (LZ): the word's instruction by its function field (R66). -/
noncomputable def rawLz (w : BitVec 32) : Option Instr :=
  match (fld w 4 5).toNat with
  | 0 => if fld w 0 4 == 0#4 && fld w 9 5 == 0#5 && fld w 24 1 == 0#1 then some (.znew (fld w 31 1) (fld w 19 5) (fld w 14 5)) else none
  | 1 => if fld w 0 4 == 0#4 && fld w 24 1 == 0#1 then some (.zfork (fld w 31 1) (fld w 19 5) (fld w 14 5) (fld w 9 5)) else none
  | 2 => if fld w 0 4 == 0#4 && fld w 9 5 == 0#5 && fld w 24 1 == 0#1 then some (.zmov (fld w 31 1) (fld w 19 5) (fld w 14 5)) else none
  | 3 => if fld w 0 4 == 0#4 && fld w 24 1 == 0#1 then some (.zpin (fld w 31 1) (fld w 19 5) (fld w 14 5) (fld w 9 5)) else none
  | 4 => if fld w 0 4 == 0#4 && fld w 24 1 == 0#1 then some (.zset (fld w 31 1) (fld w 19 5) (fld w 14 5) (fld w 9 5)) else none
  | 5 => if fld w 1 3 == 7#3 && fld w 24 1 == 0#1 then some (.zlt (fld w 31 1) (fld w 19 5) (fld w 14 5) (fld w 9 5) (fld w 0 1)) else none
  | 6 => if fld w 1 3 == 7#3 && fld w 24 1 == 0#1 then some (.zle (fld w 31 1) (fld w 19 5) (fld w 14 5) (fld w 9 5) (fld w 0 1)) else none
  | 7 => if fld w 0 4 == 0#4 && fld w 24 1 == 0#1 then some (.zcmp (fld w 31 1) (fld w 19 5) (fld w 14 5) (fld w 9 5)) else none
  | 8 => if fld w 0 4 == 15#4 && fld w 9 5 == 0#5 then some (.zcvt (fld w 31 1) (fld w 24 1) (fld w 19 5) (fld w 14 5)) else none
  | 9 => if fld w 0 4 == 0#4 && fld w 9 5 == 0#5 then some (.zlen (fld w 31 1) (fld w 24 1) (fld w 19 5) (fld w 14 5)) else none
  | 10 => if fld w 0 4 == 0#4 && fld w 9 5 == 0#5 then some (.zposl (fld w 31 1) (fld w 24 1) (fld w 19 5) (fld w 14 5)) else none
  | 11 => if fld w 0 4 == 0#4 && fld w 9 5 == 0#5 then some (.zposh (fld w 31 1) (fld w 24 1) (fld w 19 5) (fld w 14 5)) else none
  | _ => if fld w 7 2 == 2#2 && fld w 1 3 == 7#3 then some (.zcnt (fld w 31 1) (fld w 24 1) (fld w 19 5) (fld w 14 5) (fld w 9 5) (fld w 4 3) (fld w 0 1)) else none

/-- The word's instruction by its major opcode (R66), before the checks on reserved values. -/
noncomputable def rawDecode (w : BitVec 32) : Option Instr :=
  match (fld w 25 6).toNat with
  | 1 => rawPfx w
  | 2 => rawAlu w
  | 3 => rawAlui w
  | 4 => rawLih w
  | 5 => rawBr w
  | 6 => rawJc w
  | 7 => rawLoop w
  | 8 => rawLd w
  | 9 => rawSt w
  | 10 => rawAr w
  | 11 => rawQop w
  | 12 => rawSync w
  | 13 => rawSys w
  | 14 => rawCpy w
  | 15 => rawGth w
  | 16 => rawVi w
  | 17 => rawVf w
  | 18 => rawVc w
  | 19 => rawVp w
  | 20 => rawVx w
  | 21 => rawVl w
  | 22 => rawVs w
  | 23 => rawVr w
  | 24 => rawVk w
  | 25 => rawVn w
  | 26 => rawVg w
  | 32 => rawMa w
  | 33 => rawMc w
  | 34 => rawMs w
  | 40 => rawRm w
  | 41 => rawBp w
  | 48 => rawLz w
  | _ => none

/-- Why a word is no instruction (R63, R67): every one is reported as ILLEGAL_INSN. -/
inductive DecodeError where
  | allZeros | allOnes | unassignedOpcode | convoyBitOnAp | unassignedFunction | reservedValue
  deriving DecidableEq, Repr

/-- EP-class opcodes (R62). -/
def epOpcode (n : Nat) : Bool :=
  (decide (0x10 ≤ n) && decide (n ≤ 0x1A)) || (decide (0x20 ≤ n) && decide (n ≤ 0x22)) || n == 0x30

/-- AP-class opcodes: the other assigned ones (R62, R66). -/
def apOpcode (n : Nat) : Bool :=
  (decide (1 ≤ n) && decide (n ≤ 0x0F)) || n == 0x28 || n == 0x29

/-- Steps 2 to 5 of R67, in that order. -/
noncomputable def decode (w : BitVec 32) : Except DecodeError Instr :=
  if w == 0#32 then .error .allZeros
  else if w == 0xFFFFFFFF#32 then .error .allOnes
  else
    let op := (fld w 25 6).toNat
    if !(epOpcode op) && !(apOpcode op) then .error .unassignedOpcode
    else if apOpcode op && fld w 31 1 != 0#1 then .error .convoyBitOnAp
    else match rawDecode w with
      | none => .error .unassignedFunction
      | some i => if fieldsOk i then .ok i else .error .reservedValue

/-- A word from its four bytes, little-endian (R61). -/
def wordOfBytes (b0 b1 b2 b3 : Byte) : BitVec 32 :=
  BitVec.ofNat 32 (b0.toNat + b1.toNat * 256 + b2.toNat * 65536 + b3.toNat * 16777216)

/-- Byte `k` of a word (R61). -/
def wordByte (w : BitVec 32) (k : Nat) : Byte := BitVec.ofNat 8 (w.toNat / 256 ^ k)

/-- The decoder over the four bytes of a word as memory holds them (R61). -/
noncomputable def decodeBytes (b0 b1 b2 b3 : Byte) : Except DecodeError Instr := decode (wordOfBytes b0 b1 b2 b3)

/-- The instruction that the decoder reads from a word whose bits are numbered as the opcode table numbers them. Every
instruction is one 32-bit word, so bits at or above 32 play no part. -/
noncomputable def decodeTableWord (nbits w : Nat) : Option Instr :=
  let x : BitVec 32 := BitVec.ofNat 32 (w % 2 ^ nbits)
  match decodeBytes (wordByte x 0) (wordByte x 1) (wordByte x 2) (wordByte x 3) with
  | .ok i => some i
  | .error _ => none

/-- The word of an instruction, laid out by the formats of R64 and R65; `none` for a device step, which has no encoding. -/
def encode? : Instr → Option (BitVec 32)
  | .pfx p n c v => some (BitVec.ofNat 32 (33554432 + p.toNat * 2097152 + n.toNat * 1048576 + c.toNat * 524288 + v.toNat * 16384))
  | .add d a b => some (BitVec.ofNat 32 (67108864 + d.toNat * 1048576 + a.toNat * 32768 + b.toNat * 1024))
  | .sub d a b => some (BitVec.ofNat 32 (67108865 + d.toNat * 1048576 + a.toNat * 32768 + b.toNat * 1024))
  | .and d a b => some (BitVec.ofNat 32 (67108866 + d.toNat * 1048576 + a.toNat * 32768 + b.toNat * 1024))
  | .or d a b => some (BitVec.ofNat 32 (67108867 + d.toNat * 1048576 + a.toNat * 32768 + b.toNat * 1024))
  | .xor d a b => some (BitVec.ofNat 32 (67108868 + d.toNat * 1048576 + a.toNat * 32768 + b.toNat * 1024))
  | .andn d a b => some (BitVec.ofNat 32 (67108869 + d.toNat * 1048576 + a.toNat * 32768 + b.toNat * 1024))
  | .orn d a b => some (BitVec.ofNat 32 (67108870 + d.toNat * 1048576 + a.toNat * 32768 + b.toNat * 1024))
  | .sll d a b => some (BitVec.ofNat 32 (67108871 + d.toNat * 1048576 + a.toNat * 32768 + b.toNat * 1024))
  | .srl d a b => some (BitVec.ofNat 32 (67108872 + d.toNat * 1048576 + a.toNat * 32768 + b.toNat * 1024))
  | .sra d a b => some (BitVec.ofNat 32 (67108873 + d.toNat * 1048576 + a.toNat * 32768 + b.toNat * 1024))
  | .rotl d a b => some (BitVec.ofNat 32 (67108874 + d.toNat * 1048576 + a.toNat * 32768 + b.toNat * 1024))
  | .rotr d a b => some (BitVec.ofNat 32 (67108875 + d.toNat * 1048576 + a.toNat * 32768 + b.toNat * 1024))
  | .slt d a b => some (BitVec.ofNat 32 (67108876 + d.toNat * 1048576 + a.toNat * 32768 + b.toNat * 1024))
  | .sltu d a b => some (BitVec.ofNat 32 (67108877 + d.toNat * 1048576 + a.toNat * 32768 + b.toNat * 1024))
  | .seq d a b => some (BitVec.ofNat 32 (67108878 + d.toNat * 1048576 + a.toNat * 32768 + b.toNat * 1024))
  | .sne d a b => some (BitVec.ofNat 32 (67108879 + d.toNat * 1048576 + a.toNat * 32768 + b.toNat * 1024))
  | .min d a b => some (BitVec.ofNat 32 (67108880 + d.toNat * 1048576 + a.toNat * 32768 + b.toNat * 1024))
  | .max d a b => some (BitVec.ofNat 32 (67108881 + d.toNat * 1048576 + a.toNat * 32768 + b.toNat * 1024))
  | .minu d a b => some (BitVec.ofNat 32 (67108882 + d.toNat * 1048576 + a.toNat * 32768 + b.toNat * 1024))
  | .maxu d a b => some (BitVec.ofNat 32 (67108883 + d.toNat * 1048576 + a.toNat * 32768 + b.toNat * 1024))
  | .adds d a b => some (BitVec.ofNat 32 (67108884 + d.toNat * 1048576 + a.toNat * 32768 + b.toNat * 1024))
  | .subs d a b => some (BitVec.ofNat 32 (67108885 + d.toNat * 1048576 + a.toNat * 32768 + b.toNat * 1024))
  | .addus d a b => some (BitVec.ofNat 32 (67108886 + d.toNat * 1048576 + a.toNat * 32768 + b.toNat * 1024))
  | .subus d a b => some (BitVec.ofNat 32 (67108887 + d.toNat * 1048576 + a.toNat * 32768 + b.toNat * 1024))
  | .mul d a b => some (BitVec.ofNat 32 (67108888 + d.toNat * 1048576 + a.toNat * 32768 + b.toNat * 1024))
  | .mulh d a b => some (BitVec.ofNat 32 (67108889 + d.toNat * 1048576 + a.toNat * 32768 + b.toNat * 1024))
  | .mulhu d a b => some (BitVec.ofNat 32 (67108890 + d.toNat * 1048576 + a.toNat * 32768 + b.toNat * 1024))
  | .mulhsu d a b => some (BitVec.ofNat 32 (67108891 + d.toNat * 1048576 + a.toNat * 32768 + b.toNat * 1024))
  | .div d a b => some (BitVec.ofNat 32 (67108892 + d.toNat * 1048576 + a.toNat * 32768 + b.toNat * 1024))
  | .divu d a b => some (BitVec.ofNat 32 (67108893 + d.toNat * 1048576 + a.toNat * 32768 + b.toNat * 1024))
  | .rem d a b => some (BitVec.ofNat 32 (67108894 + d.toNat * 1048576 + a.toNat * 32768 + b.toNat * 1024))
  | .remu d a b => some (BitVec.ofNat 32 (67108895 + d.toNat * 1048576 + a.toNat * 32768 + b.toNat * 1024))
  | .addw d a b => some (BitVec.ofNat 32 (67108896 + d.toNat * 1048576 + a.toNat * 32768 + b.toNat * 1024))
  | .subw d a b => some (BitVec.ofNat 32 (67108897 + d.toNat * 1048576 + a.toNat * 32768 + b.toNat * 1024))
  | .sllw d a b => some (BitVec.ofNat 32 (67108898 + d.toNat * 1048576 + a.toNat * 32768 + b.toNat * 1024))
  | .srlw d a b => some (BitVec.ofNat 32 (67108899 + d.toNat * 1048576 + a.toNat * 32768 + b.toNat * 1024))
  | .sraw d a b => some (BitVec.ofNat 32 (67108900 + d.toNat * 1048576 + a.toNat * 32768 + b.toNat * 1024))
  | .mulw d a b => some (BitVec.ofNat 32 (67108901 + d.toNat * 1048576 + a.toNat * 32768 + b.toNat * 1024))
  | .clz d a => some (BitVec.ofNat 32 (67108912 + d.toNat * 1048576 + a.toNat * 32768))
  | .ctz d a => some (BitVec.ofNat 32 (67108913 + d.toNat * 1048576 + a.toNat * 32768))
  | .popc d a => some (BitVec.ofNat 32 (67108914 + d.toNat * 1048576 + a.toNat * 32768))
  | .brev d a => some (BitVec.ofNat 32 (67108915 + d.toNat * 1048576 + a.toNat * 32768))
  | .sextb d a => some (BitVec.ofNat 32 (67108916 + d.toNat * 1048576 + a.toNat * 32768))
  | .sexth d a => some (BitVec.ofNat 32 (67108917 + d.toNat * 1048576 + a.toNat * 32768))
  | .sextw d a => some (BitVec.ofNat 32 (67108918 + d.toNat * 1048576 + a.toNat * 32768))
  | .zextw d a => some (BitVec.ofNat 32 (67108919 + d.toNat * 1048576 + a.toNat * 32768))
  | .jr a => some (BitVec.ofNat 32 (67108926 + a.toNat * 32768))
  | .jalr d a => some (BitVec.ofNat 32 (67108927 + d.toNat * 1048576 + a.toNat * 32768))
  | .addi d a i => some (BitVec.ofNat 32 (100663296 + d.toNat * 1048576 + a.toNat * 32768 + i.toNat))
  | .andi d a i => some (BitVec.ofNat 32 (100667392 + d.toNat * 1048576 + a.toNat * 32768 + i.toNat))
  | .ori d a i => some (BitVec.ofNat 32 (100671488 + d.toNat * 1048576 + a.toNat * 32768 + i.toNat))
  | .xori d a i => some (BitVec.ofNat 32 (100675584 + d.toNat * 1048576 + a.toNat * 32768 + i.toNat))
  | .slti d a i => some (BitVec.ofNat 32 (100679680 + d.toNat * 1048576 + a.toNat * 32768 + i.toNat))
  | .sltiu d a i => some (BitVec.ofNat 32 (100683776 + d.toNat * 1048576 + a.toNat * 32768 + i.toNat))
  | .slli d a h => some (BitVec.ofNat 32 (100687872 + d.toNat * 1048576 + a.toNat * 32768 + h.toNat))
  | .srli d a h => some (BitVec.ofNat 32 (100688896 + d.toNat * 1048576 + a.toNat * 32768 + h.toNat))
  | .srai d a h => some (BitVec.ofNat 32 (100689920 + d.toNat * 1048576 + a.toNat * 32768 + h.toNat))
  | .rotri d a h => some (BitVec.ofNat 32 (100690944 + d.toNat * 1048576 + a.toNat * 32768 + h.toNat))
  | .addiw d a i => some (BitVec.ofNat 32 (100691968 + d.toNat * 1048576 + a.toNat * 32768 + i.toNat))
  | .lih d i => some (BitVec.ofNat 32 (134217728 + d.toNat * 1048576 + i.toNat))
  | .beqz a t => some (BitVec.ofNat 32 (167772160 + a.toNat * 65536 + t.toNat))
  | .bnez a t => some (BitVec.ofNat 32 (169869312 + a.toNat * 65536 + t.toNat))
  | .bltz a t => some (BitVec.ofNat 32 (171966464 + a.toNat * 65536 + t.toNat))
  | .bgez a t => some (BitVec.ofNat 32 (174063616 + a.toNat * 65536 + t.toNat))
  | .bgtz a t => some (BitVec.ofNat 32 (176160768 + a.toNat * 65536 + t.toNat))
  | .blez a t => some (BitVec.ofNat 32 (178257920 + a.toNat * 65536 + t.toNat))
  | .bra t => some (BitVec.ofNat 32 (180355072 + t.toNat))
  | .j t => some (BitVec.ofNat 32 (201326592 + t.toNat))
  | .call t => some (BitVec.ofNat 32 (218103808 + t.toNat))
  | .loop l c n => some (BitVec.ofNat 32 (234881024 + l.toNat * 8388608 + c.toNat * 262144 + n.toNat * 256))
  | .lb d a i => some (BitVec.ofNat 32 (268435456 + d.toNat * 1048576 + a.toNat * 65536 + i.toNat))
  | .lh d a i => some (BitVec.ofNat 32 (268443648 + d.toNat * 1048576 + a.toNat * 65536 + i.toNat))
  | .lw d a i => some (BitVec.ofNat 32 (268451840 + d.toNat * 1048576 + a.toNat * 65536 + i.toNat))
  | .ld d a i => some (BitVec.ofNat 32 (268460032 + d.toNat * 1048576 + a.toNat * 65536 + i.toNat))
  | .lbu d a i => some (BitVec.ofNat 32 (268468224 + d.toNat * 1048576 + a.toNat * 65536 + i.toNat))
  | .lhu d a i => some (BitVec.ofNat 32 (268476416 + d.toNat * 1048576 + a.toNat * 65536 + i.toNat))
  | .lwu d a i => some (BitVec.ofNat 32 (268484608 + d.toNat * 1048576 + a.toNat * 65536 + i.toNat))
  | .pref a o => some (BitVec.ofNat 32 (268492800 + a.toNat * 65536 + o.toNat))
  | .sb xs a i => some (BitVec.ofNat 32 (301989888 + xs.toNat * 1048576 + a.toNat * 65536 + i.toNat))
  | .sh xs a i => some (BitVec.ofNat 32 (301998080 + xs.toNat * 1048576 + a.toNat * 65536 + i.toNat))
  | .sw xs a i => some (BitVec.ofNat 32 (302006272 + xs.toNat * 1048576 + a.toNat * 65536 + i.toNat))
  | .sd xs a i => some (BitVec.ofNat 32 (302014464 + xs.toNat * 1048576 + a.toNat * 65536 + i.toNat))
  | .atadd d a => some (BitVec.ofNat 32 (302030848 + d.toNat * 1048576 + a.toNat * 65536))
  | .atand d a => some (BitVec.ofNat 32 (302031360 + d.toNat * 1048576 + a.toNat * 65536))
  | .ator d a => some (BitVec.ofNat 32 (302031872 + d.toNat * 1048576 + a.toNat * 65536))
  | .atxor d a => some (BitVec.ofNat 32 (302032384 + d.toNat * 1048576 + a.toNat * 65536))
  | .atmin d a => some (BitVec.ofNat 32 (302032896 + d.toNat * 1048576 + a.toNat * 65536))
  | .atmax d a => some (BitVec.ofNat 32 (302033408 + d.toNat * 1048576 + a.toNat * 65536))
  | .atminu d a => some (BitVec.ofNat 32 (302033920 + d.toNat * 1048576 + a.toNat * 65536))
  | .atmaxu d a => some (BitVec.ofNat 32 (302034432 + d.toNat * 1048576 + a.toNat * 65536))
  | .atswp d a => some (BitVec.ofNat 32 (302034944 + d.toNat * 1048576 + a.toNat * 65536))
  | .atcas d a => some (BitVec.ofNat 32 (302035456 + d.toNat * 1048576 + a.toNat * 65536))
  | .ataddw d a => some (BitVec.ofNat 32 (302022656 + d.toNat * 1048576 + a.toNat * 65536))
  | .atandw d a => some (BitVec.ofNat 32 (302023168 + d.toNat * 1048576 + a.toNat * 65536))
  | .atorw d a => some (BitVec.ofNat 32 (302023680 + d.toNat * 1048576 + a.toNat * 65536))
  | .atxorw d a => some (BitVec.ofNat 32 (302024192 + d.toNat * 1048576 + a.toNat * 65536))
  | .atminw d a => some (BitVec.ofNat 32 (302024704 + d.toNat * 1048576 + a.toNat * 65536))
  | .atmaxw d a => some (BitVec.ofNat 32 (302025216 + d.toNat * 1048576 + a.toNat * 65536))
  | .atminuw d a => some (BitVec.ofNat 32 (302025728 + d.toNat * 1048576 + a.toNat * 65536))
  | .atmaxuw d a => some (BitVec.ofNat 32 (302026240 + d.toNat * 1048576 + a.toNat * 65536))
  | .atswpw d a => some (BitVec.ofNat 32 (302026752 + d.toNat * 1048576 + a.toNat * 65536))
  | .atcasw d a => some (BitVec.ofNat 32 (302027264 + d.toNat * 1048576 + a.toNat * 65536))
  | .amk d a b => some (BitVec.ofNat 32 (335544320 + d.toNat * 1048576 + a.toNat * 32768 + b.toNat * 1024))
  | .amov d a => some (BitVec.ofNat 32 (335544321 + d.toNat * 1048576 + a.toNat * 32768))
  | .aperm d a b => some (BitVec.ofNat 32 (335544322 + d.toNat * 1048576 + a.toNat * 32768 + b.toNat * 1024))
  | .aadd d a b => some (BitVec.ofNat 32 (335544323 + d.toNat * 1048576 + a.toNat * 32768 + b.toNat * 1024))
  | .anar d a b => some (BitVec.ofNat 32 (335544324 + d.toNat * 1048576 + a.toNat * 32768 + b.toNat * 1024))
  | .aset d a b => some (BitVec.ofNat 32 (335544325 + d.toNat * 1048576 + a.toNat * 32768 + b.toNat * 1024))
  | .adiff d a b => some (BitVec.ofNat 32 (335544326 + d.toNat * 1048576 + a.toNat * 32768 + b.toNat * 1024))
  | .aget d a => some (BitVec.ofNat 32 (335544328 + d.toNat * 1048576 + a.toNat * 32768))
  | .agetb d a => some (BitVec.ofNat 32 (335544329 + d.toNat * 1048576 + a.toNat * 32768))
  | .agetl d a => some (BitVec.ofNat 32 (335544330 + d.toNat * 1048576 + a.toNat * 32768))
  | .agetp d a => some (BitVec.ofNat 32 (335544331 + d.toNat * 1048576 + a.toNat * 32768))
  | .dset d a b => some (BitVec.ofNat 32 (335544336 + d.toNat * 1048576 + a.toNat * 32768 + b.toNat * 1024))
  | .dgetl d a => some (BitVec.ofNat 32 (335544337 + d.toNat * 1048576 + a.toNat * 32768))
  | .dgets d a => some (BitVec.ofNat 32 (335544338 + d.toNat * 1048576 + a.toNat * 32768))
  | .mtlc d a => some (BitVec.ofNat 32 (335544344 + d.toNat * 1048576 + a.toNat * 32768))
  | .mflc d a => some (BitVec.ofNat 32 (335544345 + d.toNat * 1048576 + a.toNat * 32768))
  | .mflb d a => some (BitVec.ofNat 32 (335544346 + d.toNat * 1048576 + a.toNat * 32768))
  | .mtlb d a => some (BitVec.ofNat 32 (335544347 + d.toNat * 1048576 + a.toNat * 32768))
  | .qw a n => some (BitVec.ofNat 32 (369098752 + a.toNat * 65536 + n.toNat))
  | .qr d n => some (BitVec.ofNat 32 (371195904 + d.toNat * 65536 + n.toNat))
  | .qbr n t => some (BitVec.ofNat 32 (373293056 + n.toNat * 65536 + t.toNat))
  | .qbrz n t => some (BitVec.ofNat 32 (375390208 + n.toNat * 65536 + t.toNat))
  | .bar c => some (BitVec.ofNat 32 (402653184 + c.toNat))
  | .signal d a o => some (BitVec.ofNat 32 (402657280 + d.toNat * 1048576 + a.toNat * 32768 + o.toNat))
  | .waitc d a o => some (BitVec.ofNat 32 (402661376 + d.toNat * 1048576 + a.toNat * 32768 + o.toNat))
  | .fence k c => some (BitVec.ofNat 32 (402665472 + k.toNat * 8 + c.toNat))
  | .xfence m => some (BitVec.ofNat 32 (402669568 + m.toNat))
  | .ifence => some (BitVec.ofNat 32 (402673664))
  | .trap i => some (BitVec.ofNat 32 (436207616 + i.toNat))
  | .tret => some (BitVec.ofNat 32 (436211712))
  | .aexit => some (BitVec.ofNat 32 (436215808))
  | .mfsr d r => some (BitVec.ofNat 32 (436219904 + d.toNat * 1048576 + r.toNat))
  | .mtsr a r => some (BitVec.ofNat 32 (436224000 + a.toNat * 32768 + r.toNat))
  | .xinv a k => some (BitVec.ofNat 32 (436228096 + a.toNat * 32768 + k.toNat))
  | .cpy d a b h v n => some (BitVec.ofNat 32 (469762048 + d.toNat * 1048576 + a.toNat * 32768 + b.toNat * 1024 + h.toNat * 256 + v.toNat * 128 + n.toNat * 32))
  | .cst d h => some (BitVec.ofNat 32 (469762049 + d.toNat * 1048576 + h.toNat * 256))
  | .cabt h => some (BitVec.ofNat 32 (469762050 + h.toNat * 256))
  | .gth d t i h v z c => some (BitVec.ofNat 32 (503316480 + d.toNat * 1048576 + t.toNat * 32768 + i.toNat * 1024 + h.toNat * 256 + v.toNat * 128 + z.toNat * 64 + c.toNat))
  | .vadd cs t d a b f => some (BitVec.ofNat 32 (536870912 + cs.toNat * 2147483648 + t.toNat * 16777216 + d.toNat * 524288 + a.toNat * 16384 + b.toNat * 512 + f.toNat))
  | .vsub cs t d a b f => some (BitVec.ofNat 32 (536870928 + cs.toNat * 2147483648 + t.toNat * 16777216 + d.toNat * 524288 + a.toNat * 16384 + b.toNat * 512 + f.toNat))
  | .vmul cs t d a b f => some (BitVec.ofNat 32 (536870944 + cs.toNat * 2147483648 + t.toNat * 16777216 + d.toNat * 524288 + a.toNat * 16384 + b.toNat * 512 + f.toNat))
  | .vmulh cs t d a b f => some (BitVec.ofNat 32 (536870960 + cs.toNat * 2147483648 + t.toNat * 16777216 + d.toNat * 524288 + a.toNat * 16384 + b.toNat * 512 + f.toNat))
  | .vadds cs t d a b f => some (BitVec.ofNat 32 (536870976 + cs.toNat * 2147483648 + t.toNat * 16777216 + d.toNat * 524288 + a.toNat * 16384 + b.toNat * 512 + f.toNat))
  | .vsubs cs t d a b f => some (BitVec.ofNat 32 (536870992 + cs.toNat * 2147483648 + t.toNat * 16777216 + d.toNat * 524288 + a.toNat * 16384 + b.toNat * 512 + f.toNat))
  | .vmin cs t d a b f => some (BitVec.ofNat 32 (536871008 + cs.toNat * 2147483648 + t.toNat * 16777216 + d.toNat * 524288 + a.toNat * 16384 + b.toNat * 512 + f.toNat))
  | .vmax cs t d a b f => some (BitVec.ofNat 32 (536871024 + cs.toNat * 2147483648 + t.toNat * 16777216 + d.toNat * 524288 + a.toNat * 16384 + b.toNat * 512 + f.toNat))
  | .vand cs t d a b f => some (BitVec.ofNat 32 (536871040 + cs.toNat * 2147483648 + t.toNat * 16777216 + d.toNat * 524288 + a.toNat * 16384 + b.toNat * 512 + f.toNat))
  | .vor cs t d a b f => some (BitVec.ofNat 32 (536871056 + cs.toNat * 2147483648 + t.toNat * 16777216 + d.toNat * 524288 + a.toNat * 16384 + b.toNat * 512 + f.toNat))
  | .vxor cs t d a b f => some (BitVec.ofNat 32 (536871072 + cs.toNat * 2147483648 + t.toNat * 16777216 + d.toNat * 524288 + a.toNat * 16384 + b.toNat * 512 + f.toNat))
  | .vandn cs t d a b f => some (BitVec.ofNat 32 (536871088 + cs.toNat * 2147483648 + t.toNat * 16777216 + d.toNat * 524288 + a.toNat * 16384 + b.toNat * 512 + f.toNat))
  | .vsll cs t d a b f => some (BitVec.ofNat 32 (536871104 + cs.toNat * 2147483648 + t.toNat * 16777216 + d.toNat * 524288 + a.toNat * 16384 + b.toNat * 512 + f.toNat))
  | .vsrl cs t d a b f => some (BitVec.ofNat 32 (536871120 + cs.toNat * 2147483648 + t.toNat * 16777216 + d.toNat * 524288 + a.toNat * 16384 + b.toNat * 512 + f.toNat))
  | .vsra cs t d a b f => some (BitVec.ofNat 32 (536871136 + cs.toNat * 2147483648 + t.toNat * 16777216 + d.toNat * 524288 + a.toNat * 16384 + b.toNat * 512 + f.toNat))
  | .vrshr cs t d a b f => some (BitVec.ofNat 32 (536871152 + cs.toNat * 2147483648 + t.toNat * 16777216 + d.toNat * 524288 + a.toNat * 16384 + b.toNat * 512 + f.toNat))
  | .vabs cs t d a f => some (BitVec.ofNat 32 (536871168 + cs.toNat * 2147483648 + t.toNat * 16777216 + d.toNat * 524288 + a.toNat * 16384 + f.toNat))
  | .vneg cs t d a f => some (BitVec.ofNat 32 (536871184 + cs.toNat * 2147483648 + t.toNat * 16777216 + d.toNat * 524288 + a.toNat * 16384 + f.toNat))
  | .vmov cs t d a f => some (BitVec.ofNat 32 (536871200 + cs.toNat * 2147483648 + t.toNat * 16777216 + d.toNat * 524288 + a.toNat * 16384 + f.toNat))
  | .vmacc cs t d a b f => some (BitVec.ofNat 32 (536871216 + cs.toNat * 2147483648 + t.toNat * 16777216 + d.toNat * 524288 + a.toNat * 16384 + b.toNat * 512 + f.toNat))
  | .vid cs t d f => some (BitVec.ofNat 32 (536871232 + cs.toNat * 2147483648 + t.toNat * 16777216 + d.toNat * 524288 + f.toNat))
  | .vwmacc cs t d a b f => some (BitVec.ofNat 32 (536871248 + cs.toNat * 2147483648 + t.toNat * 16777216 + d.toNat * 524288 + a.toNat * 16384 + b.toNat * 512 + f.toNat))
  | .vfadd cs t d a b f => some (BitVec.ofNat 32 (570425344 + cs.toNat * 2147483648 + t.toNat * 16777216 + d.toNat * 524288 + a.toNat * 16384 + b.toNat * 512 + f.toNat))
  | .vfsub cs t d a b f => some (BitVec.ofNat 32 (570425360 + cs.toNat * 2147483648 + t.toNat * 16777216 + d.toNat * 524288 + a.toNat * 16384 + b.toNat * 512 + f.toNat))
  | .vfmul cs t d a b f => some (BitVec.ofNat 32 (570425376 + cs.toNat * 2147483648 + t.toNat * 16777216 + d.toNat * 524288 + a.toNat * 16384 + b.toNat * 512 + f.toNat))
  | .vfdiv cs t d a b f => some (BitVec.ofNat 32 (570425392 + cs.toNat * 2147483648 + t.toNat * 16777216 + d.toNat * 524288 + a.toNat * 16384 + b.toNat * 512 + f.toNat))
  | .vfmin cs t d a b f => some (BitVec.ofNat 32 (570425408 + cs.toNat * 2147483648 + t.toNat * 16777216 + d.toNat * 524288 + a.toNat * 16384 + b.toNat * 512 + f.toNat))
  | .vfmax cs t d a b f => some (BitVec.ofNat 32 (570425424 + cs.toNat * 2147483648 + t.toNat * 16777216 + d.toNat * 524288 + a.toNat * 16384 + b.toNat * 512 + f.toNat))
  | .vfmacc cs t d a b f => some (BitVec.ofNat 32 (570425440 + cs.toNat * 2147483648 + t.toNat * 16777216 + d.toNat * 524288 + a.toNat * 16384 + b.toNat * 512 + f.toNat))
  | .vfnmacc cs t d a b f => some (BitVec.ofNat 32 (570425456 + cs.toNat * 2147483648 + t.toNat * 16777216 + d.toNat * 524288 + a.toNat * 16384 + b.toNat * 512 + f.toNat))
  | .vfabs cs t d a f => some (BitVec.ofNat 32 (570425472 + cs.toNat * 2147483648 + t.toNat * 16777216 + d.toNat * 524288 + a.toNat * 16384 + f.toNat))
  | .vfneg cs t d a f => some (BitVec.ofNat 32 (570425488 + cs.toNat * 2147483648 + t.toNat * 16777216 + d.toNat * 524288 + a.toNat * 16384 + f.toNat))
  | .vfwmacc cs t d a b f => some (BitVec.ofNat 32 (570425504 + cs.toNat * 2147483648 + t.toNat * 16777216 + d.toNat * 524288 + a.toNat * 16384 + b.toNat * 512 + f.toNat))
  | .vcvt cs t d a g h o r => some (BitVec.ofNat 32 (603979776 + cs.toNat * 2147483648 + t.toNat * 16777216 + d.toNat * 524288 + a.toNat * 16384 + g.toNat * 1024 + h.toNat * 64 + o.toNat * 16 + r.toNat * 2))
  | .vcvtBlock cs t d a g h o r => some (BitVec.ofNat 32 (603979777 + cs.toNat * 2147483648 + t.toNat * 16777216 + d.toNat * 524288 + a.toNat * 16384 + g.toNat * 1024 + h.toNat * 64 + o.toNat * 16 + r.toNat * 2))
  | .vcmpeq cs d a b f => some (BitVec.ofNat 32 (637534208 + cs.toNat * 2147483648 + d.toNat * 524288 + a.toNat * 16384 + b.toNat * 512 + f.toNat))
  | .vcmpne cs d a b f => some (BitVec.ofNat 32 (637534224 + cs.toNat * 2147483648 + d.toNat * 524288 + a.toNat * 16384 + b.toNat * 512 + f.toNat))
  | .vcmplt cs d a b f => some (BitVec.ofNat 32 (637534240 + cs.toNat * 2147483648 + d.toNat * 524288 + a.toNat * 16384 + b.toNat * 512 + f.toNat))
  | .vcmple cs d a b f => some (BitVec.ofNat 32 (637534256 + cs.toNat * 2147483648 + d.toNat * 524288 + a.toNat * 16384 + b.toNat * 512 + f.toNat))
  | .pand cs d a b => some (BitVec.ofNat 32 (637534464 + cs.toNat * 2147483648 + d.toNat * 524288 + a.toNat * 16384 + b.toNat * 512))
  | .por cs d a b => some (BitVec.ofNat 32 (637534480 + cs.toNat * 2147483648 + d.toNat * 524288 + a.toNat * 16384 + b.toNat * 512))
  | .pxor cs d a b => some (BitVec.ofNat 32 (637534496 + cs.toNat * 2147483648 + d.toNat * 524288 + a.toNat * 16384 + b.toNat * 512))
  | .pandn cs d a b => some (BitVec.ofNat 32 (637534512 + cs.toNat * 2147483648 + d.toNat * 524288 + a.toNat * 16384 + b.toNat * 512))
  | .pnot cs d a => some (BitVec.ofNat 32 (637534528 + cs.toNat * 2147483648 + d.toNat * 524288 + a.toNat * 16384))
  | .pset cs d => some (BitVec.ofNat 32 (637534544 + cs.toNat * 2147483648 + d.toNat * 524288))
  | .pclr cs d => some (BitVec.ofNat 32 (637534560 + cs.toNat * 2147483648 + d.toNat * 524288))
  | .vxVadd cs t d a x q f => some (BitVec.ofNat 32 (671088640 + cs.toNat * 2147483648 + t.toNat * 16777216 + d.toNat * 524288 + a.toNat * 16384 + x.toNat * 512 + q.toNat * 256 + f.toNat))
  | .vxVsub cs t d a x q f => some (BitVec.ofNat 32 (671088656 + cs.toNat * 2147483648 + t.toNat * 16777216 + d.toNat * 524288 + a.toNat * 16384 + x.toNat * 512 + q.toNat * 256 + f.toNat))
  | .vrsub cs t d a x q f => some (BitVec.ofNat 32 (671088672 + cs.toNat * 2147483648 + t.toNat * 16777216 + d.toNat * 524288 + a.toNat * 16384 + x.toNat * 512 + q.toNat * 256 + f.toNat))
  | .vxVmul cs t d a x q f => some (BitVec.ofNat 32 (671088688 + cs.toNat * 2147483648 + t.toNat * 16777216 + d.toNat * 524288 + a.toNat * 16384 + x.toNat * 512 + q.toNat * 256 + f.toNat))
  | .vxVmin cs t d a x q f => some (BitVec.ofNat 32 (671088704 + cs.toNat * 2147483648 + t.toNat * 16777216 + d.toNat * 524288 + a.toNat * 16384 + x.toNat * 512 + q.toNat * 256 + f.toNat))
  | .vxVmax cs t d a x q f => some (BitVec.ofNat 32 (671088720 + cs.toNat * 2147483648 + t.toNat * 16777216 + d.toNat * 524288 + a.toNat * 16384 + x.toNat * 512 + q.toNat * 256 + f.toNat))
  | .vxVand cs t d a x q f => some (BitVec.ofNat 32 (671088736 + cs.toNat * 2147483648 + t.toNat * 16777216 + d.toNat * 524288 + a.toNat * 16384 + x.toNat * 512 + q.toNat * 256 + f.toNat))
  | .vxVor cs t d a x q f => some (BitVec.ofNat 32 (671088752 + cs.toNat * 2147483648 + t.toNat * 16777216 + d.toNat * 524288 + a.toNat * 16384 + x.toNat * 512 + q.toNat * 256 + f.toNat))
  | .vxVxor cs t d a x q f => some (BitVec.ofNat 32 (671088768 + cs.toNat * 2147483648 + t.toNat * 16777216 + d.toNat * 524288 + a.toNat * 16384 + x.toNat * 512 + q.toNat * 256 + f.toNat))
  | .vxVsll cs t d a x q f => some (BitVec.ofNat 32 (671088784 + cs.toNat * 2147483648 + t.toNat * 16777216 + d.toNat * 524288 + a.toNat * 16384 + x.toNat * 512 + q.toNat * 256 + f.toNat))
  | .vxVsrl cs t d a x q f => some (BitVec.ofNat 32 (671088800 + cs.toNat * 2147483648 + t.toNat * 16777216 + d.toNat * 524288 + a.toNat * 16384 + x.toNat * 512 + q.toNat * 256 + f.toNat))
  | .vxVsra cs t d a x q f => some (BitVec.ofNat 32 (671088816 + cs.toNat * 2147483648 + t.toNat * 16777216 + d.toNat * 524288 + a.toNat * 16384 + x.toNat * 512 + q.toNat * 256 + f.toNat))
  | .vxVrshr cs t d a x q f => some (BitVec.ofNat 32 (671088832 + cs.toNat * 2147483648 + t.toNat * 16777216 + d.toNat * 524288 + a.toNat * 16384 + x.toNat * 512 + q.toNat * 256 + f.toNat))
  | .vbcast cs t d x q f => some (BitVec.ofNat 32 (671088848 + cs.toNat * 2147483648 + t.toNat * 16777216 + d.toNat * 524288 + x.toNat * 512 + q.toNat * 256 + f.toNat))
  | .vxVwmacc cs t d a x q f => some (BitVec.ofNat 32 (671088864 + cs.toNat * 2147483648 + t.toNat * 16777216 + d.toNat * 524288 + a.toNat * 16384 + x.toNat * 512 + q.toNat * 256 + f.toNat))
  | .vxVmacc cs t d a x q f => some (BitVec.ofNat 32 (671088880 + cs.toNat * 2147483648 + t.toNat * 16777216 + d.toNat * 524288 + a.toNat * 16384 + x.toNat * 512 + q.toNat * 256 + f.toNat))
  | .vxVfadd cs t d a x q f => some (BitVec.ofNat 32 (671088640 + cs.toNat * 2147483648 + t.toNat * 16777216 + d.toNat * 524288 + a.toNat * 16384 + x.toNat * 512 + q.toNat * 256 + f.toNat))
  | .vxVfsub cs t d a x q f => some (BitVec.ofNat 32 (671088656 + cs.toNat * 2147483648 + t.toNat * 16777216 + d.toNat * 524288 + a.toNat * 16384 + x.toNat * 512 + q.toNat * 256 + f.toNat))
  | .vfrsub cs t d a x q f => some (BitVec.ofNat 32 (671088672 + cs.toNat * 2147483648 + t.toNat * 16777216 + d.toNat * 524288 + a.toNat * 16384 + x.toNat * 512 + q.toNat * 256 + f.toNat))
  | .vxVfmul cs t d a x q f => some (BitVec.ofNat 32 (671088688 + cs.toNat * 2147483648 + t.toNat * 16777216 + d.toNat * 524288 + a.toNat * 16384 + x.toNat * 512 + q.toNat * 256 + f.toNat))
  | .vxVfmin cs t d a x q f => some (BitVec.ofNat 32 (671088704 + cs.toNat * 2147483648 + t.toNat * 16777216 + d.toNat * 524288 + a.toNat * 16384 + x.toNat * 512 + q.toNat * 256 + f.toNat))
  | .vxVfmax cs t d a x q f => some (BitVec.ofNat 32 (671088720 + cs.toNat * 2147483648 + t.toNat * 16777216 + d.toNat * 524288 + a.toNat * 16384 + x.toNat * 512 + q.toNat * 256 + f.toNat))
  | .vxVfmacc cs t d a x q f => some (BitVec.ofNat 32 (671088736 + cs.toNat * 2147483648 + t.toNat * 16777216 + d.toNat * 524288 + a.toNat * 16384 + x.toNat * 512 + q.toNat * 256 + f.toNat))
  | .vxVfnmacc cs t d a x q f => some (BitVec.ofNat 32 (671088752 + cs.toNat * 2147483648 + t.toNat * 16777216 + d.toNat * 524288 + a.toNat * 16384 + x.toNat * 512 + q.toNat * 256 + f.toNat))
  | .vld cs d a m w r f => some (BitVec.ofNat 32 (704643072 + cs.toNat * 2147483648 + d.toNat * 524288 + a.toNat * 32768 + m.toNat * 4096 + w.toNat * 512 + r.toNat * 32 + f.toNat))
  | .vldff cs d a m w r f => some (BitVec.ofNat 32 (704643136 + cs.toNat * 2147483648 + d.toNat * 524288 + a.toNat * 32768 + m.toNat * 4096 + w.toNat * 512 + r.toNat * 32 + f.toNat))
  | .vst cs d a m w r f => some (BitVec.ofNat 32 (738197504 + cs.toNat * 2147483648 + d.toNat * 524288 + a.toNat * 32768 + m.toNat * 4096 + w.toNat * 512 + r.toNat * 32 + f.toNat))
  | .vperm cs t d a b f => some (BitVec.ofNat 32 (771751936 + cs.toNat * 2147483648 + t.toNat * 16777216 + d.toNat * 524288 + a.toNat * 16384 + b.toNat * 512 + f.toNat))
  | .vpermp cs t d a b f => some (BitVec.ofNat 32 (771751952 + cs.toNat * 2147483648 + t.toNat * 16777216 + d.toNat * 524288 + a.toNat * 16384 + b.toNat * 512 + f.toNat))
  | .pplan cs t d a => some (BitVec.ofNat 32 (771751973 + cs.toNat * 2147483648 + t.toNat * 16777216 + d.toNat * 524288 + a.toNat * 16384))
  | .vredsum cs t d a q f => some (BitVec.ofNat 32 (771751984 + cs.toNat * 2147483648 + t.toNat * 16777216 + d.toNat * 524288 + a.toNat * 16384 + q.toNat * 512 + f.toNat))
  | .vredmin cs t d a q f => some (BitVec.ofNat 32 (771752000 + cs.toNat * 2147483648 + t.toNat * 16777216 + d.toNat * 524288 + a.toNat * 16384 + q.toNat * 512 + f.toNat))
  | .vredmax cs t d a q f => some (BitVec.ofNat 32 (771752016 + cs.toNat * 2147483648 + t.toNat * 16777216 + d.toNat * 524288 + a.toNat * 16384 + q.toNat * 512 + f.toNat))
  | .vredand cs t d a q f => some (BitVec.ofNat 32 (771752032 + cs.toNat * 2147483648 + t.toNat * 16777216 + d.toNat * 524288 + a.toNat * 16384 + q.toNat * 512 + f.toNat))
  | .vredor cs t d a q f => some (BitVec.ofNat 32 (771752048 + cs.toNat * 2147483648 + t.toNat * 16777216 + d.toNat * 524288 + a.toNat * 16384 + q.toNat * 512 + f.toNat))
  | .vredxor cs t d a q f => some (BitVec.ofNat 32 (771752064 + cs.toNat * 2147483648 + t.toNat * 16777216 + d.toNat * 524288 + a.toNat * 16384 + q.toNat * 512 + f.toNat))
  | .vscan cs t d a f => some (BitVec.ofNat 32 (771752080 + cs.toNat * 2147483648 + t.toNat * 16777216 + d.toNat * 524288 + a.toNat * 16384 + f.toNat))
  | .vbrd cs t d a b f => some (BitVec.ofNat 32 (771752096 + cs.toNat * 2147483648 + t.toNat * 16777216 + d.toNat * 524288 + a.toNat * 16384 + b.toNat * 512 + f.toNat))
  | .vfmt cs e k r g => some (BitVec.ofNat 32 (805306369 + cs.toNat * 2147483648 + e.toNat * 524288 + k.toNat * 16384 + r.toNat * 2048 + g.toNat * 512))
  | .vloop cs h a j => some (BitVec.ofNat 32 (805306370 + cs.toNat * 2147483648 + h.toNat * 524288 + a.toNat * 16384 + j.toNat * 512))
  | .scommit cs => some (BitVec.ofNat 32 (805306371 + cs.toNat * 2147483648))
  | .vpart cs d => some (BitVec.ofNat 32 (805306372 + cs.toNat * 2147483648 + d.toNat * 524288))
  | .vtrim cs => some (BitVec.ofNat 32 (805306373 + cs.toNat * 2147483648))
  | .vrcp cs t d a f => some (BitVec.ofNat 32 (838860800 + cs.toNat * 2147483648 + t.toNat * 16777216 + d.toNat * 524288 + a.toNat * 16384 + f.toNat))
  | .vrsq cs t d a f => some (BitVec.ofNat 32 (838860816 + cs.toNat * 2147483648 + t.toNat * 16777216 + d.toNat * 524288 + a.toNat * 16384 + f.toNat))
  | .vsqrt cs t d a f => some (BitVec.ofNat 32 (838860832 + cs.toNat * 2147483648 + t.toNat * 16777216 + d.toNat * 524288 + a.toNat * 16384 + f.toNat))
  | .vexp2 cs t d a f => some (BitVec.ofNat 32 (838860848 + cs.toNat * 2147483648 + t.toNat * 16777216 + d.toNat * 524288 + a.toNat * 16384 + f.toNat))
  | .vlog2 cs t d a f => some (BitVec.ofNat 32 (838860864 + cs.toNat * 2147483648 + t.toNat * 16777216 + d.toNat * 524288 + a.toNat * 16384 + f.toNat))
  | .vsinpi cs t d a f => some (BitVec.ofNat 32 (838860880 + cs.toNat * 2147483648 + t.toNat * 16777216 + d.toNat * 524288 + a.toNat * 16384 + f.toNat))
  | .vcospi cs t d a f => some (BitVec.ofNat 32 (838860896 + cs.toNat * 2147483648 + t.toNat * 16777216 + d.toNat * 524288 + a.toNat * 16384 + f.toNat))
  | .vtanh cs t d a f => some (BitVec.ofNat 32 (838860912 + cs.toNat * 2147483648 + t.toNat * 16777216 + d.toNat * 524288 + a.toNat * 16384 + f.toNat))
  | .vrand cs t d h j f => some (BitVec.ofNat 32 (838861056 + cs.toNat * 2147483648 + t.toNat * 16777216 + d.toNat * 524288 + h.toNat * 16384 + j.toNat * 512 + f.toNat))
  | .vgath cs d a i r f => some (BitVec.ofNat 32 (872415232 + cs.toNat * 2147483648 + d.toNat * 524288 + a.toNat * 32768 + i.toNat * 512 + r.toNat * 32 + f.toNat))
  | .vscat cs d a i r f => some (BitVec.ofNat 32 (872415296 + cs.toNat * 2147483648 + d.toNat * 524288 + a.toNat * 32768 + i.toNat * 512 + r.toNat * 32 + f.toNat))
  | .matt cs n => some (BitVec.ofNat 32 (1107296256 + cs.toNat * 2147483648 + n.toNat * 8388608))
  | .mattFull cs n => some (BitVec.ofNat 32 (1107296257 + cs.toNat * 2147483648 + n.toNat * 8388608))
  | .mdet cs => some (BitVec.ofNat 32 (1107296258 + cs.toNat * 2147483648))
  | .mldb cs a k h => some (BitVec.ofNat 32 (1107296259 + cs.toNat * 2147483648 + a.toNat * 262144 + k.toNat * 32768 + h.toNat * 32))
  | .mldbSp cs a k h => some (BitVec.ofNat 32 (1107296260 + cs.toNat * 2147483648 + a.toNat * 262144 + k.toNat * 32768 + h.toNat * 32))
  | .mswap cs m => some (BitVec.ofNat 32 (1107296261 + cs.toNat * 2147483648 + m.toNat * 8388608))
  | .mst cs m a k => some (BitVec.ofNat 32 (1107296262 + cs.toNat * 2147483648 + m.toNat * 8388608 + a.toNat * 262144 + k.toNat * 32768))
  | .mmov cs m d r j => some (BitVec.ofNat 32 (1107296263 + cs.toNat * 2147483648 + m.toNat * 8388608 + d.toNat * 262144 + r.toNat * 1024 + j.toNat * 32))
  | .mgtab cs a k g h => some (BitVec.ofNat 32 (1107296264 + cs.toNat * 2147483648 + a.toNat * 262144 + k.toNat * 32768 + g.toNat * 1024 + h.toNat * 32))
  | .mctr cs a => some (BitVec.ofNat 32 (1107296265 + cs.toNat * 2147483648 + a.toNat * 262144))
  | .mma cs m a k g h z => some (BitVec.ofNat 32 (1073741824 + cs.toNat * 2147483648 + m.toNat * 8388608 + a.toNat * 262144 + k.toNat * 32768 + g.toNat * 1024 + h.toNat * 32 + z.toNat * 16))
  | .mmac cs m a g h z => some (BitVec.ofNat 32 (1073741825 + cs.toNat * 2147483648 + m.toNat * 8388608 + a.toNat * 262144 + g.toNat * 1024 + h.toNat * 32 + z.toNat * 16))
  | .mmag cs m a k g h z => some (BitVec.ofNat 32 (1073741826 + cs.toNat * 2147483648 + m.toNat * 8388608 + a.toNat * 262144 + k.toNat * 32768 + g.toNat * 1024 + h.toNat * 32 + z.toNat * 16))
  | .mmasp cs m a g h z => some (BitVec.ofNat 32 (1140850688 + cs.toNat * 2147483648 + m.toNat * 8388608 + a.toNat * 262144 + g.toNat * 1024 + h.toNat * 32 + z.toNat * 16))
  | .mmaSeq cs m a k g h z => some (BitVec.ofNat 32 (1140850689 + cs.toNat * 2147483648 + m.toNat * 8388608 + a.toNat * 262144 + k.toNat * 32768 + g.toNat * 1024 + h.toNat * 32 + z.toNat * 16))
  | .mseq cs a k q h => some (BitVec.ofNat 32 (1140850690 + cs.toNat * 2147483648 + a.toNat * 262144 + k.toNat * 32768 + q.toNat * 1024 + h.toNat * 32))
  | .znew cs d a => some (BitVec.ofNat 32 (1610612736 + cs.toNat * 2147483648 + d.toNat * 524288 + a.toNat * 16384))
  | .zfork cs d a b => some (BitVec.ofNat 32 (1610612752 + cs.toNat * 2147483648 + d.toNat * 524288 + a.toNat * 16384 + b.toNat * 512))
  | .zmov cs d a => some (BitVec.ofNat 32 (1610612768 + cs.toNat * 2147483648 + d.toNat * 524288 + a.toNat * 16384))
  | .zpin cs d a b => some (BitVec.ofNat 32 (1610612784 + cs.toNat * 2147483648 + d.toNat * 524288 + a.toNat * 16384 + b.toNat * 512))
  | .zset cs d a b => some (BitVec.ofNat 32 (1610612800 + cs.toNat * 2147483648 + d.toNat * 524288 + a.toNat * 16384 + b.toNat * 512))
  | .zlt cs d a b f => some (BitVec.ofNat 32 (1610612830 + cs.toNat * 2147483648 + d.toNat * 524288 + a.toNat * 16384 + b.toNat * 512 + f.toNat))
  | .zle cs d a b f => some (BitVec.ofNat 32 (1610612846 + cs.toNat * 2147483648 + d.toNat * 524288 + a.toNat * 16384 + b.toNat * 512 + f.toNat))
  | .zcmp cs d a b => some (BitVec.ofNat 32 (1610612848 + cs.toNat * 2147483648 + d.toNat * 524288 + a.toNat * 16384 + b.toNat * 512))
  | .zcvt cs t d a => some (BitVec.ofNat 32 (1610612879 + cs.toNat * 2147483648 + t.toNat * 16777216 + d.toNat * 524288 + a.toNat * 16384))
  | .zlen cs t d a => some (BitVec.ofNat 32 (1610612880 + cs.toNat * 2147483648 + t.toNat * 16777216 + d.toNat * 524288 + a.toNat * 16384))
  | .zposl cs t d a => some (BitVec.ofNat 32 (1610612896 + cs.toNat * 2147483648 + t.toNat * 16777216 + d.toNat * 524288 + a.toNat * 16384))
  | .zposh cs t d a => some (BitVec.ofNat 32 (1610612912 + cs.toNat * 2147483648 + t.toNat * 16777216 + d.toNat * 524288 + a.toNat * 16384))
  | .zcnt cs t d a b j f => some (BitVec.ofNat 32 (1610613006 + cs.toNat * 2147483648 + t.toNat * 16777216 + d.toNat * 524288 + a.toNat * 16384 + b.toNat * 512 + j.toNat * 16 + f.toNat))
  | .raddV d a b n l f t => some (BitVec.ofNat 32 (1342177280 + d.toNat * 1048576 + a.toNat * 32768 + b.toNat * 1024 + n.toNat * 256 + l.toNat * 64 + f.toNat * 32 + t.toNat * 8))
  | .rmcst d a b n l t => some (BitVec.ofNat 32 (1342177281 + d.toNat * 1048576 + a.toNat * 32768 + b.toNat * 1024 + n.toNat * 256 + l.toNat * 64 + t.toNat * 8))
  | .vpost d a b t => some (BitVec.ofNat 32 (1375731712 + d.toNat * 1048576 + a.toNat * 32768 + b.toNat * 1024 + t.toNat * 8))
  | .hold d a => some (BitVec.ofNat 32 (1375731713 + d.toNat * 1048576 + a.toNat * 32768))
  | .queueEntryFill _ _ => none
  | .barrierArrival _ _ _ => none
  | .barrierMessage _ => none
  | .waitcComplete => none
  | .xinvComplete => none
  | .copyChunk _ => none
  | .engineFaultTrap _ => none
  | .gatherBurst _ => none
  | .commit => none
  | .chamberAct => none
  | .mattFullGrant _ => none
  | .matrixIssueComplete => none
  | .sluiceCall _ _ => none
  | .remoteAtomicLine _ => none
  | .multicastCopy _ => none
  | .remoteAck _ _ _ _ => none
  | .aggregatedAck _ _ => none
  | .remoteReportTrap _ => none
  | .postDelivery _ => none
  | .postApply _ => none
  | .rds _ _ => none
  | .rdx _ _ => none
  | .inv _ => none
  | .iack _ _ _ => none
  | .wb _ _ _ => none
  | .data _ _ _ => none
  | .movedResponse _ => none
  | .unfreezeBoundExpiry _ => none
  | .transferReplay _ => none
  | .linkDown _ => none
  | .translationWalk _ _ => none
  | .trapEntry _ => none
  | .arrivalEntry => none
  | .fatalEvent _ _ _ => none
  | .lwin _ => none
  | .launchAccept _ => none
  | .dxit => none
  | .contextExit => none
  | .preload _ => none
  | .swap _ => none
  | .evict _ => none
  | .drop _ => none
  | .fillComplete => none
  | .swapActivation => none
  | .spillComplete => none
  | .sliceBudgetExpiry => none
  | .agingInterval => none
  | .fbitInv => none
  | .registerWrite _ _ _ => none
  | .packageReset _ => none
  | .enter => none
  | .go => none
  | .attestationRequest => none
  | .powerReading _ _ => none
  | .thermalTrip => none
  | .d3hotEntry => none
  | .d3hotExit => none
  | .sample => none
  | .cxlMemAccess _ _ _ _ => none
  | .readRequest _ _ _ => none
  | .writeRequest _ _ _ => none
  | .linkUp _ => none
  | .loadDataReturn _ => none

end Sys2Proof
end

