-- ==== Sys2Proof/Machine/State.lean ====
section
/-!
DEFINITION. The state of the machine: one package of Oxath X8 seen with one of its cores, everything the manual gives it
as plain data (INVENTORY.md, State, names the rule of each piece), its reset, and the reasons a step can stop.
-/

namespace Sys2Proof.Machine

/-- Memory: address and byte pairs, addresses strictly rising, no entry equal to what an unlisted address reads as. -/
abbrev Memory := List Host.Cell

/-- What an address that memory does not list reads as: zero. DESIGN CHOICE (log entry 1): the manual states no contents
of HBM or the slices after power-on. -/
def unlisted : Byte := 0#8

/-- An address register (R126). -/
structure AReg where
  ptr   : Word
  base  : Word
  limit : Word
  perm  : Word
  deriving DecidableEq, Repr

/-- A dimension register: length unsigned, stride two's complement bytes (R123). -/
structure DReg where
  len    : BitVec 32
  stride : BitVec 32
  deriving DecidableEq, Repr

/-- The shape tag of a vector register (R185): for an affine register its base, stride and width. -/
inductive Tag where
  | uniform
  | affine (base stride : Word) (w : Nat)
  | general
  deriving DecidableEq, Repr

/-- One entry of an architectural queue; an entry that qw appended before its load's data returned is not filled (R157). -/
structure QEntry where
  val    : Word
  filled : Bool
  deriving DecidableEq, Repr

/-- One element of a z register (R263): position, prefix length, held digits with digit 1 in bit 63, stale mark. -/
structure ZElem where
  pos   : Word
  len   : Nat
  held  : Word
  stale : Bool
  deriving DecidableEq, Repr

/-- The scalar system registers of a context (R164). SBASE is a view of the strip; CYCLE belongs to the package; TCP and
the debug registers stand beside these. -/
structure SysRegs where
  status    : Word
  fpctl     : Word
  vfmt      : Word
  seed      : Word
  estart    : Word
  ffs       : Word
  grant     : Word
  berth     : Word
  retired   : Word
  stallbank : Word
  avec      : Word
  arpc      : Word
  shvec     : Word
  shpc      : Word
  shinfo    : Word
  tvec      : Word
  tpc       : Word
  tcause    : Word
  tval      : Word
  telem     : Word
  tidx      : Word
  tpfx      : Word
  taux0     : Word
  taux1     : Word
  deriving DecidableEq, Repr

/-- The vector loop (R204): active, n, strip, VLMAX at entry, first and last body word. -/
structure VLoop where
  active : Bool
  n      : Word
  strip  : Word
  vlmax  : Nat
  first  : Word
  last   : Word
  deriving DecidableEq, Repr

/-- The counts of the current convoy (R22) and whether one is open (R20). -/
structure Convoy where
  opened  : Bool
  total   : Nat
  arith   : Nat
  vmem    : Nat
  chamber : Nat
  special : Nat
  matrix  : Nat
  lazy    : Nat
  deriving DecidableEq, Repr

/-- A transient result W (R73): the registers whose newest write it is, with their images and tags in the bypass, the
address of its word, how many later results have been produced, and whether a word has consumed it. A window whose three results have passed
is closed, and stays here until a newer write of its register so that R74 can find a late read. -/
structure Window where
  regs     : List (Nat × VReg × Tag)
  addr     : Word
  results  : Nat
  consumed : Bool
  deriving DecidableEq, Repr

/-- What a trap or an arrival sets aside of the words it interrupts, for the return (R20, R71, R73, R74, R92): the level (PRV) and the address
it was interrupted at, the address PFX + 4 that a pending payload was for, the convoy, the windows, the partial result of a trapped word with
T = 1, and the salt of a trapped stochastic conversion. -/
structure Level where
  prv        : Bool
  pc         : Word
  pfx        : Option Word
  convoy     : Convoy
  windows    : List Window
  bypass     : List VReg
  replaySalt : Option (Word × Nat)
  deriving DecidableEq, Repr

/-- A copy channel (R167) and the command it holds (R169, R170, R174). `prior` is the happens-before set of its accesses on
its path and `ids` the race records they have made; `order` is the command's place in program order; `wait` is the stall reason of its
current access (R29). -/
structure Channel where
  act    : Bool
  arv    : Bool
  flt    : Bool
  off    : Nat
  gth    : Bool
  word   : BitVec 32
  pc     : Word
  src    : Word
  dst    : Word
  run    : Nat
  n1     : Nat
  ss1    : Int
  ds1    : Int
  n2     : Nat
  ss2    : Int
  ds2    : Int
  isz    : Nat
  idx    : Word
  tbl    : AReg
  ctr    : Word
  user   : Bool
  order  : Nat
  prior  : List Nat
  ids    : List Nat
  cause  : Option TrapInfo
  told   : Bool
  ret    : Word
  wait   : Nat
  deriving DecidableEq, Repr

/-- An accumulator: rows of 128 columns of 32 bits, working and visible bank (R232, R234). -/
structure Acc where
  W : List VReg
  V : List VReg
  deriving DecidableEq, Repr

/-- The tile of the B buffer (R238): each column as its little-endian bit string, with the shape and where it came from.
`ids` are the race records of its reads (R246). -/
structure Tile where
  addr   : Word
  K      : Nat
  nsb    : Nat
  nsa    : Nat
  pitch  : Int
  fb     : BitVec 5
  sparse : Bool
  cols   : List Nat
  ids    : List Nat
  prior  : List Nat
  deriving DecidableEq, Repr

/-- What `mgtab` records (R256). -/
structure GroupShape where
  tab   : AReg
  b     : AReg
  shape : DReg
  fb    : BitVec 5
  deriving DecidableEq, Repr

/-- What `mseq` records (R257). -/
structure Sequencer where
  list  : List Nat
  pos   : Nat
  a     : AReg
  shape : DReg
  fb    : BitVec 5
  off   : Int
  str   : Int
  deriving DecidableEq, Repr

/-- A matrix issue that has begun and not completed (R243): the memory bytes it will write, and whether it then adds to the
counter word, with the sets that increment carries (R246). -/
structure MIssue where
  pc     : Word
  writes : List (Nat × Byte)
  ctr    : Option Nat
  prior  : List Nat
  ids    : List Nat
  deriving DecidableEq, Repr

/-- The matrix state of a context (R232). -/
structure MatrixState where
  mr     : Nat
  acc    : Vector Acc 4
  tile   : Option Tile
  group  : Option GroupShape
  seq    : Option Sequencer
  ctr    : Option Word
  issues : List MIssue
  deriving DecidableEq, Repr

/-- The barrier record of one scope (R27, R119), with the members of the barrier, the arrivals of its other members in the current
generation with the sets they carry (R45), the sets that its latest release brought, and the address of the BAR that arrived. -/
structure Barrier where
  gen      : BitVec 32
  arrived  : Bool
  released : Bool
  others   : Nat
  members  : Nat
  carries  : List (Path × List Nat)
  out      : List (Path × List Nat)
  pc       : Word
  deriving DecidableEq, Repr

/-- One entry of a lane's store buffer: an aligned 8-byte word, its byte mask and data (R207), what a `.rlx` store carries (R45), and whether
a commit that has still to take effect covers it. -/
structure StoreEntry where
  lane : Nat
  addr : Nat
  mask : BitVec 8
  data : Word
  rel  : Option RelNote
  due  : Bool
  deriving DecidableEq, Repr

/-- What a context can write, for the containment rule of R112: a register, the values of a queue, the transient result of register `n`, or
the partial result of a trapped word with T = 1, of the words that `depth` interrupted levels lie under. -/
inductive RegName where
  | x (n : Nat) | xArr (n : Nat) | a (n : Nat) | d (n : Nat) | lc (n : Nat) | desc (n : Nat)
  | v (n : Nat) | p (n : Nat) | k (n : Nat) | z (n : Nat) | acc (n : Nat) | sys (n : Nat) | q (n : Nat)
  | win (depth n : Nat) | part (depth : Nat)
  deriving DecidableEq, Repr

/-- One transfer of a remote command: 4 × member + line, the virtual address it is for, where that lies, the packet, whether it has been
sent away and whether it has been answered, when it was first answered "moved" and how often, and how often it was replayed (R288, R289,
R291). -/
structure Transfer where
  ix      : Nat
  va      : Word
  loc     : Nat
  line    : Option LinePacket
  post    : Option Post
  away    : Bool
  acked   : Bool
  moved   : Bool
  since   : Word
  tries   : Nat
  replays : Nat
  deriving DecidableEq, Repr

/-- The commands of the fabric port (R293, R301). -/
inductive RemoteKind where
  | radd | rmcst | vpost
  deriving DecidableEq, Repr

/-- A remote command that has not been retired (R291, R292): its place in program order, its completion block and group table, the
outcomes gathered so far, the traps it still reports, oldest first, a completion write that failed, whether the block is written,
whether a trap has taken its report, with the return point, and whether its report waits for user level behind another's. -/
structure RemoteCmd where
  id      : Nat
  order   : Nat
  kind    : RemoteKind
  pc      : Word
  block   : Word
  table   : Word
  rep     : Bool
  nt      : Bool
  xfers   : List Transfer
  bitmap  : BitVec 512
  nk      : Bool
  bg      : Bool
  hu      : Bool
  rc      : Bool
  other   : Bool
  refused : Nat
  reports : List TrapInfo
  wfail   : Option TrapInfo
  written : Bool
  taken   : Bool
  deferred : Bool
  ret     : Word
  user    : Bool
  prior   : List Nat
  ids     : List Nat
  deriving DecidableEq, Repr

/-- An access that was answered "moved" and waits (R288): whose it is, the REMOTE_NACK it ends with when the bound has passed, whose TVAL
is its address, the cycle of the first such answer, and whether the bound has passed so that the word meets that trap when it gets
there (R106). -/
structure Moved where
  who   : Agent
  info  : TrapInfo
  since : Word
  ended : Bool
  deriving DecidableEq, Repr

/-- The states of a context (R15). `none` is the core without an Active context. -/
inductive CtxState where
  | none | runnable | shadow | active | saved | parked | exited
  deriving DecidableEq, Repr

/-- Everything that belongs to one context (R15, R119). `replay` is the address a TRET returned to, `bypass` the partial result of
a trapped word with T = 1, and `replaySalt` the address and salt of a trapped stochastic conversion (R92, R109). `loads` names the x
registers whose newest write is a load, whose data may still be on its way (R157), and `die` is the die its launch placed it on (R312).
`dirty` lists what was written since the latest commit was asked for, and `older` what was written before it and since the containment
point (R112, R207). -/
structure Context where
  x        : Vector Word 32
  xArr     : Vector Word 8
  a        : Vector AReg 16
  d        : Vector DReg 6
  lc       : Vector Word 3
  desc     : Vector Word 3
  pc       : Word
  sys      : SysRegs
  tcp      : Vector Word 8
  dbg      : Vector Word 16
  q        : Vector (List QEntry) 8
  v        : Vector VReg 32
  vtag     : Vector Tag 32
  p        : Vector PReg 8
  k        : Vector VReg 8
  z        : Vector (Vector ZElem 128) 8
  hold     : Vector (BitVec 16) 32
  postH    : Vector (List (Path × List Nat)) 32
  postR    : Vector (List (Path × List Nat)) 32
  written  : Vector PReg 32
  vloop    : VLoop
  convoy   : Convoy
  levels   : List Level
  windows  : List Window
  pfxLive  : Bool
  pfxRet   : Option Word
  replay   : Option Word
  bypass   : List VReg
  replaySalt : Option (Word × Nat)
  chan     : Vector Channel 4
  lastFlt  : Option Nat
  lastRep  : Option Nat
  remote   : List RemoteCmd
  mat      : MatrixState
  barrier  : Vector Barrier 6
  arrivals : Nat
  loads    : List RegName
  sbuf     : List StoreEntry
  dirty    : List RegName
  older    : List RegName
  hb       : Vector (List Nat) 5
  rel      : List (Nat × List Nat)
  seen     : List RelNote
  order    : Nat
  wait     : Nat
  exempt   : Bool
  atTvec   : Bool
  exiting  : Bool
  qtrap    : Option (Word × Word)
  moved    : List Moved
  member   : BitVec 2
  root     : Nat
  save     : Nat
  die      : Nat
  scratchA : Nat
  scratch  : Memory
  scr      : Nat
  l1m      : Nat
  launch   : Nat
  preempt  : Bool
  fresh    : Bool
  deriving DecidableEq, Repr

/-- A cached translation (R41): the root table of its address space, the first page address, its size in bytes, the leaf entry and where
the entry lies. -/
structure TlbEntry where
  root  : Nat
  va    : Nat
  size  : Nat
  leaf  : Word
  entry : Nat
  deriving DecidableEq, Repr

/-- The directory state of a line this package is home to (R286). -/
inductive LineState where
  | uncached | shared | modified
  deriving DecidableEq, Repr

/-- A directory entry (R286) and the requests that wait for acknowledgements, oldest first: the requester and whether it asked for
ownership, and the packages that have still to answer. -/
structure DirEntry where
  line    : Nat
  state   : LineState
  sharers : List Nat
  reqs    : List (Nat × Bool)
  pending : List Nat
  deriving DecidableEq, Repr

/-- A message this package has sent over the fabric (R282, R285, R286, R287, R296, R304): to which package, and what. A packet says whether
it is a RADD.v's or a multicast copy's; a replicated one goes with its member count, and any other with 1. -/
inductive FabMsg where
  | inv (dest line : Nat)
  | iack (dest line : Nat) (d : LineNews)
  | data (dest line : Nat) (d : LineNews) (r : AckResult)
  | rds (dest line : Nat)
  | rdx (dest line : Nat)
  | wb (dest line : Nat) (d : LineNews)
  | readReq (dest off n : Nat)
  | writeReq (dest off n : Nat)
  | readResp (dest off : Nat) (r : AckResult) (bytes : List Byte) (news : LineNews)
  | writeResp (dest off : Nat) (r : AckResult)
  | packet (dest : Nat) (radd : Bool) (l : LinePacket) (members : Nat)
  | post (dest : Nat) (p : Post)
  | postResp (dest id : Nat) (r : AckResult) (hint : Option (BitVec 32))
  | lineResp (dest off : Nat) (r : AckResult)
  | barrier (dest launch : Nat) (gen : BitVec 32) (h : List (Path × List Nat))
  deriving DecidableEq, Repr

/-- A line of another package that this package caches (R285, R286). -/
structure HeldLine where
  line     : Nat
  modified : Bool
  deriving DecidableEq, Repr

/-- The registers of another package that decide what an access there meets (R49, R284, R287, R299). -/
structure Peer where
  pkg   : Nat
  fbit  : Word
  fbbt  : Word
  mbase : Word
  msize : Word
  deriving DecidableEq, Repr

/-- A transfer that an access waits for, and how often it was replayed (R285, R289). -/
structure Want where
  who     : Agent
  key     : FarKey
  replays : Nat
  deriving DecidableEq, Repr

/-- An access of another package or of the host that waits here until the line's holders have given it up (R285, R286, R329). -/
inductive FarReq where
  | read (src off n : Nat) (who : Sender)
  | write (src off : Nat) (ask : WriteAsk)
  | line (radd : Bool) (l : LinePacket)
  | hostRead (off : Nat)
  | hostWrite (off : Nat) (v : Word)
  deriving DecidableEq, Repr

/-- The fabric port (R284) and what it holds. `wanted` lists the transfers that accesses wait for, `inbox` those whose data has come, and
`answers` those answered otherwise; `late` holds the accesses of others that wait here. -/
structure Fabric where
  pkg    : BitVec 10
  unf    : BitVec 27
  fbbt   : Word
  fbit   : Word
  routes : BitVec 8192
  links  : BitVec 16
  peers  : List Peer
  dir    : List DirEntry
  held   : List HeldLine
  sent   : List FabMsg
  cache  : List (BitVec 32 × BitVec 32)
  wanted : List Want
  inbox  : List (Agent × FarKey)
  answers : List (Agent × FarKey × AckResult)
  late   : List FarReq
  posts  : List Post
  inCache : List TlbEntry
  nextId : Nat
  deriving DecidableEq, Repr

/-- A counted scratchpad partition of the core (R325, R327): its owner's save area, whether it lies at the high end, its
size in 8 KiB units, and its owner's first-level cache minimum. -/
structure Partition where
  owner : Nat
  high  : Bool
  scr   : Nat
  l1m   : Nat
  deriving DecidableEq, Repr

/-- A bind record as the hardware reads it when its operation word is written (R320). -/
structure BindRec where
  op      : Word
  save    : Word
  scratch : Word
  root    : Word
  berth   : Word
  deriving DecidableEq, Repr

/-- The slot table entry of this core (R320 to R323): the bind record's words, the event word, USED, whether OVR was set in
this activation, and the bind records held while an operation is being carried out. The active and shadow words are
views of the contexts. -/
structure Slot where
  op      : Word
  save    : Word
  scratch : Word
  root    : Word
  berth   : Word
  event   : Word
  used    : Word
  ovr     : Bool
  held    : List BindRec
  deriving DecidableEq, Repr

/-- A context of an accepted launch as the firmware keeps it (R313, R317, R318): its save area and scratch image, the die it may run on,
the cycle at which it last became Runnable, and the cycles it had waited when it last left that state. -/
structure CtxInfo where
  save    : Nat
  scratch : Nat
  berth   : BitVec 32
  member  : BitVec 2
  die     : Nat
  state   : CtxState
  since   : Word
  waited  : Word
  deriving DecidableEq, Repr

/-- An accepted launch (R309 to R313); `others` counts its contexts on other packages that have not exited, and `pkgs` names those
packages. -/
structure Launch where
  id   : Nat
  rec_ : Nat
  root : Nat
  ctr  : Word
  pre  : Bool
  prio : Nat
  scr  : Nat
  l1m  : Nat
  others : Nat
  pkgs : List Nat
  ctxs : List CtxInfo
  deriving DecidableEq, Repr

/-- Dispatch registers and the firmware's queues (R314, R315, R318). `exits` are the ends of contexts that have been told to the firmware,
oldest first (log entry 11), and `lost` the save areas of contexts whose spill or fill met a fatal event (R323, R324). -/
structure Dispatch where
  lwin     : List Word
  dage     : Word
  dcb      : List (Nat × BitVec 32)
  launches : List Launch
  nextLaunch : Nat
  exits    : List ExitEvent
  lost     : List Nat
  deriving DecidableEq, Repr

/-- The states of DSTAT (R331). -/
inductive DevState where
  | reset | rom | firmware | ready | recovery
  deriving DecidableEq, Repr

/-- The device, memory, power and trace blocks (R331 to R341). `trained` is how HBM training ends in the boot under way, where a step said
so; `power` false is the state after the thermal trip; `d3` is D3hot and `d3cold` D3cold; `hostRead` is what the latest host read
answered (R329). -/
structure Device where
  state    : DevState
  trained  : Option Bool
  err      : BitVec 8
  svn      : BitVec 32
  rladdr   : Word
  rllen    : Word
  rlctl    : Word
  nonce    : BitVec 256
  attOff   : Word
  attDone  : Bool
  rollback : Nat
  flash    : List Byte
  image    : List Byte
  mbase    : Word
  msize    : Word
  plim     : Word
  pnow     : Word
  tnow     : Word
  twarn    : Word
  tcrit    : Word
  holdoff  : Nat
  reports  : Nat
  power    : Bool
  d3       : Bool
  d3cold   : Bool
  hostRead : Option Word
  tripLog  : Bool
  trbase   : Word
  trsize   : Word
  trwp     : Word
  trctl    : Word
  trdrop   : Word
  ringPend : Nat
  portPend : Nat
  port     : List (BitVec 288)
  deriving DecidableEq, Repr

/-- A machine record sent to the management core (R110, R122): its cause is HANDLER_FETCH. -/
structure MachineRec where
  cause  : BitVec 8
  core   : Nat
  berth  : BitVec 32
  member : BitVec 2
  info   : Word
  fetch  : BitVec 8
  tcause : Word
  deriving DecidableEq, Repr

/-- Why the machine stops. -/
inductive Fault where
  /-- Raised by `step` when the hardware has removed package power at the thermal trip (R12, R337) and no reset is due:
  safe, a machine without power does nothing. -/
  | noPower
  deriving DecidableEq, Repr

/-- Why a step is refused. -/
inductive Refusal where
  /-- Raised by `exec` for an instruction that has no meaning in the model: safe, nothing is claimed of it. -/
  | notModelled (mnemonic : String)
  deriving DecidableEq, Repr

/-- The machine. `c` is the context in the core's active slot (`cs` says whether there is one and whether it is parked),
`sh` the one in the shadow slot, `spill` the one being spilled. `recs`, `ctrs`, `rlxw` and `tlb`, `icache` are R41 and R45 to R57, and `lbuf` is the loop buffer (R135). `agenda`
holds the device steps that are due, oldest first; `ir` is the word being issued; `tick` indexes the free values. -/
structure State where
  c        : Context
  cs       : CtxState
  coreNum  : Nat
  sh       : Option Context
  shReady  : Bool
  spill    : Option Context
  pendSwap : Bool
  parts    : List Partition
  quadHeld : BitVec 4
  slot     : Slot
  disp     : Dispatch
  dev      : Device
  fab      : Fabric
  mem      : Memory
  tlb      : List TlbEntry
  icache   : List (Word × BitVec 32)
  lbuf     : List (Word × BitVec 32)
  recs     : List RaceRec
  nextRec  : Nat
  ctrs     : List CounterHist
  rlxw     : List (Nat × RelNote)
  saved    : List Context
  mrecs    : List MachineRec
  ctrl     : List (Nat × Word)
  cycle    : Word
  ir       : BitVec 32
  agenda   : List Instr
  tick     : Nat
  deriving DecidableEq, Repr

def AReg.zero : AReg := { ptr := 0, base := 0, limit := 0, perm := 0 }
def DReg.zero : DReg := { len := 0, stride := 0 }

/-- A z element before any word has written it: stale (R269). -/
def ZElem.fresh : ZElem := { pos := 0, len := 0, held := 0, stale := true }

/-- System registers at reset (R84, R166, R181, R216, R233, R123). -/
def SysRegs.reset : SysRegs :=
  { status := 0, fpctl := 0, vfmt := 0, seed := 0, estart := 0, ffs := 0, grant := 0, berth := 0, retired := 0
    stallbank := 0, avec := 0, arpc := 0, shvec := 0, shpc := 0, shinfo := 0, tvec := 0, tpc := 0, tcause := 0
    tval := 0, telem := 0, tidx := 0, tpfx := 0, taux0 := 0, taux1 := 0 }

def VLoop.off : VLoop := { active := false, n := 0, strip := 0, vlmax := 0, first := 0, last := 0 }

/-- No convoy open: the next EP-class word opens one (R20). -/
def Convoy.fresh : Convoy :=
  { opened := false, total := 0, arith := 0, vmem := 0, chamber := 0, special := 0, matrix := 0, lazy := 0 }

def Channel.free : Channel :=
  { act := false, arv := false, flt := false, off := 0, gth := false, word := 0, pc := 0, src := 0, dst := 0, run := 0
    n1 := 0, ss1 := 0, ds1 := 0, n2 := 0, ss2 := 0, ds2 := 0, isz := 0, idx := 0, tbl := AReg.zero, ctr := 0
    user := false, order := 0, prior := [], ids := [], cause := none, told := false
    ret := 0, wait := 7 }

/-- Not attached (R232, R233). -/
def MatrixState.detached : MatrixState :=
  { mr := 0, acc := Vector.replicate 4 { W := [], V := [] }, tile := none, group := none, seq := none, ctr := none
    issues := [] }

def Barrier.reset : Barrier := { gen := 0, arrived := false, released := false, others := 0, members := 1, carries := [], out := [], pc := 0 }

/-- DWC registers 8 to 11 of the debug group reset with LOG = 2; the rest are zero (R339). -/
def debugReset : Vector Word 16 :=
  #v[0, 0, 0, 0, 0, 0, 0, 0, 0x20, 0x20, 0x20, 0x20, 0, 0, 0, 0]

/-- A context at its first activation, before its launch record's values (R123, R317). -/
def Context.reset : Context :=
  { x := Vector.replicate 32 0, xArr := Vector.replicate 8 0, a := Vector.replicate 16 AReg.zero
    d := Vector.replicate 6 DReg.zero, lc := Vector.replicate 3 0, desc := Vector.replicate 3 0, pc := 0
    sys := SysRegs.reset, tcp := Vector.replicate 8 0, dbg := debugReset, q := Vector.replicate 8 []
    v := Vector.replicate 32 0, vtag := Vector.replicate 32 .uniform, p := Vector.replicate 8 0
    k := Vector.replicate 8 0, z := Vector.replicate 8 (Vector.replicate 128 ZElem.fresh)
    hold := Vector.replicate 32 0, postH := Vector.replicate 32 [], postR := Vector.replicate 32 [], written := Vector.replicate 32 0, vloop := VLoop.off, convoy := Convoy.fresh
    levels := [], windows := [], pfxLive := false, pfxRet := none, replay := none, bypass := [], replaySalt := none
    chan := Vector.replicate 4 Channel.free
    lastFlt := none, lastRep := none, remote := [], mat := MatrixState.detached
    barrier := Vector.replicate 6 Barrier.reset, arrivals := 0, loads := [], sbuf := [], dirty := [], older := []
    hb := Vector.replicate 5 [], rel := [], seen := [], order := 0, wait := 0, exempt := false, atTvec := false, exiting := false
    qtrap := none, moved := [], member := 0, root := 0, save := 0, die := 15, scratchA := 0, scratch := [], scr := 0, l1m := 0, launch := 0
    preempt := false, fresh := false }

/-- The fabric port at reset (R284); links up is DESIGN CHOICE (log entry 2). -/
def Fabric.reset : Fabric :=
  { pkg := 0, unf := 0x4000000#27, fbbt := 0, fbit := 0, routes := 0, links := 0xFFFF#16, peers := [], dir := []
    held := [], sent := [], cache := [], wanted := [], inbox := [], answers := [], late := [], posts := []
    inCache := [], nextId := 1 }

def Slot.reset : Slot :=
  { op := 0, save := 0, scratch := 0, root := 0, berth := 0, event := 0, used := 0, ovr := false, held := [] }

/-- Dispatch at reset (R314). -/
def Dispatch.reset : Dispatch :=
  { lwin := [], dage := 0x00100000, dcb := [], launches := [], nextLaunch := 1, exits := [], lost := [] }

/-- The package blocks at reset (R331, R336): STATE is RESET, and a value the manual does not give is DESIGN CHOICE 0 (log
entry 2). -/
def Device.reset : Device :=
  { state := .reset, trained := none, err := 0, svn := 0, rladdr := 0, rllen := 0, rlctl := 0, nonce := 0, attOff := 0, attDone := false
    rollback := 0, flash := [], image := [], mbase := 0, msize := 0, plim := 3200, pnow := 0, tnow := 0, twarn := 95, tcrit := 105
    holdoff := 0, reports := 0, power := true, d3 := false, d3cold := false, hostRead := none, tripLog := false, trbase := 0, trsize := 0, trwp := 0
    trctl := 0, trdrop := 0, ringPend := 0, portPend := 0, port := [] }

/-- The machine right after package reset (R331): STATE is RESET, no core runs, memory lists nothing. -/
def State.reset : State :=
  { c := Context.reset, cs := .none, coreNum := 0, sh := none, shReady := false, spill := none, pendSwap := false
    parts := [], quadHeld := 0, slot := Slot.reset, disp := Dispatch.reset, dev := Device.reset, fab := Fabric.reset
    mem := [], tlb := [], icache := [], lbuf := [], recs := [], nextRec := 1, ctrs := [], rlxw := [], saved := [], mrecs := [], ctrl := []
    cycle := 0, ir := 0, agenda := [], tick := 0 }

end Sys2Proof.Machine
end

