-- ==== Sys2Proof/Machine/Ops.lean ====
section
/-!
DEFINITION. The named operations over registers and memory bytes, the shared end of every word, the entry of a trap (R108), taking an
arrival (R114) and the two returns (R109, R115).
-/

namespace Sys2Proof.Machine

/-- What a meaning ends in. -/
abbrev Out := Host.Outcome State Fault Refusal

/-- Element `i` of a vector, and `d` when there is none. -/
def nth {α : Type} {n : Nat} (v : Vector α n) (i : Nat) (d : α) : α := v[i]?.getD d

/-- The vector with element `i` replaced. -/
def upd {α : Type} {n : Nat} (v : Vector α n) (i : Nat) (a : α) : Vector α n := v.setIfInBounds i a

/-- Bit `i` of a word. -/
def bit (w : Word) (i : Nat) : Bool := w.getLsbD i

/-- A word with bit `i` set to `b`. -/
def setBit (w : Word) (i : Nat) (b : Bool) : Word :=
  if b then w ||| BitVec.twoPow 64 i else w &&& ~~~ BitVec.twoPow 64 i

/-- Bits `lo` to `lo + len − 1` of a word, as a number. -/
def field (w : Word) (lo len : Nat) : Nat := (w.extractLsb' lo len).toNat

/-- A word with bits `lo` to `lo + len − 1` replaced by the low bits of `v`. -/
def setField (w : Word) (lo len : Nat) (v : Nat) : Word :=
  (w &&& ~~~ (BitVec.ofNat 64 ((2 ^ len - 1) * 2 ^ lo))) ||| BitVec.ofNat 64 ((v % 2 ^ len) * 2 ^ lo)

/-- The number in [−2^(w−1), 2^(w−1)) that the low `w` bits of `v` stand for. -/
def toSigned (w v : Nat) : Int :=
  let u := v % 2 ^ w
  if 2 * u < 2 ^ w then (u : Int) else (u : Int) - (2 ^ w : Nat)

/-- The low `w` bits of an exact integer. -/
def wrapTo (w : Nat) (v : Int) : Nat := (v % ((2 ^ w : Nat) : Int)).toNat

/-- An exact integer modulo 2^64. -/
def wordOf (v : Int) : Word := BitVec.ofInt 64 v

/-! Bytes of memory in its canonical form. -/

/-- The byte at an address (log entry 1 for one that is not listed). -/
def readByte : Memory → Nat → Byte
  | [], _ => unlisted
  | (k, v) :: r, a => if k = a then v else if a < k then unlisted else readByte r a

/-- Memory with one byte written, in canonical form. -/
def writeByte : Memory → Nat → Byte → Memory
  | [], a, b => if b = unlisted then [] else [(a, b)]
  | (k, v) :: r, a, b =>
    if k = a then (if b = unlisted then r else (a, b) :: r)
    else if a < k then (if b = unlisted then (k, v) :: r else (a, b) :: (k, v) :: r)
    else (k, v) :: writeByte r a b

/-- The canonical form: addresses strictly rising, no entry equal to what an unlisted address reads as. -/
def Memory.wf : Memory → Bool
  | [] => true
  | [(_, v)] => v != unlisted
  | (k, v) :: (k', v') :: r => v != unlisted && decide (k < k') && Memory.wf ((k', v') :: r)

/-- `n` bytes from an address up, as a list. -/
def readBytes (m : Memory) (a : Nat) : Nat → List Byte
  | 0 => []
  | n + 1 => readByte m a :: readBytes m (a + 1) n

/-- Memory with a run of bytes written from an address up. -/
def writeBytes (m : Memory) (a : Nat) : List Byte → Memory
  | [] => m
  | b :: r => writeBytes (writeByte m a b) (a + 1) r

/-- The little-endian number of a run of bytes (R3: the least significant byte at the lowest address). -/
def leNat : List Byte → Nat
  | [] => 0
  | b :: r => b.toNat + 256 * leNat r

/-- The `n` little-endian bytes of a number. -/
def leBytes : Nat → Nat → List Byte
  | 0, _ => []
  | n + 1, v => BitVec.ofNat 8 v :: leBytes n (v / 256)

/-- The 8-byte little-endian word at an address. -/
def readWord (m : Memory) (a : Nat) : Word := BitVec.ofNat 64 (leNat (readBytes m a 8))

/-- Memory with an 8-byte little-endian word written. -/
def writeWord (m : Memory) (a : Nat) (w : Word) : Memory := writeBytes m a (leBytes 8 w.toNat)

/-! The status register (R166). -/

def State.prv (s : State) : Bool := bit s.c.sys.status 0
def State.pprv (s : State) : Bool := bit s.c.sys.status 1
def State.pfxp (s : State) : Bool := bit s.c.sys.status 2
def State.aie (s : State) : Bool := bit s.c.sys.status 3
def State.ain (s : State) : Bool := bit s.c.sys.status 4
def State.determ (s : State) : Bool := bit s.c.sys.status 5

/-- The context's system registers replaced. -/
def State.withSys (s : State) (y : SysRegs) : State := { s with c := { s.c with sys := y } }

/-- STATUS replaced. -/
def State.withStatus (s : State) (w : Word) : State := s.withSys { s.c.sys with status := w }

/-- The program counter replaced. -/
def State.withPc (s : State) (p : Word) : State := { s with c := { s.c with pc := p } }

/-! Registers. A register written joins those written since the containment point (R112). -/

/-- Record that a register was written (R112). -/
def State.mark (s : State) (r : RegName) : State :=
  { s with c := { s.c with dirty := if r ∈ s.c.dirty then s.c.dirty else r :: s.c.dirty } }

/-- x[n]: x0 reads zero, and x24 to x31 name the arrival set while AIN = 1 (R123). -/
def State.rx (s : State) (n : BitVec 5) : Word :=
  if n = 0#5 then 0
  else if s.ain && decide (24 ≤ n.toNat) then nth s.c.xArr (n.toNat - 24) 0
  else nth s.c.x n.toNat 0

/-- x[n] := v: a write to x0 is discarded (R123). -/
def State.wx (s : State) (n : BitVec 5) (v : Word) : State :=
  if n = 0#5 then s
  else if s.ain && decide (24 ≤ n.toNat) then
    { s with c := { s.c with
      xArr := upd s.c.xArr (n.toNat - 24) v, loads := s.c.loads.filter (· != RegName.xArr n.toNat) } }.mark (.xArr n.toNat)
  else { s with c := { s.c with x := upd s.c.x n.toNat v, loads := s.c.loads.filter (· != RegName.x n.toNat) } }.mark (.x n.toNat)

/-- The name that x[n] has now: one of the main or of the arrival set (R123). -/
def State.xName (s : State) (n : BitVec 5) : RegName := if s.ain && decide (24 ≤ n.toNat) then .xArr n.toNat else .x n.toNat

/-- The data of a load is what x[n] holds: it may still be on its way (R151, R157). -/
def State.loaded (s : State) (n : BitVec 5) : State :=
  if n = 0#5 then s else { s with c := { s.c with loads := s.xName n :: s.c.loads } }

/-- Address register n (R126). -/
def State.ra (s : State) (n : Nat) : AReg := nth s.c.a n AReg.zero

/-- Address register n := v. -/
def State.wa (s : State) (n : Nat) (v : AReg) : State :=
  { s with c := { s.c with a := upd s.c.a n v } }.mark (.a n)

/-- Dimension register n (R123). -/
def State.rd (s : State) (n : Nat) : DReg := nth s.c.d n DReg.zero

/-- Dimension register n := v. -/
def State.wd (s : State) (n : Nat) (v : DReg) : State :=
  { s with c := { s.c with d := upd s.c.d n v } }.mark (.d n)

/-- Loop counter n. -/
def State.rlc (s : State) (n : Nat) : Word := nth s.c.lc n 0

/-- Loop counter n := v. -/
def State.wlc (s : State) (n : Nat) (v : Word) : State :=
  { s with c := { s.c with lc := upd s.c.lc n v } }.mark (.lc n)

/-- Loop descriptor n (R129). -/
def State.rdesc (s : State) (n : Nat) : Word := nth s.c.desc n 0

/-- Loop descriptor n := v. -/
def State.wdesc (s : State) (n : Nat) (v : Word) : State :=
  { s with c := { s.c with desc := upd s.c.desc n v } }.mark (.desc n)

/-! How a meaning goes on: a value and a state, a trap, or a wait with a stall reason (R28). -/

inductive Res (α : Type) where
  | ok (a : α) (s : State)
  | trap (t : TrapInfo) (s : State)
  | wait (reason : Nat) (s : State)

/-- Go on with a result. -/
def Res.bind {α β : Type} (r : Res α) (k : α → State → Res β) : Res β :=
  match r with
  | .ok a s => k a s
  | .trap t s => .trap t s
  | .wait n s => .wait n s

/-! Trap records (R100, R101). -/

/-- A trap at the word being issued, with element 0 and no further fields. -/
def State.trapInfo (s : State) (apw : Bool) (cause : BitVec 8) (tval : Word) : TrapInfo :=
  { cause := cause, tpc := s.c.pc, tval := tval, telem := 0, tidx := 0, taux0 := 0, taux1 := 0, apw := apw
    strip := false, estart := 0 }

/-- ILLEGAL_INSN and PRIV: TVAL holds the failing word (R68). -/
def State.illegal (s : State) (apw : Bool) : TrapInfo := s.trapInfo apw 0x01 (s.ir.zeroExtend 64)
def State.privTrap (s : State) (apw : Bool) : TrapInfo := s.trapInfo apw 0x04 (s.ir.zeroExtend 64)

/-- TCAUSE of a record (R101). -/
def tcauseOf (t : TrapInfo) : Word :=
  setBit (setBit (t.cause.zeroExtend 64) 14 t.apw) 15 t.strip

/-- The rotation of a strip (R17). -/
def rotOf (strip : Word) : Nat := 8 * (strip.toNat % 8)

/-- The lane of the element at fault, which has begun F and nothing younger (R17, R103). -/
def faultLane (s : State) (t : TrapInfo) : Option Nat :=
  if t.inLane then some ((t.telem + (if s.c.vloop.active then rotOf s.c.vloop.strip else 0)) % 64) else none

/-- TCP0 to TCP7 at a trap at a vector word: the lane at fault has begun one word, and every other lane's count is 0 to 49 and otherwise
open (R103; log entry 5). -/
def commitPointers (tick : Nat) (lane : Option Nat) : Vector Word 8 :=
  Vector.ofFn fun n : Fin 8 => BitVec.ofNat 64 ((List.range 8).foldl (fun acc j =>
    acc + (if lane = some (8 * n.val + j) then 1 else Config.commitPointer tick (8 * n.val + j) % 50) * 256 ^ j) 0)

/-- The context in the active slot becomes Parked and the management core gets a machine record (R110, R122). -/
def State.park (s : State) (info : Word) (fetch : BitVec 8) (tcause : Word) : State :=
  { s with
    cs := .parked
    slot := { s.slot with event := setBit s.slot.event 2 true }
    mrecs := s.mrecs ++ [{ cause := 0x0F, core := s.coreNum, berth := s.c.sys.berth.truncate 32, member := s.c.member, info := info
                           fetch := fetch, tcause := tcause }] }

/-- What is set aside of the words that a trap or an arrival interrupts (R20, R71, R73). -/
def interrupted (s : State) : Level :=
  { prv := s.prv, pc := s.c.pc, pfx := if s.c.pfxLive then some s.c.pc else none, convoy := s.c.convoy, windows := s.c.windows, bypass := s.c.bypass, replaySalt := s.c.replaySalt }

/-- The transfers of some agents' accesses are not waited for any more, and their data is used up (R285): a line that was asked for still
comes, for nobody's access. -/
def dropTransfers (p : Agent → Bool) (s : State) : State :=
  { s with fab := { s.fab with
      wanted := (s.fab.wanted.filter fun w => !p w.who || w.key.off == 0).map fun w => if p w.who then { w with who := .nobody } else w
      inbox := s.fab.inbox.filter fun q => !p q.1
      answers := s.fab.answers.filter fun q => !p q.1 } }

/-- The entry of a trap (R108): the record is written, ESTART takes the element, PPRV takes PRV, PRV becomes 1 and PC goes to
TVEC. A payload that was pending for the word at PC stays in TPFX and PFXP (R71); the interrupted convoy and
transient results are set aside (R20, R74); TRP is set (R323). The word's accesses are made anew when it issues again. `takeTrap` completes
the older matrix issues first. -/
def enterTrap (t : TrapInfo) (s : State) : State :=
  { dropTransfers Agent.ofWord s with
    c := { s.c with
      sys := { s.c.sys with
        tpc := t.tpc, tcause := tcauseOf t, tval := t.tval, telem := BitVec.ofNat 64 (t.telem % 65536)
        tidx := t.tidx &&& 0xFFFFFFFFFFFF, taux0 := t.taux0, taux1 := t.taux1
        estart := BitVec.ofNat 64 t.estart
        status := setBit (setBit s.c.sys.status 1 s.prv) 0 true }
      pc := s.c.sys.tvec
      tcp := if t.apw then s.c.tcp else commitPointers s.tick (faultLane s t)
      pfxLive := false
      levels := interrupted s :: s.c.levels
      convoy := Convoy.fresh, windows := [], bypass := [], replaySalt := none
      wait := 0, exempt := false, atTvec := true, exiting := false, replay := none, moved := s.c.moved.filter (!·.who.ofWord) }
    slot := { s.slot with event := setBit s.slot.event 0 true } }

/-- The newest interrupted level that a return to `prv` comes back to, and those below it: a return to user level leaves behind the
levels that handlers were interrupted at. -/
def levelFor (prv : Bool) : List Level → Option Level × List Level
  | [] => (none, [])
  | l :: r => if l.prv == prv then (some l, r) else if prv then (none, l :: r) else levelFor prv r

/-- A payload that STATUS.PFXP says is pending when control comes back to `target`: it is reapplied at PFX + 4 of the newest interrupted
words that had one pending, and dropped elsewhere (R71). Where none had, one that a handler wrote goes to the word returned to (log
entry 73). -/
def resumePfx (target : Word) (pfx : Option Word) (s : State) : State :=
  if s.pfxp && (pfx == none || pfx == some target) then { s with c := { s.c with pfxLive := true } }
  else { s with c := { s.c with pfxLive := false, sys := { s.c.sys with status := setBit s.c.sys.status 2 false } } }

/-- The convoy, the transient results and the payload that control comes back to at `prv`, at an address (R20, R71, R73, R74). What an
interrupted word left for its replay, its partial result and its salt, stays where the address is the word's (R92, R109). -/
def popLevel (prv : Bool) (target : Word) (s : State) : State :=
  match levelFor prv s.c.levels with
  | (some l, r) =>
    resumePfx target ((l :: r).findSome? (·.pfx)) { s with c := { s.c with
      convoy := l.convoy, windows := l.windows, levels := r
      bypass := if target = l.pc then l.bypass else [], replaySalt := if target = l.pc then l.replaySalt else none } }
  | (none, r) => resumePfx target (r.findSome? (·.pfx)) { s with c := { s.c with levels := r } }

/-- RETIRED counts the word (R164); the first-word exemptions end (R109, R110), the agent no longer waits, and the data that came
from other packages for it is used up. -/
def retire (s : State) : State :=
  { s with
    c := { s.c with sys := { s.c.sys with retired := s.c.sys.retired + 1 }, exempt := false, atTvec := false, wait := 0 }
    fab := { s.fab with inbox := s.fab.inbox.filter fun p => !p.1.ofWord } }

/-- The channel that a TRET resumes: the one the latest engine-fault trap reported, when TPC is its command's address and it
is stopped (R177). -/
def resumedChannel (s : State) : Option (Nat × Channel) :=
  match s.c.lastFlt with
  | none => none
  | some i =>
    let ch := nth s.c.chan i Channel.free
    if ch.act && ch.flt && decide (ch.pc = s.c.sys.tpc) then some (i, ch) else none

/-- The remote report that a TRET ends: the one the latest such trap took, when TPC is its command's address (R292). -/
def resumedReport (s : State) : Option RemoteCmd :=
  match s.c.lastRep with
  | none => none
  | some id => s.c.remote.find? fun r => r.id == id && decide (r.pc = s.c.sys.tpc) && r.taken

/-- The report that a trap took is done with: the three writes are made again, or the next report is due (R291, R292). -/
def endReport (q : RemoteCmd) : RemoteCmd :=
  if q.wfail.isSome then { q with taken := false, wfail := none } else { q with taken := false, reports := q.reports.drop 1 }

/-- A command has a report to make: a completion write that failed, or an outcome once its block is written (R291, R292). -/
def RemoteCmd.pends (q : RemoteCmd) : Bool := q.wfail.isSome || (q.written && !q.reports.isEmpty)

/-- The reports that are pending now wait for the next user-level instruction (R292). -/
def deferReports (l : List RemoteCmd) : List RemoteCmd := l.map fun q => if q.pends then { q with deferred := true } else q

/-- Where a TRET goes and what it resumes (R109, R177, R292). -/
def returnPoint (s : State) : Word × State :=
  match resumedChannel s with
  | some (i, ch) =>
    (ch.ret, { s with c := { s.c with chan := upd s.c.chan i { ch with flt := false, told := false, cause := none }
                                      lastFlt := none, replay := none } })
  | none =>
    match resumedReport s with
    | some r =>
      (r.ret, { s with c := { s.c with
        remote := deferReports ((s.c.remote.map fun q => if q.id == r.id then endReport q else q).filter fun q =>
          !(q.written && q.reports.isEmpty))
        lastRep := none, replay := none } })
    | none => (s.c.sys.tpc, { s with c := { s.c with replay := some s.c.sys.tpc } })

/-- The return from a trap (R109, R162): PRV takes PPRV, PPRV becomes 0, and control goes to TPC, or to the return point of
the channel or report that the return resumes. Loops and the vector loop are unchanged (R134, R204). -/
def trapReturn (s : State) : State :=
  let (target, s1) := returnPoint s
  let s2 := retire s1
  let s3 := s2.withStatus (setBit (setBit s2.c.sys.status 0 s.pprv) 1 false)
  popLevel s.pprv target { s3 with c := { s3.c with pc := target, exempt := true } }

/-- Taking a pending arrival at the oldest unsettled word (R114). The handler's first word is exempt from breakpoints when it is the first to
issue after a TRET (R109). `takeArrival` completes the older matrix issues first. -/
def enterArrival (s : State) : State :=
  { dropTransfers Agent.ofWord s with c := { s.c with
      sys := { s.c.sys with arpc := s.c.pc, status := setBit s.c.sys.status 4 true }
      pc := s.c.sys.avec
      arrivals := s.c.arrivals - 1
      pfxLive := false
      levels := interrupted s :: s.c.levels
      convoy := Convoy.fresh, windows := [], bypass := [], replaySalt := none
      wait := 0, atTvec := false, exiting := false, moved := s.c.moved.filter (!·.who.ofWord) } }

/-- Leaving the arrival handler (R115): the main set of x24 to x31 is back, and control goes to ARPC. -/
def arrivalReturn (s : State) : State :=
  let s2 := retire s
  let s3 := s2.withStatus (setBit s2.c.sys.status 4 false)
  popLevel s.prv s.c.sys.arpc (s3.withPc s.c.sys.arpc)

/-! The end of a word: the program counter, hardware loops and the vector loop. -/

/-- A level is active (R129). -/
def descActive (d : Word) : Bool := bit d 63
/-- Address of the first body word, bits 1:0 zero (R129). -/
def descFirst (d : Word) : Word := BitVec.ofNat 64 (4 * field d 2 46)
/-- Address of the last body word: FIRST + 4 × LEN (R129). -/
def descLast (d : Word) : Word := descFirst d + BitVec.ofNat 64 (4 * field d 48 9)

/-- An address lies in a level's body. -/
def inBody (d p : Word) : Bool := descActive d && decide (descFirst d ≤ p) && decide (p ≤ descLast d)

/-- An address lies in the active vector loop's body. -/
def inVloop (v : VLoop) (p : Word) : Bool := v.active && decide (v.first ≤ p) && decide (p ≤ v.last)

/-- The turn of level `l`, considered at a completed word at `p` (R131): the state, and whether the level turned. -/
def turnLevel (l : Nat) (p : Word) (s : State) : State × Bool :=
  let d := s.rdesc l
  if descActive d && decide (descLast d = p) then
    if 1 < (s.rlc l).toNat then ((s.wlc l (s.rlc l - 1)).withPc (descFirst d), true)
    else ((s.wlc l 0).wdesc l (setBit d 63 false), false)
  else (s, false)

/-- A word at `p` is the last of the active vector loop. -/
def endsVloop (v : VLoop) (p : Word) : Bool := v.active && decide (v.last = p)

/-- The turn of the vector loop (R204): the next strip from the first word, or its end. -/
def turnVloop (s : State) : State :=
  let v := s.c.vloop
  let strip := v.strip + 1
  let s1 := (s.withSys { s.c.sys with ffs := setBit s.c.sys.ffs 47 false }).mark (.sys 6)
  if strip.toNat * v.vlmax < v.n.toNat then
    { s1 with c := { s1.c with vloop := { v with strip := strip }, pc := v.first } }
  else { s1 with c := { s1.c with vloop := { v with active := false, strip := 0 } } }

/-- The turn of level `l` at a completed word at `p`, where it takes part and no level inside it has turned (R131). -/
def turnStep (q : Nat → Bool) (p : Word) (l : Nat) (r : State × Bool) : State × Bool :=
  if !r.2 && q l then turnLevel l p r.1 else r

/-- The levels that take part turn, from the innermost out: the state, and whether one turned (R131). -/
def turnAmong (q : Nat → Bool) (p : Word) (s : State) : State × Bool :=
  turnStep q p 0 (turnStep q p 1 (turnStep q p 2 (s, false)))

/-- Level `l` lies inside the active vector loop's body, which it shares its last word with (R205). One that begins at the same word, as MTLB
can make it, counts as inside: DEDUCED (log entry 35). -/
def insideVloop (s : State) (l : Nat) : Bool := decide (s.c.vloop.first ≤ descFirst (s.rdesc l))

/-- Every level turns at a completed word at `p`, and the context goes to the next word where none does (R131). -/
def turnLevels (p : Word) (s : State) : State :=
  let r := turnAmong (fun _ => true) p s
  if r.2 then r.1 else r.1.withPc (p + 4)

/-- Where the context goes after a word at `p` that completes and does not transfer control (R131, R204). At the vector loop's last word
the levels inside its body turn first, then the vector loop, and the levels around it only once it has ended (R205). -/
def advance (p : Word) (s : State) : State :=
  if endsVloop s.c.vloop p then
    let r := turnAmong (insideVloop s) p s
    if r.2 then r.1
    else
      let s1 := turnVloop r.1
      if s1.c.vloop.active then s1 else turnLevels p s1
  else turnLevels p s

/-- A word completes without transferring control. -/
def complete (s : State) : State := advance s.c.pc (retire s)

/-- Deactivate level `l` (R133). -/
def dropLevel (l : Nat) (s : State) : State := s.wdesc l (setBit (s.rdesc l) 63 false)

/-- The level is active and the target lies outside its body. -/
def leaves (l : Nat) (t : Word) (s : State) : Bool := descActive (s.rdesc l) && !inBody (s.rdesc l) t

/-- What a taken transfer to `t` ends: the outermost level it leaves with every deeper one (R133), and the vector loop
(R204). -/
def leaveLoops (t : Word) (s : State) : State :=
  let s1 :=
    if leaves 0 t s then dropLevel 2 (dropLevel 1 (dropLevel 0 s))
    else if leaves 1 t s then dropLevel 2 (dropLevel 1 s)
    else if leaves 2 t s then dropLevel 2 s
    else s
  if s1.c.vloop.active && !inVloop s1.c.vloop t then
    { s1 with c := { s1.c with vloop := { s1.c.vloop with active := false, strip := 0 } } }
  else s1

/-- A word completes and transfers control to `t`. -/
def jumpTo (t : Word) (s : State) : State := (leaveLoops t (retire s)).withPc t

end Sys2Proof.Machine
end

