-- ==== Sys2Proof/Machine/Mem.lean ====
section
/-!
DEFINITION. Addresses, translation, the fabric gate, race checking, watchpoints, counter words and the byte accesses that
every load, store, engine and port makes. A location below 2^52 is a physical address; 2^52 + o is byte o of the accessing
context's scratchpad partition (R38).
-/

namespace Sys2Proof.Machine

/-! Physical addresses (R35). -/

def pkgOf (pa : Nat) : Nat := pa / 2 ^ 42 % 1024
def offOf (pa : Nat) : Nat := pa % 2 ^ 42
def hbmBytes : Nat := 0xC000000000
def sliceBase : Nat := 0x10000000000
def sliceEnd : Nat := 0x100C0000000
def ctrlBase : Nat := 0x20000000000
def coreLoc : Nat := 2 ^ 52

/-- The blocks of R330 that a leaf may map, by the offset's 64 KiB page: device, memory, power, trace and fabric blocks, and
the dispatch block of 256 KiB. -/
def ctrlPage (off : Nat) : Bool :=
  let k := (off - ctrlBase) / 65536
  decide (ctrlBase ≤ off) && (decide (k < 5) || (decide (16 ≤ k) && decide (k < 20)))

/-- META_BASE and META_SIZE of a package: this one's, or a peer's (R49, R332). -/
def homeCarve (s : State) (pkg : Nat) : Word × Word :=
  if pkg = s.fab.pkg.toNat then (s.dev.mbase, s.dev.msize)
  else match s.fab.peers.find? fun p => p.pkg == pkg with
    | some p => (p.mbase, p.msize)
    | none => (0, 0)

/-- The race carve-out of a package covers every frame of a page of its HBM, and the page lies outside it (R49, R332). -/
def carveCovers (s : State) (pkg off size : Nat) : Bool :=
  let c := homeCarve s pkg
  decide ((off + size - 1) / 16 < c.2.toNat)
    && (decide (off + size ≤ c.1.toNat) || decide (c.1.toNat + c.2.toNat ≤ off))

/-! Page-table entries (R37). -/

def leafHome (e : Word) : Nat := field e 62 2
def leafRd (e : Word) : Bool := bit e 61
def leafElr (e : Word) : Bool := bit e 60
def leafFrz (e : Word) : Bool := bit e 59
def leafLeaf (e : Word) : Bool := bit e 58
def leafPage (e : Word) : Nat := field e 16 36 * 65536
def leafUser (e : Word) : Bool := bit e 3
def leafExec (e : Word) : Bool := bit e 2
def leafWrite (e : Word) : Bool := bit e 1
def leafValid (e : Word) : Bool := bit e 0

/-- What a leaf of level `l` maps (R39). -/
def levelSize : Nat → Nat
  | 0 => 65536
  | 1 => 2 ^ 21
  | _ => 2 ^ 30

/-- The table index of a virtual address at a level (R39). -/
def levelIndex (l va : Nat) : Nat := if l = 0 then va / 65536 % 32 else va / 2 ^ (12 + 9 * l) % 512

/-- A leaf's PPN is what its HOME asks for (R38). -/
def ppnOk (s : State) (l : Nat) (e : Word) : Bool :=
  let pa := leafPage e
  let off := offOf pa
  let hbm := decide (off < hbmBytes)
  match leafHome e with
  | 0 => hbm
  | 1 => decide (sliceBase ≤ off) && decide (off < sliceEnd)
  | 2 => decide (pa / 65536 < 4)
  | _ => hbm || (ctrlPage off && l == 0 && !leafRd e && !leafUser e && !leafExec e && pkgOf pa == s.fab.pkg.toNat)

/-- RD = 1 only on a frame that the race records of its home cover (R40, R49). Slices and partitions have their own tag stores. -/
def rdOk (s : State) (l : Nat) (e : Word) : Bool :=
  let pa := leafPage e
  !leafRd e || leafHome e == 1 || leafHome e == 2 || carveCovers s (pkgOf pa) (offOf pa) (levelSize l)

/-- A well-formed leaf at level `l` (R37 to R40). -/
def leafOk (s : State) (l : Nat) (e : Word) : Bool :=
  decide (l < 3) && field e 52 6 == 0 && field e 6 10 == 0 && leafPage e % levelSize l == 0 && ppnOk s l e && rdOk s l e

/-- A well-formed table entry at level `l`: only V and the next table's aligned address (R37, R39). -/
def tableOk (l : Nat) (e : Word) : Bool :=
  decide (0 < l) && field e 1 7 == 0 && field e 52 12 == 0 && (l == 1 || field e 8 4 == 0)

/-- The end of a walk (R40). -/
inductive Walk where
  | leaf (e : Word) (size entry : Nat)
  | miss
  | malformed
  deriving DecidableEq, Repr

/-- The walk from a table at level `l` down (R39, R40). A table whose address lies in another package or at a reserved offset is read from
the byte list like any other, without the fabric port: DESIGN CHOICE (log entry 74: the manual lists no outcome for it). -/
def walkFrom (s : State) (va : Nat) : Nat → Nat → Walk
  | l, table =>
    let at_ := table + 8 * levelIndex l va
    let e := readWord s.mem at_
    if !leafValid e then .miss
    else if leafLeaf e then (if leafOk s l e then .leaf e (levelSize l) at_ else .malformed)
    else if !tableOk l e then .malformed
    else match l with
      | 0 => .malformed
      | n + 1 => walkFrom s va n (field e 8 44 * 256)

/-- A cached translation of the address, when one is held and is used again (R41; log entry 6). -/
def cachedLeaf (s : State) (va : Nat) : Option TlbEntry :=
  match s.tlb.find? fun t => t.root == s.c.root && decide (t.va ≤ va) && decide (va < t.va + t.size) with
  | some t => if Config.tlbUsed s.tick then some t else none
  | none => none

/-- The leaf an access is translated by: a cached one, or the walk's. -/
def findLeaf (s : State) (va : Nat) : Walk :=
  match cachedLeaf s va with
  | some t => .leaf t.leaf t.size t.entry
  | none => walkFrom s va 3 s.c.root

/-- Keep a translation (R41). -/
def cacheLeaf (s : State) (va : Nat) (e : Word) (size entry : Nat) : State :=
  let base := va / size * size
  { s with tlb := { root := s.c.root, va := base, size := size, leaf := e, entry := entry }
      :: s.tlb.filter fun t => !(t.root == s.c.root && decide (t.va ≤ va) && decide (va < t.va + t.size)) }

/-- The page permission check (R40). -/
def permitted (e : Word) (acc : Access) : Bool :=
  !(acc.user && !leafUser e) && !(acc.write && !leafWrite e) && !(acc.fetch && !leafExec e)

/-- The walker sets A, and D for a write or atomic, by an atomic update (R37). An entry cached with them set is not updated
again. -/
def setAD (s : State) (va : Nat) (e : Word) (size entry : Nat) (acc : Access) : State :=
  let e' := setBit (if acc.write then setBit e 5 true else e) 4 true
  if e' = e then cacheLeaf s va e size entry
  else
    let m := readWord s.mem entry
    let m' := setBit (if acc.write then setBit m 5 true else m) 4 true
    cacheLeaf { s with mem := writeWord s.mem entry m' } va e' size entry

/-- What a translation gives: the location, and the fields of the leaf that the access needs. -/
structure Xlat where
  loc  : Nat
  home : Nat
  rd   : Bool
  elr  : Bool
  frz  : Bool
  deriving DecidableEq, Repr

/-- Translate one access of `n` bytes (R34 to R41): a location, or XLATE_MISS or XLATE_PROT, and the state with A, D and
the cached translation. -/
def translate (s : State) (va : Word) (n : Nat) (acc : Access) : Except (BitVec 8) Xlat × State :=
  let a := va.toNat
  if 2 ^ 48 ≤ a then (.error 0x09, s)
  else match findLeaf s a with
    | .miss => (.error 0x08, s)
    | .malformed => (.error 0x09, s)
    | .leaf e size entry =>
      if !permitted e acc then (.error 0x09, cacheLeaf s a e size entry)
      else
        let s1 := setAD s a e size entry acc
        let o := leafPage e + a % size
        if leafHome e = 2 then
          if s.c.scr * 8192 < o + n then (.error 0x09, s1)
          else (.ok { loc := coreLoc + o, home := 2, rd := leafRd e, elr := leafElr e, frz := leafFrz e }, s1)
        else (.ok { loc := o, home := leafHome e, rd := leafRd e, elr := leafElr e, frz := leafFrz e }, s1)

/-! Routes and inbound tables (R283, R287). -/

/-- The port that transfers to a package leave through, when its route is valid and its link is up (R283, R284). -/
def routePort (s : State) (pkg : Nat) : Option Nat :=
  let b := (s.fab.routes.extractLsb' (8 * pkg) 8).toNat
  let port := b % 16
  if b / 16 % 2 = 1 && s.fab.links.getLsbD port then some port else none

/-- The package that a message is for. -/
def msgDest : FabMsg → Nat
  | .inv d _ => d | .iack d _ _ => d | .data d _ _ _ => d | .rds d _ => d | .rdx d _ => d | .wb d _ _ => d
  | .readReq d _ _ => d | .writeReq d _ _ => d | .readResp d _ _ _ _ => d | .writeResp d _ _ => d
  | .packet d _ _ _ => d | .post d _ => d | .postResp d _ _ _ => d | .lineResp d _ _ => d | .barrier d _ _ _ => d

/-- A transfer to a package can leave: it is another one, with a route and a link that is up (R283). -/
def reachable (s : State) (pkg : Nat) : Bool := pkg != s.fab.pkg.toNat && (routePort s pkg).isSome

/-- A message leaves the package, where it can (R283). -/
def sendMsg (m : FabMsg) (s : State) : State :=
  if reachable s (msgDest m) then { s with fab := { s.fab with sent := s.fab.sent ++ [m] } } else s

/-- A target's answer to an arriving access (R287). -/
inductive Inbound where
  | ok
  | refused (reason : Nat)
  | moved
  deriving DecidableEq, Repr

/-- The walk of an inbound table for an arriving offset (R287). -/
def inboundFrom (mem : Memory) (pa : Nat) (wr : Bool) : Nat → Nat → Inbound
  | l, table =>
    let off := offOf pa
    let e := readWord mem (table + 8 * levelIndex l off)
    if !leafValid e then .refused 0
    else if leafLeaf e then
      if 3 ≤ l then .refused 1
      else if leafPage e != off / levelSize l * levelSize l then .refused 1
      else if wr && !leafWrite e then .refused 0
      else if wr && leafFrz e then .moved
      else .ok
    else if !tableOk l e then .refused 1
    else match l with
      | 0 => .refused 1
      | n + 1 => inboundFrom mem pa wr n (field e 8 44 * 256)

/-- The inbound check at the package whose FBIT is given (R284, R287). -/
def inboundCheck (s : State) (fbit : Word) (pa : Nat) (wr : Bool) : Inbound :=
  if !bit fbit 0 then .refused 0
  else inboundFrom s.mem pa wr 3 (pkgOf pa * 2 ^ 42 + field fbit 12 36 * 4096)

/-- FBIT of the package that is home to a physical address: this package's own, or a peer's; a package that the model holds
no registers of has them at reset (R284). -/
def homeFbit (s : State) (pkg : Nat) : Word :=
  if pkg = s.fab.pkg.toNat then s.fab.fbit
  else match s.fab.peers.find? fun p => p.pkg == pkg with
    | some p => p.fbit
    | none => 0

/-- A line of another package is held here so that the access needs no transfer (R285, R286). -/
def lineHeld (s : State) (line : Nat) (wr : Bool) : Bool :=
  s.fab.held.any fun h => h.line == line && (!wr || h.modified)

/-- Discard cached translations of the page that holds an address (R163, R288). -/
def dropPage (s : State) (va : Nat) : State :=
  { s with tlb := s.tlb.filter fun t => !(decide (t.va ≤ va) && decide (va < t.va + t.size)) }

/-- Two virtual addresses lie in one 64 KiB page. -/
def samePage (a b : Word) : Bool := a.toNat / 65536 == b.toNat / 65536

/-- The place in program order of the command whose access it is; that of the word being issued comes after every command's. -/
def accessOrder (s : State) : Agent → Nat
  | .channel i => (nth s.c.chan i Channel.free).order
  | .port id => ((s.c.remote.find? fun r => r.id == id).map (·.order)).getD s.c.order
  | _ => s.c.order

/-- A record is of one waiting access: an agent's, at an address. -/
def sameAccess (who : Agent) (va : Word) (m : Moved) : Bool := m.who == who && m.info.tval == va

/-- An older access to the same virtual page has been answered "moved" and has not yet succeeded (R288). -/
def heldByMoved (s : State) (who : Agent) (va : Word) : Bool :=
  (s.c.remote.any fun r => decide (r.order < accessOrder s who) && r.xfers.any fun x => x.moved && !x.acked && samePage x.va va)
    || (s.c.moved.any fun m => m.who != who && samePage m.info.tval va && decide (accessOrder s m.who < accessOrder s who))

/-- The access is answered "moved": it is noted, once, and the cached translation of its page is dropped (R288). -/
def noteMoved (s : State) (who : Agent) (va : Word) (t : TrapInfo) : State :=
  let s1 := dropPage s va.toNat
  if s1.c.moved.any (sameAccess who va) then s1
  else { s1 with c := { s1.c with moved := s1.c.moved ++ [{ who := who, info := t, since := s.cycle, ended := false }] } }

/-- The access has succeeded (R288). -/
def endMoved (s : State) (who : Agent) (va : Word) : State :=
  if s.c.moved.isEmpty then s else { s with c := { s.c with moved := s.c.moved.filter fun m => !sameAccess who va m } }

/-- An agent's accesses wait no more. -/
def forgetMoved (s : State) (who : Agent) : State :=
  if s.c.moved.isEmpty then s else { s with c := { s.c with moved := s.c.moved.filter fun m => m.who != who } }

/-- Which of a line's other holders an access here has to wait for (R286): a holder that has it modified, and for a write every
holder. -/
def holdersOf (s : State) (line : Nat) (wr : Bool) : List Nat :=
  match s.fab.dir.find? fun d => d.line == line with
  | some d => if wr || d.state == .modified then d.sharers.filter (· != s.fab.pkg.toNat) else []
  | none => []

/-- The home can reach a line's holders (R283). -/
def canRecall (s : State) (line : Nat) (wr : Bool) : Bool := (holdersOf s line wr).all fun p => (routePort s p).isSome

/-- An access here to a line that other packages hold: the home asks them to give it up, and the access waits (R286). -/
def recallLine (s : State) (line : Nat) (wr : Bool) : State :=
  let own := s.fab.pkg.toNat
  let ask := holdersOf s line wr
  { s with fab := { s.fab with
      dir := s.fab.dir.map fun d =>
        if d.line == line && !(d.reqs.contains (own, wr)) then
          { d with reqs := d.reqs ++ [(own, wr)], pending := d.pending ++ ask.filter fun p => !d.pending.contains p }
        else d
      sent := s.fab.sent ++ (s.fab.dir.flatMap fun d =>
        if d.line == line && !(d.reqs.contains (own, wr)) then
          (ask.filter fun p => !d.pending.contains p).map fun p => FabMsg.inv p line
        else []) } }

/-- The home asks for the line no more. -/
def dropRecall (s : State) (line : Nat) : State :=
  let own := s.fab.pkg.toNat
  { s with fab := { s.fab with dir := s.fab.dir.map fun d =>
      if d.line == line then { d with reqs := d.reqs.filter fun r => r.1 != own } else d } }

/-- An access of another package, or of the host, that has passed its checks here: at once where no other package holds the line, and
otherwise once the holders have given it up, or refused where one of them cannot be reached (R283, R285, R286). -/
def afterRecall (line : Nat) (wr : Bool) (req : FarReq) (refuse apply : State → State) (s : State) : State :=
  if (holdersOf s line wr).isEmpty then apply s
  else if canRecall s line wr then
    let s1 := recallLine s line wr
    { s1 with fab := { s1.fab with late := s1.fab.late ++ [req] } }
  else refuse s

/-- First kind of R47. -/
def AccKind.num : AccKind → Nat
  | .read => 0 | .write => 1 | .atomic => 2 | _ => 3

/-- The lowest address that an access at `va`, which lies at `loc`, touches in a sector (R47). -/
def sectorVa (va : Word) (loc sector : Nat) : Word := va + BitVec.ofNat 64 (32 * sector - loc)

/-- The RACE record's fields (R47, R102). -/
def raceTrap (t : TrapInfo) (va : Word) (r : RaceRec) : TrapInfo :=
  { t with
    cause := 0x0A, tval := va, taux1 := r.pc
    taux0 := BitVec.ofNat 64 (AccKind.num r.kind * 2 ^ 37 + r.path.num * 2 ^ 34 + r.member.toNat * 2 ^ 32 + r.berth.toNat) }

/-- REMOTE_NACK of one refused access (R286, R292). -/
def nackTrap (t : TrapInfo) (va : Word) (reason : Nat) : TrapInfo :=
  { t with cause := 0x11, tval := va, taux0 := BitVec.ofNat 64 (reason * 65536 + 1) }

/-- What an access asks for leaves the package: a line of a CACHED page, or a transfer of its bytes (R285, R286). The data of a write goes
with it when the word takes effect. -/
def askFor (home : Nat) (pkg line loc n : Nat) (wr : Bool) : FabMsg :=
  if home = 0 then (if wr then .rdx pkg line else .rds pkg line)
  else if wr then .writeReq pkg (offOf loc) n else .readReq pkg (offOf loc) n

/-- The transfer that an access of a word or chunk is (R285): its line's, or one of its own to a SLICE or NOCACHE page. -/
def farKey (x : Xlat) (wr : Bool) (t : TrapInfo) : FarKey :=
  if x.home = 0 then { line := x.loc / 128, off := 0, wr := wr, elem := 0, idx := 0 }
  else { line := x.loc / 128, off := 1 + x.loc % 128, wr := wr, elem := t.telem, idx := t.tidx }

/-- What is asked for a line of a CACHED page has to come only once, for whichever access (R285). -/
def ofLine (k : FarKey) : Bool := k.off == 0

/-- A line of another package has come, to read or to write: it is held here (R285, R286). -/
def holdLine (line : Nat) (wr : Bool) (s : State) : State :=
  { s with fab := { s.fab with held := { line := line, modified := wr } :: s.fab.held.filter (·.line != line) } }

/-- The home of another package has answered with something else than data (R286, R288). -/
def gateAnswer (who : Agent) (s : State) (va : Word) (x : Xlat) (wr : Bool) (r : AckResult) (t : TrapInfo) : Res Unit :=
  let s1 := { s with fab := { s.fab with
    answers := s.fab.answers.filter fun q => !(q.1 == who && q.2.1 == farKey x wr t) } }
  match r with
  | .nack reason => .trap (nackTrap t va reason) s1
  | .race q => .trap (raceTrap t (sectorVa va x.loc q.sector) q) s1
  | .moved => .wait 8 (noteMoved s1 who va (nackTrap t va 2))
  | _ => .wait 8 s1

/-- An access of `n` bytes on any path, to a location that can lie in another package (R283, R285 to R288): it goes on when its line is held
or its data has returned; it is refused with REMOTE_NACK and a reason in TAUX0; or it waits with stall reason 8 for the
home's answer, or for the page to be unfrozen. A line that has come is held; the data of a transfer to a SLICE or NOCACHE page stays for the
word or chunk that waits for it. A line of this package that others hold is recalled first. A word whose access has waited for the bound
traps there, with its earlier accesses made (R106). -/
def remoteGate (who : Agent) (s : State) (va : Word) (x : Xlat) (n : Nat) (wr : Bool) (t : TrapInfo) : Res Unit :=
  let pkg := pkgOf x.loc
  let line := x.loc / 128
  let key := farKey x wr t
  if s.c.moved.any fun m => m.ended && sameAccess who va m then .trap (nackTrap t va 2) s
  else if heldByMoved s who va then .wait 8 s
  else if coreLoc ≤ x.loc then .ok () (endMoved s who va)
  else if pkg == s.fab.pkg.toNat then
    (if x.home != 0 || (holdersOf s line wr).isEmpty then .ok () (endMoved s who va)
     else if canRecall s line wr then .wait 8 (recallLine s line wr)
     else .trap (nackTrap t va 3) (dropRecall s line))
  else if x.home == 0 && lineHeld s line wr then .ok () (endMoved s who va)
  else if (routePort s pkg).isNone then .trap (nackTrap t va 3) s
  else match s.fab.answers.find? fun r => r.1 == who && r.2.1 == key with
    | some r => gateAnswer who s va x wr r.2.2 t
    | none =>
      let asked := sendMsg (askFor x.home pkg line x.loc n wr) s
      if (who, key) ∈ s.fab.inbox then .ok () (endMoved s who va)
      else if s.fab.wanted.any fun w => w.key == key && (w.who == who || ofLine key) then .wait 8 s
      else match inboundCheck s (homeFbit s pkg) x.loc wr with
        | .refused r => .trap (nackTrap t va r) asked
        | .moved => .wait 8 (noteMoved asked who va (nackTrap t va 2))
        | .ok => .wait 8 { asked with fab := { asked.fab with wanted := asked.fab.wanted ++ [{ who := who, key := key, replays := 0 }] } }

/-! Race records (R46 to R50). -/

/-- What a location names across contexts: a partition's bytes are its context's own (R38). -/
def placeId (s : State) (loc : Nat) : Nat :=
  if loc < coreLoc then loc else coreLoc + s.c.save * 2 ^ 18 + (loc - coreLoc)

/-- The 32-byte sector of a location. -/
def sectorOf (s : State) (loc : Nat) : Nat := placeId s loc / 32

def AccKind.isWrite : AccKind → Bool
  | .read => false | .syncRead => false | _ => true
def AccKind.isSync : AccKind → Bool
  | .atomic => true | .syncWrite => true | .syncRead => true | _ => false

/-- Two accesses of one sector conflict (R46). -/
def conflict (a b : AccKind) : Bool :=
  (AccKind.isWrite a || AccKind.isWrite b) && !(AccKind.isSync a && AccKind.isSync b)

/-- A record is this context's own access on CORE: program order (R45). -/
def ownCore (s : State) (r : RaceRec) : Bool :=
  r.launch == s.c.launch && r.berth == s.c.sys.berth.truncate 32 && r.member == s.c.member && r.path == .core

/-- H(C, t, P) at this point, as record identifiers (R45). -/
def hSet (s : State) (p : Path) : List Nat :=
  let h := nth s.c.hb p.num []
  if p = .core then h ++ (s.recs.filter (ownCore s)).map (·.id) else h

/-- The sets of every path, as a signal, a barrier or a post carries them (R45). -/
def hAll (s : State) : List (Path × List Nat) :=
  [Path.core, .copy, .gather, .matrix, .remote].map fun p => (p, hSet s p)

/-- The union of two sets of record identifiers. -/
def unionIds (a b : List Nat) : List Nat := a.filter (fun i => !b.contains i) ++ b

/-- Add carried sets to the context's own (R45). -/
def hJoin (s : State) : List (Path × List Nat) → State
  | [] => s
  | (p, ids) :: r =>
    hJoin { s with c := { s.c with hb := upd s.c.hb p.num (unionIds ids (nth s.c.hb p.num [])) } } r

/-- The last conflicting access recorded in the sector in this launch that does not happen before an access with the set `h`
(R46). Records are held newest first. -/
def findRace (s : State) (h : List Nat) (k : AccKind) (sector : Nat) : Option RaceRec :=
  s.recs.find? fun r => r.sector == sector && r.launch == s.c.launch && conflict k r.kind && !(h.contains r.id)

/-- Record an access (R46, R47). The records stand in a list of their own, and the bytes of the carve-out do not change with them: DESIGN
CHOICE (log entry 75: R49 gives them no format). -/
def addRecord (s : State) (p : Path) (k : AccKind) (sector : Nat) (pc : Word) : State :=
  { s with
    recs := { sector := sector, id := s.nextRec, berth := s.c.sys.berth.truncate 32, member := s.c.member, path := p
              kind := k, pc := pc, launch := s.c.launch } :: s.recs
    nextRec := s.nextRec + 1 }

/-! Watchpoints (R339, R340). -/

/-- The berth filter passes (R339). -/
def filterPasses (s : State) (bf : Bool) : Bool :=
  let f := nth s.c.dbg 12 0
  !bf || (field f 0 32 == field s.c.sys.berth 0 32 && (bit f 34 || field f 32 2 == s.c.member.toNat))

/-- The lowest watchpoint that an access of `n` bytes matches (R340). -/
def watchHit (s : State) (va : Word) (n : Nat) (rd wr : Bool) : Option Nat :=
  (List.range 4).find? fun i =>
    let a := nth s.c.dbg (4 + i) 0
    let ct := nth s.c.dbg (8 + i) 0
    let len := 2 ^ field ct 4 4
    let base := field a 2 46 * 4 / len * len
    bit a 0 && ((rd && bit ct 0) || (wr && bit ct 1)) && filterPasses s (bit a 1)
      && decide (base < va.toNat + n) && decide (va.toNat < base + len)

/-- What of RD and WR an access kind matches (R339). -/
def watchKinds : AccKind → Bool × Bool
  | .read => (true, false) | .write => (false, true) | .atomic => (true, true)
  | .syncWrite => (false, true) | .syncRead => (true, false)

/-! One CORE-path access: rows 5 to 7 of R150, rows 6 to 8 of R213. -/

/-- The newest buffered byte of the context at a location (R43, R207). -/
def bufByte (loc : Nat) (b : List StoreEntry) : Option Byte :=
  b.foldl (fun acc e =>
    if e.addr == loc / 8 * 8 && e.mask.getLsbD (loc % 8) then some (e.data.extractLsb' (8 * (loc % 8)) 8) else acc) none

/-- A `.rlx` load of `n` bytes reads what `.rlx` stores after a FENCE.rel left there: it keeps what they carry, for a FENCE.acq (R45). -/
def noteSeen (s : State) (loc n : Nat) : State :=
  let ids := ((List.range n).filter fun i => (bufByte (loc + i) s.c.sbuf).isNone).map fun i => placeId s (loc + i)
  let new := (s.rlxw.filter fun w => ids.contains w.1).map (·.2)
  if new.isEmpty then s
  else { s with c := { s.c with seen := new.foldl (fun l r => if l.contains r then l else r :: l) s.c.seen } }

/-- Translation, the fabric, the race check and the watchpoints, and then the record of the access: its location. `t` carries
the element fields of a trap. -/
def coreAccess (s : State) (va : Word) (n : Nat) (k : AccKind) (rlx : Bool) (t : TrapInfo) : Res Nat :=
  let wr := AccKind.isWrite k
  match translate s va n { write := wr, fetch := false, user := !s.prv } with
  | (.error cause, s1) => .trap { t with cause := cause, tval := va } s1
  | (.ok x, s1) =>
    (remoteGate .core s1 va x n wr t).bind fun _ s2 =>
      let race := if x.rd && !rlx then findRace s2 (hSet s2 .core) k (sectorOf s2 x.loc) else none
      match race with
      | some r => .trap (raceTrap t va r) s2
      | none =>
        match watchHit s2 va n (watchKinds k).1 (watchKinds k).2 with
        | some i => .trap { t with cause := 0x18, tval := va, taux0 := BitVec.ofNat 64 i } s2
        | none =>
          .ok x.loc (if rlx then (if k == .read then noteSeen s2 x.loc n else s2)
            else if x.rd then addRecord s2 .core k (sectorOf s2 x.loc) s2.c.pc else s2)

/-! Bytes at a location. -/

/-- The byte every agent sees at a location. -/
def locByte (s : State) (loc : Nat) : Byte :=
  if loc < coreLoc then readByte s.mem loc else readByte s.c.scratch (loc - coreLoc)

/-- The byte the context's own CORE reads see: its buffered stores first (R43, R44). -/
def coreByte (s : State) (loc : Nat) : Byte := (bufByte loc s.c.sbuf).getD (locByte s loc)

/-- `n` bytes as the context's own CORE reads see them, little-endian. -/
def coreRead (s : State) (loc : Nat) : Nat → Nat
  | 0 => 0
  | n + 1 => (coreByte s loc).toNat + 256 * coreRead s (loc + 1) n

/-- `n` bytes as engines and other agents see them. -/
def locBytes (s : State) (loc : Nat) : Nat → List Byte
  | 0 => []
  | n + 1 => locByte s loc :: locBytes s (loc + 1) n

/-- Write a run of bytes at a location, visible to every agent. -/
def putBytes (s : State) (loc : Nat) (bs : List Byte) : State :=
  if loc < coreLoc then { s with mem := writeBytes s.mem loc bs }
  else { s with c := { s.c with scratch := writeBytes s.c.scratch (loc - coreLoc) bs } }

/-- What `.rlx` stores left at bytes that are written is gone (R45). -/
def dropNotes (s : State) (loc n : Nat) : State :=
  let a := placeId s loc
  { s with rlxw := s.rlxw.filter fun w => !(decide (a ≤ w.1) && decide (w.1 < a + n)) }

/-! What is kept of a line of memory, as it goes from package to package (R45, R46, R52, R285, R286). -/

/-- A line as its 1,024 bits. -/
def lineBits (s : State) (line : Nat) : BitVec 1024 := BitVec.ofNat 1024 (leNat (readBytes s.mem (128 * line) 128))

/-- A line's data arrives in memory. -/
def putLine (line : Nat) (d : BitVec 1024) (s : State) : State := { s with mem := writeBytes s.mem (128 * line) (leBytes 128 d.toNat) }

/-- A message about a line with nothing of it. -/
def noNews : LineNews := { bits := none, recs := [], ctrs := [], notes := [] }

/-- What this package knows of a line, with its bytes or without. -/
def lineNews (s : State) (line : Nat) (withBits : Bool) : LineNews :=
  { bits := if withBits then some (lineBits s line) else none
    recs := s.recs.filter fun r => r.sector / 4 == line
    ctrs := s.ctrs.filter fun h => h.addr / 128 == line
    notes := s.rlxw.filter fun w => w.1 / 128 == line }

/-- What a holder gives back with its acknowledgement: everything where it has the line modified, and its race records else (R286). -/
def givenBack (s : State) (line : Nat) (modified : Bool) : LineNews :=
  if modified then lineNews s line true else { noNews with recs := (lineNews s line false).recs }

/-- What another package knows of a line comes here. Its bytes take the place of those here, with the histories of the line's counter words
and its notes; the race records that are not known here are the newest. Record identifiers are the pod's: DEDUCED (log entry 94). -/
def takeNews (line : Nat) (n : LineNews) (s : State) : State :=
  let s1 := match n.bits with
    | some b => putLine line b { s with ctrs := s.ctrs.filter (·.addr / 128 != line), rlxw := s.rlxw.filter (·.1 / 128 != line) }
    | none => s
  let recs := n.recs.filter fun r => r.sector / 4 == line && !s.recs.any (·.id == r.id)
  { s1 with
    recs := recs ++ s1.recs, nextRec := recs.foldl (fun m r => max m (r.id + 1)) s1.nextRec
    ctrs := n.ctrs ++ s1.ctrs.filter fun h => !n.ctrs.any (·.addr == h.addr)
    rlxw := (n.notes.filter fun w => !s1.rlxw.contains w) ++ s1.rlxw }

/-- A store by anything but an increment starts a counter word's history anew (R51, R52), and takes the place of `.rlx` stores. -/
def clearCounters (s : State) (loc n : Nat) : State :=
  let a := placeId s loc
  dropNotes { s with ctrs := s.ctrs.filter fun h => !(decide (h.addr < a + n) && decide (a < h.addr + 8)) } loc n

/-- What a `.rlx` store of the context carries: nothing without an earlier FENCE.rel (R45). -/
def relNote (s : State) : Option RelNote :=
  if s.c.rel.isEmpty then none
  else some { launch := s.c.launch, berth := s.c.sys.berth.truncate 32, die := s.c.die, rels := s.c.rel }

/-- Bytes that a `.rlx` store wrote carry its note (R45). -/
def leaveNote (note : Option RelNote) (loc n : Nat) (s : State) : State :=
  match note with
  | none => s
  | some r => { s with rlxw := ((List.range n).map fun i => (placeId s (loc + i), r)) ++ s.rlxw }

/-- The context's own older buffered bytes under a direct store are taken by it, which is later in program order (R43). -/
def overtakeBuffer (s : State) (loc n : Nat) : State :=
  { s with c := { s.c with sbuf := s.c.sbuf.map fun e =>
      { e with mask := BitVec.ofNat 8 ((List.range 8).foldl (fun acc i =>
          if e.mask.getLsbD i && !(decide (loc ≤ e.addr + i) && decide (e.addr + i < loc + n)) then acc + 2 ^ i else acc) 0) } } }

/-- A store of the AP takes effect (R151). -/
def storeBytes (s : State) (loc : Nat) (bs : List Byte) : State :=
  putBytes (clearCounters (overtakeBuffer s loc bs.length) loc bs.length) loc bs

/-- The set bytes of one store-buffer entry become visible. -/
def commitEntry (s : State) (e : StoreEntry) : State :=
  (List.range 8).foldl (fun s i =>
    if e.mask.getLsbD i then
      leaveNote e.rel (e.addr + i) 1 (putBytes (clearCounters s (e.addr + i) 1) (e.addr + i) [e.data.extractLsb' (8 * i) 8])
    else s) s

/-- A commit: every buffered store becomes visible, oldest first, and the containment point moves here (R44, R207, R112). -/
def commitStores (s : State) : State :=
  let s1 := s.c.sbuf.foldl commitEntry s
  { s1 with c := { s1.c with sbuf := [], dirty := [], older := [] } }

/-- A commit is asked for: it covers the stores buffered now, and takes effect later without holding up younger words (R207). -/
def askCommit (s : State) : State :=
  { s with c := { s.c with
      sbuf := s.c.sbuf.map fun e => { e with due := true }
      older := s.c.older ++ s.c.dirty.filter fun r => !s.c.older.contains r
      dirty := [] } }

/-- The commits asked for take effect: the stores they cover become visible, oldest first, those of younger stores stay buffered, and the
containment point moves to the latest of them (R112, R207). -/
def commitDue (s : State) : State :=
  let s1 := (s.c.sbuf.filter (·.due)).foldl commitEntry s
  { s1 with c := { s1.c with sbuf := s1.c.sbuf.filter (!·.due), older := [] } }

/-- A commit has still to take effect. -/
def commitPends (c : Context) : Bool := (c.sbuf.any (·.due)) || !c.older.isEmpty

/-- The counted-wait edge (R45). -/
def joinIncs (s : State) (incs : List Increment) : State := incs.foldl (fun s i => hJoin s i.carries) s

/-! Address registers (R126 to R128). -/

/-- The permission bits an access needs (R127). -/
structure Need where
  l : Bool := false
  s : Bool := false
  a : Bool := false
  e : Bool := false

/-- Every needed permission bit is set. -/
def permOk (p : Word) (n : Need) : Bool :=
  (!n.l || bit p 0) && (!n.s || bit p 1) && (!n.a || bit p 2) && (!n.e || bit p 3)

/-- The permission and bounds check over an exact span (R127). -/
def aCheck (r : AReg) (n : Need) (addr : Int) (size : Nat) : Bool :=
  permOk r.perm n && decide ((r.base.toNat : Int) ≤ addr) && decide (addr + size ≤ r.limit.toNat)

/-- A pointer moved to an exact address is within its bounds (R128). -/
def advanceOk (r : AReg) (p : Int) : Bool := decide ((r.base.toNat : Int) ≤ p) && decide (p ≤ r.limit.toNat)

end Sys2Proof.Machine
end

