-- ==== Sys2Proof/Machine/Ctrl.lean ====
section
/-!
DEFINITION. Control space (R330): the blocks' registers as a core reads and writes them (R284, R314, R320, R331 to R341), the accesses
that engines make to memory or to a block (R38), and counter words (R51, R52).
-/

namespace Sys2Proof.Machine

/-! The launch window (R311, R315). -/

/-- Write ST and REASON of a record. -/
def writeStatus (s : State) (rec st reason : Nat) : State :=
  { s with mem := writeWord s.mem (rec + 8) (BitVec.ofNat 64 (st + reason * 256)) }

/-- A write of LWIN (R314, R315): queued, or refused in the named record when the queue of 256 is full. Before STATE 3 the
window accepts nothing (R331). -/
def opLwin (v : Word) (s : State) : State :=
  if s.dev.state ≠ .ready then s
  else
    let a : Word := v &&& 0x000FFFFFFFFFFFC0
    if 256 ≤ s.disp.lwin.length then writeStatus s a.toNat 2 5
    else { s with disp := { s.disp with lwin := s.disp.lwin ++ [a] } }

/-! Register reads. Offsets count from 0x200_0000_0000, in whole 8-byte words. -/

/-- DSTAT (R331). -/
def dstatWord (d : Device) : Word :=
  let st : Nat := match d.state with
    | .reset => 0 | .rom => 1 | .firmware => 2 | .ready => 3 | .recovery => 4
  BitVec.ofNat 64 (st + d.svn.toNat * 2 ^ 8 + d.err.toNat * 2 ^ 40)

/-- A slot word: V, partition end, berth name and member (R320). -/
def slotWord (s : State) (v : Bool) (c : Context) : Word :=
  let high := s.parts.any fun p => p.owner == c.save && p.high
  setBit (setBit (BitVec.ofNat 64 (field c.sys.berth 0 32 + c.member.toNat * 2 ^ 32)) 63 v) 62 high

/-- The active slot's word (R320). -/
def activeWord (s : State) : Word := if s.cs = .none then 0 else slotWord s true s.c

/-- The shadow slot's word, with READY in bit 61 (R320). -/
def shadowWord (s : State) : Word :=
  match s.sh with
  | none => 0
  | some c => setBit (slotWord s true c) 61 s.shReady

/-- Slice budget of a core (R314). -/
def budgetOf (s : State) (core : Nat) : Word :=
  match s.disp.dcb.find? fun p => p.1 == core with
  | some p => p.2.zeroExtend 64
  | none => 0x01000000

/-- A register that the model holds under its offset: the bind records of other cores. -/
def plainReg (s : State) (off : Nat) : Word :=
  match s.ctrl.find? fun p => p.1 == off with
  | some p => p.2
  | none => 0

/-- A word of another core's slot table entry (R320): its operation word reads zero, its record's words as written, and what its device
sets is open (log entry 76). -/
def otherSlot (s : State) (o : Nat) : Word :=
  let v := Config.otherSlot s.tick o
  match o % 0x80 with
  | 0x08 => plainReg s (0x100000 + o) | 0x10 => plainReg s (0x100000 + o) | 0x18 => plainReg s (0x100000 + o)
  | 0x20 => plainReg s (0x100000 + o)
  | 0x40 => v &&& 0xC0000003FFFFFFFF | 0x48 => v &&& 0xE0000003FFFFFFFF | 0x50 => v &&& 0xFFFF | 0x58 => v
  | _ => 0

/-- The word of the dispatch block at an offset in it (R314, R320). -/
def readDispatch (s : State) (o : Nat) : Word :=
  if o = 0x10 then s.disp.dage
  else if 0x1000 ≤ o && o < 0x3000 then budgetOf s ((o - 0x1000) / 8)
  else if 0x10000 ≤ o && o < 0x30000 then
    if (o - 0x10000) / 0x80 = s.coreNum then
      match o % 0x80 with
      | 0x08 => s.slot.save | 0x10 => s.slot.scratch | 0x18 => s.slot.root | 0x20 => s.slot.berth
      | 0x40 => activeWord s | 0x48 => shadowWord s | 0x50 => s.slot.event | 0x58 => s.slot.used
      | _ => 0
    else otherSlot s o
  else 0

/-- The word of control space at an offset, as a core reads it (R330). WO fields and reserved words read zero (R4). -/
def ctrlRead (s : State) (off : Nat) : Word :=
  let o := off % 65536
  match off / 65536 with
  | 0 =>
    match o with
    | 0x00 => dstatWord s.dev | 0x08 => s.dev.rladdr | 0x10 => s.dev.rllen | 0x18 => s.dev.rlctl
    | 0x100 => s.dev.nonce.extractLsb' 0 64 | 0x108 => s.dev.nonce.extractLsb' 64 64
    | 0x110 => s.dev.nonce.extractLsb' 128 64 | 0x118 => s.dev.nonce.extractLsb' 192 64
    | 0x128 => s.dev.attOff | 0x130 => if s.dev.attDone then 1 else 0
    | _ => 0
  | 1 => match o with | 0 => s.dev.mbase | 8 => s.dev.msize | _ => 0
  | 2 =>
    match o with
    | 0x00 => s.dev.plim | 0x08 => s.dev.pnow | 0x10 => s.dev.tnow | 0x18 => s.dev.twarn | 0x20 => s.dev.tcrit
    | _ => 0
  | 3 =>
    match o with
    | 0x00 => s.dev.trbase | 0x08 => s.dev.trsize | 0x10 => s.dev.trwp | 0x18 => s.dev.trctl | 0x20 => s.dev.trdrop
    | _ => 0
  | 4 =>
    if 0x400 ≤ o && o < 0x800 then s.fab.routes.extractLsb' (8 * (o - 0x400)) 64
    else match o with
      | 0x00 => s.fab.pkg.zeroExtend 64 | 0x08 => s.fab.unf.zeroExtend 64 | 0x10 => s.fab.fbbt | 0x18 => s.fab.fbit
      | _ => 0
  | _ => if 0x100000 ≤ off && off < 0x140000 then readDispatch s (off - 0x100000) else 0

/-! Register writes. -/

/-- The writer may write the block of an offset (R329, R330). -/
def mayWrite (w : Writer) (off : Nat) : Bool :=
  match w with
  | .user => false
  | .management => true
  | .supervisor => decide (3 ≤ off / 65536)
  | .host => off / 65536 == 0 || off == 0x100000

/-- FBIT.INV: cached inbound entries are discarded (R284). -/
def opFbitInv (s : State) : State := { s with fab := { s.fab with inCache := [] } }

/-- A write of the fabric block under its access codes (R284). -/
def writeFabric (o : Nat) (v : Word) (s : State) : State :=
  let f := s.fab
  if 0x400 ≤ o && o < 0x800 then
    let sh := 8 * (o - 0x400)
    let kept := f.routes &&& ~~~ (BitVec.ofNat 8192 ((2 ^ 64 - 1) * 2 ^ sh))
    { s with fab := { f with routes := kept ||| BitVec.ofNat 8192 ((v &&& 0x1F1F1F1F1F1F1F1F).toNat * 2 ^ sh) } }
  else match o with
    | 0x00 => { s with fab := { f with pkg := v.truncate 10 } }
    | 0x08 => { s with fab := { f with unf := BitVec.ofNat 27 (min (v.toNat % 2 ^ 27) (2 ^ 26)) } }
    | 0x10 => { s with fab := { f with fbbt := v &&& 0x0000FFFFFFF00001 } }
    | 0x18 =>
      let s1 := { s with fab := { f with fbit := v &&& 0x0000FFFFFFFFF001 } }
      if bit v 1 then opFbitInv s1 else s1
    | _ => s

/-- A write of the trace block: TRWP and TRDROP are the device's (R341). -/
def writeTrace (o : Nat) (v : Word) (s : State) : State :=
  let d := s.dev
  match o with
  | 0x00 => { s with dev := { d with trbase := v &&& 0xFFFFFFFFFFFFF000 } }
  | 0x08 => { s with dev := { d with trsize := v } }
  | 0x18 => { s with dev := { d with trctl := v &&& 0xFFFFFFFF00071FFE } }
  | _ => s

/-- An operation word has a reserved field or OP (R321). -/
def bindReserved (w : Word) : Bool :=
  decide (5 ≤ field w 0 4) || field w 28 36 != 0 || field w 22 2 != 0 || field w 14 2 != 0 || field w 4 4 != 0

/-- A write of the operation word: the hardware reads the bind record once, now, and it is carried out when its turn comes (R320). A word
with OP 0 submits nothing, but one with a reserved field is refused whatever its OP (R322). -/
def writeBind (v : Word) (s : State) : State :=
  if field v 0 4 = 0 && !bindReserved v then s
  else
    let r : BindRec := { op := v, save := s.slot.save, scratch := s.slot.scratch, root := s.slot.root, berth := s.slot.berth }
    { s with slot := { s.slot with held := s.slot.held ++ [r] } }

/-- A write of this core's slot table entry (R320, R323). -/
def writeSlot (o : Nat) (v : Word) (s : State) : State :=
  match o with
  | 0x00 => writeBind v { s with slot := { s.slot with op := v } }
  | 0x08 => { s with slot := { s.slot with save := v } }
  | 0x10 => { s with slot := { s.slot with scratch := v } }
  | 0x18 => { s with slot := { s.slot with root := v } }
  | 0x20 => { s with slot := { s.slot with berth := v } }
  | 0x50 => { s with slot := { s.slot with event := s.slot.event &&& ~~~ (v &&& 0xFF) } }
  | _ => s

/-- A write of another core's slot table entry: only the record's words hold what is written (R4, R320). -/
def writeOtherSlot (o : Nat) (v : Word) (s : State) : State :=
  if 8 ≤ o % 0x80 && o % 0x80 ≤ 0x20 then { s with ctrl := (0x100000 + o, v) :: s.ctrl.filter fun p => p.1 != 0x100000 + o } else s

/-- A write of the dispatch block; one to DXIT acts only as the Active context's store, and is otherwise ignored (R314). A write that an
engine makes for a command of the context counts as another agent's: DESIGN CHOICE (log entry 88). -/
def writeDispatch (o : Nat) (v : Word) (s : State) : State :=
  if o = 0 then opLwin v s
  else if o = 0x10 then { s with disp := { s.disp with dage := BitVec.ofNat 64 (max (v.toNat % 2 ^ 32) 1024) } }
  else if 0x1000 ≤ o && o < 0x3000 then
    let n := (o - 0x1000) / 8
    { s with disp := { s.disp with dcb := (n, v.truncate 32) :: s.disp.dcb.filter fun p => p.1 != n } }
  else if 0x10000 ≤ o && o < 0x30000 then
    if (o - 0x10000) / 0x80 = s.coreNum then writeSlot (o % 0x80) v s else writeOtherSlot o v s
  else s

/-- A write of one 8-byte word of the blocks that a supervisor writes (R330). -/
def superWrite (off : Nat) (v : Word) (s : State) : State :=
  match off / 65536 with
  | 3 => writeTrace (off % 65536) v s
  | 4 => writeFabric (off % 65536) v s
  | _ => if 0x100000 ≤ off && off < 0x140000 then writeDispatch (off - 0x100000) v s else s

/-! A core's accesses of 1, 2, 4 or 8 bytes. -/

/-- The offset in control space of a location, when it lies there (R35). -/
def ctrlOff (loc : Nat) : Option Nat :=
  if loc < coreLoc ∧ ctrlBase ≤ offOf loc then some (offOf loc - ctrlBase) else none

/-- `n` bytes of control space (R38: one transfer). -/
def ctrlLoad (s : State) (off n : Nat) : Nat :=
  (ctrlRead s (off / 8 * 8)).toNat / 2 ^ (8 * (off % 8)) % 2 ^ (8 * n)

/-- The location of an offset in this package's control space (R35). -/
def ctrlLoc (s : State) (off : Nat) : Nat := s.fab.pkg.toNat * 2 ^ 42 + ctrlBase + off

/-- A core writes `n` bytes of control space: the other bytes of the word are written as they read, or as zero where 1 clears. A write
to a block of the management core alone is ignored (R330). -/
def ctrlSet (off n v : Nat) (s : State) : State :=
  let base := off / 8 * 8
  let w1c := base == 0x110000 + 0x80 * s.coreNum + 0x50
  let old := if w1c then 0 else ctrlRead s base
  if mayWrite .supervisor base then superWrite base (setField old (8 * (off % 8)) (8 * n) v) s else s

/-- An ordinary store of `n` bytes to control space starts the histories of the counter words there anew (R52). -/
def ctrlStore (off n v : Nat) (s : State) : State := ctrlSet off n v (clearCounters s (ctrlLoc s off) n)

/-! An engine's accesses, which may cross from word to word of control space. -/

/-- `n` bytes at a location as an engine reads them. -/
def busBytes (s : State) (loc n : Nat) : List Byte :=
  match ctrlOff loc with
  | some off => (List.range n).map fun i => BitVec.ofNat 8 (ctrlLoad s (off + i) 1)
  | none => locBytes s loc n

/-- Control space written word by word; the first argument bounds the words. -/
def ctrlPut : Nat → Nat → List Byte → State → State
  | 0, _, _, s => s
  | n + 1, off, bs, s =>
    if bs.isEmpty then s
    else
      let k := 8 - off % 8
      let now := bs.take k
      ctrlPut n (off + now.length) (bs.drop k) (ctrlStore off now.length (leNat now) s)

/-- A run of bytes written by an engine. -/
def busPut (s : State) (loc : Nat) (bs : List Byte) : State :=
  match ctrlOff loc with
  | some off => ctrlPut bs.length off bs s
  | none => putBytes (clearCounters s loc bs.length) loc bs

/-! Counter words (R51, R52). -/

/-- The value of the counter word at a location. -/
def counterAt (s : State) (loc : Nat) : Nat := leNat (busBytes s loc 8)

/-- An increment of the counter word at a location that brought it to a value is noted, with the sets it carries (R45, R52). -/
def noteIncrement (s : State) (loc old reached : Nat) (carries : List (Path × List Nat)) : State :=
  let a := placeId s loc
  let h : CounterHist := (s.ctrs.find? (·.addr == a)).getD { addr := a, base := old, incs := [] }
  let h1 : CounterHist := { h with incs := h.incs ++ [{ reached := reached, carries := carries }] }
  { s with ctrs := h1 :: s.ctrs.filter (·.addr != a) }

/-- Add an amount, saturating at 2^64 − 1, and note the increment with the sets it carries: in control space with the value that the
register then has (log entry 57). -/
def counterAdd (s : State) (loc amount : Nat) (carries : List (Path × List Nat)) : State :=
  let old := counterAt s loc
  let new := if old + amount < 2 ^ 64 then old + amount else 2 ^ 64 - 1
  match ctrlOff loc with
  | some off =>
    let s1 := ctrlSet off 8 new s
    dropNotes (noteIncrement s1 loc old (counterAt s1 loc) carries) loc 8
  | none => putBytes (dropNotes (noteIncrement s loc old new carries) loc 8) loc (leBytes 8 new)

/-- The increments up to and including the first that reached `v`. -/
def takeUntil (v : Nat) : List Increment → List Increment
  | [] => []
  | i :: r => if v ≤ i.reached then [i] else i :: takeUntil v r

/-- The increments that a completed WAITC with target `v` includes (R52): none when a buffered store of the context is the latest ordinary
store before the value it observed. -/
def includedIncs (s : State) (loc v : Nat) : List Increment :=
  if (List.range 8).any fun i => (bufByte (loc + i) s.c.sbuf).isSome then []
  else match s.ctrs.find? (·.addr == placeId s loc) with
    | none => []
    | some h => if v ≤ h.base then [] else takeUntil v h.incs

end Sys2Proof.Machine
end

