-- ==== Sys2Proof/Machine/SaveArea.lean ====
section
/-!
DEFINITION. The save area (R119 to R122): the bytes a spill writes, and the context a fill reads back or the first bad field
it finds. The replay records are opaque (R119): the model keeps them in `State.saved` and lists no bytes for them.
-/

namespace Sys2Proof.Machine

/-- Lane `l`'s 8 bytes of a register (R11, R17). -/
def laneImg (v : VReg) (l : Nat) : Word := v.extractLsb' (64 * l) 64

/-- A register from its 64 lane images, lane 0 first. -/
def ofLanes (f : Nat → Word) : VReg :=
  BitVec.ofNat 4096 ((List.range 64).foldl (fun acc l => acc + (f l).toNat * 2 ^ (64 * l)) 0)

/-- A register from 512 little-endian bytes. -/
def vregOf (bs : List Byte) : VReg := BitVec.ofNat 4096 (leNat bs)

/-- Where index `i` of one register lies at width `w` and rotation `rot` (R17): its lowest bit. -/
def elemBit (w rot i : Nat) : Nat := 64 * ((i + rot) % 64) + w * (i / 64)

/-- The register whose index `i` holds `f i` at width `w`, for every index (R17). -/
def ofElems (w rot : Nat) (f : Nat → Nat) : VReg :=
  BitVec.ofNat 4096 ((List.range (4096 / w)).foldl (fun acc i => acc + f i % 2 ^ w * 2 ^ elemBit w rot i) 0)

/-- Index `i` of an affine register (R185). -/
def affineAt (base stride : Word) (w i : Nat) : Nat := (base + stride * BitVec.ofNat 64 i).toNat % 2 ^ w

/-- The width code of an affine register (R121). -/
def affineFb (w : Nat) : Nat := if w = 4 then 0 else if w = 8 then 1 else if w = 16 then 2 else 3

/-- Every delta of the lanes from lane 0 fits `d` bits, signed (R121). -/
def deltasFit (v : VReg) (d : Nat) : Bool :=
  (List.range 64).all fun l =>
    let x := (laneImg v l - laneImg v 0).toInt
    decide (-(2 ^ (d - 1) : Int) ≤ x) && decide (x < (2 ^ (d - 1) : Int))

/-- The packed deltas of `d` bits, lane `l` at bits d·l + d − 1 : d·l (R121). -/
def packDeltas (v : VReg) (d : Nat) : List Byte :=
  leBytes (8 * d) ((List.range 64).foldl (fun acc l => acc + (laneImg v l - laneImg v 0).toNat % 2 ^ d * 2 ^ (d * l)) 0)

/-- Tag code, format byte and image bytes that a spill writes for a register (R121). A uniform register whose lanes differ
outside the elements that were written, and an affine one whose image at the saved strip's rotation is not base + stride × i,
are written as general (log entry 10). -/
def encodeVec (v : VReg) (t : Tag) (rot : Nat) : Nat × Nat × List Byte :=
  match t with
  | .uniform =>
    if (List.range 64).all fun l => laneImg v l == laneImg v 0 then (0, 0, leBytes 8 (laneImg v 0).toNat) else general
  | .affine b st w =>
    if ofElems w rot (affineAt b st w) = v then (1, affineFb w, leBytes 8 b.toNat ++ leBytes 8 st.toNat)
    else general
  | .general => general
where
  /-- The least encoding that represents every lane exactly. -/
  general : Nat × Nat × List Byte :=
    let base := leBytes 8 (laneImg v 0).toNat
    if (List.range 64).all fun l => laneImg v l == laneImg v 0 then (2, 1, base)
    else if deltasFit v 4 then (2, 2, base ++ packDeltas v 4)
    else if deltasFit v 8 then (2, 3, base ++ packDeltas v 8)
    else if deltasFit v 16 then (2, 4, base ++ packDeltas v 16)
    else (2, 0, leBytes 512 v.toNat)

/-- The image length that a tag and format byte ask for; none when one of them is reserved (R121, R122). -/
def imageLen (tag fb : Nat) : Option Nat :=
  match tag, fb with
  | 0, 0 => some 8
  | 1, 0 => some 16 | 1, 1 => some 16 | 1, 2 => some 16 | 1, 3 => some 16
  | 2, 0 => some 512 | 2, 1 => some 8 | 2, 2 => some 40 | 2, 3 => some 72 | 2, 4 => some 136
  | _, _ => none

/-- A register read back from a legal descriptor and its image (R121). -/
def decodeVec (tag fb : Nat) (bs : List Byte) (rot : Nat) : VReg × Tag :=
  let base : Word := BitVec.ofNat 64 (leNat (bs.take 8))
  match tag with
  | 0 => (ofLanes fun _ => base, .uniform)
  | 1 =>
    let st : Word := BitVec.ofNat 64 (leNat ((bs.drop 8).take 8))
    let w := 4 * 2 ^ fb
    (ofElems w rot (affineAt base st w), .affine base st w)
  | _ =>
    let d := if fb = 2 then 4 else if fb = 3 then 8 else if fb = 4 then 16 else 0
    if fb = 0 then (vregOf bs, .general)
    else
      let packed := leNat (bs.drop 8)
      (ofLanes fun l => if d = 0 then base else base + wordOf (toSigned d (packed / 2 ^ (d * l) % 2 ^ d)), .general)

/-- The state word of a copy channel (R167). -/
def chanWord (c : Channel) : Word :=
  setBit (setBit (setBit (BitVec.ofNat 64 (c.off % 2 ^ 40)) 63 c.act) 62 c.arv) 61 c.flt

/-- The 64 bytes of a channel's record (R119, R174). -/
def chanBytes (c : Channel) : List Byte :=
  let op : List Byte := leBytes 8 c.src.toNat ++ leBytes 8 c.dst.toNat ++ leBytes 4 c.word.toNat
  let tail : List Byte :=
    if c.gth then
      leBytes 4 c.n1 ++ leBytes 4 c.run ++ leBytes 4 (wrapTo 32 c.ss1) ++ leBytes 8 c.idx.toNat ++ leBytes 8 0
    else
      leBytes 4 c.run ++ leBytes 4 c.n1 ++ leBytes 4 (wrapTo 32 c.ss1) ++ leBytes 4 (wrapTo 32 c.ds1)
        ++ leBytes 4 c.n2 ++ leBytes 4 (wrapTo 32 c.ss2) ++ leBytes 4 (wrapTo 32 c.ds2)
  op ++ tail ++ leBytes 8 c.ctr.toNat ++ leBytes 8 (chanWord c).toNat

/-- Offset of the vector images (R119). -/
def voff (rows : Nat) : Nat := 0xAD00 + 4096 * rows

/-- Rows granted (R233). -/
def grantRows (g : Word) : Nat := field g 0 7

/-- SBASE of the strip (R16). -/
def sbaseOf (v : VLoop) : Word := if v.active then BitVec.ofNat 64 (v.strip.toNat * v.vlmax) else 0

/-- The header word (R120). -/
def headerWord (rows : Nat) (spl fil : Bool) : Word :=
  setBit (setBit (BitVec.ofNat 64 (0x0002 + rows % 256 * 65536)) 24 spl) 25 fil

/-- The system-register words at 0x0400, in the order of R119. -/
def sysWords (c : Context) : List Word :=
  let y := c.sys
  [y.fpctl, y.vfmt, y.seed, sbaseOf c.vloop, y.estart, y.ffs, y.grant, y.berth, y.tvec, y.tpc, y.tcause, y.tval, y.telem
   , y.tidx, y.tpfx, y.taux0, y.taux1, y.avec, y.arpc, y.shvec, y.shpc, y.shinfo, y.retired, y.stallbank, c.vloop.n
   , if c.vloop.active then c.vloop.strip else 0]

/-- The bytes of words, in order. -/
def wordsBytes (ws : List Word) : List Byte := ws.flatMap fun w => leBytes 8 w.toNat

/-- A z element with its digits beyond min(L, 64) zero: it holds no others (R263, R271). -/
def ZElem.trim (z : ZElem) : ZElem :=
  { z with held := if 64 ≤ z.len then z.held else BitVec.ofNat 64 (z.held.toNat / 2 ^ (64 - z.len) * 2 ^ (64 - z.len)) }

/-- Where element e of a z register lies at a rotation: lane (e + rot) mod 64, slot ⌊e ÷ 64⌋ (R263). -/
def zCell (rot e : Nat) : Nat := e / 64 * 64 + (e + rot) % 64

/-- The element that lies at a place of a z register at a rotation. -/
def zElemAt (rot cell : Nat) : Nat := cell / 64 * 64 + (cell + 64 - rot % 64) % 64

/-- One z element's 24 bytes (R119, R271). -/
def zBytes (z : ZElem) : List Byte :=
  leBytes 8 z.pos.toNat ++ leBytes 8 z.trim.held.toNat ++ leBytes 2 (z.len + if z.stale then 2 ^ 15 else 0) ++ leBytes 6 0

/-- One barrier record (R119). -/
def barrierWord (b : Barrier) : Word := setBit (setBit (b.gen.zeroExtend 64) 63 b.arrived) 62 b.released

/-- The rows of an accumulator bank as bytes. -/
def bankBytes (rows : List VReg) : List Byte := rows.flatMap fun r => leBytes 512 r.toNat

/-- The parts of the save area that a spill writes, each with its offset (R119). Reserved bytes are zero. Element j of a z register is the
one of the strip that is saved (log entry 43). -/
def saveParts (c : Context) : List (Nat × List Byte) :=
  let rows := grantRows c.sys.grant
  let rot := rotOf (if c.vloop.active then c.vloop.strip else 0)
  let vecs := (List.range 32).map fun n => encodeVec (nth c.v n 0) (nth c.vtag n .general) rot
  [ (0x0000, wordsBytes [headerWord rows true false, c.sys.status, c.pc
      , BitVec.ofNat 64 (field c.sys.berth 0 32 + c.member.toNat * 2 ^ 32), BitVec.ofNat 64 (c.arrivals % 256), 0, 0, 0])
  , (0x0040, wordsBytes (0 :: c.x.toList.drop 1))
  , (0x0140, wordsBytes c.xArr.toList)
  , (0x0180, wordsBytes (c.a.toList.flatMap fun r => [r.ptr, r.base, r.limit, r.perm]))
  , (0x0380, wordsBytes (c.d.toList.map fun r => BitVec.ofNat 64 (r.len.toNat + r.stride.toNat * 2 ^ 32)))
  , (0x03B0, wordsBytes c.lc.toList)
  , (0x03C8, wordsBytes (c.desc.toList ++ [0, 0, 0, 0]))
  , (0x0400, wordsBytes (sysWords c ++ [0, 0, 0, 0, 0, 0]))
  , (0x0500, wordsBytes (c.dbg.toList ++ List.replicate 16 0))
  , (0x0600, wordsBytes (c.q.toList.map fun q => BitVec.ofNat 64 q.length))
  , (0x0640, c.q.toList.flatMap fun q => wordsBytes ((q.map (·.val) ++ List.replicate (64 - q.length) 0).take 64))
  , (0x1640, leBytes 128 (2 ^ 1024 - 1) ++ (c.p.toList.drop 1).flatMap fun p => leBytes 128 p.toNat)
  , (0x1A40, c.k.toList.flatMap fun k => leBytes 512 k.toNat)
  , (0x2A40, c.z.toList.flatMap fun z => (List.range 128).flatMap fun j => zBytes (nth z (zCell rot j) ZElem.fresh))
  , (0x8A40, c.hold.toList.flatMap fun h => leBytes 2 h.toNat)
  , (0x8A80, c.chan.toList.flatMap chanBytes)
  , (0x8B80, wordsBytes (c.barrier.toList.map barrierWord ++ List.replicate 10 0))
  , (0xAC00, vecs.flatMap fun v => leBytes 8 (v.2.1 + v.1 * 256 + v.2.2.length * 65536))
  , (0xAD00, if rows = 0 then [] else c.mat.acc.toList.flatMap fun a => bankBytes a.W ++ bankBytes a.V) ]
  ++ (vecs.zipIdx.map fun v => (voff rows + 512 * v.2, v.1.2.2))

/-- A spill: the save area in memory, with SPL as given (R117, R119). -/
def spillMem (m : Memory) (save : Nat) (c : Context) (spl : Bool) : Memory :=
  let m1 := (saveParts c).foldl (fun m p => writeBytes m (save + p.1) p.2) m
  writeWord m1 save (headerWord (grantRows c.sys.grant) spl false)

/-- SPL or FIL of a save area's header (R120). -/
def setHeaderBit (m : Memory) (save i : Nat) (b : Bool) : Memory := writeWord m save (setBit (readWord m save) i b)

/-! Reading back. -/

/-- The word at an offset of a save area. -/
def saveWord (m : Memory) (save off : Nat) : Word := readWord m (save + off)

/-- A run of bytes of a save area as a number. -/
def saveNat (m : Memory) (save off n : Nat) : Nat := leNat (readBytes m (save + off) n)

/-- The offset of the first bad field of a save area (R122): FMT and ROWS, queue counts, z lengths, vector descriptors, in
the order of their offsets. The offset named is that of the 8-byte word that holds the field, and for L its own: DESIGN CHOICE (log
entry 78: the manual does not say which). -/
def badField (m : Memory) (save grantedRows : Nat) : Option Nat :=
  let h := saveWord m save 0
  if field h 0 16 ≠ 0x0002 ∨ field h 16 8 ≠ grantedRows ∨ 64 < field h 16 8 then some 0
  else
    match (List.range 8).find? fun n => 64 < (saveWord m save (0x600 + 8 * n)).toNat with
    | some n => some (0x600 + 8 * n)
    | none =>
      match (List.range 1024).find? fun i =>
          512 < saveNat m save (0x2A40 + 0xC00 * (i / 128) + 24 * (i % 128) + 16) 2 % 1024 with
      | some i => some (0x2A40 + 0xC00 * (i / 128) + 24 * (i % 128) + 16)
      | none =>
        match (List.range 32).find? fun n =>
            let d := saveWord m save (0xAC00 + 8 * n)
            imageLen (field d 8 8) (field d 0 8) != some (field d 16 16) with
        | some n => some (0xAC00 + 8 * n)
        | none => none

/-- A channel read back; what its record does not hold comes from the replay records (R119, R174). A fault counts as raised: a context that
resumes at supervisor level runs undisturbed (R177). -/
def readChan (m : Memory) (b : Nat) (old : Channel) : Channel :=
  let st := readWord m (b + 0x38)
  let n4 (o : Nat) : Nat := leNat (readBytes m (b + o) 4)
  let w : BitVec 32 := BitVec.ofNat 32 (n4 0x10)
  let g := decide (w.toNat / 2 ^ 25 % 64 = 0x0F)
  if !bit st 63 then Channel.free
  else
    { old with
      act := true, arv := bit st 62, flt := bit st 61, told := true, wait := 7, off := field st 0 40, gth := g, word := w
      src := readWord m b, dst := readWord m (b + 8), ctr := readWord m (b + 0x30)
      run := if g then n4 0x18 else n4 0x14, n1 := if g then n4 0x14 else n4 0x18
      ss1 := toSigned 32 (n4 0x1C), ds1 := if g then 0 else toSigned 32 (n4 0x20)
      n2 := if g then 1 else n4 0x24, ss2 := if g then 0 else toSigned 32 (n4 0x28)
      ds2 := if g then 0 else toSigned 32 (n4 0x2C)
      idx := if g then readWord m (b + 0x20) else 0
      isz := if w.toNat / 64 % 2 = 1 then 8 else 4 }

/-- A z element read back (R271). -/
def readZ (m : Memory) (a : Nat) : ZElem :=
  let f := leNat (readBytes m (a + 16) 2)
  ZElem.trim { pos := readWord m a, held := readWord m (a + 8), len := f % 1024, stale := decide (f / 2 ^ 15 % 2 = 1) }

/-! What each system register can hold: its reserved fields read zero (R4, R164). -/

def statusMask : Word := 0x3F
def vfmtMask : Word := 0x0FF7F30F
def ffsMask : Word := 0x000087FFFF0107FF
def tcauseMask : Word := 0xC0FF
def tidxMask : Word := 0x0000FFFFFFFFFFFF
def tpfxMask : Word := 0x1FFC000

/-- A value as FPCTL holds it (R84). DRM 110 and 111, which no write stores, are read back as 000 (log entry 77). -/
def fpctlForm (v : Word) : Word :=
  let f := v &&& 0xFFFFFF001EFF
  if 6 ≤ field f 9 3 then setField f 9 3 0 else f

/-- A debug register's value after a write (R339). -/
def debugWrite (n : Nat) (v : Word) : Word :=
  if n < 8 then v &&& 0x0000FFFFFFFFFFFF
  else if n < 12 then (if field v 4 4 < 2 then 0x20 else v &&& 0xF0) ||| (v &&& 3)
  else if n = 12 then v &&& 0x7FFFFFFFF
  else if n = 13 then v &&& 0xFFFFFF01
  else if n = 14 then v
  else 0

/-- The system registers read back, GRANT apart (R119), with their reserved fields zero (R4). TCP0 to TCP7 read zero after a swap-in
(R103). -/
def readSys (m : Memory) (save : Nat) (grant : Word) : SysRegs :=
  let w (i : Nat) : Word := saveWord m save (0x400 + 8 * i)
  { status := saveWord m save 8 &&& statusMask, fpctl := fpctlForm (w 0), vfmt := w 1 &&& vfmtMask, seed := w 2, estart := w 4
    ffs := w 5 &&& ffsMask, grant := grant, berth := w 7 &&& 0xFFFFFFFF, tvec := w 8, tpc := w 9, tcause := w 10 &&& tcauseMask
    tval := w 11, telem := w 12 &&& 0xFFFF, tidx := w 13 &&& tidxMask, tpfx := w 14 &&& tpfxMask, taux0 := w 15, taux1 := w 16
    avec := w 17, arpc := w 18, shvec := w 19, shpc := w 20, shinfo := w 21 &&& 3, retired := w 22, stallbank := w 23 }

/-- Register `n`'s image and tag as a legal save area holds them. -/
def readVec (m : Memory) (save rows rot n : Nat) : VReg × Tag :=
  let d := saveWord m save (0xAC00 + 8 * n)
  decodeVec (field d 8 8) (field d 0 8) (readBytes m (save + voff rows + 512 * n) (field d 16 16)) rot

/-- The rows of bank `b` of accumulator `n` (R119). -/
def readBank (m : Memory) (save rows n b : Nat) : List VReg :=
  (List.range rows).map fun i => vregOf (readBytes m (save + 0xAD00 + (2 * n + b) * rows * 512 + 512 * i) 512)

/-- The context that a fill of a good save area makes (R117, R119). `old` holds the replay records; `rbmap` is the grant of
the bind record (R247). -/
def fillContext (m : Memory) (save rbmap : Nat) (old : Context) : Context :=
  let rows := field (saveWord m save 0) 16 8
  let grant : Word := if rows = 0 then 0 else BitVec.ofNat 64 (2 ^ 15 + rbmap * 256 + rows)
  let strip := saveWord m save 0x4C8
  let rot := rotOf strip
  let y := readSys m save grant
  { old with
    x := Vector.ofFn fun i : Fin 32 => saveWord m save (0x40 + 8 * i.val)
    xArr := Vector.ofFn fun i : Fin 8 => saveWord m save (0x140 + 8 * i.val)
    a := Vector.ofFn fun i : Fin 16 =>
      ⟨saveWord m save (0x180 + 32 * i.val), saveWord m save (0x188 + 32 * i.val), saveWord m save (0x190 + 32 * i.val),
        saveWord m save (0x198 + 32 * i.val) &&& 0xF⟩
    d := Vector.ofFn fun i : Fin 6 =>
      ⟨(saveWord m save (0x380 + 8 * i.val)).truncate 32, (saveWord m save (0x380 + 8 * i.val)).extractLsb' 32 32⟩
    lc := Vector.ofFn fun i : Fin 3 => saveWord m save (0x3B0 + 8 * i.val)
    desc := Vector.ofFn fun i : Fin 3 => saveWord m save (0x3C8 + 8 * i.val) &&& 0x81FFFFFFFFFFFFFC
    pc := saveWord m save 0x10
    sys := { y with berth := BitVec.ofNat 64 (field (saveWord m save 0x18) 0 32) }
    member := (saveWord m save 0x18).extractLsb' 32 2
    arrivals := field (saveWord m save 0x20) 0 8
    tcp := Vector.replicate 8 0
    dbg := Vector.ofFn fun i : Fin 16 => debugWrite i.val (saveWord m save (0x500 + 8 * i.val))
    q := Vector.ofFn fun i : Fin 8 =>
      (List.range (saveWord m save (0x600 + 8 * i.val)).toNat).map fun j =>
        { val := saveWord m save (0x640 + 512 * i.val + 8 * j), filled := true }
    p := Vector.ofFn fun i : Fin 8 => BitVec.ofNat 1024 (saveNat m save (0x1640 + 128 * i.val) 128)
    k := Vector.ofFn fun i : Fin 8 => vregOf (readBytes m (save + 0x1A40 + 512 * i.val) 512)
    z := Vector.ofFn fun i : Fin 8 => Vector.ofFn fun j : Fin 128 =>
      readZ m (save + 0x2A40 + 0xC00 * i.val + 24 * zElemAt rot j.val)
    hold := Vector.ofFn fun i : Fin 32 => BitVec.ofNat 16 (saveNat m save (0x8A40 + 2 * i.val) 2)
    chan := Vector.ofFn fun i : Fin 4 => readChan m (save + 0x8A80 + 64 * i.val) (nth old.chan i.val Channel.free)
    barrier := Vector.ofFn fun i : Fin 6 =>
      let w := saveWord m save (0x8B80 + 8 * i.val)
      { nth old.barrier i.val Barrier.reset with gen := w.truncate 32, arrived := bit w 63, released := bit w 62 }
    v := Vector.ofFn fun i : Fin 32 => (readVec m save rows rot i.val).1
    vtag := Vector.ofFn fun i : Fin 32 => (readVec m save rows rot i.val).2
    vloop := { old.vloop with n := saveWord m save 0x4C0, strip := strip }
    mat := { old.mat with
      mr := rows
      acc := if rows = 0 then Vector.replicate 4 { W := [], V := [] }
             else Vector.ofFn fun i : Fin 4 => { W := readBank m save rows i.val 0, V := readBank m save rows i.val 1 } }
    save := save
    wait := 0 }

end Sys2Proof.Machine
end

