-- ==== Sys2Proof/Machine/Trace.lean ====
section
/-!
DEFINITION. Trace records (R341, R342).
-/

namespace Sys2Proof.Machine

/-- One step of the CRC-32 of IEEE 802.3 over a bit. -/
def crcBit (c : BitVec 32) (b : Bool) : BitVec 32 :=
  let x := c.getLsbD 0 != b
  if x then (c >>> 1) ^^^ 0xEDB88320#32 else c >>> 1

/-- The CRC-32 of the low `n` bits of a record, lowest first. -/
def crc32 (r : BitVec 256) : BitVec 32 :=
  ~~~ ((List.range 256).foldl (fun c i => crcBit c (r.getLsbD i)) 0xFFFFFFFF#32)

/-- A record's 256 bits (R342). -/
def traceWord (kind core berth member : Nat) (cycle p1 p2 : Word) : BitVec 256 :=
  BitVec.ofNat 256 (kind + core * 2 ^ 8 + member * 2 ^ 18 + berth * 2 ^ 32 + cycle.toNat * 2 ^ 64 + p1.toNat * 2 ^ 128
    + p2.toNat * 2 ^ 192)

/-- Put one record into the ring (R341). -/
def traceRing (r : BitVec 256) (s : State) : State :=
  { s with
    mem := writeBytes s.mem (s.fab.pkg.toNat * 2 ^ 42 + s.dev.trbase.toNat + s.dev.trwp.toNat) (leBytes 32 r.toNat)
    dev := { s.dev with trwp := BitVec.ofNat 64 ((s.dev.trwp.toNat + 32) % (max 1 s.dev.trsize.toNat)) } }

/-- Put one record into the port, with its CRC-32 (R341). -/
def tracePort (r : BitVec 256) (s : State) : State :=
  { s with dev := { s.dev with port := s.dev.port ++ [BitVec.ofNat 288 (r.toNat + (crc32 r).toNat * 2 ^ 256)] } }

/-- A record goes along a path: after drops a drop record with their number goes first (R341). It has the core, member, berth and CYCLE of
the record that follows, and where TRCTL has no drop records the number is not kept for a later one: DESIGN CHOICE (log entry 113). `put` is
the path, `drops` its number of drops, and `mk` the record with a kind, P1 and P2. -/
def traceAlong (put : BitVec 256 → State → State) (drops : Nat) (mk : Nat → Word → BitVec 256) (r : BitVec 256) (s : State) : State :=
  put r (if drops ≠ 0 ∧ bit s.dev.trctl 12 then put (mk 12 (BitVec.ofNat 64 drops)) s else s)

/-- An event of a kind at a cycle is traced (R341): filtered, and taken by the ring and the port as TRCTL says, each of which may be unable
to (log entry 5). A record that one of them cannot take is counted once (log entry 82). -/
def traceAt (cycle : Word) (kind core berth member : Nat) (p1 p2 : Word) (s : State) : State :=
  let ctl := s.dev.trctl
  if bit ctl kind && (!bit ctl 18 || field ctl 32 32 == berth) then
    let r := traceWord kind core berth member cycle p1 p2
    let mk (k : Nat) (n : Word) : BitVec 256 := traceWord k core berth member cycle n 0
    let noRing := bit ctl 16 && Config.ringFull s.tick
    let noPort := bit ctl 17 && Config.portFull s.tick
    let s1 :=
      if !bit ctl 16 then s
      else if noRing then { s with dev := { s.dev with ringPend := s.dev.ringPend + 1 } }
      else traceAlong traceRing s.dev.ringPend mk r { s with dev := { s.dev with ringPend := 0 } }
    let s2 :=
      if !bit ctl 17 then s1
      else if noPort then { s1 with dev := { s1.dev with portPend := s1.dev.portPend + 1 } }
      else traceAlong tracePort s1.dev.portPend mk r { s1 with dev := { s1.dev with portPend := 0 } }
    if noRing || noPort then { s2 with dev := { s2.dev with trdrop := s2.dev.trdrop + 1 } } else s2
  else s

/-- An event now. -/
def traceRec (kind core berth member : Nat) (p1 p2 : Word) (s : State) : State := traceAt s.cycle kind core berth member p1 p2 s

/-- A traced event of a context of this core. -/
def traceOf (c : Context) (kind : Nat) (p1 p2 : Word) (s : State) : State :=
  traceRec kind s.coreNum (field c.sys.berth 0 32) c.member.toNat p1 p2 s

/-- A traced event of the Active context. -/
def traceCtx (kind : Nat) (p1 p2 : Word) (s : State) : State := traceOf s.c kind p1 p2 s

end Sys2Proof.Machine
end

