-- ==== Sys2Proof/Machine/Launch.lean ====
section
/-!
DEFINITION. The dispatch hardware and the firmware's side of a launch: the launch window and the acceptance of a record (R309
to R317), the bind records and the slot table (R320 to R324), partitions (R325 to R327), swaps, spills and fills (R116 to
R118), and the end of a context and of a launch (R311, R316, R328).
-/

namespace Sys2Proof.Machine

/-! Matrix issues that have begun (R243). -/

/-- Bytes in runs of consecutive locations. -/
def byteRuns : List (Nat × Byte) → List (Nat × List Byte)
  | [] => []
  | (a, b) :: r =>
    match byteRuns r with
    | (k, bs) :: rest => if k = a + 1 then (a, b :: bs) :: rest else (a, [b]) :: (k, bs) :: rest
    | [] => [(a, [b])]

/-- The oldest begun issue completes: its memory writes, those that reach a block of control space (R38), and then its counter increment
(R243, R246). -/
def finishIssue (s : State) (i : MIssue) : State :=
  let s1 := i.writes.foldl (fun s w => if (ctrlOff w.1).isSome then s else putBytes (clearCounters s w.1 1) w.1 [w.2]) s
  let s2 := (byteRuns (i.writes.filter fun w => (ctrlOff w.1).isSome)).foldl (fun s r => busPut s r.1 r.2) s1
  match i.ctr with
  | none => s2
  | some loc => counterAdd s2 loc 1 [(Path.matrix, i.prior ++ i.ids)]

/-- Every begun issue of the context completes, oldest first. -/
def finishIssues (s : State) : State :=
  match s.c.mat.issues with
  | [] => s
  | is =>
    let s1 := is.foldl finishIssue s
    { s1 with c := { s1.c with mat := { s1.c.mat with issues := [] } } }

/-- Apply a change to the state as another context sees it: what it leaves of the machine and of that context. -/
def asContext (c : Context) (f : State → State) (s : State) : State × Context :=
  let t := f { s with c := c }
  ({ t with c := s.c }, t.c)

/-! Berth table locations (R299, R300). -/

/-- FBBT of a package (R284). -/
def homeFbbt (s : State) (pkg : Nat) : Word :=
  if pkg = s.fab.pkg.toNat then s.fab.fbbt
  else match s.fab.peers.find? fun p => p.pkg == pkg with
    | some p => p.fbbt
    | none => 0

/-- Address of the berth table entry of a name (R298, R299). -/
def berthEntry (s : State) (name : Nat) : Nat :=
  let pkg := name / 2 ^ 22 % 1024
  pkg * 2 ^ 42 + field (homeFbbt s pkg) 20 28 * 2 ^ 20 + 64 * (name / 256 % 16384)

/-- Address of member `m`'s location word (R299). -/
def locationAddr (s : State) (name m : Nat) : Nat := berthEntry s name + 8 + 8 * m

/-- Set SAVED and BUSY of a member's location word (R300). -/
def setLocation (s : State) (name m : Nat) (saved busy : Bool) : State :=
  let a := locationAddr s name m
  { s with mem := writeWord s.mem a (setBit (setBit (readWord s.mem a) 63 saved) 62 busy) }

/-- The fill's end writes CORE and clears SAVED and BUSY (R300). -/
def setLocationLive (s : State) (name m : Nat) : State :=
  let a := locationAddr s name m
  { s with mem := writeWord s.mem a (setField (setBit (setBit (readWord s.mem a) 63 false) 62 false) 0 10 s.coreNum) }

/-! The firmware's own reads through a launch's page table. -/

/-- The physical address of a virtual one through a root table, for a supervisor (R39). -/
def walkPhys (s : State) (root va : Nat) (wr : Bool) : Option Nat :=
  if 2 ^ 48 ≤ va then none
  else match walkFrom s va 3 root with
    | .leaf e size _ => if leafHome e = 2 || (wr && !leafWrite e) then none else some (leafPage e + va % size)
    | _ => none

/-- The firmware can read a physical address: in another package the read has to pass as any other does (R283, R285, R287). It is made as it is
asked for: DESIGN CHOICE (log entry 90). -/
def firmwareReads (s : State) (p : Nat) : Bool :=
  let pkg := pkgOf p
  pkg == s.fab.pkg.toNat || (reachable s pkg && inboundCheck s (homeFbit s pkg) p false == Inbound.ok)

/-- The physical address of a virtual one that the firmware can read through a root table (R313). -/
def readPhys (s : State) (root va : Nat) : Option Nat := (walkPhys s root va false).filter (firmwareReads s)

/-- A word through a root table. -/
def virtWord (s : State) (root va : Nat) : Option Word := (readPhys s root va).map fun p => readWord s.mem p

/-- Every word of a list of `n` words reads. -/
def virtWords (s : State) (root va : Nat) : Nat → Option (List Word)
  | 0 => some []
  | n + 1 =>
    match virtWord s root va, virtWords s root (va + 8) n with
    | some w, some r => some (w :: r)
    | _, _ => none

/-! The status word of a launch (R311). -/

/-- Who the firmware's increment of a completion counter is made for: an access without race records (R311). -/
def firmwareSender (l : Launch) : Sender :=
  { launch := l.id, berth := 0, member := 0, path := .core, kind := .syncWrite, pc := 0, rd := false, prior := [] }

/-- The firmware adds 1 to a completion counter at a physical address. In another package the write has to pass as any other does, and is
sent (R283, R285, R287); in this one it waits for the line's holders (R286). Where it cannot be made, it is not made (R311). -/
def countCompletion (l : Launch) (p : Nat) (s : State) : State :=
  let pkg := pkgOf p
  if pkg = s.fab.pkg.toNat then
    afterRecall (p / 128) true (.write pkg (offOf p) { bytes := [], effect := .count 1 [], who := firmwareSender l }) id
      (fun s => counterAdd s p 1 []) s
  else if reachable s pkg && inboundCheck s (homeFbit s pkg) p true == Inbound.ok then
    sendMsg (.writeReq pkg (offOf p) 8) (counterAdd s p 1 [])
  else s

/-- The end of a launch: ST, then the completion counter; an increment that cannot be made is not made (R311). The launch's
contexts and its place in the queue go. The end and the increment are one step, in which no context of the launch is moved or
scheduled: DESIGN CHOICE (log entry 90). -/
def closeLaunch (s : State) (l : Launch) (st : Nat) : State :=
  let s1 := writeStatus s l.rec_ st 0
  let s2 :=
    if l.ctr = 0 then s1
    else match walkPhys s1 l.root l.ctr.toNat true with
      | some p => countCompletion l p s1
      | none => s1
  { s2 with disp := { s2.disp with launches := s2.disp.launches.filter (·.id != l.id) } }

/-- The firmware retires a context's berth name: it clears V once every member has exited (R298, R300). An entry that serves a later name by
then stays. -/
def retireBerth (s : State) (name : Nat) : State :=
  let a := berthEntry s name
  let e := readWord s.mem a
  if bit e 63 && field e 32 8 == name % 256 then { s with mem := writeWord s.mem a (setBit e 63 false) } else s

/-! Partitions (R325 to R327). -/

/-- The first-level cache term: the largest of 64 KiB and each minimum (R326), in 8 KiB units. -/
def l1Term (s : State) (l1m : Nat) : Nat := s.parts.foldl (fun m p => max m p.l1m) (max 8 l1m)

/-- The partition rule (R326) and the two ends (R327) allow a new partition. -/
def partitionOk (s : State) (scr l1m : Nat) : Bool :=
  let total := s.parts.foldl (fun m p => m + p.scr) scr
  decide (total + l1Term s l1m ≤ 40)
    && !(decide (0 < scr) && (s.parts.any fun p => p.high && decide (0 < p.scr))
        && (s.parts.any fun p => !p.high && decide (0 < p.scr)))

/-- Claim a partition: the low end when no counted partition lies there, otherwise the high end (R327). One of size 0 occupies neither end, and
the slot table shows the end that another would have: DESIGN CHOICE (log entry 110). -/
def claimPartition (s : State) (owner scr l1m : Nat) : State :=
  let lowTaken := s.parts.any fun p => !p.high && decide (0 < p.scr)
  { s with parts := s.parts ++ [{ owner := owner, high := lowTaken, scr := scr, l1m := l1m }] }

/-- Free the partition of a context. -/
def freePartition (s : State) (owner : Nat) : State := { s with parts := s.parts.filter (·.owner != owner) }

/-! Row blocks (R232, R249). -/

/-- RBMAP of a context's grant. -/
def rbmapOf (c : Context) : Nat := field c.sys.grant 8 4

/-- Row blocks of the quad that are granted or reserved, as a bit map: other cores' holdings, the Active context's grant and
the shadow context's reservation. -/
def blocksTaken (s : State) : Nat :=
  s.quadHeld.toNat ||| (if s.cs = .active || s.cs = .parked then rbmapOf s.c else 0)
    ||| (match s.sh with | some c => rbmapOf c | none => 0)

/-- One bits of a 4-bit map. -/
def count4 (m : Nat) : Nat := m % 2 + m / 2 % 2 + m / 4 % 2 + m / 8 % 2

/-! The event word (R323). -/

def setEvent (s : State) (i : Nat) : State := { s with slot := { s.slot with event := setBit s.slot.event i true } }

/-- A refused bind record changes nothing and sets BAD with its reason (R322). -/
def refuseBind (s : State) (reason : Nat) : State :=
  setEvent { s with slot := { s.slot with event := setField s.slot.event 8 8 reason } } 7

/-- The context of an accepted launch that a save area belongs to: the launch and what the firmware keeps of the context. -/
def launchOf (s : State) (save : Nat) : Option Launch :=
  s.disp.launches.find? fun l => l.ctxs.any fun c => c.save == save

/-- A context of a launch changes its state (R15, R318): one that becomes Runnable starts to wait anew, and one that leaves that state keeps
how long it waited. -/
def CtxInfo.become (now : Word) (st : CtxState) (c : CtxInfo) : CtxInfo :=
  { c with
    state := st, since := if st == .runnable then now else c.since
    waited := if c.state == .runnable then now - c.since else c.waited }

/-- Record a context's state with the firmware. -/
def setCtxState (s : State) (save : Nat) (st : CtxState) : State :=
  { s with disp := { s.disp with launches := s.disp.launches.map fun l =>
      { l with ctxs := l.ctxs.map fun c => if c.save == save then c.become s.cycle st else c } } }

/-- The replay records kept for a save area, or those of a context that has never run (R317). -/
def replayOf (s : State) (save : Nat) : Context := (s.saved.find? fun c => c.save == save).getD Context.reset

/-- PRELOAD (R322, R326, R327): refused, or the partition and the row blocks are claimed and the fill begins. -/
def opPreload (r : BindRec) (s : State) : State :=
  let w := r.op
  let save := r.save.toNat
  let name := field r.berth 0 32
  let member := field r.berth 32 2
  let e := readWord s.mem (berthEntry s name)
  let l := readWord s.mem (locationAddr s name member)
  let h := readWord s.mem save
  let rb := field w 24 4
  let scr := field w 8 6
  let l1m := field w 16 6
  if s.sh.isSome || !bit e 63 || field e 32 8 != name % 256 || !bit l 63 || bit l 62 || bit h 24 || bit h 25 then
    refuseBind s 1
  else if !partitionOk s scr l1m then refuseBind s 2
  else if rb &&& blocksTaken s != 0 || count4 rb * 16 != field h 16 8 then refuseBind s 3
  else
    let s1 := claimPartition { s with saved := s.saved.filter (·.save != save) } save scr l1m
    let c := { replayOf s save with
      save := save, scratchA := r.scratch.toNat, root := r.root.toNat, scr := scr, l1m := l1m
      member := BitVec.ofNat 2 member
      sys := { (replayOf s save).sys with grant := BitVec.ofNat 64 (rb * 256), berth := BitVec.ofNat 64 name } }
    let s2 := { s1 with sh := some c, shReady := false, mem := setHeaderBit s1.mem save 25 true }
    setCtxState (setLocation s2 name member true true) save .shadow

/-- The scratch image as memory holds it (R117). -/
def readScratch (m : Memory) (a bytes : Nat) : Memory :=
  (m.filter fun c => decide (a ≤ c.1) && decide (c.1 < a + bytes)).map fun c => (c.1 - a, c.2)

/-- Memory with a scratch image written over a region. -/
def writeScratch (m : Memory) (a bytes : Nat) (img : Memory) : Memory :=
  let cleared := m.filter fun c => !(decide (a ≤ c.1) && decide (c.1 < a + bytes))
  (img.filter fun c => decide (c.1 < bytes)).foldl (fun m c => writeByte m (a + c.1) c.2) cleared

/-- A fill's end (R117, R122, R322): READY and PRD, or a bad save area parks the context and empties the slot. The machine record then has no
fetch fault and no trap to name, and those fields are 0: DESIGN CHOICE (log entry 79). -/
def opFillComplete (s : State) : State :=
  match s.sh with
  | none => s
  | some c =>
    if s.shReady then s
    else
      let name := field c.sys.berth 0 32
      let member := c.member.toNat
      let s0 := { s with mem := setHeaderBit s.mem c.save 25 false }
      match badField s0.mem c.save (count4 (rbmapOf c) * 16) with
      | some off =>
        let s1 := freePartition { s0 with sh := none } c.save
        let s2 := setLocation (setEvent s1 2) name member true false
        setCtxState { s2 with
          saved := c :: s2.saved
          mrecs := s2.mrecs ++ [{ cause := 0x0F, core := s2.coreNum, berth := BitVec.ofNat 32 name, member := c.member
                                  info := BitVec.ofNat 64 off, fetch := 0, tcause := 0 }] } c.save .parked
      | none =>
        let c1 := fillContext s0.mem c.save (rbmapOf c) c
        let lau := launchOf s c.save
        let c2 := { c1 with
          scratch := readScratch s0.mem c.scratchA (c.scr * 8192)
          launch := match lau with | some l => l.id | none => c1.launch
          preempt := match lau with | some l => l.pre | none => c1.preempt }
        setEvent (setLocationLive { s0 with sh := some c2, shReady := true } name member) 6

/-- The queue that a waiting word reads, when that is what it waits for (R157, R189). -/
def waitedQueue (ir : BitVec 32) : Option Nat :=
  let w := ir.toNat
  let op := w / 2 ^ 25 % 64
  if op = 0x0B then
    let k := w / 2 ^ 21 % 16
    if k = 1 then some (w % 8) else if k = 2 ∨ k = 3 then some (w / 2 ^ 16 % 32) else none
  else if op = 0x14 ∧ w / 256 % 2 = 1 then some (w / 512 % 32)
  else none

/-- The outgoing context as it is saved (R116, R118): it stops at its oldest unsettled word, with ESTART = 0, and a read of an empty queue
is recorded to trap at its address. Vector stores that no commit covers stay buffered with the saved context: DESIGN CHOICE (log entry 105:
R44 and R207 list no commit at a swap-out, and R119 no place for them). -/
def outgoing (s : State) : Context :=
  let c := s.c
  let q : Option (Word × Word) :=
    if c.wait = 12 ∨ c.wait = 13 then
      match waitedQueue s.ir with
      | some n => if (nth c.q n []).isEmpty then some (c.pc, BitVec.ofNat 64 n) else none
      | none => none
    else none
  { c with
    sys := { c.sys with estart := 0 }
    replay := none, bypass := [], exiting := false
    qtrap := if q.isSome then q else c.qtrap
    wait := 0, moved := c.moved.filter (!·.who.ofWord), loads := [], q := c.q.map fun l => l.map fun e => { e with filled := true }
    tcp := Vector.replicate 8 0
    pfxRet := if c.pfxLive then some c.pc else c.pfxRet }

/-- The Active context leaves its slot (R116 to R118, R247): its settled issues complete, and the spill begins. -/
def swapOut (s : State) : State :=
  if s.cs = .none then s
  else
    let s1 := traceCtx 9 s.c.pc 0 (commitDue (dropTransfers Agent.ofWord (finishIssues s)))
    let c := outgoing s1
    let s2 := { s1 with spill := some c, cs := .none, c := Context.reset, lbuf := []
                        mem := setHeaderBit s1.mem c.save 24 true }
    setCtxState (setLocation s2 (field c.sys.berth 0 32) c.member.toNat true true) c.save
      (if s.cs = .parked then .parked else .saved)

/-- The firmware knows the context of a save area as Parked (R15, R110). -/
def isParked (s : State) (save : Nat) : Bool :=
  s.disp.launches.any fun l => l.ctxs.any fun c => c.save == save && c.state == CtxState.parked

/-- The spill's end (R117): the save area and the scratch image are complete, SPL and BUSY clear, the partition is free, and
SWD is set. -/
def opSpillComplete (s : State) : State :=
  match s.spill with
  | none => s
  | some c =>
    let m1 := spillMem s.mem c.save c false
    let m2 := writeScratch m1 c.scratchA (c.scr * 8192) c.scratch
    let s1 := { s with mem := m2, spill := none, saved := c :: s.saved.filter (·.save != c.save) }
    let s2 := freePartition (setLocation s1 (field c.sys.berth 0 32) c.member.toNat true false) c.save
    let s3 := if isParked s c.save then s2 else setCtxState s2 c.save .runnable
    setEvent s3 5

/-- SWAP (R322): refused without a valid shadow slot; otherwise it waits for READY. -/
def opSwap (s : State) : State := if s.sh.isNone then refuseBind s 1 else { s with pendSwap := true }

/-- A context resumed at PC takes the payload that STATUS.PFXP holds (R71). One that software gave another Resume PC takes it there where a
payload was live: DESIGN CHOICE (log entry 73: R71 settles the TRET alone). -/
def resumeContext (c : Context) : Context :=
  if bit c.sys.status 2 ∧ (c.pfxRet = some c.pc ∨ c.pfxLive) then { c with pfxLive := true, pfxRet := none }
  else { c with pfxLive := false }

/-- A context that becomes Active for the first time takes its SEED from the launch record (R313). -/
def takeSeed (s : State) (c : Context) : Context :=
  if c.fresh then
    match launchOf s c.save with
    | some l => { c with fresh := false, sys := { c.sys with seed := readWord s.mem (l.rec_ + 0x30) } }
    | none => { c with fresh := false }
  else c

/-- The shadow context becomes Active once it is READY and the spill engine is free (R116). -/
def opSwapActivation (s : State) : State :=
  match s.sh with
  | none => s
  | some c =>
    if s.pendSwap && s.shReady && s.spill.isNone then
      let s1 := swapOut s
      traceCtx 10 c.pc 0 (setCtxState { s1 with
        c := takeSeed s1 (resumeContext c), cs := .active, lbuf := [], sh := none, shReady := false, pendSwap := false
        slot := { s1.slot with used := 0, ovr := false } } c.save .active)
    else s

/-- EVICT (R322): refused without an Active context; otherwise it is swapped out with no successor. -/
def opEvict (s : State) : State := if s.cs = .none then refuseBind s 1 else swapOut s

/-- DROP (R322): the registers that posts change go back to the save area, and what the context keeps in the replay records stays; the
slot, the partition and the blocks are free. -/
def opDrop (s : State) : State :=
  match s.sh with
  | none => refuseBind s 1
  | some c =>
    let rows := grantRows c.sys.grant
    let rot := rotOf (if c.vloop.active then c.vloop.strip else 0)
    let vecs := (List.range 32).map fun n => encodeVec (nth c.v n 0) (nth c.vtag n .general) rot
    let m1 := writeBytes s.mem (c.save + 0x8A40) (c.hold.toList.flatMap fun h => leBytes 2 h.toNat)
    let m2 := writeBytes m1 (c.save + 0xAC00) (vecs.flatMap fun v => leBytes 8 (v.2.1 + v.1 * 256 + v.2.2.length * 65536))
    let m3 := vecs.zipIdx.foldl (fun m v => writeBytes m (c.save + voff rows + 512 * v.2) v.1.2.2) m2
    let s1 := { s with mem := m3, sh := none, shReady := false, pendSwap := false
                       saved := c :: s.saved.filter (·.save != c.save) }
    let s2 := freePartition (setLocation s1 (field c.sys.berth 0 32) c.member.toNat true false) c.save
    setCtxState s2 c.save .runnable

/-- An operation is still being carried out (R320): a fill, or a swap that has not taken place. -/
def bindBusy (s : State) : Bool := (s.sh.isSome && !s.shReady) || s.pendSwap

/-- Carry out a bind record (R321, R322). A word with a reserved field or OP is refused with reason 1, whatever its OP. -/
def bindOp (r : BindRec) (s : State) : State :=
  let op := field r.op 0 4
  if bindReserved r.op then refuseBind s 1
  else if op = 0 then s
  else if op = 1 then opPreload r s
  else if op = 2 then opSwap s
  else if op = 3 then opEvict s
  else opDrop s

/-- A bind record cannot be carried out yet: another is being carried out (R320), or it evicts a context while the one spill
engine still writes the context that went before (R117). -/
def bindWaits (r : BindRec) (s : State) : Bool :=
  bindBusy s || (field r.op 0 4 == 3 && !bindReserved r.op && s.cs != .none && s.spill.isSome)

/-- Held bind records are carried out, oldest first, as soon as each can be (R320). -/
def runHeld : Nat → State → State
  | 0, s => s
  | n + 1, s =>
    match s.slot.held with
    | [] => s
    | r :: rest => if bindWaits r s then s else runHeld n (bindOp r { s with slot := { s.slot with held := rest } })

/-- Bind records that have been submitted are carried out now, where they can be (R320). -/
def afterBind (s : State) : State := runHeld s.slot.held.length s

/-- The oldest held bind record can be carried out. -/
def heldDue (s : State) : Bool := match s.slot.held with | [] => false | r :: _ => !bindWaits r s

/-! The launch window and launch records (R309 to R317). -/

/-- A placement entry's fields that must be zero are (R312). -/
def placementBits (w : Word) : Bool := field w 10 6 == 0 && field w 20 44 == 0

/-- The packages that a placement names: no route, or outside the pod, or a bad die, fails (R313 reason 3). -/
def placementOk (s : State) (ngrp : Nat) (w : Word) : Bool :=
  let pkg := field w 0 10
  let die := field w 16 4
  !(decide (7 < die) && die != 15) && !(die == 15 && decide (0 < ngrp))
    && (pkg == s.fab.pkg.toNat || (routePort s pkg).isSome)

/-- An argument entry has no reserved value (R312). -/
def argOk (ngrp nmem : Nat) (w : Word) : Bool :=
  field w 5 3 == 0 && field w 10 5 == 0 && field w 26 5 == 0 && field w 32 32 == 0
    && (bit w 31 || decide (field w 16 10 ≤ ngrp)) && (bit w 15 || decide (field w 8 2 ≤ nmem)) && field w 0 5 != 0

/-- The x registers of context `m` of group `g`: entries apply in list order (R312). -/
def applyArgs (g m : Nat) (x : Vector Word 32) : List Word → Vector Word 32
  | w :: v :: r =>
    let hit := (bit w 31 || field w 16 10 == g) && (bit w 15 || field w 8 2 == m)
    applyArgs g m (if hit then upd x (field w 0 5) v else x) r
  | _ => x

/-- What a launch record holds (R309, R310). -/
structure LaunchRec where
  head   : Word
  ctr    : Word
  root   : Word
  pc     : Word
  tvec   : Word
  seed   : Word
  status : Word
  place  : Word
  args   : Word
  deriving DecidableEq, Repr

def readLaunch (m : Memory) (a : Nat) : LaunchRec :=
  { head := readWord m a, ctr := readWord m (a + 0x10), root := readWord m (a + 0x18), pc := readWord m (a + 0x20)
    tvec := readWord m (a + 0x28), seed := readWord m (a + 0x30), status := readWord m (a + 0x38)
    place := readWord m (a + 0x40), args := readWord m (a + 0x48) }

def LaunchRec.narg (r : LaunchRec) : Nat := field r.head 36 12
def LaunchRec.ngrp (r : LaunchRec) : Nat := field r.head 26 10
def LaunchRec.nmem (r : LaunchRec) : Nat := field r.head 24 2
def LaunchRec.scr (r : LaunchRec) : Nat := field r.head 0 6
def LaunchRec.l1m (r : LaunchRec) : Nat := field r.head 12 6

/-- The placement list as read, or the default of a single group (R312). -/
def placements (s : State) (r : LaunchRec) : Option (List Word) :=
  if r.place = 0 && r.ngrp == 0 then some [BitVec.ofNat 64 (s.fab.pkg.toNat + 15 * 65536)]
  else virtWords s r.root.toNat r.place.toNat (r.ngrp + 1)

/-- The argument list as read. -/
def arguments (s : State) (r : LaunchRec) : Option (List Word) :=
  if r.narg = 0 then some [] else virtWords s r.root.toNat r.args.toNat (2 * r.narg)

/-- The first check of R313 that a record fails, as its REASON; 0 when it passes. `refused` says that the firmware of another placed
package refuses its groups. A counter address that is not a multiple of 8, bits of ROOT outside 51:12, and a list address of 0 where a list is
needed have reason 1: DESIGN CHOICE (log entry 104: R313's table names none for them). -/
def rejectReason (s : State) (refused : Bool) (r : LaunchRec) : Nat :=
  let ps := placements s r
  let as_ := arguments s r
  let badFields := field r.head 48 16 != 1 || field r.head 18 2 != 0 || field r.head 6 6 != 0
    || (r.status &&& ~~~(0x28 : Word)) != 0 || field r.root 0 12 != 0 || field r.root 52 12 != 0
    || field r.ctr 0 3 != 0 || (r.place == 0 && r.ngrp != 0) || (r.args == 0 && r.narg != 0)
  let badArgs := match as_ with
    | some ws => (List.range r.narg).any fun i => !argOk r.ngrp r.nmem (ws.getD (2 * i) 0)
    | none => false
  let badBits := match ps with
    | some ws => ws.any fun w => !placementBits w
    | none => false
  let away := match ps with
    | some ws => ws.any fun w => field w 0 10 != s.fab.pkg.toNat
    | none => false
  let badPlace := match ps with
    | some ws => ws.any fun w => !placementOk s r.ngrp w
    | none => false
  let unread := ps.isNone || as_.isNone || (readPhys s r.root.toNat r.pc.toNat).isNone
    || (readPhys s r.root.toNat r.tvec.toNat).isNone
    || (r.ctr != 0 && (readPhys s r.root.toNat r.ctr.toNat).isNone)
  if badFields || badBits || badArgs then 1
  else if 32 < r.scr || 40 < r.scr + max (if r.l1m = 0 then 8 else r.l1m) 8 then 2
  else if badPlace then 3
  else if unread then 4
  else if refused && away then 6
  else 0

/-- A context before its first activation (R123, R317), with its barrier memberships (R26, R312) and the die it is placed on. Its debug words
are zero like every other field. -/
def firstContext (r : LaunchRec) (launch : Nat) (save scratch : Nat) (name : BitVec 32) (m : Nat) (x : Vector Word 32)
    (quad onDie pkg pod die : Nat) : Context :=
  let b (n : Nat) : Barrier := { Barrier.reset with members := n }
  { Context.reset with
    x := x, pc := r.pc, member := BitVec.ofNat 2 m
    sys := { SysRegs.reset with status := r.status, seed := r.seed, tvec := r.tvec, berth := name.zeroExtend 64 }
    barrier := #v[b 1, b 1, b quad, b onDie, b pkg, b pod]
    dbg := Vector.replicate 16 0
    root := r.root.toNat, save := save, die := die, scratchA := scratch, scr := r.scr, l1m := r.l1m, launch := launch
    preempt := bit r.head 23, fresh := true }

/-- Nothing is remembered of the partition of an earlier context with a save area. -/
def forgetPartition (save : Nat) (s : State) : State :=
  let mine (a : Nat) : Bool := decide (coreLoc + save * 2 ^ 18 ≤ a) && decide (a < coreLoc + (save + 1) * 2 ^ 18)
  { s with
    ctrs := s.ctrs.filter fun h => !mine h.addr, rlxw := s.rlxw.filter fun w => !mine w.1
    icache := s.icache.filter fun e => !mine e.1.toNat }

/-- One context of an accepted launch is placed: its save area is written as a saved context, its scratch image is zero, its
location word says SAVED (R317, R300), and it is Runnable. -/
def placeContext (s : State) (r : LaunchRec) (name : BitVec 32) (c : Context) : State :=
  let m1 := spillMem s.mem c.save c false
  let m2 := writeScratch m1 c.scratchA (r.scr * 8192) []
  let s1 := forgetPartition c.save { s with mem := m2, saved := c :: s.saved.filter (·.save != c.save) }
  let a := locationAddr s1 name.toNat c.member.toNat
  { s1 with mem := writeWord s1.mem a (BitVec.ofNat 64 (2 ^ 63 + c.save % 2 ^ 42 / 4096 * 4096)) }

/-- One group of an accepted launch is bound to a berth slot: the firmware adds 1 to its GEN and writes V and NM (R298,
R300). The contexts of the group follow in member order (R313). A slot that was never bound gets GEN 1: DESIGN CHOICE (log entry 111: the manual
gives no first value). -/
def placeGroup (r : LaunchRec) (args : List Word) (places : List Word) (launch : Nat) (pl : Placing) (g : Nat)
    (acc : State × List CtxInfo) : State × List CtxInfo :=
  let w := places.getD g 0
  let pkg := field w 0 10
  let s := acc.1
  if pkg ≠ s.fab.pkg.toNat then acc
  else
    let slot := (pl.slot + g) % 16384
    let e := readWord s.mem (berthEntry s (pkg * 2 ^ 22 + slot * 256))
    let gen := (field e 32 8 + 1) % 256
    let name : BitVec 32 := BitVec.ofNat 32 (pkg * 2 ^ 22 + slot * 256 + gen)
    let n := r.nmem + 1
    let onDie := n * (places.filter fun p => field p 0 10 == pkg && field p 16 4 == field w 16 4).length
    let onPkg := n * (places.filter fun p => field p 0 10 == pkg).length
    let onPod := n * places.length
    let entry : Word := BitVec.ofNat 64 (2 ^ 63 + r.nmem * 2 ^ 56 + gen * 2 ^ 32)
    let s1 := { s with mem := writeWord s.mem (berthEntry s name.toNat) entry }
    (List.range n).foldl (fun a m =>
      let k := g * n + m
      let save := pl.save + 0x4F000 * k
      let scratch := pl.scratch + r.scr * 8192 * k
      let c := firstContext r launch save scratch name m
        (applyArgs g m (Vector.replicate 32 0) args) n onDie onPkg onPod (field w 16 4)
      (placeContext a.1 r name c
        , a.2 ++ [{ save := save, scratch := scratch, berth := name, member := BitVec.ofNat 2 m, die := field w 16 4
                    state := .runnable, since := s.cycle, waited := 0 }]))
      (s1, acc.2)

/-- The firmware, which runs in STATE 3 (R331), takes the oldest record of the window, checks it, and accepts or rejects it (R313,
R315). -/
def opLaunchAccept (pl : Placing) (s : State) : State :=
  match s.disp.lwin with
  | [] => s
  | a :: rest =>
    if s.dev.state ≠ .ready then s else
    let s0 := { s with disp := { s.disp with lwin := rest } }
    let r := readLaunch s0.mem a.toNat
    let why := rejectReason s0 pl.refused r
    if why ≠ 0 then writeStatus s0 a.toNat 2 why
    else
      let id := s0.disp.nextLaunch
      let ps := (placements s0 r).getD []
      let args := (arguments s0 r).getD []
      let (s1, ctxs) := (List.range (r.ngrp + 1)).foldl (fun acc g => placeGroup r args ps id pl g acc) (s0, [])
      let s2 := writeStatus s1 a.toNat 1 0
      { s2 with disp := { s2.disp with
          nextLaunch := id + 1
          launches := s2.disp.launches ++ [{ id := id, rec_ := a.toNat, root := r.root.toNat, ctr := r.ctr
                                             pre := bit r.head 23, prio := field r.head 20 3, scr := r.scr, l1m := r.l1m
                                             others := (r.nmem + 1) * (ps.filter fun w => field w 0 10 != s.fab.pkg.toNat).length
                                             pkgs := ((ps.map fun w => field w 0 10).filter (· != s.fab.pkg.toNat)).eraseDups
                                             ctxs := ctxs }] } }

/-! The end of a context and of a launch. -/

/-- Every context of a launch has exited, those on other packages too (R328). -/
def launchDone (l : Launch) : Bool := l.others == 0 && l.ctxs.all fun d => d.state == CtxState.exited

/-- A context of the launch has exited: its name is retired once its group is gone, and ST becomes 3 once every context has
exited (R311, R328). -/
def noteExit (s : State) (save : Nat) : State :=
  let s1 := setCtxState s save .exited
  match launchOf s1 save with
  | none => s1
  | some l =>
    let groupGone := match l.ctxs.find? (·.save == save) with
      | some c => l.ctxs.all fun d => d.berth != c.berth || d.state == CtxState.exited
      | none => false
    let s2 := if groupGone then
        match l.ctxs.find? (·.save == save) with
        | some c => retireBerth s1 c.berth.toNat
        | none => s1
      else s1
    if launchDone l then closeLaunch s2 l 3 else s2

/-- A context lies in one of this core's slots, or is being spilled. -/
def residentHere (s : State) (save : Nat) : Bool :=
  (s.cs != .none && s.c.save == save) || (s.sh.any fun c => c.save == save) || (s.spill.any fun c => c.save == save)

/-- A context of a launch has exited on another core of this package (R328): nothing of it stays. -/
def exitHere (save : Nat) (s : State) : State :=
  if residentHere s save then s else noteExit { s with saved := s.saved.filter (·.save != save) } save

/-- A context of a launch has exited on another package (R328). -/
def exitElsewhere (id : Nat) (s : State) : State :=
  let s1 := { s with disp := { s.disp with launches := s.disp.launches.map fun l =>
    if l.id == id then { l with others := l.others - 1 } else l } }
  match s1.disp.launches.find? fun l => l.id == id with
  | some l => if launchDone l then closeLaunch s1 l 3 else s1
  | none => s1

/-- The context leaves the active slot for good (R328): detached, its queues and its partition gone, XIT set. -/
def leaveSlot (s : State) : State :=
  let save := s.c.save
  let s1 := setEvent (freePartition { s with cs := .none, c := Context.reset, lbuf := [] } save) 4
  noteExit { s1 with saved := s1.saved.filter (·.save != save) } save

/-- Every write that a context has made becomes visible: its begun matrix issues and its buffered stores (R311). -/
def makeVisible (s : State) : State := commitStores (finishIssues s)

/-- The same for another context of this core. -/
def visibleOf (c : Context) (s : State) : State := (asContext c makeVisible s).1

/-- The error record of a launch (R311): the failing context's name, member, TCAUSE and TPC. -/
def writeErrorRecord (rec : Nat) (name : BitVec 32) (member : BitVec 2) (tcause tpc : Word) (s : State) : State :=
  let w : Word := BitVec.ofNat 64 (name.toNat + member.toNat * 2 ^ 32 + field tcause 0 16 * 2 ^ 48)
  { s with mem := writeWord (writeWord s.mem (rec + 0x50) w) (rec + 0x58) tpc }

/-- The Active context is swapped out, by an EVICT record, and its spill ends (R316, R320, R322); a spill that is still going on ends
before (R117). -/
def evictNow (s : State) : State :=
  let s1 := opSpillComplete s
  opSpillComplete (swapOut { s1 with slot := { s1.slot with op := 3 } })

/-- The shadow context leaves its slot, by a DROP record where it is READY (R320, R322); a fill that has not ended ends nowhere. -/
def dropNow (c : Context) (s : State) : State :=
  if s.shReady then opDrop { s with slot := { s.slot with op := 4 } }
  else freePartition { s with sh := none, pendSwap := false, saved := c :: s.saved } c.save

/-- A launch ends by error (R311, R316, R334, R337): every context of it is swapped out and discarded with its writes made visible, and ST
becomes 4. It is one step, and transfers of its commands that have not been sent are not sent any more: DESIGN CHOICE (log entry 90). -/
def endLaunch (s : State) (l : Launch) : State :=
  let mine (c : Context) : Bool := l.ctxs.any fun d => d.save == c.save
  let s1 := if s.spill.any mine then opSpillComplete s else s
  let s2 := if s1.cs ≠ .none && mine s1.c then evictNow s1 else s1
  let s3 := match s2.sh with
    | some c => if mine c then dropNow c s2 else s2
    | none => s2
  let s4 := (s3.saved.filter mine).foldl (fun s c => visibleOf c s) s3
  let s5 := { s4 with saved := s4.saved.filter fun c => !mine c }
  let s6 := l.ctxs.foldl (fun s d => retireBerth s d.berth.toNat) s5
  closeLaunch s6 l 4

/-- Every launch ends by error (R334, R337). No context has failed, and the error records stay as they are. -/
def endAllLaunches (s : State) : State := s.disp.launches.foldl (fun s l => endLaunch s l) s

/-- TCAUSE and TPC of a context, wherever it is: in a slot, being spilled, or in its save area (R119, R311). -/
def trapRecordOf (save : Nat) (s : State) : Word × Word :=
  let of (c : Context) : Word × Word := (c.sys.tcause, c.sys.tpc)
  if s.cs ≠ .none && s.c.save == save then of s.c
  else match s.spill.filter fun c => c.save == save with
    | some c => of c
    | none =>
      match s.sh.filter fun c => s.shReady && c.save == save with
      | some c => of c
      | none => (saveWord s.mem save 0x450, saveWord s.mem save 0x448)

/-- A context fails with a trap that nobody serves: its launch ends, with the error record filled in from the context's TCAUSE and TPC,
wherever they are (R311, R316, R324). -/
def failLaunch (save : Nat) (s : State) : State :=
  match launchOf s save with
  | none => s
  | some l =>
    match l.ctxs.find? fun d => d.save == save with
    | none => s
    | some d =>
      let r := trapRecordOf save s
      endLaunch (writeErrorRecord l.rec_ d.berth d.member r.1 r.2 s) l

/-- A context of a launch has failed on another package, whose firmware gives the error record's fields (R311, R316). -/
def failElsewhere (id : Nat) (name : BitVec 32) (member : BitVec 2) (tcause tpc : Word) (s : State) : State :=
  match s.disp.launches.find? fun l => l.id == id with
  | none => s
  | some l => endLaunch (writeErrorRecord l.rec_ name member tcause tpc s) l

/-- The firmware's reaction to LOST: it ends the launch of the context, whose saved state is not valid (R323, R324). That it does not run
the launch again from its record is DESIGN CHOICE (log entry 95: the manual leaves it either). -/
def lostTurn (s : State) : State :=
  match s.disp.lost with
  | [] => s
  | save :: rest => failLaunch save { s with disp := { s.disp with lost := rest } }

/-! The firmware's scheduling (R318, R319). -/

/-- The cycles a context has waited since it last became Runnable; they count only while it waits (R318). -/
def waitedCycles (s : State) (c : CtxInfo) : Nat := (if c.state == .runnable then s.cycle - c.since else c.waited).toNat

/-- The effective priority of a waiting context: min(7, PRIO + ⌊w ÷ A⌋) (R318). -/
def effectivePriority (s : State) (l : Launch) (c : CtxInfo) : Nat :=
  min 7 (l.prio + waitedCycles s c / max 1 (s.disp.dage.toNat % 2 ^ 32))

/-- The contexts that wait for this core: Runnable, and placed on its die or on any (R10, R312, R319), with their launches. -/
def waiting (s : State) : List (Launch × CtxInfo) :=
  s.disp.launches.flatMap fun l =>
    (l.ctxs.filter fun c => c.state == .runnable && (c.die == 15 || c.die == s.coreNum / 128)).map fun c => (l, c)

/-- The one chosen: the highest effective priority, and the oldest among equals (R318). -/
def chosen (s : State) : Option (Launch × CtxInfo) :=
  (waiting s).foldl (fun best q =>
    match best with
    | none => some q
    | some b =>
      let p := effectivePriority s q.1 q.2
      let r := effectivePriority s b.1 b.2
      if r < p || (r == p && decide (waitedCycles s b.2 < waitedCycles s q.2)) then some q else best) none

/-- Slice budget of this core used up (R314, R318). -/
def budgetSpent (s : State) : Bool := decide ((budgetOf s s.coreNum).toNat ≤ s.slot.used.toNat)

/-- The core can take a context of an effective priority (R318): it has none, or its own belongs to a preemptible launch and has used its
budget or is outranked. A Parked context stays. -/
def canTake (s : State) (prio : Nat) : Bool :=
  match s.cs with
  | .none => true
  | .active =>
    s.c.preempt && (budgetSpent s || (match launchOf s s.c.save with | some l => decide (l.prio < prio) | none => false))
  | _ => false

/-- The lowest blocks that are free, as many as asked for. -/
def pickBlocks (taken n : Nat) : Nat :=
  ((List.range 4).filter fun b => !taken.testBit b).take n |>.foldl (fun m b => m + 2 ^ b) 0

/-- The bind record that loads a context (R320, R321): its row blocks are the lowest free ones, as many as its save area has rows. -/
def bindRecord (s : State) (l : Launch) (c : CtxInfo) : BindRec :=
  let rb := pickBlocks (blocksTaken s) (field (readWord s.mem c.save) 16 8 / 16)
  { op := BitVec.ofNat 64 (1 + l.scr * 2 ^ 8 + l.l1m * 2 ^ 16 + rb * 2 ^ 24), save := BitVec.ofNat 64 c.save
    scratch := BitVec.ofNat 64 c.scratch, root := BitVec.ofNat 64 l.root
    berth := BitVec.ofNat 64 (c.berth.toNat + c.member.toNat * 2 ^ 32) }

/-- A context's partition and row blocks fit beside those that are claimed (R326, R327, R232). -/
def roomFor (s : State) (l : Launch) (c : CtxInfo) : Bool :=
  let blocks := field (readWord s.mem c.save) 16 8 / 16
  partitionOk s l.scr l.l1m && count4 (pickBlocks (blocksTaken s) blocks) == blocks

/-- What the firmware's state would be without the Active context's partition and row blocks. -/
def withoutActive (s : State) : State := { freePartition s s.c.save with cs := .none }

/-- A record of an operation with the words as they stand. -/
def bindWords (s : State) (op : Word) : BindRec :=
  { op := op, save := s.slot.save, scratch := s.slot.scratch, root := s.slot.root, berth := s.slot.berth }

/-- The record for a context that waits, where none is Shadow: a PRELOAD where there is room, or an EVICT of the Active context where its
partition or its blocks are what leaves none (R318, R322, R326). -/
def loadRecord (s : State) (l : Launch) (c : CtxInfo) : Option BindRec :=
  if !canTake s (effectivePriority s l c) then none
  else if roomFor s l c then some (bindRecord s l c)
  else if s.cs == .active && s.spill.isNone && roomFor (withoutActive s) l c then some (bindWords s 3)
  else none

/-- The bind record that the firmware would write now: a SWAP to a context that is READY, or what makes a waiting one Shadow, unless it
withholds preloads (R318, R337). When it writes which of them, and with which blocks and partition, is its own: DESIGN CHOICE (log entry
91). -/
def firmwareRecord (s : State) : Option BindRec :=
  if s.dev.state ≠ .ready || !s.slot.held.isEmpty || bindBusy s then none
  else match s.sh with
    | some c =>
      let prio := match launchOf s c.save with
        | some l => (match l.ctxs.find? fun d => d.save == c.save with | some d => effectivePriority s l d | none => l.prio)
        | none => 0
      if canTake s prio && s.spill.isNone then some (bindWords s 2) else none
    | none =>
      if 0 < s.dev.holdoff then none
      else match chosen s with
        | some q => loadRecord s q.1 q.2
        | none => none

/-- The firmware has something to do: a launch to end after LOST, or a bind record to write. -/
def firmwareDue (s : State) : Bool := (s.dev.state == .ready && !s.disp.lost.isEmpty) || (firmwareRecord s).isSome

/-- The firmware does it: a bind record's words are written first, the operation word last (R320, R324). -/
def firmwareTurn (s : State) : State :=
  if s.dev.state = .ready ∧ s.disp.lost ≠ [] then lostTurn s
  else match firmwareRecord s with
    | none => s
    | some r =>
      afterBind (writeSlot 0 r.op (writeSlot 0x20 r.berth (writeSlot 0x18 r.root (writeSlot 0x10 r.scratch (writeSlot 8 r.save s)))))

end Sys2Proof.Machine
end

