-- ==== Sys2Proof/Machine/Words.lean ====
section
/-!
DEFINITION. Taking a trap (R105, R108) and the beginning of an AP-class word (R67, R70).
-/

namespace Sys2Proof.Machine

/-- A trap is taken when every older word is complete: the matrix issues that have begun complete, and then the trap is entered (R105,
R108, R243). -/
def takeTrap (t : TrapInfo) (s : State) : State := enterTrap t (finishIssues s)

/-- An arrival is taken when every older word is complete, the matrix issues that have begun too (R114, R243). -/
def takeArrival (s : State) : State := enterArrival (finishIssues s)

/-- A meaning's result as an outcome: a trap is taken, a wait leaves the word to issue again. -/
def Res.out (r : Res Unit) : Out :=
  match r with
  | .ok _ s => .next s
  | .trap t s => .next (takeTrap t s)
  | .wait n s => .next { s with c := { s.c with wait := n } }

/-- An AP-class word other than an RM or BP word: a payload pending for it makes it ILLEGAL_INSN (R70). -/
def apWord (s : State) (k : State → Res Unit) : Out :=
  if s.c.pfxLive then .next (takeTrap (s.illegal true) s) else (k s).out

/-- A supervisor-only AP word: PRIV at user level (R67 step 7, R99). -/
def apSuper (s : State) (k : State → Res Unit) : Out :=
  apWord s fun s => if s.prv then k s else .trap (s.privTrap true) s

/-- An AP word that only computes: the state it leaves, completed. -/
def apPure (s : State) (k : State → State) : Out := apWord s fun s => .ok () (complete (k s))

/-- The word being issued is of the AP class (R62). -/
def apNow (s : State) : Bool := apOpcode (fld s.ir 25 6).toNat

/-- A result whose trap or wait leaves no race record behind: the word or chunk then has no effect (R106, R172). -/
def withoutRecords {α : Type} (s : State) (r : Res α) : Res α :=
  match r with
  | .ok a s1 => .ok a s1
  | .trap t s1 => .trap t { s1 with recs := s.recs, nextRec := s.nextRec }
  | .wait n s1 => .wait n { s1 with recs := s.recs, nextRec := s.nextRec }

end Sys2Proof.Machine
end

