-- ==== Sys2Proof/Machine/Addr.lean ====
section
/-!
DEFINITION. The address-register words (R128, R134, R144, R145). Each writes one register; one that faults leaves its
destination unchanged.
-/

namespace Sys2Proof.Machine

/-- LIMIT with TVAL an exact value modulo 2^64 (R128, R144). -/
def limitTrap (s : State) (p : Int) : TrapInfo := s.trapInfo true 0x06 (wordOf p)

/-- AMK (R144): LIMIT when x[xa] + x[xb] exceeds 2^48. -/
def execAmk (d a b : BitVec 5) (s : State) : Out :=
  apWord s fun s =>
    let base := s.rx a
    let top := base.toNat + (s.rx b).toNat
    if 2 ^ 48 < top then .trap (limitTrap s top) s
    else .ok () (complete (s.wa d.toNat { ptr := base, base := base, limit := BitVec.ofNat 64 top, perm := 0xF }))

/-- AMOV (R144). -/
def execAmov (d a : BitVec 5) (s : State) : Out := apPure s fun s => s.wa d.toNat (s.ra a.toNat)

/-- APERM (R144). -/
def execAperm (d a b : BitVec 5) (s : State) : Out :=
  apPure s fun s => s.wa d.toNat { s.ra a.toNat with perm := s.rx b &&& 0xF }

/-- A copy of as with its pointer moved to an exact address (R128). -/
def movePointer (d : Nat) (r : AReg) (p : Int) (s : State) : Res Unit :=
  if advanceOk r p then .ok () (complete (s.wa d { r with ptr := wordOf p })) else .trap (limitTrap s p) s

/-- AADD (R144): an advance by x[xb], signed. -/
def execAadd (d a b : BitVec 5) (s : State) : Out :=
  apWord s fun s => movePointer d.toNat (s.ra a.toNat) ((s.ra a.toNat).ptr.toNat + (s.rx b).toInt) s

/-- ANAR (R144): base at the pointer, limit m = pointer + x[xb], LIMIT when m exceeds the limit. -/
def execAnar (d a b : BitVec 5) (s : State) : Out :=
  apWord s fun s =>
    let r := s.ra a.toNat
    let m := r.ptr.toNat + (s.rx b).toNat
    if r.limit.toNat < m then .trap (limitTrap s m) s
    else .ok () (complete (s.wa d.toNat { ptr := r.ptr, base := r.ptr, limit := BitVec.ofNat 64 m, perm := r.perm }))

/-- ASET (R144): an advance to x[xb]. -/
def execAset (d a b : BitVec 5) (s : State) : Out :=
  apWord s fun s => movePointer d.toNat (s.ra a.toNat) (s.rx b).toNat s

/-- ADIFF (R144). -/
def execAdiff (d a b : BitVec 5) (s : State) : Out :=
  apPure s fun s => s.wx d ((s.ra a.toNat).ptr - (s.ra b.toNat).ptr)

/-- AGET (R144). -/
def execAget (d a : BitVec 5) (s : State) : Out := apPure s fun s => s.wx d (s.ra a.toNat).ptr
/-- AGETB (R144). -/
def execAgetb (d a : BitVec 5) (s : State) : Out := apPure s fun s => s.wx d (s.ra a.toNat).base
/-- AGETL (R144). -/
def execAgetl (d a : BitVec 5) (s : State) : Out := apPure s fun s => s.wx d (s.ra a.toNat).limit
/-- AGETP (R144). -/
def execAgetp (d a : BitVec 5) (s : State) : Out := apPure s fun s => s.wx d (s.ra a.toNat).perm

/-- DSET (R144). -/
def execDset (d a b : BitVec 5) (s : State) : Out :=
  apPure s fun s => s.wd d.toNat { len := (s.rx a).truncate 32, stride := (s.rx b).truncate 32 }

/-- DGETL (R144). -/
def execDgetl (d a : BitVec 5) (s : State) : Out := apPure s fun s => s.wx d ((s.rd a.toNat).len.zeroExtend 64)
/-- DGETS (R144). -/
def execDgets (d a : BitVec 5) (s : State) : Out := apPure s fun s => s.wx d ((s.rd a.toNat).stride.signExtend 64)

/-- MTLC (R144, R145). Where it is itself the last word of the level, the turn at its completion finds the new value: DESIGN CHOICE (log
entry 87). -/
def execMtlc (d a : BitVec 5) (s : State) : Out := apPure s fun s => s.wlc d.toNat (s.rx a)
/-- MFLC (R144). -/
def execMflc (d a : BitVec 5) (s : State) : Out := apPure s fun s => s.wx d (s.rlc a.toNat)
/-- MFLB (R144). -/
def execMflb (d a : BitVec 5) (s : State) : Out := apPure s fun s => s.wx d (s.rdesc a.toNat)
/-- MTLB (R134, R144): bits 62:57 and 1:0 are cleared. Where it is itself the last word of the level, the turn at its completion finds the
new value: DESIGN CHOICE (log entry 87). -/
def execMtlb (d a : BitVec 5) (s : State) : Out :=
  apPure s fun s => s.wdesc d.toNat (s.rx a &&& 0x81FFFFFFFFFFFFFC)

end Sys2Proof.Machine
end

