-- ==== Sys2Proof/Machine/Alu.lean ====
section
/-!
DEFINITION. The scalar arithmetic words: ALU but for its jumps (R136, R137), ALUI (R139) and LIH (R140). Operands are read
before xd is written.
-/

namespace Sys2Proof.Machine

/-- 1 or 0. -/
def ofBool (b : Bool) : Word := if b then 1 else 0

/-- Bits 31:0, sign-extended. -/
def sext32 (a : Word) : Word := (a.truncate 32 : BitVec 32).signExtend 64

/-- An exact integer saturated to [−2^63, 2^63 − 1]. -/
def satSigned (v : Int) : Word :=
  if v < -(2 ^ 63 : Int) then wordOf (-(2 ^ 63 : Int)) else if (2 ^ 63 : Int) - 1 < v then wordOf (2 ^ 63 - 1) else wordOf v

/-- An exact integer saturated to [0, 2^64 − 1]. -/
def satUnsigned (v : Int) : Word :=
  if v < 0 then 0 else if (2 ^ 64 : Int) - 1 < v then wordOf (2 ^ 64 - 1) else wordOf v

/-- Division never traps: by zero it gives all ones, and −2^63 by −1 gives −2^63 (R137). -/
def divSigned (a b : Word) : Word := if b = 0 then -1 else wordOf (Int.tdiv a.toInt b.toInt)
def divUnsigned (a b : Word) : Word := if b = 0 then -1 else BitVec.ofNat 64 (a.toNat / b.toNat)
/-- The remainder by zero is x[xa] (R137). -/
def remSigned (a b : Word) : Word := if b = 0 then a else wordOf (Int.tmod a.toInt b.toInt)
def remUnsigned (a b : Word) : Word := if b = 0 then a else BitVec.ofNat 64 (a.toNat % b.toNat)

/-- Leading zero bits of a 64-bit value. -/
def leadingZeros (v : Nat) : Nat := if v = 0 then 64 else 63 - Nat.log2 v

/-- Trailing zero bits of the low `n` bits. -/
def trailingZeros : Nat → Nat → Nat
  | 0, _ => 0
  | n + 1, v => if v % 2 = 1 then 0 else 1 + trailingZeros n (v / 2)

/-- One bits among the low `n`. -/
def oneBits : Nat → Nat → Nat
  | 0, _ => 0
  | n + 1, v => v % 2 + oneBits n (v / 2)

/-- The low `n` bits in reverse order. -/
def reverseBits : Nat → Nat → Nat
  | 0, _ => 0
  | n + 1, v => v % 2 * 2 ^ n + reverseBits n (v / 2)

/-- A register-register word: xd takes a function of x[xa] and x[xb]. -/
def alu2 (d a b : BitVec 5) (f : Word → Word → Word) (s : State) : Out :=
  apPure s fun s => s.wx d (f (s.rx a) (s.rx b))

/-- A one-operand word: xd takes a function of x[xa]. -/
def alu1 (d a : BitVec 5) (f : Word → Word) (s : State) : Out := apPure s fun s => s.wx d (f (s.rx a))

/-- An immediate word: i is sext(imm12) (R139). -/
def aluImm (d a : BitVec 5) (i : BitVec 12) (f : Word → Word → Word) (s : State) : Out :=
  apPure s fun s => s.wx d (f (s.rx a) (i.signExtend 64))

/-- ADD (R136): x[xa] + x[xb] mod 2^64. -/
def execAdd (d a b : BitVec 5) (s : State) : Out := alu2 d a b (fun a b => a + b) s

/-- SUB (R136): x[xa] − x[xb] mod 2^64. -/
def execSub (d a b : BitVec 5) (s : State) : Out := alu2 d a b (fun a b => a - b) s

/-- AND (R136): x[xa] AND x[xb]. -/
def execAnd (d a b : BitVec 5) (s : State) : Out := alu2 d a b (fun a b => a &&& b) s

/-- OR (R136): x[xa] OR x[xb]. -/
def execOr (d a b : BitVec 5) (s : State) : Out := alu2 d a b (fun a b => a ||| b) s

/-- XOR (R136): x[xa] XOR x[xb]. -/
def execXor (d a b : BitVec 5) (s : State) : Out := alu2 d a b (fun a b => a ^^^ b) s

/-- ANDN (R136): x[xa] AND NOT x[xb]. -/
def execAndn (d a b : BitVec 5) (s : State) : Out := alu2 d a b (fun a b => a &&& ~~~b) s

/-- ORN (R136): x[xa] OR NOT x[xb]. -/
def execOrn (d a b : BitVec 5) (s : State) : Out := alu2 d a b (fun a b => a ||| ~~~b) s

/-- SLL (R136): shift left by x[xb][5:0]. -/
def execSll (d a b : BitVec 5) (s : State) : Out := alu2 d a b (fun a b => a <<< (b.toNat % 64)) s

/-- SRL (R136): shift right by x[xb][5:0], zeros in. -/
def execSrl (d a b : BitVec 5) (s : State) : Out := alu2 d a b (fun a b => a >>> (b.toNat % 64)) s

/-- SRA (R136): shift right by x[xb][5:0], sign in. -/
def execSra (d a b : BitVec 5) (s : State) : Out := alu2 d a b (fun a b => a.sshiftRight (b.toNat % 64)) s

/-- ROTL (R136): rotate left by x[xb][5:0]. -/
def execRotl (d a b : BitVec 5) (s : State) : Out := alu2 d a b (fun a b => a.rotateLeft (b.toNat % 64)) s

/-- ROTR (R136): rotate right by x[xb][5:0]. -/
def execRotr (d a b : BitVec 5) (s : State) : Out := alu2 d a b (fun a b => a.rotateRight (b.toNat % 64)) s

/-- SLT (R136): 1 if less, signed. -/
def execSlt (d a b : BitVec 5) (s : State) : Out := alu2 d a b (fun a b => ofBool (a.slt b)) s

/-- SLTU (R136): 1 if less, unsigned. -/
def execSltu (d a b : BitVec 5) (s : State) : Out := alu2 d a b (fun a b => ofBool (a.ult b)) s

/-- SEQ (R136): 1 if equal. -/
def execSeq (d a b : BitVec 5) (s : State) : Out := alu2 d a b (fun a b => ofBool (a == b)) s

/-- SNE (R136): 1 if different. -/
def execSne (d a b : BitVec 5) (s : State) : Out := alu2 d a b (fun a b => ofBool (a != b)) s

/-- MIN (R136): smaller, signed. -/
def execMin (d a b : BitVec 5) (s : State) : Out := alu2 d a b (fun a b => if b.slt a then b else a) s

/-- MAX (R136): larger, signed. -/
def execMax (d a b : BitVec 5) (s : State) : Out := alu2 d a b (fun a b => if a.slt b then b else a) s

/-- MINU (R136): smaller, unsigned. -/
def execMinu (d a b : BitVec 5) (s : State) : Out := alu2 d a b (fun a b => if b.ult a then b else a) s

/-- MAXU (R136): larger, unsigned. -/
def execMaxu (d a b : BitVec 5) (s : State) : Out := alu2 d a b (fun a b => if a.ult b then b else a) s

/-- ADDS (R136): signed sum, saturated. -/
def execAdds (d a b : BitVec 5) (s : State) : Out := alu2 d a b (fun a b => satSigned (a.toInt + b.toInt)) s

/-- SUBS (R136): signed difference, saturated. -/
def execSubs (d a b : BitVec 5) (s : State) : Out := alu2 d a b (fun a b => satSigned (a.toInt - b.toInt)) s

/-- ADDUS (R136): unsigned sum, saturated to 2^64 − 1. -/
def execAddus (d a b : BitVec 5) (s : State) : Out := alu2 d a b (fun a b => satUnsigned ((a.toNat : Int) + b.toNat)) s

/-- SUBUS (R136): unsigned difference, saturated to 0. -/
def execSubus (d a b : BitVec 5) (s : State) : Out := alu2 d a b (fun a b => satUnsigned ((a.toNat : Int) - b.toNat)) s

/-- MUL (R136): bits 63:0 of the product. -/
def execMul (d a b : BitVec 5) (s : State) : Out := alu2 d a b (fun a b => a * b) s

/-- MULH (R136): bits 127:64 of the product, both signed. -/
def execMulh (d a b : BitVec 5) (s : State) : Out := alu2 d a b (fun a b => wordOf (a.toInt * b.toInt / 2 ^ 64)) s

/-- MULHU (R136): bits 127:64 of the product, both unsigned. -/
def execMulhu (d a b : BitVec 5) (s : State) : Out := alu2 d a b (fun a b => BitVec.ofNat 64 (a.toNat * b.toNat / 2 ^ 64)) s

/-- MULHSU (R136): bits 127:64 of the product, x[xa] signed, x[xb] unsigned. -/
def execMulhsu (d a b : BitVec 5) (s : State) : Out := alu2 d a b (fun a b => wordOf (a.toInt * (b.toNat : Int) / 2 ^ 64)) s

/-- DIV (R136): signed quotient truncated toward zero (R137). -/
def execDiv (d a b : BitVec 5) (s : State) : Out := alu2 d a b (fun a b => divSigned a b) s

/-- DIVU (R136): unsigned quotient (R137). -/
def execDivu (d a b : BitVec 5) (s : State) : Out := alu2 d a b (fun a b => divUnsigned a b) s

/-- REM (R136): signed remainder with the sign of x[xa] (R137). -/
def execRem (d a b : BitVec 5) (s : State) : Out := alu2 d a b (fun a b => remSigned a b) s

/-- REMU (R136): unsigned remainder (R137). -/
def execRemu (d a b : BitVec 5) (s : State) : Out := alu2 d a b (fun a b => remUnsigned a b) s

/-- ADDW (R136): sext of bits 31:0 of the sum. -/
def execAddw (d a b : BitVec 5) (s : State) : Out := alu2 d a b (fun a b => sext32 (a + b)) s

/-- SUBW (R136): sext of bits 31:0 of the difference. -/
def execSubw (d a b : BitVec 5) (s : State) : Out := alu2 d a b (fun a b => sext32 (a - b)) s

/-- SLLW (R136): sext of bits 31:0 shifted left by x[xb][4:0]. -/
def execSllw (d a b : BitVec 5) (s : State) : Out := alu2 d a b (fun a b => sext32 (a <<< (b.toNat % 32))) s

/-- SRLW (R136): sext of bits 31:0 shifted right by x[xb][4:0], zeros in. -/
def execSrlw (d a b : BitVec 5) (s : State) : Out := alu2 d a b (fun a b => ((a.truncate 32 : BitVec 32) >>> (b.toNat % 32)).signExtend 64) s

/-- SRAW (R136): sext of bits 31:0 shifted right by x[xb][4:0], bit 31 in. -/
def execSraw (d a b : BitVec 5) (s : State) : Out := alu2 d a b (fun a b => ((a.truncate 32 : BitVec 32).sshiftRight (b.toNat % 32)).signExtend 64) s

/-- MULW (R136): sext of bits 31:0 of the product. -/
def execMulw (d a b : BitVec 5) (s : State) : Out := alu2 d a b (fun a b => sext32 (a * b)) s

/-- CLZ (R136): leading zero bits, 64 for zero. -/
def execClz (d a : BitVec 5) (s : State) : Out := alu1 d a (fun a => BitVec.ofNat 64 (leadingZeros a.toNat)) s

/-- CTZ (R136): trailing zero bits, 64 for zero. -/
def execCtz (d a : BitVec 5) (s : State) : Out := alu1 d a (fun a => BitVec.ofNat 64 (trailingZeros 64 a.toNat)) s

/-- POPC (R136): one bits. -/
def execPopc (d a : BitVec 5) (s : State) : Out := alu1 d a (fun a => BitVec.ofNat 64 (oneBits 64 a.toNat)) s

/-- BREV (R136): bit i moved to bit 63 − i. -/
def execBrev (d a : BitVec 5) (s : State) : Out := alu1 d a (fun a => BitVec.ofNat 64 (reverseBits 64 a.toNat)) s

/-- SEXTB (R136): sext of bits 7:0. -/
def execSextb (d a : BitVec 5) (s : State) : Out := alu1 d a (fun a => (a.truncate 8 : BitVec 8).signExtend 64) s

/-- SEXTH (R136): sext of bits 15:0. -/
def execSexth (d a : BitVec 5) (s : State) : Out := alu1 d a (fun a => (a.truncate 16 : BitVec 16).signExtend 64) s

/-- SEXTW (R136): sext of bits 31:0. -/
def execSextw (d a : BitVec 5) (s : State) : Out := alu1 d a (fun a => sext32 a) s

/-- ZEXTW (R136): bits 31:0, zero-extended. -/
def execZextw (d a : BitVec 5) (s : State) : Out := alu1 d a (fun a => (a.truncate 32 : BitVec 32).zeroExtend 64) s

/-- ADDI (R139): the sum modulo 2^64. -/
def execAddi (d a : BitVec 5) (i : BitVec 12) (s : State) : Out := aluImm d a i (fun a i => a + i) s

/-- ANDI (R139): AND. -/
def execAndi (d a : BitVec 5) (i : BitVec 12) (s : State) : Out := aluImm d a i (fun a i => a &&& i) s

/-- ORI (R139): OR. -/
def execOri (d a : BitVec 5) (i : BitVec 12) (s : State) : Out := aluImm d a i (fun a i => a ||| i) s

/-- XORI (R139): XOR. -/
def execXori (d a : BitVec 5) (i : BitVec 12) (s : State) : Out := aluImm d a i (fun a i => a ^^^ i) s

/-- SLTI (R139): 1 if less, signed. -/
def execSlti (d a : BitVec 5) (i : BitVec 12) (s : State) : Out := aluImm d a i (fun a i => ofBool (a.slt i)) s

/-- SLTIU (R139): 1 if less as an unsigned 64-bit pattern. -/
def execSltiu (d a : BitVec 5) (i : BitVec 12) (s : State) : Out := aluImm d a i (fun a i => ofBool (a.ult i)) s

/-- ADDIW (R139): sext of bits 31:0 of the sum. -/
def execAddiw (d a : BitVec 5) (i : BitVec 12) (s : State) : Out := aluImm d a i (fun a i => sext32 (a + i)) s

/-- SLLI (R139): shift left by imm[5:0]. -/
def execSlli (d a : BitVec 5) (h : BitVec 6) (s : State) : Out := alu1 d a (fun a => a <<< h.toNat) s

/-- SRLI (R139): shift right, zeros in by imm[5:0]. -/
def execSrli (d a : BitVec 5) (h : BitVec 6) (s : State) : Out := alu1 d a (fun a => a >>> h.toNat) s

/-- SRAI (R139): shift right, sign in by imm[5:0]. -/
def execSrai (d a : BitVec 5) (h : BitVec 6) (s : State) : Out := alu1 d a (fun a => a.sshiftRight h.toNat) s

/-- ROTRI (R139): rotate right by imm[5:0]. -/
def execRotri (d a : BitVec 5) (h : BitVec 6) (s : State) : Out := alu1 d a (fun a => a.rotateRight h.toNat) s

/-- LIH (R140): imm20 × 2^12 as a 32-bit value, sign-extended. -/
def execLih (d : BitVec 5) (i : BitVec 20) (s : State) : Out :=
  apPure s fun s => s.wx d ((i.zeroExtend 32 <<< 12 : BitVec 32).signExtend 64)

end Sys2Proof.Machine
end

