-- ==== Sys2Proof/Machine/Fetch.lean ====
section
/-!
DEFINITION. The fetch of a word (R57, R61, R67 step 1, R135), the breakpoint check (R340), decoding, and the traps that end it (R67,
R110, R118).
-/

namespace Sys2Proof.Machine

/-- The word at a location as the core fetches it: memory's, or the word that it fetched there before and has not dropped since (R57;
log entry 7). -/
def fetchedWord (s : State) (loc : Nat) : BitVec 32 :=
  let fresh := BitVec.ofNat 32 (leNat (locBytes s loc 4))
  match s.icache.find? fun e => e.1 == BitVec.ofNat 64 (placeId s loc) with
  | some e => if Config.fetchStale s.tick then e.2 else fresh
  | none => fresh

/-- The instruction cache holds the word fetched. -/
def keepWord (s : State) (loc : Nat) (w : BitVec 32) : State :=
  let key := BitVec.ofNat 64 (placeId s loc)
  { s with icache := (key, w) :: s.icache.filter fun e => e.1 != key }

/-- PC lies in the body of an active level. -/
def inLoop (s : State) : Bool := (List.range 3).any fun l => inBody (s.rdesc l) s.c.pc

/-- The word that the loop buffer holds for PC: a later pass of a body fetches nothing (R135). -/
def bufferedWord (s : State) : Option (BitVec 32) :=
  if inLoop s then (s.lbuf.find? fun e => e.1 == s.c.pc).map (·.2) else none

/-- The loop buffer takes a word of a body as it is fetched (R135; log entry 83). -/
def bufferWord (w : BitVec 32) (s : State) : State :=
  if inLoop s then { s with lbuf := (s.c.pc, w) :: s.lbuf.filter fun e => e.1 != s.c.pc } else s

/-- The word at PC, from the loop buffer or its memory, before it is fetched: none where its address has no translation. -/
def wordAtPc (s : State) : Option (BitVec 32) :=
  match bufferedWord s with
  | some w => some w
  | none => match translate s s.c.pc 4 { write := false, fetch := true, user := !s.prv } with
    | (.ok x, _) => some (fetchedWord s x.loc)
    | _ => none

/-- Fetch the word at an address from its memory: ALIGN at an address that is no word address, translation with X permission, and the
fabric. -/
def fetchAt (va : Word) (s : State) : Res (BitVec 32) :=
  let t := s.trapInfo false 0 0
  if va.toNat % 4 ≠ 0 then .trap { t with cause := 0x05, tval := va } s
  else match translate s va 4 { write := false, fetch := true, user := !s.prv } with
    | (.error cause, s1) => .trap { t with cause := cause, tval := va } s1
    | (.ok x, s1) =>
      (remoteGate .fetch s1 va x 4 false t).bind fun _ s2 =>
        let w := fetchedWord s2 x.loc
        .ok w (keepWord s2 x.loc w)

/-- The body of a loop as its LOOP fetches it, in order (R135): a word whose fetch ends in a fault is left for the time it is reached, when it
raises that fault: DESIGN CHOICE (log entry 83). -/
def fetchBody : List Word → State → Res (List (Word × BitVec 32))
  | [], s => .ok [] s
  | va :: r, s =>
    match fetchAt va s with
    | .ok w s1 => (fetchBody r s1).bind fun ws s2 => .ok ((va, w) :: ws) s2
    | .trap _ s1 => fetchBody r (forgetMoved s1 .fetch)
    | .wait n s1 => .wait n s1

/-- The loop buffer is filled with the body of `n` words from `first` on as its LOOP issues, which waits for them (R135). -/
def fillBody (first : Word) (n : Nat) (s : State) : Res Unit :=
  let body := (List.range n).map fun i => first + BitVec.ofNat 64 (4 * i)
  (fetchBody body s).bind fun ws s1 => .ok () { s1 with lbuf := ws ++ s1.lbuf.filter fun e => !body.contains e.1 }

/-- Fetch the word at PC from its memory; the loop buffer takes it where it is one of a body. -/
def fetchMemory (s : State) : Res (BitVec 32) :=
  (fetchAt s.c.pc s).bind fun w s1 => .ok w { bufferWord w s1 with ir := w }

/-- Fetch the word at PC: from the loop buffer, or from its memory. -/
def fetch (s : State) : Res (BitVec 32) :=
  match bufferedWord s with
  | some w => .ok w { s with ir := w }
  | none => fetchMemory s

/-- The lowest instruction breakpoint that matches the word at PC (R340). The first word after a TRET is exempt (R109). -/
def breakHit (s : State) : Option Nat :=
  if s.c.exempt then none
  else (List.range 4).find? fun n =>
    let b := nth s.c.dbg n 0
    bit b 0 && field b 2 46 == field s.c.pc 2 46 && field s.c.pc 48 16 == 0 && filterPasses s (bit b 1)

/-- A fault of the fetch: the context is Parked when it was the first fetch at TVEC (R110), and otherwise takes the trap. No vector
instruction is at fault, and the commit pointers stay (R103); the word did not issue, and the handler's first word is exempt in its place
(R109). -/
def fetchFault (t : TrapInfo) (s : State) : State :=
  if s.c.atTvec then (finishIssues s).park s.c.sys.tvec t.cause s.c.sys.tcause
  else
    let s1 := takeTrap t s
    { s1 with c := { s1.c with tcp := s.c.tcp, exempt := s.c.exempt } }

/-- The queue whose read at PC a swap interrupted while the queue was empty (R118). -/
def swapTrap (s : State) : Option Word :=
  match s.c.qtrap with
  | some (pc, n) => if pc = s.c.pc then some n else none
  | none => none

/-- Everything before the meaning of the word at PC: the instruction to run, or the state that the fetch or a check ends in. -/
noncomputable def frontEnd (s : State) : Except State (Instr × State) :=
  match fetch s with
  | .trap t s1 => .error (fetchFault t s1)
  | .wait n s1 => .error { s1 with c := { s1.c with wait := n } }
  | .ok w s1 =>
    match breakHit s1 with
    | some n => .error (takeTrap (s1.trapInfo (apNow s1) 0x17 (BitVec.ofNat 64 n)) s1)
    | none =>
      match decode w with
      | .error _ => .error (takeTrap (s1.illegal (apNow s1)) s1)
      | .ok i =>
        match swapTrap s1 with
        | some n => .error (takeTrap (s1.trapInfo (apNow s1) 0x16 n) { s1 with c := { s1.c with qtrap := none } })
        | none => .ok (i, s1)

end Sys2Proof.Machine
end

