-- ==== Sys2Proof/Machine/Branch.lean ====
section
/-!
DEFINITION. Control transfer and hardware loops: JR and JALR (R138), BR (R141), JC (R142), LOOP (R130, R132, R143), and PFX
(R69, R71).
-/

namespace Sys2Proof.Machine

/-- PC + sext(offset) × 4 (R61). -/
def branchTarget {n : Nat} (s : State) (t : BitVec n) : Word := s.c.pc + (t.signExtend 64 <<< 2)

/-- A transfer to a register's value: ALIGN when bits 1:0 are not zero (R138). `link` is the register that takes PC + 4. -/
def jumpReg (a : BitVec 5) (link : Option (BitVec 5)) (s : State) : Out :=
  apWord s fun s =>
    let t := s.rx a
    if t.toNat % 4 ≠ 0 then .trap (s.trapInfo true 0x05 t) s
    else
      let s1 := match link with
        | some d => s.wx d (s.c.pc + 4)
        | none => s
      .ok () (jumpTo t s1)

/-- JR (R138). -/
def execJr (a : BitVec 5) (s : State) : Out := jumpReg a none s

/-- JALR (R138). -/
def execJalr (d a : BitVec 5) (s : State) : Out := jumpReg a (some d) s

/-- A conditional branch (R141). -/
def branch (a : BitVec 5) (t : BitVec 16) (taken : Word → Bool) (s : State) : Out :=
  apWord s fun s => .ok () (if taken (s.rx a) then jumpTo (branchTarget s t) s else complete s)

/-- BEQZ (R141). -/
def execBeqz (a : BitVec 5) (t : BitVec 16) (s : State) : Out := branch a t (fun v => v == 0) s
/-- BNEZ (R141). -/
def execBnez (a : BitVec 5) (t : BitVec 16) (s : State) : Out := branch a t (fun v => v != 0) s
/-- BLTZ (R141). -/
def execBltz (a : BitVec 5) (t : BitVec 16) (s : State) : Out := branch a t (fun v => v.slt 0) s
/-- BGEZ (R141). -/
def execBgez (a : BitVec 5) (t : BitVec 16) (s : State) : Out := branch a t (fun v => !v.slt 0) s
/-- BGTZ (R141). -/
def execBgtz (a : BitVec 5) (t : BitVec 16) (s : State) : Out := branch a t (fun v => (0 : Word).slt v) s
/-- BLEZ (R141). -/
def execBlez (a : BitVec 5) (t : BitVec 16) (s : State) : Out := branch a t (fun v => !(0 : Word).slt v) s
/-- BRA (R141). -/
def execBra (t : BitVec 16) (s : State) : Out := branch 0 t (fun _ => true) s

/-- J (R142). -/
def execJ (t : BitVec 24) (s : State) : Out := apWord s fun s => .ok () (jumpTo (branchTarget s t) s)

/-- CALL (R142): x1 takes PC + 4. -/
def execCall (t : BitVec 24) (s : State) : Out :=
  apWord s fun s => .ok () (jumpTo (branchTarget s t) (s.wx 1 (s.c.pc + 4)))

/-- The LOOP at `pc` with last word `last` breaks the nesting of active level `m` (R132). -/
def nestBad (l m : Nat) (pc last : Word) (s : State) : Bool :=
  inBody (s.rdesc m) pc && (decide (l ≤ m) || decide (descLast (s.rdesc m) < last))

/-- LOOP at level `l` (R130, R132, R205): the loop buffer takes the body, and then the level is set up (R135). -/
def execLoop (l : BitVec 2) (c : BitVec 5) (n : BitVec 9) (s : State) : Out :=
  apWord s fun s =>
    let lv := l.toNat
    let pc := s.c.pc
    let first := pc + 4
    let last := pc + BitVec.ofNat 64 (4 * (n.toNat + 1))
    let inVector := inVloop s.c.vloop pc && decide (s.c.vloop.last ≤ last)
    if nestBad lv 0 pc last s || nestBad lv 1 pc last s || nestBad lv 2 pc last s || inVector then
      .trap (s.illegal true) s
    else
      let cnt := s.rx c
      -- a level set up again makes every deeper level inactive (R132)
      let replaced := descActive (s.rdesc lv) && !inBody (s.rdesc lv) pc
      let cut (s : State) : State :=
        retire (if replaced then (if lv = 0 then dropLevel 2 (dropLevel 1 s) else if lv = 1 then dropLevel 2 s else s) else s)
      if cnt = 0 then
        let s1 := cut s
        .ok () (((s1.wlc lv 0).wdesc lv (setBit (s1.rdesc lv) 63 false)).withPc (last + 4))
      else
        (fillBody first (n.toNat + 1) s).bind fun _ s =>
          let s1 := cut s
          .ok () (((s1.wlc lv cnt).wdesc lv
            (setBit (setField (BitVec.ofNat 64 (first.toNat % 2 ^ 48)) 48 9 n.toNat) 63 true)).withPc first)

/-- The PFX at `pc` is the last word of the body of an active level or of the active vector loop (R71). -/
def endsLoop (s : State) (pc : Word) : Bool :=
  ((List.range 3).any fun l => descActive (s.rdesc l) && decide (descLast (s.rdesc l) = pc))
    || (s.c.vloop.active && decide (s.c.vloop.last = pc))

/-- PFX (R69, R71): the payload is pending for the word at PFX + 4. PFX is not counted in RETIRED. -/
def execPfx (p : BitVec 4) (n c : BitVec 1) (v : BitVec 5) (s : State) : Out :=
  apWord s fun s =>
    if endsLoop s s.c.pc then .trap (s.illegal true) s
    else
      let pay : Word := BitVec.ofNat 64 (p.toNat * 2 ^ 21 + n.toNat * 2 ^ 20 + c.toNat * 2 ^ 19 + v.toNat * 2 ^ 14)
      .ok () ({ s with c := { s.c with
        sys := { s.c.sys with tpfx := pay, status := setBit s.c.sys.status 2 true }
        pfxLive := true, pc := s.c.pc + 4, exempt := false, atTvec := false, wait := 0 } }.mark (.sys 0x26))

end Sys2Proof.Machine
end

