-- ==== Sys2Proof/Machine/Device.lean ====
section
/-!
DEFINITION. The package's blocks in control space (R284, R314, R320, R330 to R341): boot and firmware images, attestation,
power, and every register read and write.
-/

namespace Sys2Proof.Machine

/-! Boot and firmware trust (R331 to R334). -/

/-- Bytes `off` to `off + n − 1` of an image as a number. -/
def imageNat (img : List Byte) (off n : Nat) : Nat := leNat ((img.drop off).take n)

/-- SVN of an image (R333). -/
def imageSvn (img : List Byte) : Nat := imageNat img 8 4

/-- Body length of an image (R333). -/
def imageLength (img : List Byte) : Nat := imageNat img 0x10 8

/-- The public key, the signature and the body of an image (R333). -/
def imageKey (img : List Byte) : List Byte := (img.drop 0x20).take 2592
def imageSig (img : List Byte) : List Byte := (img.drop 0xA40).take 4627
def imageBody (img : List Byte) : List Byte := (img.drop 0x2000).take (imageLength img)

/-- The digest that an image's signature covers: SHA3-512 of bytes 0x0000 to 0x001F followed by the body (R333). -/
def imageDigest (img : List Byte) : BitVec 512 := Config.sha3 (img.take 0x20 ++ imageBody img)

/-- The ROM's checks of an image, in order: the ERR of the first that fails, 0 when all pass (R333). An image too short for its fields and
its body is one of bad format: DESIGN CHOICE (log entry 80). -/
def imageErr (img : List Byte) (rollback : Nat) : Nat :=
  if img.length < 0x2000 + imageLength img || imageNat img 0 4 != 0x54484631 || imageNat img 4 4 != 1 || imageNat img 0x0C 4 != 0
      || imageNat img 0x18 8 != 0 || imageNat img 0x1C53 941 != 0 then 4
  else if Config.sha3 (imageKey img) != Config.keyDigest then 2
  else if !Config.mldsaVerify (imageKey img) (imageDigest img) (imageSig img) then 1
  else if imageSvn img < rollback then 3
  else 0

/-- The ROM starts an image that passed, and the firmware raises the fused counter (R331, R333). -/
def runImage (img : List Byte) (d : Device) : Device :=
  { d with state := .firmware, err := 0, image := img, svn := BitVec.ofNat 32 (imageSvn img)
           rollback := max d.rollback (imageSvn img) }

/-- An image is verified: it runs, or the device is in RECOVERY with the ERR (R331, R333, R334). -/
def verifyImage (img : List Byte) (d : Device) : Device :=
  let e := imageErr img d.rollback
  if e = 0 then runImage img d else { d with state := .recovery, err := BitVec.ofNat 8 e }

/-- The firmware's image runs (R331). -/
def firmwareRuns (d : Device) : Bool := d.state == .firmware || d.state == .ready

/-- Package reset (R331): everything at its reset value but the flash, the fused counter and the log of a trip; STATE is 0 until the boot
ROM runs. -/
def opPackageReset (trained : Bool) (s : State) : State :=
  let d : Device :=
    { Device.reset with flash := s.dev.flash, rollback := s.dev.rollback, tripLog := s.dev.tripLog, trained := some trained }
  { State.reset with dev := d, coreNum := s.coreNum, tick := s.tick }

/-- The boot goes on by one STATE (R331, R332): the ROM begins; it trains HBM, or ends in RECOVERY with ERR 5, sets the carve-out of 48 GiB,
and verifies and starts the flash image; and the firmware accepts launch records. -/
def bootTurn (s : State) : State :=
  let d := s.dev
  match d.state with
  | .reset => { s with dev := { d with state := .rom, flash := if d.flash = [] then Config.flashImage else d.flash } }
  | .rom =>
    { s with dev :=
        if !d.trained.getD (Config.hbmTrains s.tick) then { d with state := .recovery, err := 5 }
        else verifyImage d.flash { d with
          mbase := BitVec.ofNat 64 (Config.romMetaBase * 65536 % hbmBytes), msize := BitVec.ofNat 64 (48 * 2 ^ 30) } }
  | .firmware => { s with dev := { d with state := .ready } }
  | _ => s

/-- ENTER in READY ends every launch and enters RECOVERY with ERR 6 (R334). -/
def opEnter (s : State) : State :=
  if s.dev.state = .ready then
    let s1 := endAllLaunches s
    { s1 with dev := { s1.dev with state := .recovery, err := 6 } }
  else s

/-- GO in RECOVERY: the image at RLADDR is verified and run, and with COMMIT it is also written to flash (R334). -/
def opGo (s : State) : State :=
  if s.dev.state = .recovery then
    let img := readBytes s.mem (s.fab.pkg.toNat * 2 ^ 42 + s.dev.rladdr.toNat) s.dev.rllen.toNat
    let d := verifyImage img s.dev
    { s with dev := if d.err = 0 && bit s.dev.rlctl 1 then { d with flash := img } else d }
  else s

/-- A write of RLCTL (R334): ignored in any state but READY and RECOVERY, where ENTER and GO act. In READY one without ENTER changes no field:
DESIGN CHOICE (log entry 98). -/
def opRlctl (v : Word) (s : State) : State :=
  if s.dev.state = .ready && bit v 2 then opEnter { s with dev := { s.dev with rlctl := v &&& 7 } }
  else if s.dev.state = .recovery then
    let s1 := { s with dev := { s.dev with rlctl := v &&& 7 } }
    if bit v 0 then opGo s1 else s1
  else s

/-- The firmware writes an attestation report at the offset given and sets bit 0 of +0x130 (R335). Where no firmware runs, nothing does. -/
def opAttest (s : State) : State :=
  if firmwareRuns s.dev then
    let body := leBytes 32 s.dev.nonce.toNat ++ leBytes 64 (imageDigest s.dev.image).toNat
      ++ leBytes 8 s.dev.svn.toNat ++ leBytes 64 (Config.sha3 Config.identityKey).toNat
    { s with
      mem := writeBytes s.mem (s.fab.pkg.toNat * 2 ^ 42 + s.dev.attOff.toNat)
        (body ++ leBytes 4627 (Config.identitySign (Config.sha3 body)).toNat)
      dev := { s.dev with attDone := true } }
  else s

/-! Power and cooling (R336 to R338). -/

/-- No context is resident (R15, R338). -/
def noneResident (s : State) : Bool := s.cs == .none && s.sh.isNone && s.spill.isNone

/-- Entry to D3hot, only when no context is resident (R338). -/
def opD3Entry (s : State) : State := if noneResident s then { s with dev := { s.dev with d3 := true } } else s

/-- From D3hot to D3cold (R338): the package does nothing until a reset. DESIGN CHOICE (log entry 81: the manual names the state alone). -/
def opD3Cold (s : State) : State := { s with dev := { s.dev with d3cold := true } }

/-- What the firmware keeps of a reading (R337): a report and ten readings without preloads where a limit is passed; one fewer where the
reading lies below both, and all of the ten again where it does not. -/
def noteReading (d : Device) : Device :=
  let above := decide (d.plim.toNat < d.pnow.toNat) || decide (d.twarn.toNat ≤ d.tnow.toNat)
  let below := decide (d.pnow.toNat < d.plim.toNat) && decide (d.tnow.toNat < d.twarn.toNat)
  if above then { d with reports := d.reports + 1, holdoff := 10 }
  else if below then { d with holdoff := d.holdoff - 1 }
  else { d with holdoff := if d.holdoff = 0 then 0 else 10 }

/-- A 1 ms reading, and the firmware's action where it runs (R336, R337). -/
def opPower (pnow tnow : Word) (s : State) : State :=
  let d := { s.dev with pnow := pnow, tnow := tnow }
  if !firmwareRuns d then { s with dev := d }
  else
    let s1 := { s with dev := noteReading d }
    if d.tcrit.toNat ≤ tnow.toNat then opD3Entry (endAllLaunches s1) else s1

/-! Register writes. -/

/-- A write of the device block (R331, R334, R335). -/
def writeDeviceBlock (o : Nat) (v : Word) (s : State) : State :=
  let d := s.dev
  let put (i : Nat) : State :=
    { s with dev := { d with nonce :=
      (d.nonce &&& ~~~ (BitVec.ofNat 256 ((2 ^ 64 - 1) * 2 ^ (64 * i)))) ||| BitVec.ofNat 256 (v.toNat * 2 ^ (64 * i)) } }
  match o with
  | 0x08 => { s with dev := { d with rladdr := v } }
  | 0x10 => { s with dev := { d with rllen := v } }
  | 0x18 => opRlctl v s
  | 0x100 => put 0 | 0x108 => put 1 | 0x110 => put 2 | 0x118 => put 3
  | 0x120 => if v = 1 then opAttest s else s
  | 0x128 => { s with dev := { d with attOff := v } }
  | _ => s

/-- A write of one 8-byte word of control space by an agent, under the register's access codes (R4, R330). -/
def ctrlWrite (w : Writer) (off : Nat) (v : Word) (s : State) : State :=
  if !mayWrite w off then s
  else
    let s := clearCounters s (ctrlLoc s off) 8
    let o := off % 65536
    match off / 65536 with
    | 0 => writeDeviceBlock o v s
    | 1 =>
      match o with
      | 0 => { s with dev := { s.dev with mbase := v &&& 0xFFFFFFFFFFFF0000 } }
      | 8 => { s with dev := { s.dev with msize := v } }
      | _ => s
    | 2 =>
      match o with
      | 0x00 => { s with dev := { s.dev with plim := v } }
      | 0x18 => { s with dev := { s.dev with twarn := v } }
      | 0x20 => { s with dev := { s.dev with tcrit := v } }
      | _ => s
    | _ => superWrite off v s

end Sys2Proof.Machine
end

