-- ==== Sys2Proof/Machine/Engine.lean ====
section
/-!
DEFINITION. What engines share: one access on an engine's path (R42, R46, R175), the release of a matrix tile (R246), the end
of the context at its write to DXIT (R328), and commands' happens-before sets (R45).
-/

namespace Sys2Proof.Machine

/-- One access of `n` bytes of an engine, with the happens-before set `h` of its command: translation, the fabric, and
the race check, without the record (R42, R46). Engine accesses match no watchpoint (R340). -/
def engineCheck (who : Agent) (s : State) (h : List Nat) (va : Word) (n : Nat) (k : AccKind) (user : Bool) (t : TrapInfo) :
    Res Xlat :=
  let wr := AccKind.isWrite k
  match translate s va n { write := wr, fetch := false, user := user } with
  | (.error cause, s1) => .trap { t with cause := cause, tval := va } s1
  | (.ok x, s1) =>
    (remoteGate who s1 va x n wr t).bind fun _ s2 =>
      let sectors := (List.range ((x.loc % 32 + n + 31) / 32)).map (x.loc / 32 + ·)
      let race := if x.rd then
          sectors.findSome? fun q => (findRace s2 h k (sectorOf s2 (32 * q))).map fun r => (q, r)
        else none
      match race with
      | some (q, r) => .trap (raceTrap t (sectorVa va x.loc q) r) s2
      | none => .ok x s2

/-- Record an engine's access of `n` bytes: kind and path, with first PC 0 (R47). The identifiers are the records made. -/
def engineRecord (s : State) (p : Path) (x : Xlat) (n : Nat) (k : AccKind) : List Nat × State :=
  if x.rd then
    (List.range ((x.loc % 32 + n + 31) / 32)).foldl (fun acc i =>
      (acc.2.nextRec :: acc.1, addRecord acc.2 p k (sectorOf acc.2 (x.loc / 32 * 32 + 32 * i)) 0)) ([], s)
  else ([], s)

/-- A counter word that an increment will be made to: its location, and the records of the completion's access, which is one of the
accesses of its command (R45, R46). -/
abbrev Counter := Nat × List Nat

/-- The matrix counter word is translated and checked as a synchronising write on MATRIX (R246). -/
def matrixCounter (s : State) (t : TrapInfo) : Res (Option Counter) :=
  match s.c.mat.ctr with
  | none => .ok none s
  | some va =>
    (engineCheck .matrix s (hSet s .matrix) va 8 .syncWrite (!s.prv) t).bind fun x s1 =>
      let r := engineRecord s1 .matrix x 8 .syncWrite
      .ok (some (x.loc, r.1)) r.2

/-- The tile is released, with its counter increment; the older issues are complete by then (R243, R246). -/
def releaseTile (ctr : Option Counter) (s : State) : State :=
  match s.c.mat.tile with
  | none => s
  | some t =>
    let s1 := { s with c := { s.c with mat := { s.c.mat with tile := none } } }
    match ctr with
    | none => s1
    | some (l, ids) => counterAdd s1 l 1 [(Path.matrix, t.prior ++ t.ids ++ ids)]

/-- The counter when a tile is there to be released (R246). -/
def releaseCheck (s : State) (t : TrapInfo) : Res (Option Counter) :=
  if s.c.mat.tile.isSome then matrixCounter s t else .ok none s

/-- All matrix state is discarded and the row blocks are free (R250). -/
def detach (s : State) : State :=
  { s with c := { s.c with mat := MatrixState.detached, sys := { s.c.sys with grant := 0 } } }

/-- ATT (R233). -/
def attached (s : State) : Bool := bit s.c.sys.grant 15

/-- The oldest transient window that is open and has not been consumed, those of the interrupted words included (R73, R74). -/
def openWindow (s : State) : Option Window :=
  ((s.c.levels.reverse.flatMap (·.windows)) ++ s.c.windows).find? fun w => !w.consumed && decide (w.results < 3)

/-- A command of the context that the exit waits for (R328). -/
def commandsPending (s : State) : Bool :=
  (s.c.chan.toList.any fun c => c.act && !c.flt) || !s.c.mat.issues.isEmpty || (s.c.remote.any fun r => !r.written && r.wfail.isNone)

/-- The context ends once nothing is pending (R328): stores committed, detached, faulted channels abandoned, the slot
emptied. -/
def finishExit (ctr : Option Counter) (s : State) : State := leaveSlot (detach (releaseTile ctr (commitStores s)))

/-- The checks of the write to DXIT by a word of the AP class or not, and its waits (R74, R246, R328): the counter of the tile's release.
While it waits for the context's commands the agent shows reason 7: DESIGN CHOICE (log entry 32: the table of R28 names no reason for this
wait). -/
def exitCheck (apw : Bool) (s : State) : Res (Option Counter) :=
  let t := s.trapInfo apw 0 0
  let chk := if attached s then releaseCheck s t else .ok none s
  match chk with
  | .trap t' s1 => .trap t' s1
  | .wait n s1 => .wait n s1
  | .ok loc s1 =>
    match openWindow s with
    | some w => .trap (s.trapInfo apw 0x03 w.addr) { s1 with recs := s.recs, nextRec := s.nextRec }
    | none =>
      if commandsPending s then
        .wait 7 { s1 with c := { s1.c with exiting := true }, recs := s.recs, nextRec := s.nextRec }
      else .ok loc s1

/-- The AP's write to DXIT: its checks and waits, and then the end of the context (R328). -/
def exitWrite (s : State) : Res Unit := (exitCheck true s).bind fun loc s1 => .ok () (finishExit loc s1)

end Sys2Proof.Machine
end

