-- ==== Sys2Proof/Machine/Load.lean ====
section
/-!
DEFINITION. The AP's loads, stores, atomics and prefetch (R147 to R154).
-/

namespace Sys2Proof.Machine

/-- What the imm13 field of a load or store says (R148): relaxed, the address relative to the pointer, and the advance. -/
structure MemForm where
  rlx     : Bool
  offset  : Int
  advance : Option (BitVec 5)
  deriving DecidableEq, Repr

/-- The imm13 field (R148). -/
def memForm (i : BitVec 13) : MemForm :=
  if i.getLsbD 11 then { rlx := i.getLsbD 12, offset := 0, advance := some (i.extractLsb' 0 5) }
  else { rlx := i.getLsbD 12, offset := (i.extractLsb' 0 11).toInt, advance := none }

/-- The exact effective address of a form through an address register (R149). -/
def memAddr (r : AReg) (f : MemForm) : Int := r.ptr.toNat + f.offset

/-- The exact pointer after the advance (R128, R149). -/
def memNext (s : State) (r : AReg) (f : MemForm) : Int :=
  match f.advance with
  | none => r.ptr.toNat
  | some x => r.ptr.toNat + (s.rx x).toInt

/-- Rows 1 to 4 of R150, in order: the cause and TVAL of the first that fails. -/
def memChecks (s : State) (r : AReg) (need : Need) (w : Nat) (f : MemForm) : Option (BitVec 8 × Word) :=
  let addr := memAddr r f
  if f.rlx && s.determ then some (0x14, s.c.pc)
  else if !aCheck r need addr w then some (0x07, wordOf addr)
  else if addr % (w : Int) ≠ 0 then some (0x05, wordOf addr)
  else if f.advance.isSome && !advanceOk r (memNext s r f) then some (0x06, wordOf (memNext s r f))
  else none

/-- The pointer advances in the advance form (R149). -/
def advancePtr (a : BitVec 4) (r : AReg) (f : MemForm) (next : Int) (s : State) : State :=
  if f.advance.isSome then s.wa a.toNat { r with ptr := wordOf next } else s

/-- The bytes of one load: control space, or memory with the context's own buffered stores (R38, R43). -/
def loadValue (s : State) (loc w : Nat) : Nat :=
  match ctrlOff loc with
  | some off => ctrlLoad s off w
  | none => coreRead s loc w

/-- A load of `w` bytes (R149, R150): `ext` extends the bytes. -/
def loadWord (d : BitVec 5) (a : BitVec 4) (i : BitVec 13) (w : Nat) (ext : Nat → Word) (s : State) : Out :=
  apWord s fun s =>
    let f := memForm i
    let r := s.ra a.toNat
    match memChecks s r { l := true } w f with
    | some (cause, tval) => .trap (s.trapInfo true cause tval) s
    | none =>
      (coreAccess s (wordOf (memAddr r f)) w .read f.rlx (s.trapInfo true 0 0)).bind fun loc s1 =>
        .ok () (complete (advancePtr a r f (memNext s r f) ((s1.wx d (ext (loadValue s1 loc w))).loaded d)))

/-- LB (R147, R149). -/
def execLb (d : BitVec 5) (a : BitVec 4) (i : BitVec 13) (s : State) : Out :=
  loadWord d a i 1 (fun v => wordOf (toSigned 8 v)) s
/-- LH (R147, R149). -/
def execLh (d : BitVec 5) (a : BitVec 4) (i : BitVec 13) (s : State) : Out :=
  loadWord d a i 2 (fun v => wordOf (toSigned 16 v)) s
/-- LW (R147, R149). -/
def execLw (d : BitVec 5) (a : BitVec 4) (i : BitVec 13) (s : State) : Out :=
  loadWord d a i 4 (fun v => wordOf (toSigned 32 v)) s
/-- LD (R147, R149). -/
def execLd (d : BitVec 5) (a : BitVec 4) (i : BitVec 13) (s : State) : Out :=
  loadWord d a i 8 (fun v => BitVec.ofNat 64 v) s
/-- LBU (R147, R149). -/
def execLbu (d : BitVec 5) (a : BitVec 4) (i : BitVec 13) (s : State) : Out :=
  loadWord d a i 1 (fun v => BitVec.ofNat 64 v) s
/-- LHU (R147, R149). -/
def execLhu (d : BitVec 5) (a : BitVec 4) (i : BitVec 13) (s : State) : Out :=
  loadWord d a i 2 (fun v => BitVec.ofNat 64 v) s
/-- LWU (R147, R149). -/
def execLwu (d : BitVec 5) (a : BitVec 4) (i : BitVec 13) (s : State) : Out :=
  loadWord d a i 4 (fun v => BitVec.ofNat 64 v) s

/-- PREF (R154): it checks nothing, never faults and changes no architectural state. -/
def execPref (_a : BitVec 4) (_o : BitVec 11) (s : State) : Out := apPure s fun s => s

/-- The store's place in control space is DXIT of the dispatch block (R314, R330). -/
def isDxit (loc : Nat) : Bool :=
  match ctrlOff loc with
  | some off => off / 8 * 8 == 0x100008
  | none => false

/-- A store takes effect at its location: control space, with the bind record that it submits, or memory (R38, R151, R320). -/
def storeValue (s : State) (loc w v : Nat) : State :=
  match ctrlOff loc with
  | some off => afterBind (ctrlStore off w v s)
  | none => storeBytes s loc (leBytes w v)

/-- The same for a store that may be `.rlx`, which then carries the sets of the earlier FENCE.rel (R45, R55). -/
def storeNoted (rlx : Bool) (s : State) (loc w v : Nat) : State :=
  let note := if rlx then relNote s else none
  match note with
  | none => storeValue s loc w v
  | some _ => leaveNote note loc w (storeValue s loc w v)

/-- A store of `w` bytes (R149, R150). The Active context's write to DXIT ends it (R328). -/
def storeWord (xs : BitVec 5) (a : BitVec 4) (i : BitVec 13) (w : Nat) (s : State) : Out :=
  apWord s fun s =>
    let f := memForm i
    let r := s.ra a.toNat
    match memChecks s r { s := true } w f with
    | some (cause, tval) => .trap (s.trapInfo true cause tval) s
    | none =>
      (coreAccess s (wordOf (memAddr r f)) w .write f.rlx (s.trapInfo true 0 0)).bind fun loc s1 =>
        if isDxit loc then exitWrite s1
        else
          let s2 := complete (advancePtr a r f (memNext s r f) s1)
          .ok () (storeNoted f.rlx s2 loc w ((s.rx xs).toNat % 2 ^ (8 * w)))

/-- SB (R147, R149). -/
def execSb (xs : BitVec 5) (a : BitVec 4) (i : BitVec 13) (s : State) : Out := storeWord xs a i 1 s
/-- SH (R147, R149). -/
def execSh (xs : BitVec 5) (a : BitVec 4) (i : BitVec 13) (s : State) : Out := storeWord xs a i 2 s
/-- SW (R147, R149). -/
def execSw (xs : BitVec 5) (a : BitVec 4) (i : BitVec 13) (s : State) : Out := storeWord xs a i 4 s
/-- SD (R147, R149). -/
def execSd (xs : BitVec 5) (a : BitVec 4) (i : BitVec 13) (s : State) : Out := storeWord xs a i 8 s

/-- Rows 2 and 3 of R150 at the pointer: permission, bounds and alignment (R152, R160). -/
def pointChecks (r : AReg) (need : Need) (addr : Int) (w : Nat) : Option (BitVec 8 × Word) :=
  if !aCheck r need addr w then some (0x07, wordOf addr)
  else if addr % (w : Int) ≠ 0 then some (0x05, wordOf addr)
  else none

/-- An atomic of `w` bytes (R152): `op old s` is the new value, and `none` leaves memory unwritten. One that writes DXIT ends the context
as a store does (R328). -/
def atomicWord (d : BitVec 5) (a : BitVec 4) (w : Nat) (op : State → Nat → Nat → Option Nat) (s : State) : Out :=
  apWord s fun s =>
    let r := s.ra a.toNat
    let addr : Int := r.ptr.toNat
    match pointChecks r { a := true } addr w with
    | some (cause, tval) => .trap (s.trapInfo true cause tval) s
    | none =>
      (coreAccess s (wordOf addr) w .atomic false (s.trapInfo true 0 0)).bind fun loc s1 =>
        let old := loadValue s1 loc w
        let res : Word := if w = 4 then wordOf (toSigned 32 old) else BitVec.ofNat 64 old
        let s2 := complete (s1.wx d res)
        match op s old ((s.rx d).toNat % 2 ^ (8 * w)) with
        | some new => if isDxit loc then exitWrite s1 else .ok () (storeValue s2 loc w (new % 2 ^ (8 * w)))
        | none => .ok () s2

/-- The smaller or larger of two values of `n` bits, signed. -/
def minSigned (n a b : Nat) : Nat := if toSigned n b < toSigned n a then b else a
def maxSigned (n a b : Nat) : Nat := if toSigned n a < toSigned n b then b else a

/-- The operations of R152 but for CAS, at a width in bits. -/
def atAdd (n : Nat) (_ : State) (old v : Nat) : Option Nat := some ((old + v) % 2 ^ n)
def atAnd (_ : State) (old v : Nat) : Option Nat := some (old &&& v)
def atOr (_ : State) (old v : Nat) : Option Nat := some (old ||| v)
def atXor (_ : State) (old v : Nat) : Option Nat := some (old ^^^ v)
def atMin (n : Nat) (_ : State) (old v : Nat) : Option Nat := some (minSigned n old v)
def atMax (n : Nat) (_ : State) (old v : Nat) : Option Nat := some (maxSigned n old v)
def atMinu (_ : State) (old v : Nat) : Option Nat := some (min old v)
def atMaxu (_ : State) (old v : Nat) : Option Nat := some (max old v)
def atSwp (_ : State) (_ v : Nat) : Option Nat := some v

/-- CAS compares with x[xd + 1] and writes only when the compare holds (R152). -/
def atCas (d : BitVec 5) (n : Nat) (s : State) (old v : Nat) : Option Nat :=
  if old = (s.rx (d + 1)).toNat % 2 ^ n then some v else none

/-- ATADD (R152). -/
def execAtadd (d : BitVec 5) (a : BitVec 4) (s : State) : Out := atomicWord d a 8 (atAdd 64) s
/-- ATAND (R152). -/
def execAtand (d : BitVec 5) (a : BitVec 4) (s : State) : Out := atomicWord d a 8 atAnd s
/-- ATOR (R152). -/
def execAtor (d : BitVec 5) (a : BitVec 4) (s : State) : Out := atomicWord d a 8 atOr s
/-- ATXOR (R152). -/
def execAtxor (d : BitVec 5) (a : BitVec 4) (s : State) : Out := atomicWord d a 8 atXor s
/-- ATMIN (R152). -/
def execAtmin (d : BitVec 5) (a : BitVec 4) (s : State) : Out := atomicWord d a 8 (atMin 64) s
/-- ATMAX (R152). -/
def execAtmax (d : BitVec 5) (a : BitVec 4) (s : State) : Out := atomicWord d a 8 (atMax 64) s
/-- ATMINU (R152). -/
def execAtminu (d : BitVec 5) (a : BitVec 4) (s : State) : Out := atomicWord d a 8 atMinu s
/-- ATMAXU (R152). -/
def execAtmaxu (d : BitVec 5) (a : BitVec 4) (s : State) : Out := atomicWord d a 8 atMaxu s
/-- ATSWP (R152). -/
def execAtswp (d : BitVec 5) (a : BitVec 4) (s : State) : Out := atomicWord d a 8 atSwp s
/-- ATCAS (R152). -/
def execAtcas (d : BitVec 5) (a : BitVec 4) (s : State) : Out := atomicWord d a 8 (atCas d 64) s
/-- ATADDW (R152). -/
def execAtaddw (d : BitVec 5) (a : BitVec 4) (s : State) : Out := atomicWord d a 4 (atAdd 32) s
/-- ATANDW (R152). -/
def execAtandw (d : BitVec 5) (a : BitVec 4) (s : State) : Out := atomicWord d a 4 atAnd s
/-- ATORW (R152). -/
def execAtorw (d : BitVec 5) (a : BitVec 4) (s : State) : Out := atomicWord d a 4 atOr s
/-- ATXORW (R152). -/
def execAtxorw (d : BitVec 5) (a : BitVec 4) (s : State) : Out := atomicWord d a 4 atXor s
/-- ATMINW (R152). -/
def execAtminw (d : BitVec 5) (a : BitVec 4) (s : State) : Out := atomicWord d a 4 (atMin 32) s
/-- ATMAXW (R152). -/
def execAtmaxw (d : BitVec 5) (a : BitVec 4) (s : State) : Out := atomicWord d a 4 (atMax 32) s
/-- ATMINUW (R152). -/
def execAtminuw (d : BitVec 5) (a : BitVec 4) (s : State) : Out := atomicWord d a 4 atMinu s
/-- ATMAXUW (R152). -/
def execAtmaxuw (d : BitVec 5) (a : BitVec 4) (s : State) : Out := atomicWord d a 4 atMaxu s
/-- ATSWPW (R152). -/
def execAtswpw (d : BitVec 5) (a : BitVec 4) (s : State) : Out := atomicWord d a 4 atSwp s
/-- ATCASW (R152). -/
def execAtcasw (d : BitVec 5) (a : BitVec 4) (s : State) : Out := atomicWord d a 4 (atCas d 32) s

end Sys2Proof.Machine
end

