-- ==== Sys2Proof/Machine/Sys.lean ====
section
/-!
DEFINITION. The system words: TRAP, TRET, AEXIT, MFSR, MTSR and XINV (R162, R163), and the system registers (R164 to R166).
-/

namespace Sys2Proof.Machine

/-- TRAP (R162): the trap TRAP, with TPC the next word; the word counts in RETIRED (R164). -/
def execTrap (i : BitVec 12) (s : State) : Out :=
  apWord s fun s =>
    .trap { s.trapInfo true 0x19 (i.zeroExtend 64) with tpc := s.c.pc + 4 } (retire s)

/-- TRET (R109, R162): ALIGN when the target's bits 1:0 are not zero (R61). -/
def execTret (s : State) : Out :=
  apSuper s fun s =>
    let target := (returnPoint s).1
    if target.toNat % 4 ≠ 0 then .trap (s.trapInfo true 0x05 target) s else .ok () (trapReturn s)

/-- AEXIT (R115, R162): ILLEGAL_INSN with AIN = 0 or at supervisor level. -/
def execAexit (s : State) : Out :=
  apWord s fun s =>
    if !s.ain || s.prv then .trap (s.illegal true) s
    else if s.c.sys.arpc.toNat % 4 ≠ 0 then .trap (s.trapInfo true 0x05 s.c.sys.arpc) s
    else .ok () (arrivalReturn s)

/-! System registers. -/

/-- A register that user level cannot name: MFSR and MTSR raise PRIV (R164). -/
def supervisorOnly (n : Nat) : Bool := decide (0x20 ≤ n)

/-- The value of a system register (R164). -/
def sysRead (s : State) (n : Nat) : Word :=
  let y := s.c.sys
  match n with
  | 0x00 => y.status | 0x01 => y.fpctl | 0x02 => y.vfmt | 0x03 => y.seed | 0x04 => sbaseOf s.c.vloop
  | 0x05 => y.estart | 0x06 => y.ffs | 0x07 => y.grant | 0x08 => y.berth | 0x09 => s.cycle | 0x0A => y.retired
  | 0x0B => y.stallbank | 0x0C => y.avec | 0x0D => y.arpc | 0x0E => y.shvec | 0x0F => y.shpc | 0x10 => y.shinfo
  | 0x20 => y.tvec | 0x21 => y.tpc | 0x22 => y.tcause | 0x23 => y.tval | 0x24 => y.telem | 0x25 => y.tidx
  | 0x26 => y.tpfx | 0x27 => y.taux0 | 0x28 => y.taux1
  | _ =>
    if 0x30 ≤ n && n < 0x38 then nth s.c.tcp (n - 0x30) 0
    else if 0x100 ≤ n && n < 0x10F then nth s.c.dbg (n - 0x100) 0
    else 0

/-- VLMAX of a VFMT value (R182). -/
def vlmaxOf (v : Word) : Nat :=
  let w := if field v 12 4 = 0 then plainWidth (v.extractLsb' 0 4) else blockWidth (field v 12 4 - 1)
  2 ^ field v 8 2 * 4096 / w

/-- A VFMT value that the VFMT word would accept (R181, R182). -/
def vfmtOk (v : Word) : Bool := vfmtFieldsOk (field v 0 4) (field v 12 4) (field v 16 3) (field v 8 2)

/-- A new VFMT would change VLMAX inside the active vector loop (R206). -/
def vfmtBreaksLoop (s : State) (v : Word) : Bool := s.c.vloop.active && vlmaxOf v != s.c.vloop.vlmax

/-- VFMT := v, and FFS.TACT := 0 (R181, R216); both are written (R112). -/
def setVfmt (s : State) (v : Word) : State :=
  (s.withSys { s.c.sys with vfmt := v &&& vfmtMask, ffs := setBit s.c.sys.ffs 47 false }).mark (.sys 2) |>.mark (.sys 6)

/-- Every element of every z register becomes stale (R164, R269). -/
def staleAll (s : State) : State :=
  { s with c := { s.c with z := s.c.z.map fun r => r.map fun e => { e with stale := true } } }

/-- FPCTL after a write (R84): SALT, SINC and DRM take their new values, but DRM keeps its own on 110 or 111; a flag is
cleared by a 1. -/
def fpctlWrite (old v : Word) : Word :=
  let drm := if 6 ≤ field v 9 3 then field old 9 3 else field v 9 3
  setField ((v &&& 0x0000FFFFFF001000) ||| (old &&& 0xFF &&& ~~~ v)) 9 3 drm

/-- STATUS after a write (R166): AIE and DETERM at user level, and PFXP and PPRV as well at supervisor level. -/
def statusWrite (prv : Bool) (old v : Word) : Word :=
  let m : Word := if prv then 0x2E else 0x28
  (old &&& ~~~ m) ||| (v &&& m)

/-- A write of STATUS. -/
def setStatus (s : State) (v : Word) : State := s.withStatus (statusWrite s.prv s.c.sys.status v)

/-- A system register that is one field of the context holds a value, with its reserved bits zero (R4, R164). -/
def setSys (n : Nat) (v : Word) (y : SysRegs) : SysRegs :=
  match n with
  | 0x01 => { y with fpctl := fpctlForm v }
  | 0x03 => { y with seed := v }
  | 0x05 => { y with estart := v }
  | 0x06 => { y with ffs := v &&& ffsMask }
  | 0x0A => { y with retired := v }
  | 0x0B => { y with stallbank := v }
  | 0x0C => { y with avec := v }
  | 0x0D => { y with arpc := v }
  | 0x0E => { y with shvec := v }
  | 0x0F => { y with shpc := v }
  | 0x10 => { y with shinfo := v &&& 3 }
  | 0x20 => { y with tvec := v }
  | 0x21 => { y with tpc := v }
  | 0x22 => { y with tcause := v &&& tcauseMask }
  | 0x23 => { y with tval := v }
  | 0x24 => { y with telem := v &&& 0xFFFF }
  | 0x25 => { y with tidx := v &&& tidxMask }
  | 0x26 => { y with tpfx := v &&& tpfxMask }
  | 0x27 => { y with taux0 := v }
  | 0x28 => { y with taux1 := v }
  | _ => y

/-- Debug register n := v (R339). -/
def setDebug (n : Nat) (v : Word) (s : State) : State :=
  { s with c := { s.c with dbg := upd s.c.dbg n (debugWrite n v) } }

/-- A system register written under its access codes (R164, R165). VFMT is checked before. -/
def sysWrite (s : State) (n : Nat) (v : Word) : State :=
  let y := s.c.sys
  let s1 := s.mark (.sys n)
  match n with
  | 0x00 => setStatus s1 v
  | 0x01 => s1.withSys { y with fpctl := fpctlWrite y.fpctl v }
  | 0x02 => setVfmt s v
  | 0x03 => staleAll (s1.withSys (setSys 0x03 v y))
  | 0x05 | 0x0A | 0x0F | 0x10 => if s.prv then s1.withSys (setSys n v y) else s
  | 0x06 | 0x0B | 0x0C | 0x0D | 0x0E | 0x20 | 0x21 | 0x22 | 0x23 | 0x24 | 0x25 | 0x26 | 0x27 | 0x28 => s1.withSys (setSys n v y)
  | _ => if 0x100 ≤ n && n < 0x10F then setDebug (n - 0x100) v s1 else s

/-- The registers that MFSR reads after every older word has completed: FPCTL, FFS, GRANT, RETIRED and STALLBANK (R165). -/
def settledOnly (n : Nat) : Bool := n == 0x01 || n == 0x06 || n == 0x07 || n == 0x0A || n == 0x0B

/-- MFSR (R162, R165): where the register is read after every older word, it waits for the matrix issues, with their stall reason (R29). -/
def execMfsr (d : BitVec 5) (r : BitVec 12) (s : State) : Out :=
  apWord s fun s =>
    if supervisorOnly r.toNat && !s.prv then .trap (s.privTrap true) s
    else if settledOnly r.toNat && !s.c.mat.issues.isEmpty then .wait 14 s
    else .ok () (complete (s.wx d (sysRead s r.toNat)))

/-- MTSR (R162, R165): VFMT's value is checked as the VFMT word's is. -/
def execMtsr (a : BitVec 5) (r : BitVec 12) (s : State) : Out :=
  apWord s fun s =>
    let v := s.rx a
    if supervisorOnly r.toNat && !s.prv then .trap (s.privTrap true) s
    else if r = 2#12 && (!vfmtOk v || vfmtBreaksLoop s v) then .trap (s.illegal true) s
    else .ok () (complete (sysWrite s r.toNat v))

/-! XINV (R163). -/

/-- Cached translations that the kind covers are gone, those held for instruction fetch included (R41, R163). -/
def invalidate (k : BitVec 2) (va : Word) (s : State) : State :=
  if k.getLsbD 0 then { s with tlb := [] } else dropPage s va.toNat

/-- XINV (R163): it commits older stores. Over this core alone it completes at once; over the package it waits, with reason 6,
for the other cores (XINV_COMPLETE). -/
def execXinv (a : BitVec 5) (k : BitVec 2) (s : State) : Out :=
  apSuper s fun s =>
    let s1 := commitStores s
    if k.getLsbD 1 then .wait 6 s1 else .ok () (complete (invalidate k (s1.rx a) s1))

/-- The word being issued is an XINV: its fields (R162). -/
def xinvFields (ir : BitVec 32) : Option (BitVec 5 × BitVec 2) :=
  if ir.extractLsb' 25 7 = 0x0D#7 ∧ ir.extractLsb' 12 3 = 5#3 then some (ir.extractLsb' 15 5, ir.extractLsb' 0 2)
  else none

/-- XINV_COMPLETE (R163): the XINV that waits here completes, or, where none waits, one of another core over the package: no translation that
this core has cached is used again. What page that XINV names is not known here, and every one is dropped: DESIGN CHOICE (log entry 6). -/
def execXinvComplete (s : State) : Out :=
  match xinvFields s.ir with
  | some (a, k) =>
    if s.cs = .active ∧ s.c.wait = 6 then .next (complete (invalidate k (s.rx a) s)) else .next { s with tlb := [] }
  | none => .next { s with tlb := [] }

/-- TRANSLATION_WALK (R40): a walk completes with a translation, setting A and D, or ends in a fault and changes nothing. -/
def execTranslationWalk (va : Word) (acc : Access) (s : State) : Out := .next (translate s va 1 acc).2

/-! Fatal events (R112, R113). -/

/-- An accumulator whose rows are undefined: row i of bank b of accumulator n. -/
def undefAcc (t n : Nat) (a : Acc) : Acc :=
  let rows (b : Nat) (l : List VReg) : List VReg := l.zipIdx.map fun r => Config.undefVec t (256 + 128 * n + 64 * b + r.2)
  { W := rows 0 a.W, V := rows 1 a.V }

/-- The VFMT values, KREG and SCNT apart, that the VFMT word accepts here (R181, R182, R206). -/
def vfmtChoices (s : State) : List Word :=
  ((List.range 1024).map fun i => BitVec.ofNat 64 (i % 16 + i / 16 % 4 * 2 ^ 8 + i / 64 * 2 ^ 12)).filter fun v => vfmtOk v && !vfmtBreaksLoop s v

/-- An undefined VFMT: one of the values it can hold, whatever was written, as a free word says (R8). -/
def undefVfmt (s : State) (w : Word) : Word :=
  let cs := vfmtChoices s
  let v := cs.getD (field w 32 32 % cs.length) 0
  (if field v 12 4 = 0 then v else setField v 16 3 (field w 16 3)) ||| (w &&& 0x0FF00000)

/-- A system register is undefined, within the values it can hold (log entry 8): STATUS in the bits that the written level could write. -/
def undefSys (n : Nat) (s : State) : State :=
  let w := Config.undefWord s.tick (160 + n)
  if n = 0 then setStatus s w
  else if n = 2 then s.withSys { s.c.sys with vfmt := undefVfmt s w }
  else if 0x100 ≤ n then setDebug (n - 0x100) w s
  else s.withSys (setSys n w s.c.sys)

/-- Every register of a list is undefined (R8, R112). A vector register has the tag general then: DESIGN CHOICE (log entry 8: the manual
gives none). Transient results are `undefWindow`'s and `undefPart`'s. -/
def undefine (s : State) : List RegName → State
  | [] => s
  | r :: rest =>
    let t := s.tick
    let w := Config.undefWord t
    let s1 : State := match r with
      | .x n => { s with c := { s.c with x := upd s.c.x n (w n) } }
      | .xArr n => { s with c := { s.c with xArr := upd s.c.xArr (n - 24) (w (32 + n)) } }
      | .a n =>
        let r : AReg := ⟨w (64 + 4 * n), w (65 + 4 * n), w (66 + 4 * n), w (67 + 4 * n) &&& 0xF⟩
        { s with c := { s.c with a := upd s.c.a n r } }
      | .d n =>
        let r : DReg := ⟨(w (128 + 2 * n)).truncate 32, (w (129 + 2 * n)).truncate 32⟩
        { s with c := { s.c with d := upd s.c.d n r } }
      | .lc n => { s with c := { s.c with lc := upd s.c.lc n (w (140 + n)) } }
      | .desc n => { s with c := { s.c with desc := upd s.c.desc n (w (144 + n) &&& 0x81FFFFFFFFFFFFFC) } }
      | .v n => { s with c := { s.c with v := upd s.c.v n (Config.undefVec t n), vtag := upd s.c.vtag n .general } }
      | .p n => if n = 0 then s else { s with c := { s.c with p := upd s.c.p n (Config.undefPred t n) } }
      | .k n => { s with c := { s.c with k := upd s.c.k n (Config.undefVec t (32 + n)) } }
      | .z n =>
        let u (j : Nat) : ZElem := ZElem.trim
          ⟨w (1024 + 4 * (128 * n + j)), (w (1025 + 4 * (128 * n + j))).toNat % 513, w (1026 + 4 * (128 * n + j)),
            bit (w (1027 + 4 * (128 * n + j))) 0⟩
        { s with c := { s.c with z := upd s.c.z n (Vector.ofFn fun j : Fin 128 => u j.val) } }
      | .acc n =>
        let a := undefAcc t n (nth s.c.mat.acc n { W := [], V := [] })
        { s with c := { s.c with mat := { s.c.mat with acc := upd s.c.mat.acc n a } } }
      | .sys n => undefSys n s
      | .q n =>
        let es := (nth s.c.q n []).zipIdx.map fun e => { e.1 with val := w (8192 + 64 * n + e.2) }
        { s with c := { s.c with q := upd s.c.q n es } }
      | .win _ _ => s
      | .part _ => s
    undefine s1 rest

/-- The transient results of a level that were written since the containment point are undefined too, with the tag general (R104, R112; log
entry 8). -/
def undefWindow (t : Nat) (marks : List RegName) (depth : Nat) (w : Window) : Window :=
  { w with regs := w.regs.map fun r =>
      if marks.contains (.win depth r.1) then (r.1, Config.undefVec t (1024 + 32 * depth + r.1), .general) else r }

/-- The elements that a word interrupted at a level has left in the bypass since the containment point are undefined (R104, R112). -/
def undefPart (t : Nat) (marks : List RegName) (depth : Nat) (b : List VReg) : List VReg :=
  if marks.contains (.part depth) then b.zipIdx.map fun i => Config.undefVec t (2 ^ 20 + 32 * depth + i.2) else b

/-- The results that a trap or an arrival has set aside: those of a level, the newest level first (R104, R112). -/
def undefLevels (t : Nat) (marks : List RegName) : List Level → List Level
  | [] => []
  | l :: r =>
    { l with windows := l.windows.map (undefWindow t marks r.length), bypass := undefPart t marks r.length l.bypass }
      :: undefLevels t marks r

/-- The word at PC is of the AP class; one at an address without a translation is of neither (R62, R101). -/
def apAtPc (s : State) : Bool := match wordAtPc s with | some w => apOpcode (fld w 25 6).toNat | none => false

/-- A fatal event charged to the word being issued (R112, R113): buffered stores and registers since the containment point are
lost; the strip handler runs at user level when SHVEC bit 0 is 1, and otherwise the trap is STRIP_FAIL. The word runs in full when the
handler returns to it (ESTART = 0, R109). At the entry of the handler a payload that was pending is dropped with PFXP, and the open convoy
and the transient windows stay: DESIGN CHOICE (log entry 85: the manual is silent on them). -/
def takeFatal (kind : Nat) (pa : Word) (s : State) : State :=
  let s0 := dropTransfers Agent.ofWord (finishIssues s)
  let marks := s0.c.dirty ++ s0.c.older
  let s1 := undefine s0 marks
  let s2 := { s1 with c := { s1.c with
    sys := { s1.c.sys with estart := 0 }
    sbuf := [], dirty := [], older := [], replay := none, bypass := []
    windows := s1.c.windows.map (undefWindow s.tick marks s1.c.levels.length), levels := undefLevels s.tick marks s1.c.levels } }
  if bit s.c.sys.shvec 0 then
    { s2 with c := { s2.c with
      sys := { s2.c.sys with shpc := s.c.pc, shinfo := BitVec.ofNat 64 (kind % 4)
                             status := setBit (if s.c.pfxLive then setBit s2.c.sys.status 2 false else s2.c.sys.status) 0 false }
      pc := setBit (setBit s.c.sys.shvec 0 false) 1 false
      pfxLive := false, wait := 0, exempt := false, atTvec := false, exiting := false, moved := s.c.moved.filter (!·.who.ofWord) } }
  else
    takeTrap { s.trapInfo (apAtPc s) 0x10 pa with taux0 := BitVec.ofNat 64 (kind % 4), strip := true } s2

/-- TRAP_ENTRY (R108): the trap record given is written and control goes to TVEC. -/
def execTrapEntry (r : TrapInfo) (s : State) : Out := .next (if s.cs = .active then takeTrap r s else s)

/-- An arrival is pending and may be taken (R114). -/
def arrivalDue (s : State) : Bool :=
  s.cs == .active && decide (0 < s.c.arrivals) && !s.prv && s.aie && !s.ain

/-- ARRIVAL_ENTRY (R114): taken only at user level with arrivals enabled and outside an arrival handler. -/
def execArrivalEntry (s : State) : Out := .next (if arrivalDue s then takeArrival s else s)

end Sys2Proof.Machine
end

