-- ==== Sys2Proof/Machine/Copy.lean ====
section
/-!
DEFINITION. The copy channels: CPY, CST, CABT and GTH (R167 to R171), how a command runs chunk by chunk and completes (R172,
R173, R178), its engine faults (R175 to R177), and a fatal event (R112).
-/

namespace Sys2Proof.Machine

def chanAt (s : State) (i : Nat) : Channel := nth s.c.chan i Channel.free
def withChan (s : State) (i : Nat) (c : Channel) : State := { s with c := { s.c with chan := upd s.c.chan i c } }

/-- Bytes of the command's linear order (R169, R170). -/
def chanTotal (c : Channel) : Nat := c.run * c.n1 * c.n2

/-- The path of the command's accesses (R42). -/
def chanPath (c : Channel) : Path := if c.gth then .gather else .copy

/-- A counted extent of a stride: the least and the greatest offset it adds. -/
def spanLow (n : Nat) (st : Int) : Int := min 0 (((n : Int) - 1) * st)
def spanHigh (n : Nat) (st : Int) : Int := max 0 (((n : Int) - 1) * st)

/-- The least value above `t` of base + i × st over i < n. -/
def leastAbove (base st : Int) (n : Nat) (t : Int) : Option Int :=
  if n = 0 then none
  else if st = 0 then (if t < base then some base else none)
  else if 0 < st then
    let i := max 0 ((t - base) / st + 1)
    if i < n then some (base + i * st) else none
  else
    if base ≤ t then none else some (base + min ((n : Int) - 1) ((base - t - 1) / (-st)) * st)

/-- The check of a box of rows from an exact address against an address register: the lowest failing address (R127, R171). Where only the
end of a row passes the limit that is the row's first byte at or above it, and where the limit lies between two rows it is the lowest such
byte that a row touches: DEDUCED (log entry 96: the rules name no other, and R127's `addr` is an access's). -/
def boxCheckAt (r : AReg) (need : Need) (p : Int) (run n1 : Nat) (s1 : Int) (n2 : Nat) (s2 : Int) : Option Int :=
  let low := p + spanLow n1 s1 + spanLow n2 s2
  let high := p + spanHigh n1 s1 + spanHigh n2 s2 + run
  if !permOk r.perm need || low < r.base.toNat then some low
  else if (r.limit.toNat : Int) < high then
    -- the lowest byte at or above the limit
    let lim : Int := r.limit.toNat
    let starts := (List.range n2).filterMap fun (i : Nat) => leastAbove (p + (i : Int) * s2) s1 n1 (lim - (run : Int))
    some (starts.foldl (fun m v => min m (max v lim)) (max lim (p + spanHigh n1 s1 + spanHigh n2 s2 + run)))
  else none

/-- The check of a box of rows at the register's pointer. -/
def boxCheck (r : AReg) (need : Need) (run n1 : Nat) (s1 : Int) (n2 : Nat) (s2 : Int) : Option Int :=
  boxCheckAt r need r.ptr.toNat run n1 s1 n2 s2

/-- Checks 1 and 2 of R171, and of every word that names a counter: {A, E}, bounds over 8 bytes, alignment. -/
def counterChecks (r : AReg) : Option (BitVec 8 × Word) :=
  if !aCheck r { a := true, e := true } r.ptr.toNat 8 then some (0x07, r.ptr)
  else if r.ptr.toNat % 8 ≠ 0 then some (0x05, r.ptr)
  else none

/-! Engine faults and completion. -/

/-- The fields of an engine fault's record (R176). -/
def faultInfo (i : Nat) (c : Channel) (tidx : Word) : TrapInfo :=
  { cause := 0, tpc := c.pc, tval := 0, telem := i, tidx := tidx, taux0 := 0, taux1 := 0, apw := true, strip := false
    estart := 0 }

/-- Nothing of the channel's accesses is waited for, or kept, any more (R285). -/
def dropChanData (i : Nat) (s : State) : State := dropTransfers (· == .channel i) s

/-- The channel stops at an engine fault (R175). -/
def stopChan (i : Nat) (c : Channel) (t : TrapInfo) (s : State) : State :=
  withChan (dropChanData i (forgetMoved s (.channel i))) i { c with flt := true, told := false, cause := some { t with strip := t.cause == 0x10 } }

/-- The channel's current access waits with a stall reason (R29). -/
def waitChan (i : Nat) (c : Channel) (reason : Nat) (s : State) : State := withChan s i { c with wait := reason }

/-- The command completes: the counter's increment, ACT := 0, and a pending arrival (R173). ARV and OFF of the free channel read 0 as well:
DESIGN CHOICE (log entry 86: the manual names ACT alone). -/
def completeChan (i : Nat) (c : Channel) (s : State) : State :=
  let h := c.prior ++ c.ids
  match engineCheck (.channel i) s h c.ctr 8 .syncWrite c.user (faultInfo i c 0) with
  | .trap t s1 => stopChan i { c with off := chanTotal c } t s1
  | .wait n s1 => waitChan i { c with off := chanTotal c } n s1
  | .ok x s1 =>
    let r := engineRecord s1 (chanPath c) x 8 .syncWrite
    let s3 := counterAdd r.2 x.loc 1 [(chanPath c, h ++ r.1)]
    let s4 := traceCtx 2 (BitVec.ofNat 64 (i + if c.gth then 256 else 0)) c.ctr s3
    let s5 := withChan (dropChanData i s4) i Channel.free
    if c.arv then { s5 with c := { s5.c with arrivals := min 255 (s5.c.arrivals + 1) } } else s5

/-! Pieces of a chunk (R175). -/

/-- One access of a chunk: the linear offset of its first byte, whether it writes, its address and its length. -/
structure Piece where
  off   : Nat
  write : Bool
  va    : Int
  len   : Nat
  deriving DecidableEq, Repr

/-- Source or destination address of a linear offset of a CPY (R169). -/
def cpyAddr (ptr : Word) (run n1 : Nat) (s1 s2 : Int) (o : Nat) : Int :=
  let q := o / run
  ptr.toNat + (q / n1 : Nat) * s2 + (q % n1 : Nat) * s1 + (o % run : Nat)

/-- The pieces of one side from offset `o` to `e`: bytes of one run and one 32-byte sector (R175). -/
def piecesFrom (addr : Nat → Int) (run : Nat) (write : Bool) : Nat → Nat → Nat → List Piece
  | 0, _, _ => []
  | fuel + 1, o, e =>
    if e ≤ o then []
    else
      let a := addr o
      let len := min (min (run - o % run) (32 - (a % 32).toNat)) (e - o)
      { off := o, write := write, va := a, len := len } :: piecesFrom addr run write fuel (o + len) e

/-- Two lists of pieces merged in linear order, reads before writes at one offset (R175). -/
def mergePieces : Nat → List Piece → List Piece → List Piece
  | 0, a, b => a ++ b
  | _, [], b => b
  | _, a, [] => a
  | n + 1, x :: a, y :: b => if x.off ≤ y.off then x :: mergePieces n a (y :: b) else y :: mergePieces n (x :: a) b

/-- TIDX of a linear offset (R176). -/
def chanTidx (c : Channel) (o : Nat) : Word :=
  if c.gth then
    let k := o / c.run
    BitVec.ofNat 64 (k % 65536 + k / 65536 % 65536 * 2 ^ 16)
  else
    let q := o / c.run
    BitVec.ofNat 64 (o % c.run % 65536 + q % c.n1 % 65536 * 2 ^ 16 + q / c.n1 % 65536 * 2 ^ 32)

/-- Check the pieces in order: their translations, or the first fault (R175). -/
def checkPieces (i : Nat) (c : Channel) : List Piece → State → Res (List (Piece × Xlat))
  | [], s => .ok [] s
  | p :: r, s =>
    (engineCheck (.channel i) s (c.prior ++ c.ids) (wordOf p.va) p.len (if p.write then .write else .read) c.user
        (faultInfo i c (chanTidx c p.off))).bind fun x s1 =>
      (checkPieces i c r s1).bind fun l s2 => .ok ((p, x) :: l) s2

/-- Make the reads of checked pieces: records, and bytes by linear offset. -/
def readPieces (path : Path) : List (Piece × Xlat) → State → List Byte × List Nat × State
  | [], s => ([], [], s)
  | (p, x) :: r, s =>
    if p.write then readPieces path r s
    else
      let (ids, s1) := engineRecord s path x p.len .read
      let (bs, ids', s2) := readPieces path r s1
      (busBytes s x.loc p.len ++ bs, ids ++ ids', s2)

/-- Make the writes of checked pieces from the chunk's bytes, which begin at linear offset `base`. -/
def writePieces (path : Path) (base : Nat) (bs : List Byte) : List (Piece × Xlat) → State → List Nat × State
  | [], s => ([], s)
  | (p, x) :: r, s =>
    if p.write then
      let (ids, s1) := engineRecord s path x p.len .write
      let s2 := busPut s1 x.loc ((bs.drop (p.off - base)).take p.len)
      let (ids', s3) := writePieces path base bs r s2
      (ids ++ ids', s3)
    else writePieces path base bs r s

/-- The chunk is read and then written, and the command goes on or completes (R172, R173). -/
def finishChunk (i : Nat) (c : Channel) (e : Nat) (ps : List (Piece × Xlat)) (s : State) : State :=
  let (bs, ids, s1) := readPieces (chanPath c) ps s
  let (ids', s2) := writePieces (chanPath c) c.off bs ps s1
  let c1 := { c with off := e, ids := ids' ++ ids ++ c.ids, wait := 7 }
  let s3 := dropChanData i s2
  if chanTotal c ≤ e then completeChan i c1 s3 else withChan s3 i c1

/-- The end of the chunk that begins at OFF (R172). -/
def chunkEnd (c : Channel) : Nat := min (c.off / 128 * 128 + 128) (chanTotal c)

/-- One chunk of a CPY (R169, R172). -/
def cpyChunk (i : Nat) (c : Channel) (s : State) : State :=
  let e := chunkEnd c
  let rd := piecesFrom (cpyAddr c.src c.run c.n1 c.ss1 c.ss2) c.run false 128 c.off e
  let wr := piecesFrom (cpyAddr c.dst c.run c.n1 c.ds1 c.ds2) c.run true 128 c.off e
  match checkPieces i c (mergePieces 256 rd wr) s with
  | .trap t s1 => stopChan i c t s1
  | .wait n s1 => waitChan i c n s1
  | .ok ps s1 => finishChunk i c e ps s1

/-- Index entries of the rows that a GTH chunk touches, each read before its row and its row checked against the table
register (R170, R175): the row starts, with the records made. -/
def gatherRows (i : Nat) (c : Channel) : List Nat → State → Res (List (Nat × Int) × List Nat)
  | [], s => .ok ([], []) s
  | k :: r, s =>
    let o := max (k * c.run) c.off
    let t := faultInfo i c (chanTidx c o)
    (engineCheck (.channel i) s (c.prior ++ c.ids) (wordOf (c.idx.toNat + (k * c.isz : Nat))) c.isz .read c.user t).bind fun x s1 =>
      let (ids, s2) := engineRecord s1 .gather x c.isz .read
      let j := leNat (busBytes s1 x.loc c.isz)
      let start : Int := c.src.toNat + j * c.ss1
      if !aCheck c.tbl { l := true, e := true } start c.run then
        .trap { t with cause := 0x07, tval := wordOf start } s2
      else
        (gatherRows i { c with ids := ids ++ c.ids } r s2).bind fun l s3 => .ok ((k, start) :: l.1, l.2 ++ ids) s3

/-- Check a GTH chunk row by row in linear order: an index entry before its row's reads, reads before writes (R175). Each access follows the
ones made before it (R172). -/
def gatherCheck (i : Nat) (c : Channel) (e : Nat) : List Nat → State → Res (List (Piece × Xlat) × List Nat)
  | [], s => .ok ([], []) s
  | k :: r, s =>
    (gatherRows i c [k] s).bind fun g s1 =>
      let start := match g.1 with | (_, v) :: _ => v | [] => 0
      let lo := max (k * c.run) c.off
      let hi := min ((k + 1) * c.run) e
      let rd := piecesFrom (fun o => start + (o - k * c.run : Nat)) c.run false 128 lo hi
      let wr := piecesFrom (fun o => (c.dst.toNat : Int) + (o : Nat)) c.run true 128 lo hi
      let c1 := { c with ids := g.2 ++ c.ids }
      (checkPieces i c1 (mergePieces 256 rd wr) s1).bind fun ps s2 =>
        (gatherCheck i c1 e r s2).bind fun l s3 => .ok (ps ++ l.1, l.2 ++ g.2) s3

/-- One chunk of a GTH (R170, R172). A chunk that stops or waits makes its index reads again, and has recorded none. -/
def gthChunk (i : Nat) (c : Channel) (s : State) : State :=
  let e := chunkEnd c
  let rows := (List.range ((e - 1) / c.run - c.off / c.run + 1)).map fun n => c.off / c.run + n
  match withoutRecords s (gatherCheck i c e rows s) with
  | .trap t s1 => stopChan i c t s1
  | .wait n s1 => waitChan i c n s1
  | .ok (ps, ids) s1 => finishChunk i { c with ids := ids ++ c.ids } e ps s1

/-- A running channel goes on by one chunk, or tries its completion again (R172, R173). -/
def chanStep (i : Nat) (s : State) : State :=
  let c := chanAt s i
  if !c.act || c.flt then s
  else if chanTotal c ≤ c.off then completeChan i c s
  else if c.gth then gthChunk i c s
  else cpyChunk i c s

/-- COPY_CHUNK (R172). -/
def execCopyChunk (ch : BitVec 2) (s : State) : Out := .next (chanStep ch.toNat s)

/-- GATHER_BURST (R178): a burst of up to 128 bytes in linear order is returned to a channel that holds a GTH. -/
def execGatherBurst (ch : BitVec 2) (s : State) : Out :=
  .next (if (chanAt s ch.toNat).gth then chanStep ch.toNat s else s)

/-! Issue (R168 to R171). -/

/-- A signed stride of a dimension register. -/
def strideOf (d : DReg) : Int := d.stride.toInt

/-- The command is issued: older stores are committed, the channel is active, and a command with nothing to move completes
(R44, R171, R173). -/
def issueChan (i : Nat) (c : Channel) (s : State) : State :=
  let s1 := commitStores s
  let c1 := { c with
    act := true, flt := false, told := false, cause := none, off := 0, word := s.ir, pc := s.c.pc, user := !s.prv
    order := s.c.order, prior := hSet s1 (chanPath c), ids := [], ret := 0 }
  let s2 := withChan { s1 with c := { s1.c with order := s.c.order + 1 } } i c1
  let s3 := traceCtx 1 (BitVec.ofNat 64 (i + if c.gth then 256 else 0)) s.c.pc s2
  let s4 := complete s3
  if chanTotal c = 0 then completeChan i c1 s4 else s4

/-- CPY (R168, R169, R171). It waits for a busy channel before the checks of its issue, which then see the registers as they are:
DESIGN CHOICE (log entry 97). -/
def execCpy (d a b : BitVec 5) (h : BitVec 2) (v : BitVec 1) (n : BitVec 2) (s : State) : Out :=
  apWord s fun s =>
    let i := h.toNat
    let src := s.ra a.toNat
    let dst := s.ra d.toNat
    let ctr := s.ra b.toNat
    let two := decide (2 ≤ n.toNat)
    let three := decide (3 ≤ n.toNat)
    let c : Channel := { Channel.free with
      arv := v == 1#1, src := src.ptr, dst := dst.ptr, ctr := ctr.ptr, run := (s.rd 0).len.toNat
      n1 := if two then (s.rd 1).len.toNat else 1
      ss1 := if two then strideOf (s.rd 1) else 0
      ds1 := if two then strideOf (s.rd 4) else 0
      n2 := if three then (s.rd 2).len.toNat else 1
      ss2 := if three then strideOf (s.rd 2) else 0
      ds2 := if three then strideOf (s.rd 5) else 0 }
    let total := chanTotal c
    let fail (cause : BitVec 8) (tval : Word) : Res Unit := .trap (s.trapInfo true cause tval) s
    if (chanAt s i).act then .wait (chanAt s i).wait s
    else match counterChecks ctr with
      | some (cause, tval) => fail cause tval
      | none =>
        if 2 ^ 40 ≤ total then fail 0x06 (BitVec.ofNat 64 total)
        else if total = 0 then .ok () (issueChan i c s)
        else match boxCheck src { l := true, e := true } c.run c.n1 c.ss1 c.n2 c.ss2 with
          | some p => fail 0x07 (wordOf p)
          | none =>
            match boxCheck dst { s := true, e := true } c.run c.n1 c.ds1 c.n2 c.ds2 with
            | some p => fail 0x07 (wordOf p)
            | none => .ok () (issueChan i c s)

/-- GTH (R170, R171), which waits for a busy channel before its checks as CPY does (log entry 97). -/
def execGth (d t i : BitVec 5) (h : BitVec 2) (v z : BitVec 1) (c : BitVec 4) (s : State) : Out :=
  apWord s fun s =>
    let k := h.toNat
    let dst := s.ra d.toNat
    let tbl := s.ra t.toNat
    let idx := s.ra i.toNat
    let ctr := s.ra c.toNat
    let isz := if z = 1#1 then 8 else 4
    let n := (s.rd 0).len.toNat
    let row := (s.rd 1).len.toNat
    let ch : Channel := { Channel.free with
      gth := true, arv := v == 1#1, src := tbl.ptr, tbl := tbl, dst := dst.ptr, ctr := ctr.ptr, idx := idx.ptr, isz := isz
      run := row, n1 := n, ss1 := strideOf (s.rd 0), n2 := 1 }
    let total := n * row
    let fail (cause : BitVec 8) (tval : Word) : Res Unit := .trap (s.trapInfo true cause tval) s
    if (chanAt s k).act then .wait (chanAt s k).wait s
    else match counterChecks ctr with
      | some (cause, tval) => fail cause tval
      | none =>
        if 2 ^ 40 ≤ total then fail 0x06 (BitVec.ofNat 64 total)
        else if total = 0 then .ok () (issueChan k ch s)
        else match boxCheck idx { l := true, e := true } (n * isz) 1 0 1 0 with
          | some p => fail 0x07 (wordOf p)
          | none =>
            if idx.ptr.toNat % isz ≠ 0 then fail 0x05 idx.ptr
            else match boxCheck dst { s := true, e := true } total 1 0 1 0 with
              | some p => fail 0x07 (wordOf p)
              | none => .ok () (issueChan k ch s)

/-- CST (R168): x[xd] := the channel's state word. -/
def execCst (d : BitVec 5) (h : BitVec 2) (s : State) : Out :=
  apSuper s fun s => .ok () (complete (s.wx d (chanWord (chanAt s h.toNat))))

/-- CABT (R177): legal only on a stopped channel, which it frees. -/
def execCabt (h : BitVec 2) (s : State) : Out :=
  apSuper s fun s =>
    if (chanAt s h.toNat).act && (chanAt s h.toNat).flt then
      let s1 := withChan (dropChanData h.toNat (forgetMoved s (.channel h.toNat))) h.toNat Channel.free
      .ok () (complete { s1 with c := { s1.c with lastFlt := if s.c.lastFlt = some h.toNat then none else s.c.lastFlt } })
    else .trap (s.illegal true) s

/-! Engine faults as traps (R176, R177). -/

/-- The stopped channel whose fault is due: first raised when it is found, and raised again only at user level; the one whose
command is oldest (R176, R177). -/
def faultDue (s : State) : Option Nat :=
  let due := (List.range 4).filter fun i =>
    let c := chanAt s i
    c.act && c.flt && c.cause.isSome && (!c.told || !s.prv)
  due.foldl (fun best i => match best with
    | none => some i
    | some j => if (chanAt s i).order < (chanAt s j).order then some i else best) none

/-- The fault is taken at the word at PC, which is kept as the channel's return point (R176). Every other channel that is stopped by then
raises its own only at the next user-level word (R177). The handler's first word is exempt from
breakpoints when it is the first to issue after a TRET (R109). -/
def takeFault (i : Nat) (s : State) : State :=
  let c := chanAt s i
  match c.cause with
  | none => s
  | some t =>
    let told := { s with c := { s.c with chan := s.c.chan.map fun d => if d.act && d.flt then { d with told := true } else d } }
    let s1 := withChan told i { c with told := true, ret := s.c.pc }
    let s2 := takeTrap t { s1 with c := { s1.c with lastFlt := some i } }
    { s2 with c := { s2.c with exempt := s.c.exempt } }

/-- ENGINE_FAULT_TRAP (R176). -/
def execEngineFaultTrap (ch : BitVec 2) (s : State) : Out :=
  .next (if s.cs = .active ∧ (chanAt s ch.toNat).flt then takeFault ch.toNat s else s)

/-- Data at a physical address can have been released before its tag had passed: a page with ELR = 1 that the context has translated holds
it (R290). -/
def releasedEarly (s : State) (pa : Nat) : Bool :=
  s.tlb.any fun t => t.root == s.c.root && leafElr t.leaf && decide (leafPage t.leaf ≤ pa) && decide (pa < leafPage t.leaf + t.size)

/-- A line whose tag failed is not kept: a later access fetches it again (R290). -/
def forgetLine (line : Nat) (s : State) : State :=
  { s with fab := { s.fab with held := s.fab.held.filter (·.line != line), inbox := s.fab.inbox.filter (·.2.line != line) } }

/-- A fatal event at an access of a running channel, which stops with STRIP_FAIL (R175). `k` counts the bytes from the start of the chunk
to the first byte of the access, whose indices TIDX names (R176). -/
def fatalChan (i k kind : Nat) (pa : Word) (s : State) : State :=
  let c := chanAt s i
  let o := c.off + k
  if c.act && !c.flt then
    stopChan i c { faultInfo i c (if chanTotal c ≤ o then 0 else chanTidx c o) with
      cause := 0x10, tval := pa, taux0 := BitVec.ofNat 64 kind } s
  else s

/-- A fatal event met by the spill or the fill of this core: LOST is set, and the context's saved state is not valid (R323). -/
def loseContext (s : State) : State :=
  let c := match s.spill with | some c => some c | none => if s.shReady then none else s.sh
  match c with
  | some c => setEvent { s with disp := { s.disp with lost := s.disp.lost ++ [c.save] } } 3
  | none => setEvent s 3

/-- A fatal event of a kind reaches its consumer: `src` 0 is the word being issued, 1 a spill or fill of this core (LOST), and
2 + n + 8 × k an access of channel n that begins k bytes into its chunk (R112, R175, R323). -/
def fatalAt (kind : Nat) (pa src : Word) (s : State) : State :=
  let n := (src.toNat - 2) % 8
  if src = 1 then loseContext s
  else if s.cs ≠ .active then s
  else if src ≠ 0 ∧ n < 4 then fatalChan n ((src.toNat - 2) / 8 % 128) kind pa s
  else takeFatal kind pa s

/-- FATAL_EVENT (R112, R290): one of kind 2 comes about only where data was released early, and its line is not kept. -/
def execFatalEvent (kind : BitVec 2) (pa src : Word) (s : State) : Out :=
  .next (
    if kind = 2#2 then (if releasedEarly s pa.toNat then fatalAt 2 pa src (forgetLine (pa.toNat / 128) s) else s)
    else fatalAt kind.toNat pa src s)

end Sys2Proof.Machine
end

