-- ==== Sys2Proof/Machine/Flags.lean ====
section
/-!
DEFINITION. The sticky flags of FPCTL (R84), the rounding mode and salt of a conversion (R88, R92), and the flag sets that
arithmetic words make.
-/

namespace Sys2Proof.Machine

/-- A set of flags: bits 7:0 of FPCTL (R84). -/
abbrev Flags := BitVec 8

def flagNV : Flags := 0x01#8
def flagDZ : Flags := 0x02#8
def flagOF : Flags := 0x04#8
def flagUF : Flags := 0x08#8
def flagNX : Flags := 0x10#8
def flagSAT : Flags := 0x20#8
def flagMXOV : Flags := 0x40#8
def flagMALF : Flags := 0x80#8

/-- A flag that is set when a condition holds. -/
def flagIf (b : Bool) (f : Flags) : Flags := if b then f else 0

/-- The sticky flags take the union with those an instruction sets (R84, R188). -/
def orFlags (f : Flags) (s : State) : State :=
  if f = 0 then s
  else (s.withSys { s.c.sys with fpctl := s.c.sys.fpctl ||| f.zeroExtend 64 }).mark (.sys 1)

/-- The rounding mode that a conversion's rnd field selects: DRM for 110 (R88). -/
def roundMode (s : State) (rnd : BitVec 3) : Nat := if rnd = 6#3 then field s.c.sys.fpctl 9 3 else rnd.toNat

/-- SALT at the instruction's place (R92). -/
def saltOf (s : State) : Nat := field s.c.sys.fpctl 24 24

/-- The AP adds 1 to SALT after a conversion that resolves to stochastic rounding, when SINC is 1 (R92). -/
def advanceSalt (mode : Nat) (s : State) : State :=
  if mode = 4 && bit s.c.sys.fpctl 12 then
    (s.withSys { s.c.sys with fpctl := setField s.c.sys.fpctl 24 24 (saltOf s + 1) }).mark (.sys 1)
  else s

end Sys2Proof.Machine
end

