-- ==== Sys2Proof/Machine/Float.lean ====
section
/-!
DEFINITION. The element formats (R79 to R83), exact values, rounding (R88 to R92), overflow policy (R91), the arithmetic of
IEEE 754-2019 on f32, f16 and bf16 (R83, R193, R194), and exact sums (R98, R224).
-/

namespace Sys2Proof.Machine

/-! Formats and exact values. -/

/-- An exact value: a NaN, an infinity, or (−1)^neg × m × 2^e; m = 0 is a signed zero. -/
inductive FVal where
  | nan
  | inf (neg : Bool)
  | fin (neg : Bool) (m : Nat) (e : Int)
  deriving DecidableEq, Repr

/-- What the all-ones exponent of a float format means (R82). -/
inductive TopBinade where
  /-- An ordinary binade: no infinity, no NaN. -/
  | normal
  /-- Ordinary but for the all-ones mantissa, which is NaN. -/
  | nanOnly
  /-- Infinity and NaN. -/
  | special
  deriving DecidableEq, Repr

/-- A float format: exponent and mantissa bits, bias, and its top binade (R82). -/
structure FFmt where
  eb   : Nat
  mb   : Nat
  bias : Nat
  top  : TopBinade
  deriving DecidableEq, Repr

def fmtE2m1 : FFmt := ⟨2, 1, 1, .normal⟩
def fmtE2m3 : FFmt := ⟨2, 3, 1, .normal⟩
def fmtE3m2 : FFmt := ⟨3, 2, 3, .normal⟩
def fmtE4m3 : FFmt := ⟨4, 3, 7, .nanOnly⟩
def fmtE5m2 : FFmt := ⟨5, 2, 15, .special⟩
def fmtF16 : FFmt := ⟨5, 10, 15, .special⟩
def fmtBf16 : FFmt := ⟨8, 7, 127, .special⟩
def fmtF32 : FFmt := ⟨8, 23, 127, .special⟩

/-- Bits of a format, the sign among them. -/
def FFmt.bits (f : FFmt) : Nat := 1 + f.eb + f.mb
/-- The sign bit's weight. -/
def FFmt.sign (f : FFmt) : Nat := 2 ^ (f.eb + f.mb)

/-- An element format: an integer of some width, or a float (R79). -/
inductive ElemFmt where
  | int (w : Nat) (signed : Bool)
  | flt (f : FFmt)
  deriving DecidableEq, Repr

/-- The plain code's format (R79). -/
def plainFmt (c : BitVec 4) : ElemFmt :=
  match c.toNat with
  | 0 => .int 4 true | 1 => .int 4 false | 2 => .int 8 true | 3 => .int 8 false
  | 4 => .int 16 true | 5 => .int 16 false | 6 => .int 32 true | 7 => .int 32 false
  | 8 => .flt fmtE2m1 | 9 => .flt fmtE2m3 | 10 => .flt fmtE3m2 | 11 => .flt fmtE4m3
  | 12 => .flt fmtE5m2 | 13 => .flt fmtF16 | 14 => .flt fmtBf16 | _ => .flt fmtF32

/-- The float format of an arithmetic fmt code: 0xD, 0xE or 0xF (R193). -/
def floatFmt (c : BitVec 4) : FFmt := if c = 13#4 then fmtF16 else if c = 14#4 then fmtBf16 else fmtF32

/-- The value of a float's bits (R82). Bits above the format are ignored (R182). -/
def FFmt.decode (f : FFmt) (b : Nat) : FVal :=
  let neg := b / f.sign % 2 == 1
  let e := b / 2 ^ f.mb % 2 ^ f.eb
  let m := b % 2 ^ f.mb
  if e = 0 then .fin neg m (1 - (f.bias : Int) - f.mb)
  else
    let v : FVal := .fin neg (2 ^ f.mb + m) ((e : Int) - f.bias - f.mb)
    match f.top with
    | .normal => v
    | .nanOnly => if e = 2 ^ f.eb - 1 ∧ m = 2 ^ f.mb - 1 then .nan else v
    | .special => if e = 2 ^ f.eb - 1 then (if m = 0 then .inf neg else .nan) else v

/-- The value of an element's bits. -/
def ElemFmt.decode (f : ElemFmt) (b : Nat) : FVal :=
  match f with
  | .int w true => let v := toSigned w b; .fin (decide (v < 0)) v.natAbs 0
  | .int w false => .fin false (b % 2 ^ w) 0
  | .flt f => f.decode b

/-- The canonical NaN of a format that has NaN (R83). -/
def FFmt.canonNan (f : FFmt) : Nat :=
  match f.top with
  | .nanOnly => f.sign - 1
  | _ => (2 ^ f.eb - 1) * 2 ^ f.mb + 2 ^ (f.mb - 1)

/-- The bits of an infinity. -/
def FFmt.infBits (f : FFmt) (neg : Bool) : Nat := (if neg then f.sign else 0) + (2 ^ f.eb - 1) * 2 ^ f.mb

/-- The largest finite magnitude, as quanta and their exponent (R82). -/
def FFmt.maxFin (f : FFmt) : Nat × Int :=
  match f.top with
  | .normal => (2 ^ (f.mb + 1) - 1, (2 ^ f.eb - 1 : Int) - f.bias - f.mb)
  | .nanOnly => (2 ^ (f.mb + 1) - 2, (2 ^ f.eb - 1 : Int) - f.bias - f.mb)
  | .special => (2 ^ (f.mb + 1) - 1, (2 ^ f.eb - 2 : Int) - f.bias - f.mb)

/-- The bits of (−1)^neg × k × 2^q, a value of the format with k at most 2^(mb + 1). -/
def FFmt.pack (f : FFmt) (neg : Bool) (k : Nat) (q : Int) : Nat :=
  let s := if neg then f.sign else 0
  let (k, q) := if 2 ^ (f.mb + 1) ≤ k then (k / 2, q + 1) else (k, q)
  if k < 2 ^ f.mb then s + k
  else s + (q + f.mb + f.bias).toNat * 2 ^ f.mb + (k - 2 ^ f.mb)

/-! Rounding (R88). -/

/-- A magnitude m × 2^e in quanta of 2^q, rounded under a mode: the count, and whether it is exact. `r24` holds Sluice's bits
23:0 for mode 4 (R92). -/
def roundQuanta (mode : Nat) (neg : Bool) (r24 m : Nat) (e q : Int) : Nat × Bool :=
  if q ≤ e then (m * 2 ^ (e - q).toNat, true)
  else
    let d := (q - e).toNat
    let lo := m / 2 ^ d
    let rem := m % 2 ^ d
    if rem = 0 then (lo, true)
    else
      let up :=
        match mode with
        | 0 => decide (2 ^ d < 2 * rem) || (2 * rem == 2 ^ d && lo % 2 == 1)
        | 1 => false
        | 2 => neg
        | 3 => !neg
        | 4 => decide (r24 % 2 ^ 24 < rem * 2 ^ 24 / 2 ^ d)
        | _ => decide (2 ^ d ≤ 2 * rem)
      (if up then lo + 1 else lo, false)

/-- The result of a conversion: bits and flags, or FP_TRAP (R91). -/
abbrev Rounded := Option (Nat × Flags)

/-- What replaces a float result outside the finite range, or an infinity that the destination lacks (R91). -/
def FFmt.overflow (f : FFmt) (ovf : Nat) (neg : Bool) : Rounded :=
  match ovf with
  | 0 => some (f.pack neg f.maxFin.1 f.maxFin.2, flagSAT ||| flagOF)
  | 1 => some (if f.top = .special then f.infBits neg else f.canonNan, flagOF)
  | 2 => some (f.canonNan, flagOF)
  | _ => none

/-- k × 2^q lies above the largest finite value. -/
def FFmt.above (f : FFmt) (k : Nat) (q : Int) : Bool :=
  let top := f.maxFin
  if q ≤ top.2 then decide (top.1 * 2 ^ (top.2 - q).toNat < k) else decide (top.1 < k * 2 ^ (q - top.2).toNat)

/-- A rounding mode takes the lower of the two neighbours whatever the magnitude (R88). -/
def towardZero (mode : Nat) (neg : Bool) : Bool := mode == 1 || (mode == 2 && !neg) || (mode == 3 && neg)

/-- Rounding to a float format (R88, R91, R92). -/
def FFmt.round (f : FFmt) (mode ovf r24 : Nat) (x : FVal) : Rounded :=
  match x with
  | .nan =>
    if f.top = .normal then (if ovf = 3 then none else some (0, flagNV)) else some (f.canonNan, flagNV)
  | .inf neg => if f.top = .special then some (f.infBits neg, 0) else f.overflow ovf neg
  | .fin neg m e =>
    if m = 0 then some (if neg then f.sign else 0, 0)
    else
      let l : Int := (Nat.log2 m : Nat) + e
      let emin : Int := 1 - (f.bias : Int)
      let q := max l emin - f.mb
      if l - f.mb > f.maxFin.2 then
        -- at or beyond the next binade: hi is the overflow outcome, lo the largest finite value
        if towardZero mode neg then some (f.pack neg f.maxFin.1 f.maxFin.2, flagNX)
        else (f.overflow ovf neg).map fun r => (r.1, r.2 ||| flagNX)
      else
        let (k, exact) := roundQuanta mode neg r24 m e q
        if f.above k q then
          if towardZero mode neg then some (f.pack neg f.maxFin.1 f.maxFin.2, flagNX)
          else (f.overflow ovf neg).map fun r => (r.1, r.2 ||| flagNX)
        else
          let tiny := decide (l < emin) &&
            decide ((roundQuanta mode neg r24 m e (l - f.mb)).1 < 2 ^ (emin - (l - f.mb)).toNat)
          some (f.pack neg k q, flagIf (!exact) flagNX ||| flagIf (!exact && tiny) flagUF)

/-- Rounding to an integer range, and what replaces a result outside it (R88, R91). -/
def roundInt (lo hi : Int) (w mode ovf r24 : Nat) (x : FVal) : Rounded :=
  match x with
  | .nan => if ovf = 3 then none else some (0, flagNV)
  | .inf neg => if ovf = 3 then none else some (wrapTo w (if neg then lo else hi), flagSAT ||| flagNV)
  | .fin neg m e =>
    let (k, exact) := roundQuanta mode neg r24 m e 0
    let v : Int := if neg then -(k : Int) else k
    if v < lo ∨ hi < v then
      if ovf = 3 then none else some (wrapTo w (if v < lo then lo else hi), flagSAT ||| flagNV ||| flagNX)
    else some (wrapTo w v, flagIf (!exact) flagNX)

/-- round_to of R90: an exact value in a destination format. -/
def ElemFmt.round (f : ElemFmt) (mode ovf r24 : Nat) (x : FVal) : Rounded :=
  match f with
  | .int w true => roundInt (-(2 ^ (w - 1) : Int)) (2 ^ (w - 1) - 1) w mode ovf r24 x
  | .int w false => roundInt 0 (2 ^ w - 1) w mode ovf r24 x
  | .flt f => f.round mode ovf r24 x

/-- The one rounding of an arithmetic result: nearest, ties to even, overflow to infinity (R83, R89). `fl` holds the flags of
the exact step. -/
def FFmt.rne (f : FFmt) (r : FVal × Flags) : Nat × Flags :=
  match r.1 with
  | .nan => (f.canonNan, r.2 ||| flagNV)
  | x =>
    match f.round 0 1 0 x with
    | some y => (y.1, r.2 ||| y.2)
    | none => (f.canonNan, r.2)

/-! Exact arithmetic, with NaN and NV where IEEE 754-2019 makes an operation invalid. -/

def FVal.neg : FVal → FVal
  | .nan => .nan
  | .inf s => .inf (!s)
  | .fin s m e => .fin (!s) m e

/-- The signed integer of a finite value in quanta of 2^q, q at most its exponent. -/
def signedQuanta (neg : Bool) (m : Nat) (e q : Int) : Int :=
  let v : Int := (m * 2 ^ (e - q).toNat : Nat)
  if neg then -v else v

/-- A signed count of quanta as a value; zero takes the sign given. -/
def ofQuanta (v : Int) (q : Int) (zneg : Bool) : FVal :=
  if v = 0 then .fin zneg 0 0 else .fin (decide (v < 0)) v.natAbs q

/-- Exact sum: −0 only when both are −0 (R98). -/
def addV (a b : FVal) : FVal × Flags :=
  match a, b with
  | .nan, _ => (.nan, flagNV)
  | _, .nan => (.nan, flagNV)
  | .inf s, .inf t => if s = t then (.inf s, 0) else (.nan, flagNV)
  | .inf s, _ => (.inf s, 0)
  | _, .inf t => (.inf t, 0)
  | .fin s m e, .fin t n d =>
    let q := min e d
    (ofQuanta (signedQuanta s m e q + signedQuanta t n d q) q (s && t && m == 0 && n == 0), 0)

/-- Exact product. -/
def mulV (a b : FVal) : FVal × Flags :=
  match a, b with
  | .nan, _ => (.nan, flagNV)
  | _, .nan => (.nan, flagNV)
  | .inf s, .inf t => (.inf (s != t), 0)
  | .inf s, .fin t n _ => if n = 0 then (.nan, flagNV) else (.inf (s != t), 0)
  | .fin s m _, .inf t => if m = 0 then (.nan, flagNV) else (.inf (s != t), 0)
  | .fin s m e, .fin t n d => (.fin (s != t) (m * n) (e + d), 0)

/-- Exact product plus addend, for the fused forms: an invalid product decides (R193). -/
def fmaV (a b c : FVal) (negate : Bool) : FVal × Flags :=
  match mulV a b with
  | (.nan, f) => (.nan, f)
  | (p, f) => let r := addV (if negate then p.neg else p) c; (r.1, f ||| r.2)

/-- A positive quotient m ÷ n with at least 64 bits and a sticky bit below them. -/
def ratio (m n : Nat) : Nat × Int :=
  let sh := 64 + Nat.log2 n
  let x := m * 2 ^ sh
  (2 * (x / n) + (if x % n = 0 then 0 else 1), -(sh : Int) - 1)

/-- Quotient, exact or with a sticky bit that makes one rounding correct. -/
def divV (a b : FVal) : FVal × Flags :=
  match a, b with
  | .nan, _ => (.nan, flagNV)
  | _, .nan => (.nan, flagNV)
  | .inf _, .inf _ => (.nan, flagNV)
  | .inf s, .fin t _ _ => (.inf (s != t), 0)
  | .fin s _ _, .inf t => (.fin (s != t) 0 0, 0)
  | .fin s m e, .fin t n d =>
    if n = 0 then (if m = 0 then (.nan, flagNV) else (.inf (s != t), flagDZ))
    else if m = 0 then (.fin (s != t) 0 0, 0)
    else let r := ratio m n; (.fin (s != t) r.1 (r.2 + e - d), 0)

/-- ⌊√n⌋ for n below 4^b, bit by bit from bit b − 1 down. -/
def isqrt (n : Nat) : Nat → Nat → Nat
  | 0, r => r
  | b + 1, r => isqrt n b (if (r + 2 ^ b) * (r + 2 ^ b) ≤ n then r + 2 ^ b else r)

/-- √(m × 2^e) with at least 64 bits and a sticky bit. -/
def root (m : Nat) (e : Int) : Nat × Int :=
  let odd := e % 2 ≠ 0
  let m := if odd then 2 * m else m
  let e := if odd then e - 1 else e
  let x := m * 4 ^ 64
  let r := isqrt x (66 + Nat.log2 m / 2) 0
  (2 * r + (if r * r = x then 0 else 1), e / 2 - 65)

/-- Square root (R201). -/
def sqrtV (a : FVal) : FVal × Flags :=
  match a with
  | .nan => (.nan, flagNV)
  | .inf s => if s then (.nan, flagNV) else (.inf false, 0)
  | .fin s m e => if m = 0 then (.fin s 0 0, 0) else if s then (.nan, flagNV) else let r := root m e; (.fin false r.1 r.2, 0)

/-! Operations on bits (R193, R194, R196). -/

def FFmt.isNan (f : FFmt) (b : Nat) : Bool := f.decode b == .nan

def fAdd (f : FFmt) (a b : Nat) : Nat × Flags := f.rne (addV (f.decode a) (f.decode b))
def fSub (f : FFmt) (a b : Nat) : Nat × Flags := f.rne (addV (f.decode a) (f.decode b).neg)
def fMul (f : FFmt) (a b : Nat) : Nat × Flags := f.rne (mulV (f.decode a) (f.decode b))
def fDiv (f : FFmt) (a b : Nat) : Nat × Flags := f.rne (divV (f.decode a) (f.decode b))
def fSqrt (f : FFmt) (a : Nat) : Nat × Flags := f.rne (sqrtV (f.decode a))
/-- (±)(a × b) + c with one rounding. -/
def fFma (f : FFmt) (negate : Bool) (a b c : Nat) : Nat × Flags := f.rne (fmaV (f.decode a) (f.decode b) (f.decode c) negate)
/-- vfwmacc: an exact product of two narrow values added to an f32 accumulator, rounded once. -/
def fWmacc (f : FFmt) (a b c : Nat) : Nat × Flags := fmtF32.rne (fmaV (f.decode a) (f.decode b) (fmtF32.decode c) false)

def fAbs (f : FFmt) (a : Nat) : Nat × Flags := if f.isNan a then (f.canonNan, flagNV) else (a % f.sign, 0)
def fNeg (f : FFmt) (a : Nat) : Nat × Flags :=
  if f.isNan a then (f.canonNan, flagNV) else ((a + f.sign) % (2 * f.sign), 0)

/-- A value of a plain format as an arithmetic word passes it on: a float NaN is canonical, and sets NV (R83, R195). -/
def passOn (f : BitVec 4) (v : Nat) : Nat × Flags :=
  let b := v % 2 ^ plainWidth f
  if fmtFloat f && (floatFmt f).isNan b then ((floatFmt f).canonNan, flagNV) else (b, 0)

/-- The place of a value that is not NaN in the numeric order, −0 just below +0 (R194). -/
def FFmt.key (f : FFmt) (b : Nat) : Int :=
  if b / f.sign % 2 = 1 then -((b % f.sign : Nat) : Int) - 1 else ((b % f.sign : Nat) : Int)

/-- The place in the order where −0 = +0 (R196). -/
def FFmt.cmpKey (f : FFmt) (b : Nat) : Int :=
  if b / f.sign % 2 = 1 then -((b % f.sign : Nat) : Int) else ((b % f.sign : Nat) : Int)

/-- vfmin and vfmax (R194). -/
def fPick (f : FFmt) (larger : Bool) (a b : Nat) : Nat × Flags :=
  match f.isNan a, f.isNan b with
  | true, true => (f.canonNan, flagNV)
  | true, false => (b, flagNV)
  | false, true => (a, flagNV)
  | false, false =>
    if larger then (if f.key a < f.key b then b else a, 0) else (if f.key b < f.key a then b else a, 0)

/-! Exact sums (R98, R224). -/

/-- A sum in progress: whether it has met a NaN or an invalid term, the infinities met, whether every term so far was −0, and
the finite part as quanta. -/
structure ExactSum where
  nan  : Bool
  pinf : Bool
  ninf : Bool
  negz : Bool
  m    : Int
  q    : Int
  deriving DecidableEq, Repr

def ExactSum.empty : ExactSum := { nan := false, pinf := false, ninf := false, negz := true, m := 0, q := 0 }

/-- One more term. -/
def ExactSum.add (a : ExactSum) (x : FVal) : ExactSum :=
  match x with
  | .nan => { a with nan := true, negz := false }
  | .inf true => { a with ninf := true, negz := false }
  | .inf false => { a with pinf := true, negz := false }
  | .fin s m e =>
    let z := a.negz && s && m == 0
    if m = 0 then { a with negz := z }
    else if a.m = 0 then { a with negz := z, m := if s then -(m : Int) else m, q := e }
    else
      let q := min a.q e
      { a with negz := z, m := a.m * 2 ^ (a.q - q).toNat + signedQuanta s m e q, q := q }

/-- The value of the sum: −0 only when there was a term and every term was −0. -/
def ExactSum.value (a : ExactSum) (any : Bool) : FVal × Flags :=
  if a.nan || (a.pinf && a.ninf) then (.nan, flagNV)
  else if a.pinf then (.inf false, 0)
  else if a.ninf then (.inf true, 0)
  else (ofQuanta a.m a.q (any && a.negz), 0)

end Sys2Proof.Machine
end

