-- ==== Sys2Proof/Machine/Queue.lean ====
section
/-!
DEFINITION. The queues and the QOP words (R155 to R157), and the filling of an entry by a load's data.
-/

namespace Sys2Proof.Machine

/-- Queue n, oldest entry first. -/
def State.rq (s : State) (n : Nat) : List QEntry := nth s.c.q n []

/-- Queue n := es. -/
def State.wq (s : State) (n : Nat) (es : List QEntry) : State := { s with c := { s.c with q := upd s.c.q n es } }

/-- Queue n takes one more entry, which is a write of it (R112, R155). -/
def State.push (s : State) (n : Nat) (e : QEntry) : State := (s.wq n (s.rq n ++ [e])).mark (.q n)

/-- A queue holds 64 counted entries (R155). -/
def queueFull (s : State) (n : Nat) : Bool := decide (64 ≤ (s.rq n).length)

/-- x[n] is the destination of a load whose data has not returned (R157): the data of a load may be late (log entry 5). Any other word that
reads the register waits for it, which takes time and no more. -/
def dataLate (s : State) (n : BitVec 5) : Bool := n != 0#5 && s.c.loads.contains (s.xName n) && Config.loadLate s.tick

/-- QW (R156, R157): appends x[xa], as an entry that is not filled while the data of its load is on its way. It waits while qn holds 64
entries with the slowest lane's reason, which is 1 since every lane has nothing left to do (R29; log entry 84). -/
def execQw (a : BitVec 5) (n : BitVec 3) (s : State) : Out :=
  apWord s fun s =>
    if queueFull s n.toNat then .wait 1 s
    else .ok () (complete (s.push n.toNat { val := s.rx a, filled := !dataLate s a }))

/-- The oldest entry of a queue, when it has been written (R155, R157). -/
def frontEntry (s : State) (n : Nat) : Option (Word × State) :=
  match s.rq n with
  | [] => none
  | e :: r => if e.filled then some (e.val, s.wq n r) else none

/-- QR (R156): removes the oldest entry into x[xd]; it waits with reason 12 until the entry has been written (R157). -/
def execQr (d : BitVec 5) (n : BitVec 3) (s : State) : Out :=
  apWord s fun s =>
    match frontEntry s n.toNat with
    | none => .wait 12 s
    | some (v, s1) => .ok () (complete (s1.wx d v))

/-- DQBR counts a QBR or QBRZ word that reported stall reason 13 for at least one cycle, saturating (R339). -/
def countStalled (s : State) : State :=
  if s.c.wait = 13 || Config.qbrStalled s.tick then
    let v := nth s.c.dbg 14 0
    { s with c := { s.c with dbg := upd s.c.dbg 14 (if v = -1 then v else v + 1) } }
  else s

/-- A branch on a queue entry (R156): it waits with reason 13, and removes the entry whether or not it is taken. -/
def queueBranch (n : Nat) (t : BitVec 16) (taken : Word → Bool) (s : State) : Out :=
  apWord s fun s =>
    match frontEntry s n with
    | none => .wait 13 s
    | some (v, s1) =>
      let s2 := countStalled s1
      .ok () (if taken v then jumpTo (branchTarget s t) s2 else complete s2)

/-- QBR (R156): taken when the entry is not zero. -/
def execQbr (n : BitVec 5) (t : BitVec 16) (s : State) : Out := queueBranch n.toNat t (fun v => v != 0) s

/-- QBRZ (R156): taken when the entry is zero. -/
def execQbrz (n : BitVec 5) (t : BitVec 16) (s : State) : Out := queueBranch n.toNat t (fun v => v == 0) s

/-- The first entry that is not filled takes a value. -/
def fillFirst (v : Word) : List QEntry → List QEntry
  | [] => []
  | e :: r => if e.filled then e :: fillFirst v r else { val := v, filled := true } :: r

/-- The value that the first entry that is not filled waits for. -/
def awaited (l : List QEntry) : Option Word := (l.find? fun e => !e.filled).map (·.val)

/-- QUEUE_ENTRY_FILL (R157): a load's data fills the oldest entry that was appended before the data arrived. -/
def execQueueEntryFill (n : BitVec 3) (val : Word) (s : State) : Out :=
  .next (s.wq n.toNat (fillFirst val (s.rq n.toNat)))

end Sys2Proof.Machine
end

