-- ==== Sys2Proof/Machine/Operands.lean ====
section
/-!
DEFINITION. What every EP-class word shares (R179 to R189): its operands and their registers, the strip, the lent predicate,
the checks of R67 steps 6 to 9, the waits, the reads through the bypass, the element-wise effect, the tags of R186, and the
end of the word.
-/

namespace Sys2Proof.Machine

/-! Operands and registers (R183). -/

/-- The convoy class of a word (R22, R66). -/
inductive EpClass where
  | control | arith | vmem | chamber | special | matrix | lazy
  deriving DecidableEq, Repr

/-- A vector operand: the register its field names, and its width. -/
structure Opnd where
  reg   : Nat
  width : Nat
  deriving DecidableEq, Repr

/-- What the issue of an EP-class word needs to know of it: its convoy class, T, its destination vector register, the
vector operands it reads, whether no PFX may precede it (R206, R250), and whether a field is reserved under the VFMT that
travels with it (R183, R199, R206). -/
structure EpWord where
  cls   : EpClass
  t     : Bool := false
  dst   : Option Opnd := none
  reads : List Opnd := []
  noPfx : Bool := false
  bad   : Bool := false
  deriving DecidableEq, Repr

/-- VLMAX of the VFMT in force (R182). -/
def vlmaxNow (s : State) : Nat := vlmaxOf s.c.sys.vfmt

/-- Registers that an operand of width `w` takes (R183). -/
def regCount (vlmax w : Nat) : Nat := max 1 (vlmax * w / 4096)

/-- The registers of an operand. -/
def Opnd.regs (vlmax : Nat) (o : Opnd) : List Nat := (List.range (regCount vlmax o.width)).map (o.reg + ·)

/-- A register field is a multiple of its operand's register count (R183). -/
def Opnd.aligned (vlmax : Nat) (o : Opnd) : Bool := o.reg % regCount vlmax o.width == 0

/-- Two operands are the same registers or share none (R183). -/
def Opnd.apart (vlmax : Nat) (a b : Opnd) : Bool :=
  let n := regCount vlmax a.width
  let m := regCount vlmax b.width
  (a.reg == b.reg && n == m) || decide (a.reg + n ≤ b.reg) || decide (b.reg + m ≤ a.reg)

/-- Every two operands of a list are apart. -/
def allApart (vlmax : Nat) : List Opnd → Bool
  | [] => true
  | o :: r => r.all (o.apart vlmax) && allApart vlmax r

/-- Destination and sources. -/
def EpWord.operands (w : EpWord) : List Opnd := (match w.dst with | some d => [d] | none => []) ++ w.reads

/-- The reserved values of R183. -/
def operandsOk (vlmax : Nat) (w : EpWord) : Bool :=
  w.operands.all (Opnd.aligned vlmax) && allApart vlmax w.operands

/-! The lent predicate (R69, R70). -/

/-- Predicate register n: p0 reads as all ones (R187). -/
def readP (s : State) (n : Nat) : PReg := if n = 0 then BitVec.allOnes 1024 else nth s.c.p n 0

/-- Write a predicate register: a write to p0 is discarded (R187). -/
def writeP (s : State) (n : Nat) (v : PReg) : State :=
  if n = 0 then s else { s with c := { s.c with p := upd s.c.p n v } }.mark (.p n)

/-- The pending payload: TPFX (R72). -/
structure Payload where
  p   : Nat
  neg : Bool
  cpe : Bool
  cpv : Nat
  deriving DecidableEq, Repr

def payload (s : State) : Option Payload :=
  if s.c.pfxLive then
    let t := s.c.sys.tpfx
    some { p := field t 21 4, neg := bit t 20, cpe := bit t 19, cpv := field t 14 5 }
  else none

/-- The rules of R70, R183 and R206 for a successor: cpv is a multiple of the group's g and of its operand's register count. -/
def payloadOk (s : State) (w : EpWord) : Bool :=
  match payload s with
  | none => true
  | some y =>
    !w.noPfx && decide (y.p < 8) &&
      (if y.cpe then
        (match w.dst with
          | none => false
          | some d => y.cpv != d.reg && y.cpv % regCount (vlmaxNow s) d.width == 0 && y.cpv % 2 ^ field s.c.sys.vfmt 8 2 == 0)
      else y.cpv == 0)

/-- The predicate in force: all ones without a payload. -/
def lentMask (s : State) : PReg :=
  match payload s with
  | none => BitVec.allOnes 1024
  | some y => if y.neg then ~~~ (readP s y.p) else readP s y.p

/-- The word runs under a predicate other than p0 un-negated (R69). -/
def lendsOther (s : State) : Bool :=
  match payload s with
  | none => false
  | some y => y.p != 0 || y.neg

/-! Convoys (R20, R22). -/

/-- The convoy with one more word of a class. -/
def Convoy.add (c : Convoy) (k : EpClass) : Convoy :=
  let d := { c with total := c.total + 1 }
  match k with
  | .control => d
  | .arith => { d with arith := d.arith + 1 }
  | .vmem => { d with vmem := d.vmem + 1 }
  | .chamber => { d with chamber := d.chamber + 1 }
  | .special => { d with special := d.special + 1 }
  | .matrix => { d with matrix := d.matrix + 1 }
  | .lazy => { d with lazy := d.lazy + 1 }

/-- The convoy that the word being issued belongs to, with the word in it: S = 1, or no convoy open, opens one (R20). -/
def convoyWith (s : State) (k : EpClass) : Convoy :=
  let base := if s.ir.getLsbD 31 || !s.c.convoy.opened then { Convoy.fresh with opened := true } else s.c.convoy
  base.add k

/-- The lowest code of a count that a convoy exceeds (R22, R68). -/
def convoyExcess (c : Convoy) : Option Nat :=
  if 8 < c.total then some 0
  else if 2 < c.arith then some 1
  else if 1 < c.vmem then some 2
  else if 1 < c.chamber then some 3
  else if 1 < c.special then some 4
  else if 1 < c.matrix then some 5
  else if 1 < c.lazy then some 6
  else none

/-! Transient results (R73, R74). -/

/-- The window whose result is the newest write of a register. -/
def windowOf (s : State) (n : Nat) : Option Window := s.c.windows.find? fun w => w.regs.any fun r => r.1 == n

/-- A register as a word reads it: from the bypass, or from the file. -/
def readV (s : State) (n : Nat) : VReg × Tag :=
  match (s.c.windows.findSome? fun w => w.regs.find? fun r => r.1 == n) with
  | some r => r.2
  | none => (nth s.c.v n 0, nth s.c.vtag n .general)

/-- Registers that a word reads. -/
def EpWord.readRegs (vlmax : Nat) (w : EpWord) : List Nat := w.reads.flatMap (Opnd.regs vlmax)

/-- Registers that a word writes: its destination's, and the copy's (R69). -/
def writeRegs (s : State) (w : EpWord) : List Nat :=
  match w.dst with
  | none => []
  | some d =>
    d.regs (vlmaxNow s) ++
      (match payload s with
        | some y => if y.cpe then ({ d with reg := y.cpv } : Opnd).regs (vlmaxNow s) else []
        | none => [])

/-- A window has a register among some. -/
def Window.touches (w : Window) (ns : List Nat) : Bool := w.regs.any fun r => ns.contains r.1

/-- The oldest transient whose rules the word breaks (R74): a read after its window has closed; or its window closing, or
its register written, with no consumption. Where it breaks them for several, a read after closing comes first, and the oldest of each kind
is the one named: DESIGN CHOICE (log entry 100: the manual names none). -/
def transientMiss (s : State) (w : EpWord) : Option Word :=
  let rd := w.readRegs (vlmaxNow s)
  let wr := writeRegs s w
  match s.c.windows.find? fun v => decide (3 ≤ v.results) && v.touches rd with
  | some v => some v.addr
  | none =>
    (s.c.windows.find? fun v =>
      !v.consumed && !v.touches rd && ((w.dst.isSome && decide (2 ≤ v.results)) || v.touches wr)).map (·.addr)

/-! Holds (R188, R302). -/

/-- A register of the list has a hold count that is not zero. -/
def anyHeld (s : State) (ns : List Nat) : Bool := ns.any fun n => nth s.c.hold n 0 != 0

/-- A read of registers that were held takes the post edges of the releases since their last read (R45). -/
def joinPosts (ns : List Nat) (s : State) : State :=
  let sets := ns.flatMap fun n => nth s.c.postR n []
  if sets.isEmpty then s
  else
    let s1 := hJoin s sets
    { s1 with c := { s1.c with postR := ns.foldl (fun v n => upd v n []) s1.c.postR } }

/-! The strip (R16, R180, R216). -/

/-- What the elements of a word see. `first` is ESTART where the word replays (R109). -/
structure EpEnv where
  vlmax   : Nat
  vl      : Nat
  rot     : Nat
  sbase   : Word
  mask    : PReg
  partial_ : Bool
  first   : Nat
  deriving DecidableEq, Repr

/-- VL of the strip (R16, R180), trimmed while FFS.TACT is 1 (R216). -/
def vlNow (s : State) : Nat :=
  let v := s.c.vloop
  let full := if v.active then min v.vlmax (v.n.toNat - v.strip.toNat * v.vlmax) else vlmaxNow s
  if bit s.c.sys.ffs 47 then min (field s.c.sys.ffs 32 11) full else full

/-- The rotation of the strip: 0 outside a vector loop (R16, R17). -/
def rotNow (s : State) : Nat := if s.c.vloop.active then rotOf s.c.vloop.strip else 0

/-- The word at PC is the one a TRET replays (R109). -/
def replaying (s : State) : Bool := s.c.replay == some s.c.pc

/-- The environment of the word at PC. -/
def epEnv (s : State) : EpEnv :=
  { vlmax := vlmaxNow s, vl := vlNow s, rot := rotNow s, sbase := sbaseOf s.c.vloop, mask := lentMask s
    partial_ := decide (vlNow s < vlmaxNow s) || lendsOther s
    first := if replaying s then s.c.sys.estart.toNat else 0 }

/-- Element e is below VL and not masked. -/
def EpEnv.live (v : EpEnv) (e : Nat) : Bool := decide (e < v.vl) && v.mask.getLsbD e

/-- The elements below VL that are not masked, in order. -/
def EpEnv.lives (v : EpEnv) : List Nat := (List.range v.vl).filter fun e => v.mask.getLsbD e

/-- The elements that the word acts on now: those at or above ESTART (R109). -/
def EpEnv.todo (v : EpEnv) : List Nat := v.lives.filter fun e => decide (v.first ≤ e)

/-! Elements of a register group (R17, R183). -/

/-- The images of an operand's registers. -/
def readOpnd (s : State) (o : Opnd) : List VReg := (o.regs (vlmaxNow s)).map fun n => (readV s n).1

/-- Element e of an operand's images at width w. An element beyond the operand's registers, which only a plan of vpermp can name, reads 0:
DESIGN CHOICE (log entry 72). -/
def elemAt (imgs : List VReg) (w rot e : Nat) : Nat :=
  ((imgs.getD (e / (4096 / w)) 0).extractLsb' (elemBit w rot (e % (4096 / w))) w).toNat

/-- A register image with `w` bits at a bit position replaced. -/
def setBits (img : VReg) (w pos v : Nat) : VReg :=
  (img &&& ~~~ (BitVec.ofNat 4096 ((2 ^ w - 1) * 2 ^ pos))) ||| BitVec.ofNat 4096 (v % 2 ^ w * 2 ^ pos)

/-- The images of an operand with element e replaced. -/
def setElem (imgs : List VReg) (w rot e v : Nat) : List VReg :=
  imgs.modify (e / (4096 / w)) fun img => setBits img w (elemBit w rot (e % (4096 / w))) v

/-- The images with the elements of a list replaced by `f`. -/
def setElems (imgs : List VReg) (w rot : Nat) (f : Nat → Nat) (es : List Nat) : List VReg :=
  es.foldl (fun acc e => setElem acc w rot e (f e)) imgs

/-! Tags (R186). -/

/-- The tags of an operand's registers. -/
def readTags (s : State) (o : Opnd) : List Tag := (o.regs (vlmaxNow s)).map fun n => (readV s n).2

/-- The tags of the registers that hold the elements of register `r` of a destination of width `wd`, in an operand of width
`w`. -/
def tagsUnder (tags : List Tag) (w wd r : Nat) : List Tag :=
  if w ≤ wd then (tags.drop (r * w / wd)).take 1 else (tags.drop (r * (w / wd))).take (w / wd)

/-- Every tag is uniform. -/
def allUniform (ts : List Tag) : Bool := ts.all (· == .uniform)

/-- The end of a word's issue: what the destination's registers are to hold, register by register. -/
abbrev Result := List (VReg × Tag)

/-- The tag of every register is general where the word is partial (R186, first row). -/
def finalTags (v : EpEnv) (imgs : List VReg) (tag : Nat → Tag) : Result :=
  imgs.zipIdx.map fun i => (i.1, if v.partial_ then .general else tag i.2)

/-! The end of an EP-class word. -/

/-- Write a vector register with its tag. -/
def writeV (n : Nat) (img : VReg) (t : Tag) (s : State) : State :=
  { s with c := { s.c with v := upd s.c.v n img, vtag := upd s.c.vtag n t } }.mark (.v n)

/-- Write a group from a register up. -/
def writeGroup (reg : Nat) : Result → State → State
  | [], s => s
  | (img, t) :: r, s => writeGroup (reg + 1) r (writeV reg img t s)

/-- The windows after the word (R73, R74): reads consume, a result ages every window, a write takes its registers out, and T = 1
opens a new one. -/
def windowsAfter (s : State) (w : EpWord) (res : Result) : List Window :=
  let rd := w.readRegs (vlmaxNow s)
  let wr := writeRegs s w
  let aged := s.c.windows.map fun v =>
    { v with
      consumed := v.consumed || v.touches rd
      results := if w.dst.isSome then v.results + 1 else v.results
      regs := v.regs.filter fun r => !wr.contains r.1 }
  let kept := aged.filter fun v => !v.regs.isEmpty
  match w.dst with
  | none => kept
  | some d =>
    if w.t then
      kept ++ [{ regs := res.zipIdx.map fun i => (d.reg + i.2, i.1.1, i.1.2), addr := s.c.pc, results := 0, consumed := false }]
    else kept

/-- The results of a word with T = 1 lie in the bypass, and are noted as written at this level (R112). -/
def noteTransient (reg : Nat) (res : Result) (s : State) : State :=
  res.zipIdx.foldl (fun s i => s.mark (.win s.c.levels.length (reg + i.2))) s

/-- The results reach the file or the bypass, and the PFX copy the file (R69, R73). -/
def writeResults (w : EpWord) (res : Result) (s : State) : State :=
  match w.dst with
  | none => s
  | some d =>
    let s1 := if w.t then noteTransient d.reg res s else writeGroup d.reg res s
    match payload s with
    | some y => if y.cpe then writeGroup y.cpv res s1 else s1
    | none => s1

/-- The payload is used up: PFXP := 0 (R69). -/
def clearPayload (s : State) : State :=
  if s.c.pfxLive then
    { s with c := { s.c with pfxLive := false, sys := { s.c.sys with status := setBit s.c.sys.status 2 false } } }
  else s

/-- An EP-class word's results, convoy, windows, payload, post edges and ESTART, without the move of PC (R20, R45, R69, R73, R109). -/
def epSettle (w : EpWord) (res : Result) (s : State) : State :=
  let convoy := convoyWith s w.cls
  let windows := windowsAfter s w res
  let s1 := writeResults w res s
  let s2 := { s1 with c := { s1.c with convoy := convoy, windows := windows, bypass := [] } }
  let s3 := if replaying s then { s2 with c := { s2.c with replay := none, sys := { s2.c.sys with estart := 0 } } } else s2
  clearPayload (joinPosts (w.readRegs (vlmaxNow s)) s3)

/-- An EP-class word completes with its results. -/
def epDone (w : EpWord) (res : Result) (s : State) : State := complete (epSettle w res s)

/-! The beginning of an EP-class word. -/

/-- R67 steps 5 (with the VFMT that travels with the word), 6, 8 and 9, and the wait for holds. -/
def epChecks (w : EpWord) (s : State) : Res Unit :=
  if w.bad || !operandsOk (vlmaxNow s) w || !payloadOk s w then .trap (s.illegal false) s
  else match convoyExcess (convoyWith s w.cls) with
    | some code => .trap (s.trapInfo false 0x02 (BitVec.ofNat 64 (s.ir.toNat + code * 2 ^ 32))) s
    | none =>
      match transientMiss s w with
      | some addr => .trap (s.trapInfo false 0x03 addr) s
      | none =>
        if anyHeld s (w.readRegs (vlmaxNow s) ++ writeRegs s w) then .wait 11 s else .ok () s

/-- A word that waits for a hold shows the highest reason that holds (R29): that of its own effect where it is higher. -/
def heldReason (n : Nat) (r : Res Unit) : Nat := match r with | .wait m _ => max n m | _ => n

/-- An EP-class word: its checks, and then its effect. -/
def epWord (w : EpWord) (s : State) (k : State → Res Unit) : Out :=
  match epChecks w s with
  | .ok _ s1 => (k s1).out
  | .trap t s1 => .next (takeTrap t s1)
  | .wait n s1 => (Res.wait (α := Unit) (heldReason n (k s1)) s1).out

/-- An EP-class word with further checks right after R67's, which come before every wait of the word (R245). -/
def epChecked (w : EpWord) (more : State → Option TrapInfo) (s : State) (k : State → Res Unit) : Out :=
  match epChecks w s, more s with
  | .wait _ s1, some t => .next (takeTrap t s1)
  | .ok _ s1, some t => .next (takeTrap t s1)
  | _, _ => epWord w s k

/-! Element-wise words (R188). -/

/-- The images that a destination's results start from: the file's, or what a replay of a word with T = 1 finds in the bypass (R73, R109). So
elements that the word does not compute hold the file's value also where the register's newest value is a transient: DESIGN CHOICE (log
entry 67). -/
def baseImages (s : State) (w : EpWord) (d : Opnd) : List VReg :=
  if w.t && replaying s && s.c.bypass.length == regCount (vlmaxNow s) d.width then s.c.bypass
  else (d.regs (vlmaxNow s)).map fun n => nth s.c.v n 0

/-- The results of an element function over the elements to do, with the union of their flags. -/
def mapElems (v : EpEnv) (d : Opnd) (base : List VReg) (f : Nat → Nat × Flags) : List VReg × Flags :=
  v.todo.foldl (fun acc e => let r := f e; (setElem acc.1 d.width v.rot e r.1, acc.2 ||| r.2)) (base, 0)

/-- An element-wise word: destination, its element function, and the tag of each register (R186, R188). -/
def elementwise (w : EpWord) (d : Opnd) (f : Nat → Nat × Flags) (tag : Nat → Tag) (s : State) : State :=
  let v := epEnv s
  let r := mapElems v d (baseImages s w d) f
  orFlags r.2 (epDone w (finalTags v r.1 tag) s)

/-- How the result's tag is decided where no earlier row of R186 applies: `plain` is uniform when every vector operand is, `affine`
forms name the operation. -/
inductive TagRule where
  | plain
  | general
  | uniform
  | copy
  | iota
  | add (sub : Bool)
  | mul
  | neg
  | sll
  | addS (s : Word) (va vs : Int)
  | mulS (s : Word)
  | sllS (n : Nat)
  deriving DecidableEq, Repr

/-- The affine tag a + k × b of two operand tags at width w; a uniform operand stands for its element's value (R186). The width at which a
uniform operand was written is not kept and counts as w, and an affine operand of another width gives general: DESIGN CHOICE (log entry 71). -/
def affineSum (w : Nat) (a : Tag) (a0 : Nat) (b : Tag) (b0 : Nat) (k : Int) : Tag :=
  let m := wordOf k
  match a, b with
  | .affine p q wa, .affine r t wb => if wa = w && wb = w then .affine (p + m * r) (q + m * t) w else .general
  | .affine p q wa, .uniform => if wa = w then .affine (p + m * BitVec.ofNat 64 b0) q w else .general
  | .uniform, .affine r t wb => if wb = w then .affine (BitVec.ofNat 64 a0 + m * r) (m * t) w else .general
  | _, _ => .general

/-- The affine tag of an affine operand multiplied by a uniform one (R186), with the choices of `affineSum` (log entry 71). -/
def affineMul (w : Nat) (a : Tag) (a0 : Nat) (b : Tag) (b0 : Nat) : Tag :=
  match a, b with
  | .affine p q wa, .uniform => if wa = w then .affine (p * BitVec.ofNat 64 b0) (q * BitVec.ofNat 64 b0) w else .general
  | .uniform, .affine p q wb => if wb = w then .affine (p * BitVec.ofNat 64 a0) (q * BitVec.ofNat 64 a0) w else .general
  | _, _ => .general

/-- The tag of register `r` of a destination of width `wd` (R186): `tags` are the operands' tags with their widths, and `zero k` is
the value of index 0 of operand k's register `r`. In every affine row an operand whose tag has another width gives general: DESIGN CHOICE
(log entry 71). -/
def resultTag (rule : TagRule) (v : EpEnv) (wd : Nat) (tags : List (List Tag × Nat)) (zero : Nat → Nat) (r : Nat) : Tag :=
  let under := tags.map fun t => tagsUnder t.1 t.2 wd r
  let all := under.all allUniform
  let t (k : Nat) : Tag := ((under.getD k []).head?).getD .general
  let uni (x : Tag) : Tag := if all then .uniform else x
  match rule with
  | .plain => uni .general
  | .general => .general
  | .uniform => .uniform
  | .copy => t 0
  | .iota => .affine (v.sbase + BitVec.ofNat 64 (r * (4096 / wd))) 1 wd
  | .add sub => uni (affineSum wd (t 0) (zero 0) (t 1) (zero 1) (if sub then -1 else 1))
  | .mul => uni (affineMul wd (t 0) (zero 0) (t 1) (zero 1))
  | .neg => uni (match t 0 with | .affine p q w => if w = wd then .affine (-p) (-q) w else .general | _ => .general)
  | .sll =>
    uni (match t 0, t 1 with
      | .affine p q w, .uniform => if w = wd then .affine (p <<< (zero 1 % wd)) (q <<< (zero 1 % wd)) w else .general
      | _, _ => .general)
  | .addS x ka ks =>
    uni (match t 0 with
      | .affine p q w => if w = wd then .affine (wordOf ka * p + wordOf ks * x) (wordOf ka * q) w else .general
      | _ => .general)
  | .mulS x => uni (match t 0 with | .affine p q w => if w = wd then .affine (p * x) (q * x) w else .general | _ => .general)
  | .sllS n => uni (match t 0 with | .affine p q w => if w = wd then .affine (p <<< n) (q <<< n) w else .general | _ => .general)

/-- The operands of a word as its element function reads them: operand k's element e. -/
def sources (s : State) (v : EpEnv) (reads : List Opnd) : Nat → Nat → Nat :=
  let imgs := reads.map fun o => (readOpnd s o, o.width)
  fun k e => match imgs[k]? with
    | some o => elemAt o.1 o.2 v.rot e
    | none => 0

/-- The results of an element-wise word on its operands (R186, R188): destination, operands read, element function, tag rule. -/
def elementResult (w : EpWord) (d : Opnd) (f : EpEnv → (Nat → Nat → Nat) → Nat → Nat × Flags) (rule : TagRule)
    (s : State) : State :=
  let v := epEnv s
  let src := sources s v w.reads
  let tags := w.reads.map fun o => (readTags s o, o.width)
  elementwise w d (f v src) (fun r => resultTag rule v d.width tags (fun k => src k (r * (4096 / d.width))) r) s

/-- An element-wise word of a class: T, destination, operands, element function and tag rule. -/
def lanesWord (cls : EpClass) (t : BitVec 1) (d : Opnd) (reads : List Opnd)
    (f : EpEnv → (Nat → Nat → Nat) → Nat → Nat × Flags) (rule : TagRule) (s : State) : Out :=
  let w : EpWord := { cls := cls, t := t == 1#1, dst := some d, reads := reads }
  epWord w s fun s => .ok () (elementResult w d f rule s)

/-- A vector operand of a register field. -/
def vreg (n : BitVec 5) (w : Nat) : Opnd := { reg := n.toNat, width := w }

/-- The scalar operand of a VX word (R189): x[xb] at broadcast, or an entry of qn, which the word consumes; none while the entry
is not filled. -/
def scalarOf (s : State) (x : BitVec 5) (q : BitVec 1) : Option (Word × State) :=
  if q = 1#1 then frontEntry s x.toNat else some (s.rx x, s)

/-- A VX word: the element function and tag rule take the scalar; a lane waits with reason 12 for the queue entry (R189). -/
def scalarWord (t : BitVec 1) (d : Opnd) (reads : List Opnd) (x : BitVec 5) (q : BitVec 1)
    (f : Nat → (Nat → Nat → Nat) → Nat → Nat × Flags) (rule : Word → TagRule) (s : State) : Out :=
  let w : EpWord := { cls := .arith, t := t == 1#1, dst := some d, reads := reads }
  epWord w s fun s =>
    match scalarOf s x q with
    | none => .wait 12 s
    | some (v, s1) => .ok () (elementResult w d (fun _ => f v.toNat) (rule v) s1)

end Sys2Proof.Machine
end

