-- ==== Sys2Proof/Machine/Remote.lean ====
section
/-!
DEFINITION. The fabric port's commands (R291 to R306): RADD.v, RMCST, VPOST and HOLD, the delivery of their transfers and of posts, their
acknowledgements, completion blocks and reports, and the device steps that arrive for them.
-/

namespace Sys2Proof.Machine

/-! The image of a register (R294). -/

/-- Width w of VFMT (R182). -/
def vfmtWidth (s : State) : Nat :=
  let v := s.c.sys.vfmt
  if field v 12 4 = 0 then plainWidth (v.extractLsb' 0 4) else blockWidth (field v 12 4 - 1)

/-- Index j of a register at width w, which lies in lane j mod 64 at slot ⌊j ÷ 64⌋. -/
def indexAt (w : Nat) (r : VReg) (j : Nat) : Nat := (r.extractLsb' (elemBit w 0 j) w).toNat

/-- The image: index j at bits w·j + w − 1 : w·j. -/
def imageOf (w : Nat) (r : VReg) : VReg :=
  BitVec.ofNat 4096 ((List.range (4096 / w)).foldl (fun acc j => acc + indexAt w r j * 2 ^ (w * j)) 0)

/-- The element of the strip that index j holds. -/
def indexElem (rot j : Nat) : Nat := 64 * (j / 64) + (j + 64 - rot % 64) % 64

/-- Index j is sent: its element is below VL and not masked. -/
def indexSent (v : EpEnv) (j : Nat) : Bool := v.live (indexElem v.rot j)

/-! Commands of the port. -/

/-- A trap record of a command (R292). -/
def RemoteCmd.info (c : RemoteCmd) (cause : BitVec 8) (tval : Word) (telem : Nat) (taux0 : Word) : TrapInfo :=
  { cause := cause, tpc := c.pc, tval := tval, telem := telem, tidx := 0, taux0 := taux0, taux1 := 0, apw := true, strip := false
    estart := 0 }

/-- TELEM of a transfer: the member of an RMCST, the line of a RADD.v, 0 of a VPOST (R292). -/
def telemOf (k : RemoteKind) (ix : Nat) : Nat :=
  match k with
  | .radd => ix % 4
  | .rmcst => ix / 4
  | .vpost => 0

/-- TVAL of a transfer's refusal: the sender's virtual address, or the berth name of the descriptor (R292). -/
def tvalOf (x : Transfer) : Word :=
  match x.post with
  | some p => BitVec.ofNat 64 (field p.desc 0 32)
  | none => x.va

/-- A negative outcome that traps only with NT: noted, and reported when it is the first (R292). -/
def noteOther (c : RemoteCmd) (t : TrapInfo) : RemoteCmd :=
  if c.nt && !c.other then { c with other := true, reports := c.reports ++ [t] } else { c with other := true }

/-- Byte b of a line is sent. -/
def byteSent (radd : Bool) (l : LinePacket) (b : Nat) : Bool :=
  if radd then l.mask.getLsbD (b / (if l.f32 then 4 else 2)) else l.mask.getLsbD b

/-- The lowest virtual address that a transfer touches in sector i of its line (R47): its first byte there that is sent. -/
def touchedVa (radd : Bool) (x : Transfer) (i : Nat) : Word :=
  let sent (b : Nat) : Bool := match x.line with | some l => byteSent radd l (32 * i + b) | none => true
  x.va + BitVec.ofNat 64 (32 * i + ((List.range 32).find? sent).getD 0)

/-- The answer of one transfer is added to a command's outcomes (R291, R292, R296); a transfer that was moved has none yet (R288). -/
def noteOutcome (c : RemoteCmd) (x : Transfer) (r : AckResult) : RemoteCmd :=
  let e := telemOf c.kind x.ix
  let neg : RemoteCmd := if c.kind == .rmcst then { c with bitmap := c.bitmap ||| BitVec.twoPow 512 (x.ix / 4) } else c
  match r with
  | .ok => c
  | .moved => c
  | .nack reason =>
    noteOther { neg with nk := true, refused := c.refused + 1 } (c.info 0x11 (tvalOf x) e (BitVec.ofNat 64 (reason % 256 * 65536)))
  | .gone => noteOther { neg with bg := true } (c.info 0x12 (tvalOf x) e 0)
  | .hold =>
    let d := match x.post with | some p => p.desc | none => 0
    noteOther { neg with hu := true } (c.info 0x13 (tvalOf x) e (BitVec.ofNat 64 (field d 34 5 + field d 32 2 * 256)))
  | .race q =>
    { neg with rc := true, reports := c.reports ++ [raceTrap (c.info 0 0 e 0) (touchedVa (c.kind == .radd) x (q.sector % 4)) q] }

/-- Change the command with an identifier. -/
def mapCmd (id : Nat) (f : RemoteCmd → RemoteCmd) (s : State) : State :=
  { s with c := { s.c with remote := s.c.remote.map fun c => if c.id == id then f c else c } }

/-- Change one transfer of a command. -/
def mapXfer (id ix : Nat) (f : Transfer → Transfer) (s : State) : State :=
  mapCmd id (fun c => { c with xfers := c.xfers.map fun x => if x.ix == ix then f x else x }) s

/-- The commands of a context. -/
def cmdAt (s : State) (id : Nat) : Option RemoteCmd := s.c.remote.find? fun c => c.id == id

/-- A transfer is answered: its outcome counts once, and a forwarded post's hint replaces the cached name (R291, R306). -/
def ackCommand (id ix : Nat) (r : AckResult) (hint : Option (BitVec 32)) (ids : List Nat) (s : State) : State :=
  match cmdAt s id with
  | none => s
  | some c =>
    match c.xfers.find? fun x => x.ix == ix && !x.acked with
    | none => s
    | some x =>
      let s1 := mapXfer id ix (fun x => { x with acked := true }) s
      let s2 := mapCmd id (fun c => { noteOutcome c x r with ids := ids ++ c.ids }) s1
      match hint, x.post with
      | some h, some p =>
        let old := p.desc.extractLsb' 0 32
        { s2 with fab := { s2.fab with cache := (old, h) :: s2.fab.cache.filter fun q => q.1 != old } }
      | _, _ => s2

/-- The status bits of a command's outcomes (R291). -/
def statusBits (c : RemoteCmd) : Nat :=
  (if c.nk then 1 else 0) + (if c.bg then 2 else 0) + (if c.hu then 4 else 0) + (if c.rc then 8 else 0)

/-- One page's part of an access of the port: its address and length, and the address of the access it is of. -/
structure AccessPart where
  va  : Word
  len : Nat
  of  : Word
  deriving DecidableEq, Repr

/-- Translate and check the completion writes of a command together; TVAL of a failure is the address of the write (R291, R292). TELEM of the
report is 0: DESIGN CHOICE (log entry 107: R292 gives TELEM for a transfer alone). -/
def checkWrites (c : RemoteCmd) : List AccessPart → State → Res (List (Xlat × Nat))
  | [], s => .ok [] s
  | p :: r, s =>
    match engineCheck (.port c.id) s (c.prior ++ c.ids) p.va p.len .syncWrite c.user (c.info 0 0 0 0) with
    | .trap t s1 => .trap { t with tval := p.of } s1
    | .wait k s1 => .wait k s1
    | .ok x s1 => (checkWrites c r s1).bind fun l s2 => .ok ((x, p.len) :: l) s2

/-- The parts of an access of `n` bytes, at most 64: two where it crosses from page to page. -/
def accessParts (va : Word) (n : Nat) : List AccessPart :=
  let k := 65536 - va.toNat % 65536
  if n ≤ k then [⟨va, n, va⟩] else [⟨va, k, va⟩, ⟨va + BitVec.ofNat 64 k, n - k, va⟩]

/-- The completion writes: the bitmap of an RMCST, the status word, the counter word (R291, R296). -/
def completionWrites (c : RemoteCmd) : List AccessPart :=
  (if c.kind == .rmcst then accessParts (c.table + 0x40) 64 else []) ++ accessParts (c.block + 8) 8 ++ accessParts c.block 8

/-- A run of bytes is written over checked parts. -/
def putParts : List (Xlat × Nat) → List Byte → State → State
  | [], _, s => s
  | (x, n) :: r, bs, s => putParts r (bs.drop n) (busPut s x.loc (bs.take n))

/-- Make the checked completion writes, in order (R291); the data that came for them is used up. The counter is incremented also where a
transfer met a race, as R291 says of every outcome; R48, which counts no command with a RACE, is read as of the engines' own: DEDUCED (log
entry 99). -/
def makeWrites (c : RemoteCmd) (ws : List (Xlat × Nat)) (s : State) : State :=
  let r := ws.foldl (fun (acc : List Nat × State) w =>
    let x := engineRecord acc.2 .remote w.1 w.2 .syncWrite
    (x.1 ++ acc.1, x.2)) ([], dropTransfers (· == .port c.id) s)
  let status (x : Xlat) (s : State) : State :=
    busPut s x.loc (leBytes 8 ((leNat (busBytes s x.loc 8) ||| statusBits c) % 16))
  let count (x : Xlat) (s : State) : State := counterAdd s x.loc 1 [(Path.remote, c.prior ++ c.ids ++ r.1)]
  let s1 := putParts (ws.take (ws.length - 2)) (leBytes 64 c.bitmap.toNat) r.2
  match ws.drop (ws.length - 2) with
  | [t, n] => count n.1 (status t.1 s1)
  | _ => s1

/-- Every transfer is answered and the completion block is still to be written (R291). -/
def finishDue (c : RemoteCmd) : Bool := !c.written && c.wfail.isNone && c.xfers.all (·.acked)

/-- A command completes once every transfer is answered: its three writes, or the failure that a trap reports (R291). -/
def finishCommand (id : Nat) (s : State) : State :=
  match cmdAt s id with
  | none => s
  | some c =>
    if !finishDue c then s
    else match checkWrites c (completionWrites c) s with
      | .wait _ s1 => s1
      | .trap t s1 => mapCmd id (fun c => { c with wfail := some t }) (dropTransfers (· == .port id) s1)
      | .ok ws s1 =>
        let s2 := mapCmd id (fun c => { c with written := true }) (makeWrites c ws s1)
        { s2 with c := { s2.c with remote := s2.c.remote.filter fun c => !(c.written && c.reports.isEmpty) } }

/-! The context that a command belongs to. -/

/-- A context holds a command. -/
def ownsCmd (id : Nat) (c : Context) : Bool := c.remote.any fun r => r.id == id

/-- Apply a change as a context outside the slots sees it: its partition is the scratch image in memory (R117). -/
def asSaved (c : Context) (f : State → State) (s : State) : State × Context :=
  let r := asContext { c with scratch := readScratch s.mem c.scratchA (c.scr * 8192) } f s
  ({ r.1 with mem := writeScratch r.1.mem c.scratchA (c.scr * 8192) r.2.scratch }, r.2)

/-- Apply a change as the context that holds a command sees it, in whichever place the context lies. -/
def onOwner (id : Nat) (f : State → State) (s : State) : State :=
  if ownsCmd id s.c then f s
  else
    let inSaved (s : State) : State :=
      match s.saved.find? (ownsCmd id) with
      | some c =>
        let r := asSaved c f s
        { r.1 with saved := r.1.saved.map fun q => if q.save == c.save then r.2 else q }
      | none => s
    let inSpill (s : State) : State :=
      match s.spill with
      | some c => if ownsCmd id c then (let r := asContext c f s; { r.1 with spill := some r.2 }) else inSaved s
      | none => inSaved s
    match s.sh with
    | some c =>
      if ownsCmd id c then (let r := if s.shReady then asContext c f s else asSaved c f s; { r.1 with sh := some r.2 }) else inSpill s
    | none => inSpill s

/-! Lines at their target (R295 to R297). -/

/-- The sectors of a line with a byte that is sent, as their number within the line. -/
def sectorsSent (radd : Bool) (l : LinePacket) : List Nat :=
  (List.range 4).filter fun i => (List.range 32).any fun b => byteSent radd l (32 * i + b)

/-- The race that an access meets in the sectors it touches (R46): in the first of them that has one. -/
def farRace (s : State) (secs : List Nat) (w : Sender) : Option RaceRec :=
  if !w.rd then none
  else secs.findSome? fun q =>
    s.recs.find? fun r => r.sector == q && r.launch == w.launch && conflict w.kind r.kind && !w.prior.contains r.id

/-- The records of an access that is made here for its sender, at the home of the sectors (R47, R49). -/
def farRecord (secs : List Nat) (w : Sender) (s : State) : List Nat × State :=
  if !w.rd then ([], s)
  else secs.foldl (fun acc q =>
    let r : RaceRec :=
      { sector := q, id := acc.2.nextRec, berth := w.berth, member := w.member, path := w.path, kind := w.kind, pc := w.pc
        launch := w.launch }
    (acc.2.nextRec :: acc.1, { acc.2 with recs := r :: acc.2.recs, nextRec := acc.2.nextRec + 1 })) ([], s)

/-- Who sends a line, and how it accesses its target (R295, R296). -/
def lineSender (radd : Bool) (l : LinePacket) : Sender :=
  { launch := l.launch, berth := l.berth, member := l.member, path := .remote, kind := if radd then .atomic else .write, pc := 0
    rd := l.rd, prior := l.prior }

/-- RADD.v's update of each sent element, each one atomic access without flags (R295). -/
def addElements (loc : Nat) (l : LinePacket) (s : State) : State :=
  let n := if l.f32 then 4 else 2
  let f := if l.f32 then fmtF32 else fmtBf16
  (List.range (128 / n)).foldl (fun s t =>
    if l.mask.getLsbD t then
      let sum := (fAdd f (leNat (busBytes s (loc + n * t) n)) (l.data.extractLsb' (8 * n * t) (8 * n)).toNat).1
      busPut s (loc + n * t) (leBytes n sum)
    else s) s

/-- RMCST's write of each sent byte (R296): a whole word where all of it is sent. -/
def writeLine (loc : Nat) (l : LinePacket) (s : State) : State :=
  (List.range 16).foldl (fun s i =>
    let byte (b : Nat) : Byte := l.data.extractLsb' (8 * (8 * i + b)) 8
    let sent := (List.range 8).filter fun b => l.mask.getLsbD (8 * i + b)
    if sent.length = 8 then busPut s (loc + 8 * i) ((List.range 8).map byte)
    else sent.foldl (fun s b => busPut s (loc + 8 * i + b) [byte b]) s) s

/-- A line is applied at a location: RACE and no effect, or its update, with the records made (R295, R297). -/
def applyLine (loc : Nat) (radd : Bool) (l : LinePacket) (s : State) : AckResult × List Nat × State :=
  let secs := (sectorsSent radd l).map fun i => sectorOf s (loc + 32 * i)
  match farRace s secs (lineSender radd l) with
  | some r => (.race r, [], s)
  | none =>
    let r := farRecord secs (lineSender radd l) s
    (.ok, r.1, if radd then addElements loc l r.2 else writeLine loc l r.2)

/-- A line packet arrives at this package from another (R287, R295, R296): refused, answered "moved", or applied once the line's holders
have given it up (R286). -/
def arriveLine (radd : Bool) (l : LinePacket) (s : State) : State :=
  let pa := s.fab.pkg.toNat * 2 ^ 42 + offOf l.off
  let answer (r : AckResult) (s : State) : State := sendMsg (.lineResp (l.berth.toNat / 2 ^ 22) l.off r) s
  match inboundCheck s s.fab.fbit pa true with
  | .refused r => answer (.nack r) s
  | .moved => answer .moved s
  | .ok =>
    afterRecall (pa / 128) true (.line radd l) (answer (.nack 3)) (fun s => let r := applyLine pa radd l s; answer r.1 r.2.2) s

/-- REMOTE_ATOMIC_LINE (R295): a RADD.v line packet of another package arrives. -/
def execRemoteAtomicLine (l : LinePacket) (s : State) : Out := .next (arriveLine true l s)

/-- MULTICAST_COPY (R296): a multicast line copy of another package arrives. -/
def execMulticastCopy (l : LinePacket) (s : State) : Out := .next (arriveLine false l s)

/-! Posts (R303 to R306). -/

def postMember (p : Post) : Nat := field p.desc 32 2
def postReg (p : Post) : Nat := field p.desc 34 5

/-- A register image with the sent indices replaced (R305). -/
def postImage (p : Post) (old : VReg) : VReg :=
  (List.range (4096 / max p.width 1)).foldl (fun img j =>
    if p.mask.getLsbD j then setBits img p.width (elemBit p.width 0 j) (p.data.toNat / 2 ^ (p.width * j) % 2 ^ p.width) else img) old

/-- The transient results that are still the newest write of their register once a post has written register `r` (R73). -/
def olderThanPost (r : Nat) (ws : List Window) : List Window :=
  (ws.map fun w => { w with regs := w.regs.filter fun q => q.1 != r }).filter fun w => !w.regs.isEmpty

/-- A post is taken by a register with a hold count: the count, the written set, and the sets carried so far. The release hands them over,
to be joined by the next word that reads the register (R305, R45): DEDUCED (log entry 89). The post is the newest write of its register, in
the replay records too, whether the context is live or saved (R73, R74): DEDUCED (log entry 108). -/
def countPost (p : Post) (h : BitVec 16) (c : Context) : Context :=
  let r := postReg p
  let carried := nth c.postH r [] ++ p.prior
  { c with
    hold := upd c.hold r (h - 1)
    written := upd c.written r (if h = 1 then 0 else nth c.written r 0 ||| p.mask)
    windows := olderThanPost r c.windows, levels := c.levels.map fun l => { l with windows := olderThanPost r l.windows }
    postH := upd c.postH r (if h = 1 then [] else carried)
    postR := if h = 1 then upd c.postR r (nth c.postR r [] ++ carried) else c.postR }

/-- The post meets HOLD_UNEXPECTED: no hold, or an index that is already written (R305). -/
def unexpected (p : Post) (h : BitVec 16) (c : Context) : Bool := h == 0 || nth c.written (postReg p) 0 &&& p.mask != 0

/-- A post applied to the live registers of a context; none for HOLD_UNEXPECTED (R305). -/
def postLive (p : Post) (c : Context) : Option Context :=
  let r := postReg p
  let h := nth c.hold r 0
  if unexpected p h c then none
  else
    let c1 := countPost p h c
    some { c1 with v := upd c1.v r (postImage p (nth c1.v r 0)), vtag := upd c1.vtag r .general }

/-- A post applied to a save area (R305): the descriptor is checked first. -/
def postSaved (p : Post) (area : Nat) (s : State) : AckResult × State :=
  let r := postReg p
  let d := saveWord s.mem area (0xAC00 + 8 * r)
  let rows := field (saveWord s.mem area 0) 16 8
  let old := replayOf s area
  let h : BitVec 16 := BitVec.ofNat 16 (saveNat s.mem area (0x8A40 + 2 * r) 2)
  if imageLen (field d 8 8) (field d 0 8) != some (field d 16 16) then (.nack 5, s)
  else if unexpected p h old then (.hold, s)
  else
    let img := postImage p (readVec s.mem area rows (rotOf (saveWord s.mem area 0x4C8)) r).1
    let m1 := writeBytes s.mem (area + voff rows + 512 * r) (leBytes 512 img.toNat)
    let m2 := writeWord m1 (area + 0xAC00 + 8 * r) (BitVec.ofNat 64 (2 * 256 + 512 * 65536))
    let m3 := writeBytes m2 (area + 0x8A40 + 2 * r) (leBytes 2 (h - 1).toNat)
    (.ok, { s with mem := m3, saved := { countPost p h old with save := area } :: s.saved.filter (·.save != area) })

/-- HOLDERR of a member counts one more, saturating (R299). -/
def bumpHolderr (entry m : Nat) (s : State) : State :=
  let a := entry + 0x28 + 4 * m
  { s with mem := writeBytes s.mem a (leBytes 4 (min (leNat (readBytes s.mem a 4) + 1) (2 ^ 32 - 1))) }

/-- How the delivery of a post ends: answered, waiting for BUSY, or sent on to where the model holds no registers. -/
inductive PostEnd where
  | ack (r : AckResult) (hint : Option (BitVec 32))
  | busy
  | away
  deriving DecidableEq, Repr

/-- A context of this core is the member that a post is for. -/
def isReceiver (p : Post) (c : Context) : Bool :=
  c.sys.berth.extractLsb' 0 32 == p.name && c.member.toNat == postMember p

/-- A delivery of a post at this package's port is traced (R342): P2 is 0 live, 1 save area, 2 HOLD_UNEXPECTED, 3 BERTH_GONE. The record names
the receiver by the name it is served under, and the descriptor keeps the name that the program gave (R306): DEDUCED (log entry 109). -/
def tracePost (p : Post) (code : Nat) (s : State) : State :=
  if p.name.toNat / 2 ^ 22 = s.fab.pkg.toNat then
    traceRec 8 0x3FF p.name.toNat (postMember p) p.desc (BitVec.ofNat 64 code) s
  else s

/-- The end of a post that reached its member (R305). -/
def postDone (p : Post) (entry : Nat) (hint : Option (BitVec 32)) (code : Nat) (r : AckResult × State) : PostEnd × State :=
  match r.1 with
  | .ok => (.ack .ok hint, tracePost p code r.2)
  | .hold => (.ack .hold hint, tracePost p 2 (bumpHolderr entry (postMember p) r.2))
  | x => (.ack x hint, r.2)

/-- A post applied where its member's registers are (R304, R305). -/
def postApply (p : Post) (entry : Nat) (hint : Option (BitVec 32)) (s : State) : PostEnd × State :=
  let pkg := p.name.toNat / 2 ^ 22
  let l := readWord s.mem (entry + 8 + 8 * postMember p)
  if bit l 62 then (.busy, s)
  else if bit l 63 then postDone p entry hint 1 (postSaved p (pkg * 2 ^ 42 + field l 12 36 * 4096) s)
  else if pkg == s.fab.pkg.toNat && field l 0 10 == s.coreNum then
    if s.cs ≠ .none && isReceiver p s.c then
      match postLive p s.c with
      | some c => postDone p entry hint 0 (.ok, { s with c := c })
      | none => postDone p entry hint 0 (.hold, s)
    else match s.sh with
      | some c =>
        if isReceiver p c then
          match postLive p c with
          | some c1 => postDone p entry hint 0 (.ok, { s with sh := some c1 })
          | none => postDone p entry hint 0 (.hold, s)
        else (.away, s)
      | none => (.away, s)
  else (.away, s)

/-- The port of a post's package delivers it (R304): refused, forwarded once, or applied. -/
def deliverPost : Nat → Option (BitVec 32) → Post → State → PostEnd × State
  | fuel, hint, p, s =>
    let pkg := p.name.toNat / 2 ^ 22
    let entry := berthEntry s p.name.toNat
    let e := readWord s.mem entry
    if !bit (homeFbbt s pkg) 0 || !bit e 63 || field e 32 8 != p.name.toNat % 256 then
      (.ack .gone hint, tracePost p 3 s)
    else if bit e 62 then
      if p.fwd then (.ack (.nack 4) hint, s)
      else
        let q : Post := { p with name := e.extractLsb' 0 32, fwd := true }
        let dest := q.name.toNat / 2 ^ 22
        let leaves := pkg == s.fab.pkg.toNat && dest != s.fab.pkg.toNat
        if leaves && !reachable s dest then (.ack (.nack 3) hint, s)
        else if !p.local_ && dest != s.fab.pkg.toNat then (.away, sendMsg (.post dest q) s)
        else match fuel with
          | 0 => (.ack (.nack 4) hint, s)
          | n + 1 => deliverPost n (some q.name) q (if leaves then sendMsg (.post dest q) s else s)
    else if field e 56 2 < postMember p then (.ack .gone hint, tracePost p 3 s)
    else postApply p entry hint s

/-- The name that a post is sent under: the berth cache's, or the descriptor's (R306). -/
def servingName (s : State) (name : BitVec 32) : BitVec 32 :=
  match s.fab.cache.find? fun q => q.1 == name with
  | some q => q.2
  | none => name

/-- A post of this package leaves its port (R283, R304, R306). -/
def sendPost (p : Post) (s : State) : PostEnd × State :=
  let q := { p with name := servingName s (p.desc.extractLsb' 0 32) }
  let dest := q.name.toNat / 2 ^ 22
  if dest = s.fab.pkg.toNat then deliverPost 1 none q s
  else if reachable s dest then deliverPost 1 none q (sendMsg (.post dest q) s)
  else (.ack (.nack 3) none, s)

/-- A post of another package is delivered, with its response; it waits at the port while BUSY is 1 (R300, R304). The answer of one that
was forwarded carries the name that it reached as the hint. -/
def arrivePost (p : Post) (s : State) : State :=
  let r := deliverPost 1 (if p.fwd then some p.name else none) p s
  match r.1 with
  | .ack a hint =>
    if p.local_ then onOwner p.id (fun s => finishCommand p.id (ackCommand p.id 0 a hint [] s)) r.2
    else sendMsg (.postResp p.src p.id a hint) r.2
  | .busy => { r.2 with fab := { r.2.fab with posts := r.2.fab.posts ++ [p] } }
  | .away => r.2

/-- POST_DELIVERY (R304): a post arrives at the berth port. -/
def execPostDelivery (p : Post) (s : State) : Out := .next (arrivePost p s)

/-- POST_APPLY (R305): a post that waited for BUSY is delivered. -/
def execPostApply (p : Post) (s : State) : Out :=
  .next (if p ∈ s.fab.posts then arrivePost p { s with fab := { s.fab with posts := s.fab.posts.filter (· ≠ p) } } else s)

/-- A waiting post whose member is no longer BUSY. -/
def postDue (s : State) : Option Post := s.fab.posts.find? fun p => (deliverPost 1 none p s).1 ≠ .busy

/-! The transfers of this package's commands. -/

/-- An earlier post of the context to the same name, member and register has not been acknowledged (R303). -/
def postBlocked (s : State) (id : Nat) (p : Post) : Bool :=
  s.c.remote.any fun c => decide (c.id < id) && c.xfers.any fun x =>
    !x.acked && (match x.post with | some q => q.desc.extractLsb' 0 39 == p.desc.extractLsb' 0 39 | none => false)

/-- A transfer can be sent, or sent again: it is not answered, not on its way, not waiting in the port, and not held back by an older
access to its page (R288). -/
def sendable (s : State) (c : RemoteCmd) (x : Transfer) : Bool :=
  !x.acked && !x.away && (match x.post with
    | some p => !postBlocked s c.id p && (sendPost p s).1 ≠ .busy
    | none => !heldByMoved s (.port c.id) x.va)

/-- Of two transfers the one that has been tried less often, and the earlier among equals. -/
def lessTried (best : Option (RemoteCmd × Transfer)) (q : RemoteCmd × Transfer) : Option (RemoteCmd × Transfer) :=
  match best with
  | none => some q
  | some b => if q.2.tries < b.2.tries then some q else some b

/-- The transfer to be sent next: the oldest that has not been answered "moved", or else one that has, each of them in its turn. -/
def nextTransfer (s : State) : Option (RemoteCmd × Transfer) :=
  let all := s.c.remote.flatMap fun c => (c.xfers.filter (sendable s c)).map fun x => (c, x)
  match all.find? fun q => !q.2.moved with
  | some q => some q
  | none => all.foldl lessTried none

/-- A transfer is answered "moved" (R288). -/
def movedTransfer (id ix : Nat) (va : Word) (s : State) : State :=
  dropPage (mapXfer id ix (fun x =>
    { x with away := false, moved := true, since := if x.moved then x.since else s.cycle, tries := x.tries + 1 }) s) va.toNat

/-- A line of another package that is written there is held here no more: its home has it given up, with its data where it is modified here
(R286). -/
def giveUpLine (line : Nat) (s : State) : State :=
  if s.fab.held.any fun h => h.line == line then
    let modified := s.fab.held.any fun h => h.line == line && h.modified
    sendMsg (.iack (pkgOf (128 * line)) line (givenBack s line modified))
      { s with fab := { s.fab with held := s.fab.held.filter (·.line != line) } }
  else s

/-- A line of a command goes to a location (R282, R283, R286 to R288, R295, R296). One of this package waits for its holders elsewhere; one
for another package leaves, whatever the answer there is. -/
def sendLine (c : RemoteCmd) (x : Transfer) (loc : Nat) (l : LinePacket) (s : State) : State :=
  let radd := c.kind == .radd
  let pkg := pkgOf loc
  let apply (s : State) : State := let r := applyLine loc radd l s; ackCommand c.id x.ix r.1 none r.2.1 r.2.2
  if coreLoc ≤ loc then apply s
  else if pkg == s.fab.pkg.toNat then
    (if (holdersOf s (loc / 128) true).isEmpty then apply s
     else if canRecall s (loc / 128) true then recallLine s (loc / 128) true
     else ackCommand c.id x.ix (.nack 3) none [] (dropRecall s (loc / 128)))
  else if (routePort s pkg).isNone then ackCommand c.id x.ix (.nack 3) none [] s
  else
    let sent := sendMsg (.packet pkg radd l 1) s
    match inboundCheck s (homeFbit s pkg) loc true with
    | .refused r => ackCommand c.id x.ix (.nack r) none [] sent
    | .moved => movedTransfer c.id x.ix x.va sent
    | .ok => apply (giveUpLine (loc / 128) sent)

/-- The place that a packet names (R295): an offset in its target package, or in the sender's partition. -/
def packetOff (loc : Nat) : Nat := if loc < coreLoc then offOf loc else loc

/-- A fault of the walk that a retried transfer makes: the transfer ends as refused and the fault is reported (R288). -/
def walkFailed (c : RemoteCmd) (x : Transfer) (cause : BitVec 8) (s : State) : State :=
  let s1 := mapXfer c.id x.ix (fun x => { x with acked := true }) s
  mapCmd c.id (fun d =>
    { d with
      nk := true, refused := d.refused + 1
      bitmap := if d.kind == .rmcst then d.bitmap ||| BitVec.twoPow 512 (x.ix / 4) else d.bitmap
      reports := d.reports ++ [d.info cause x.va (telemOf d.kind x.ix) 0] }) s1

/-- One transfer of a command is sent. -/
def sendTransfer (c : RemoteCmd) (x : Transfer) (s : State) : State :=
  match x.post, x.line with
  | some p, _ =>
    let r := sendPost p s
    match r.1 with
    | .ack a hint => ackCommand c.id x.ix a hint [] r.2
    | .busy => s
    | .away => mapXfer c.id x.ix (fun x => { x with away := true }) r.2
  | none, some l =>
    if c.rep then ackCommand c.id x.ix (.nack 3) none [] s
    else if x.moved then
      match translate s x.va 128 { write := true, fetch := false, user := c.user } with
      | (.error cause, s1) => walkFailed c x cause s1
      | (.ok y, s1) => sendLine c x y.loc { l with rd := y.rd, off := packetOff y.loc } s1
    else sendLine c x x.loc l s
  | none, none => ackCommand c.id x.ix .ok none [] s

/-- The port has something to do for the Active context's commands: a completion, or a transfer. -/
def remoteDue (s : State) : Bool := s.c.remote.any finishDue || (nextTransfer s).isSome

/-- The port does it: one of the completions that are due, or one transfer and the completion it brings, each in its time. -/
def remoteTurn (s : State) : State :=
  let due := s.c.remote.filter finishDue
  match nextTransfer s, due[(s.tick / 4 + s.tick / 1024) % (due.length + 1)]? with
  | _, some c => finishCommand c.id s
  | some (c, x), none => finishCommand c.id (sendTransfer c x s)
  | none, none => match due.head? with | some c => finishCommand c.id s | none => s

/-- REMOTE_ACK (R288, R291): the answer of a transfer arrives. -/
def execRemoteAck (id ix : Nat) (r : AckResult) (hint : Option (BitVec 32)) (s : State) : Out :=
  .next (onOwner id (fun s =>
    if r = .moved then
      match (cmdAt s id).bind fun c => c.xfers.find? fun x => x.ix == ix && !x.acked with
      | some x => movedTransfer id ix x.va s
      | none => s
    else finishCommand id (ackCommand id ix r hint [] s)) s)

/-- Every transfer of a replicated command is answered: a member whose bit is set counts as refused once (R296). -/
def ackAll (id : Nat) (bitmap : BitVec 512) (s : State) : State :=
  match cmdAt s id with
  | none => s
  | some c =>
    c.xfers.foldl (fun s x =>
      let first := match c.xfers.find? fun y => y.ix / 4 == x.ix / 4 with | some y => y.ix == x.ix | none => false
      ackCommand id x.ix (if bitmap.getLsbD (x.ix / 4) && first then .nack 0 else .ok) none [] s) s

/-- AGGREGATED_ACK (R296): a memory node's one acknowledgement of a replicated multicast. -/
def execAggregatedAck (id : Nat) (bitmap : BitVec 512) (s : State) : Out :=
  .next (onOwner id (fun s => finishCommand id (ackAll id bitmap s)) s)

/-- The oldest transfer of a command that has not been answered. -/
def oldestOpen (s : State) (id : Nat) : Option Transfer := (cmdAt s id).bind fun c => c.xfers.find? fun x => !x.acked

/-- The one that has waited longest. -/
def longest {α : Type} (waited : α → Nat) (l : List α) : Option α :=
  l.foldl (fun best q => match best with
    | none => some q
    | some b => if waited b < waited q then some q else some b) none

/-- The transfer of a command that has been answered "moved" and waited longest since (R288). -/
def oldestMovedTransfer (s : State) (id : Nat) : Option Transfer :=
  (cmdAt s id).bind fun c => longest (fun x => (s.cycle - x.since).toNat) (c.xfers.filter fun x => x.moved && !x.acked)

/-- The access of the Active context that has waited longest on a moved page (R288). -/
def oldestMoved (s : State) : Option Moved := longest (fun m => (s.cycle - m.since).toNat) (s.c.moved.filter (!·.ended))

/-- An access that waits for a line is answered otherwise than with data (R286, R288, R289). -/
def answerWant (w : Want) (r : AckResult) (s : State) : State :=
  { s with fab := { s.fab with
      wanted := s.fab.wanted.filter (· ≠ w), answers := s.fab.answers ++ [(w.who, w.key, r)] } }

/-- MOVED_RESPONSE (R288): the oldest open transfer of a command, or with identifier 0 the oldest access that waits for data, was answered
"moved"; it is sent again after a new walk. -/
def execMovedResponse (id : Nat) (s : State) : Out :=
  .next (
    if id = 0 then (match s.fab.wanted with | w :: _ => answerWant w .moved s | [] => s)
    else onOwner id (fun s => match oldestOpen s id with
      | some x => movedTransfer id x.ix x.va s
      | none => s) s)

/-- An access of the Active context that was answered "moved" ends with REMOTE_NACK, reason 2 (R288): the engine fault of its channel
(R175), a completion write that fails (R291), or a trap at the word, which meets it at that access when it issues again, with its earlier
accesses made (R106). -/
def expireMoved (m : Moved) (s : State) : State :=
  let s1 := { s with c := { s.c with moved := s.c.moved.filter (· ≠ m) } }
  if s.cs ≠ .active then s1
  else match m.who with
    | .channel i => if (chanAt s1 i).act && !(chanAt s1 i).flt then stopChan i (chanAt s1 i) m.info s1 else s1
    | .port id => mapCmd id (fun c => if finishDue c then { c with wfail := some m.info } else c) s1
    | _ => { s with c := { s.c with moved := s.c.moved.map fun q => if q = m then { q with ended := true } else q } }

/-- U cycles have passed since the first "moved" (R288): identifier 0 is the access of the Active context that has waited longest, and any
other a command's transfer that has. -/
def expireNow (id : Nat) (s : State) : State :=
  if id = 0 then (match oldestMoved s with | some m => expireMoved m s | none => s)
  else onOwner id (fun s => match oldestMovedTransfer s id with
    | some x => finishCommand id (ackCommand id x.ix (.nack 2) none [] s)
    | none => s) s

/-- UNFREEZE_BOUND_EXPIRY (R288). -/
def execUnfreezeBoundExpiry (id : Nat) (s : State) : Out := .next (expireNow id s)

/-- The bound U has passed since a cycle (R284, R288). -/
def boundPassed (s : State) (since : Word) : Bool := decide (s.fab.unf.toNat ≤ (s.cycle - since).toNat)

/-- What has waited longer than U: 0 for an access of the Active context, or a command (R288). -/
def expiryDue (s : State) : Option Nat :=
  if s.c.moved.any fun m => !m.ended && boundPassed s m.since then some 0
  else (s.c.remote.find? fun c => c.xfers.any fun x => x.moved && !x.acked && boundPassed s x.since).map (·.id)

/-- The word at PC has an access whose bound has passed: nothing is taken before its trap. -/
def endsAtWord (s : State) : Bool := s.c.moved.any (·.ended)

/-- TRANSFER_REPLAY (R289): a receiver asks for a replay; after three the access ends with REMOTE_NACK, reason 3. -/
def execTransferReplay (x : Replayed) (s : State) : Out :=
  .next (match x with
    | .access place =>
      (match s.fab.wanted[place]? with
       | some w =>
         if w.replays < 3 then
           { s with fab := { s.fab with wanted := s.fab.wanted.set place { w with replays := w.replays + 1 } } }
         else answerWant w (.nack 3) s
       | none => s)
    | .command id => onOwner id (fun s => match oldestOpen s id with
      | some x =>
        if x.replays < 3 then mapXfer id x.ix (fun x => { x with replays := x.replays + 1 }) s
        else finishCommand id (ackCommand id x.ix (.nack 3) none [] s)
      | none => s) s)

/-! Reports (R292). -/

/-- A command has a trap to take. -/
def reporting (c : RemoteCmd) : Bool := !c.taken && c.pends

/-- The command whose report is due: the oldest, and one that was pending behind another's report only at user level (R292). -/
def reportDue (s : State) : Option Nat :=
  (s.c.remote.find? fun c => reporting c && (!s.prv || (s.c.lastRep.isNone && !c.deferred))).map (·.id)

/-- The record of a command's report: TAUX0 of a REMOTE_NACK holds the number of refused transfers (R292). -/
def reportInfo (c : RemoteCmd) : Option TrapInfo :=
  match c.wfail with
  | some t => some t
  | none => c.reports.head?.map fun t =>
      if t.cause == 0x11 then { t with taux0 := t.taux0 + BitVec.ofNat 64 (c.refused % 65536) } else t

/-- A report is taken at the word at PC, which is kept as the command's return point (R292); the others that are pending wait for user level.
The handler's first word is exempt from breakpoints when it is the first to issue after a TRET (R109). An engine fault that has been found and
not yet raised is raised at that word: DESIGN CHOICE (log entry 106: R177 speaks of faults that were raised before). -/
def takeReport (id : Nat) (s : State) : State :=
  match cmdAt s id with
  | none => s
  | some c =>
    match reportInfo c with
    | none => s
    | some t =>
      let s0 := { s with c := { s.c with remote := deferReports s.c.remote } }
      let s1 := mapCmd id (fun c => { c with taken := true, ret := s.c.pc }) s0
      let s2 := takeTrap t { s1 with c := { s1.c with lastRep := some id } }
      { s2 with c := { s2.c with exempt := s.c.exempt } }

/-- REMOTE_REPORT_TRAP (R292). -/
def execRemoteReportTrap (id : Nat) (s : State) : Out :=
  .next (if s.cs = .active ∧ (cmdAt s id).any reporting then takeReport id s else s)

/-! Issue (R293 to R303). -/

/-- What a RM word or a VPOST shares: the payload it may be lent (R70, R294) and the transient rule (R74). -/
def portWord (v : BitVec 5) (byVfmt : Bool) (s : State) (k : State → Res Unit) : Out :=
  (if !payloadOk s { cls := .control } || (byVfmt && vfmtWidth s == 4 && lendsOther s) then .trap (s.illegal true) s
   else match windowOf s v.toNat with
    | some w => .trap (s.trapInfo true 0x03 w.addr) s
    | none => k s : Res Unit).out

/-- Rows 2 and 3 of R295: the completion register. -/
def blockChecks (r : AReg) : Option (BitVec 8 × Word) :=
  if !aCheck r { a := true, e := true } r.ptr.toNat 16 then some (0x07, r.ptr)
  else if r.ptr.toNat % 16 ≠ 0 then some (0x05, r.ptr)
  else none

/-- The last checks of a word that sends: an odd VL at w = 4 (R294), and the wait for the register's holds (R188). -/
def sendReady (v : BitVec 5) (byVfmt : Bool) (s : State) (k : State → Res Unit) : Res Unit :=
  if byVfmt && vfmtWidth s == 4 && vlNow s % 2 == 1 then .trap (s.trapInfo true 0x06 (BitVec.ofNat 64 (vlNow s))) s
  else if nth s.c.hold v.toNat 0 ≠ 0 then .wait 11 s
  else k s

/-- A command is issued: it joins the port's, and the word completes (R107, R291); it has read register `v`, and what the posts there
carried joins H (R45). -/
def issueRemote (kind : RemoteKind) (v : BitVec 5) (table : Word) (rep : Bool) (b : BitVec 5) (t : BitVec 1) (xfers : List Transfer) (ids : List Nat)
    (s : State) : State :=
  let c : RemoteCmd :=
    { id := s.fab.nextId, order := s.c.order, kind := kind, pc := s.c.pc, block := (s.ra b.toNat).ptr, table := table, rep := rep
      nt := t == 1#1, xfers := xfers, bitmap := 0, nk := false, bg := false, hu := false, rc := false, other := false, refused := 0
      reports := [], wfail := none, written := false, taken := false, deferred := false, ret := 0, user := !s.prv, prior := hSet s .remote, ids := ids }
  complete (clearPayload (joinPosts [v.toNat] { s with
    c := { s.c with remote := s.c.remote ++ [c], order := s.c.order + 1 }
    fab := { s.fab with nextId := s.fab.nextId + 1 } }))

/-- The packet of line `n` of a source register (R294, R295). -/
def linePacket (s : State) (v : BitVec 5) (radd f32 : Bool) (n : Nat) (x : Xlat) : LinePacket :=
  let w := if radd then (if f32 then 32 else 16) else vfmtWidth s
  let env := epEnv s
  let img := imageOf w (readV s v.toNat).1
  let unit := if radd then w else 8
  { off := packetOff x.loc, f32 := f32
    mask := BitVec.ofNat 128 ((List.range (1024 / unit)).foldl (fun acc i =>
      if indexSent env ((1024 * n + unit * i) / w) then acc + 2 ^ i else acc) 0)
    data := img.extractLsb' (1024 * n) 1024
    rd := x.rd, launch := s.c.launch, berth := s.c.sys.berth.extractLsb' 0 32, member := s.c.member, prior := hSet s .remote }

/-- One transfer of a line. -/
def lineTransfer (ix : Nat) (va : Word) (x : Xlat) (l : LinePacket) (away : Bool) : Transfer :=
  { ix := ix, va := va, loc := x.loc, line := some l, post := none, away := away, acked := false, moved := false, since := 0, tries := 0
    replays := 0 }

/-- Translate lines for writing, in order; `t i` is the trap record of line i. -/
def translateLines (t : Nat → TrapInfo) : List (Nat × Word) → State → Res (List (Nat × Word × Xlat))
  | [], s => .ok [] s
  | (i, va) :: r, s =>
    match translate s va 128 { write := true, fetch := false, user := !s.prv } with
    | (.error cause, s1) => .trap { t i with cause := cause, tval := va } s1
    | (.ok x, s1) => (translateLines t r s1).bind fun l s2 => .ok ((i, va, x) :: l) s2

/-- The lines that a word sends: LINE to LINE + NL − 1, from a virtual address up. -/
def lineAddrs (l n : BitVec 2) (va : Word) : List (Nat × Word) :=
  (List.range (n.toNat + 1)).map fun i => (l.toNat + i, va + BitVec.ofNat 64 (128 * i))

/-- RADD_V (R293, R295). -/
def execRaddV (d a b : BitVec 5) (n l : BitVec 2) (f t : BitVec 1) (s : State) : Out :=
  portWord a false s fun s =>
    let fail (cause : BitVec 8) (tval : Word) : Res Unit := .trap (s.trapInfo true cause tval) s
    let r := s.ra d.toNat
    if s.determ then fail 0x14 s.c.pc
    else match blockChecks (s.ra b.toNat) with
      | some (cause, tval) => fail cause tval
      | none =>
        match boxCheck r { s := true, e := true } (128 * (n.toNat + 1)) 1 0 1 0 with
        | some p => fail 0x07 (wordOf p)
        | none =>
          if r.ptr.toNat % 128 ≠ 0 then fail 0x05 r.ptr
          else
            (translateLines (fun i => { s.trapInfo true 0 0 with telem := i }) (lineAddrs l n r.ptr) s).bind fun ls s1 =>
              sendReady a false s1 fun s1 =>
                let s2 := commitStores s1
                .ok () (issueRemote .radd a 0 false b t
                  (ls.map fun q => lineTransfer q.1 q.2.1 q.2.2 (linePacket s2 a true (f == 1#1) q.1 q.2.2) false) [] s2)

/-- The parts of a read of an RMCST's group table: the bytes, and the records made. -/
def readTableParts (t : TrapInfo) : List AccessPart → State → Res (List Byte × List Nat)
  | [], s => .ok ([], []) s
  | p :: r, s =>
    (engineCheck .table s (hSet s .remote) p.va p.len .read (!s.prv) t).bind fun x s1 =>
      let q := engineRecord s1 .remote x p.len .read
      (readTableParts t r q.2).bind fun l s2 => .ok (busBytes s1 x.loc p.len ++ l.1, q.1 ++ l.2) s2

/-- Read `n` bytes of an RMCST's group table, an access of the command on REMOTE (R296), each page's part under its own translation. A fault of
the part on the second page names that part's address: DEDUCED (log entry 107). -/
def tableRead (s : State) (va : Word) (n : Nat) (t : TrapInfo) : Res (Nat × List Nat) :=
  (readTableParts t (accessParts va n) s).bind fun l s1 => .ok (leNat l.1, l.2) s1

/-- The members of a group table, each with its lines translated (R296 check 6). -/
def readMembers (table : Word) (l n : BitVec 2) : List Nat → State → Res (List (Nat × Word × Xlat) × List Nat)
  | [], s => .ok ([], []) s
  | j :: r, s =>
    let t := { s.trapInfo true 0 0 with telem := j }
    (tableRead s (table + BitVec.ofNat 64 (0x80 + 8 * j)) 8 t).bind fun e s1 =>
      let va : Word := BitVec.ofNat 64 e.1
      if e.1 % 128 ≠ 0 then .trap { t with cause := 0x05, tval := va } s1
      else
        (translateLines (fun _ => t) (lineAddrs l n va) s1).bind fun ls s2 =>
          (readMembers table l n r s2).bind fun m s3 =>
            .ok ((ls.map fun q => (4 * j + q.1, q.2.1, q.2.2)) ++ m.1, e.2 ++ m.2) s3

/-- Check 7 of R296: the replication window, where the packets of a replicated command go. -/
def checkWindow (rep : Bool) (rwin : Word) (s : State) : Res (Option Xlat) :=
  if !rep then .ok none s
  else match translate s rwin 128 { write := true, fetch := false, user := !s.prv } with
    | (.error cause, s1) => .trap (s.trapInfo true cause rwin) s1
    | (.ok x, s1) => .ok (some x) s1

/-- The packets of a replicated command leave for the window with the member count, when its package can be reached (R283, R296). A window
in this package reaches no memory node, and its packets do not leave: DESIGN CHOICE (log entry 92). -/
def sendReplicated (v : BitVec 5) (l n : BitVec 2) (members : Nat) (x : Xlat) (s : State) : State :=
  if pkgOf x.loc = s.fab.pkg.toNat then s
  else { s with fab := { s.fab with sent := s.fab.sent ++
      ((lineAddrs l n 0).map fun q => FabMsg.packet (pkgOf x.loc) false (linePacket s v false false q.1 x) members) } }

/-- A word that waits for the fabric while its register has a hold count shows the hold: the highest reason (R29, R188). -/
def holdShown (v : BitVec 5) (s : State) (r : Res Unit) : Res Unit :=
  match r with
  | .wait n s1 => .wait (if nth s.c.hold v.toNat 0 ≠ 0 then max n 11 else n) s1
  | x => x

/-- RMCST (R293, R296). -/
def execRmcst (d a b : BitVec 5) (n l : BitVec 2) (t : BitVec 1) (s : State) : Out :=
  portWord a true s fun s0 =>
    let fail (cause : BitVec 8) (tval : Word) : Res Unit := .trap (s0.trapInfo true cause tval) s0
    let r := s0.ra d.toNat
    match blockChecks (s0.ra b.toNat) with
    | some (cause, tval) => fail cause tval
    | none =>
      match boxCheck r { l := true, s := true, e := true } 0x80 1 0 1 0 with
      | some p => fail 0x07 (wordOf p)
      | none => holdShown a s0 <| withoutRecords s0 (
        let s := commitStores s0
        (tableRead s r.ptr 8 (s.trapInfo true 0 0)).bind fun h s1 =>
          (tableRead s1 (r.ptr + 8) 8 (s.trapInfo true 0 0)).bind fun w s2 =>
            let m := h.1 % 1024
            let rep := h.1 / 65536 % 2 == 1
            if h.1 / 1024 % 64 ≠ 0 ∨ h.1 / 131072 ≠ 0 ∨ m = 0 ∨ 512 < m then .trap (s.trapInfo true 0x06 (BitVec.ofNat 64 h.1)) s2
            else match boxCheck r { l := true, s := true, e := true } (0x80 + 8 * m) 1 0 1 0 with
              | some p => .trap (s.trapInfo true 0x07 (wordOf p)) s2
              | none =>
                (readMembers r.ptr l n (List.range m) s2).bind fun ms s3 =>
                  (checkWindow rep (BitVec.ofNat 64 w.1) s3).bind fun win s4 =>
                    sendReady a true s4 fun s4 =>
                      let routed := match win with
                        | some x => pkgOf x.loc == s4.fab.pkg.toNat || (routePort s4 (pkgOf x.loc)).isSome
                        | none => false
                      let s5 := match win with
                        | some x => if routed then sendReplicated a l n m x s4 else s4
                        | none => s4
                      .ok () (issueRemote .rmcst a r.ptr rep b t
                        (ms.1.map fun q => lineTransfer q.1 q.2.1 q.2.2 (linePacket s4 a false false (q.1 % 4) q.2.2) (rep && routed))
                        (ms.2 ++ h.2 ++ w.2) s5))

/-- A descriptor that VPOST refuses (R303 check 2). -/
def descBad (w : Nat) (d : Word) : Bool :=
  let cnt := field d 50 11
  let first := field d 40 10
  field d 61 3 != 0 || bit d 39 || cnt == 0 || decide (4096 / w < first + cnt) || (w == 4 && (first % 2 == 1 || cnt % 2 == 1))

/-- The post of a descriptor (R303). -/
def makePost (v : BitVec 5) (d : Word) (s : State) : Post :=
  let w := vfmtWidth s
  let env := epEnv s
  { name := d.extractLsb' 0 32, desc := d, width := w
    mask := BitVec.ofNat 1024 ((List.range (field d 50 11)).foldl (fun acc i =>
      let j := field d 40 10 + i
      if indexSent env j then acc + 2 ^ j else acc) 0)
    data := imageOf w (readV s v.toNat).1
    fwd := false, id := s.fab.nextId, local_ := true, src := s.fab.pkg.toNat, prior := hAll s }

/-- VPOST (R301, R303). -/
def execVpost (d a b : BitVec 5) (t : BitVec 1) (s : State) : Out :=
  portWord a true s fun s =>
    let fail (cause : BitVec 8) (tval : Word) : Res Unit := .trap (s.trapInfo true cause tval) s
    let desc := s.rx d
    match blockChecks (s.ra b.toNat) with
    | some (cause, tval) => fail cause tval
    | none =>
      if descBad (vfmtWidth s) desc then fail 0x06 desc
      else sendReady a true s fun s =>
        let s1 := commitStores s
        let x : Transfer :=
          { ix := 0, va := 0, loc := 0, line := none, post := some (makePost a desc s1), away := false, acked := false, moved := false
            since := 0, tries := 0, replays := 0 }
        .ok () (issueRemote .vpost a 0 false b t [x] [] (traceCtx 7 desc s.c.pc s1))

/-- HOLD (R302): the hold count of a register grows by x[xa]; LIMIT when it would exceed 65,535. -/
def execHold (d a : BitVec 5) (s : State) : Out :=
  apWord s fun s =>
    let n := s.rx a
    let h := nth s.c.hold d.toNat 0
    if 65535 < h.toNat + n.toNat then .trap (s.trapInfo true 0x06 n) s
    else .ok () (complete { s with c := { s.c with hold := upd s.c.hold d.toNat (h + n.truncate 16) } })

end Sys2Proof.Machine
end

