-- ==== Sys2Proof/Machine/Fabric.lean ====
section
/-!
DEFINITION. The fabric's device steps: links (R283), directory messages (R286), requests of other packages (R285, R287), data that
returns (R151, R285), and the host's accesses over CXL.mem (R329).
-/

namespace Sys2Proof.Machine

/-- LINK_DOWN (R283): transfers through the port end with REMOTE_NACK, reason 3, when they are next tried. -/
def execLinkDown (port : BitVec 4) (s : State) : Out :=
  .next { s with fab := { s.fab with links := s.fab.links &&& ~~~ BitVec.twoPow 16 port.toNat } }

/-- LINK_UP (R283). -/
def execLinkUp (port : BitVec 4) (s : State) : Out :=
  .next { s with fab := { s.fab with links := s.fab.links ||| BitVec.twoPow 16 port.toNat } }

/-! The home's directory (R286). -/

/-- The directory entry of a line; uncached when none is held. -/
def dirAt (s : State) (line : Nat) : DirEntry :=
  (s.fab.dir.find? fun d => d.line == line).getD { line := line, state := .uncached, sharers := [], reqs := [], pending := [] }

/-- The directory entry of a line replaced. -/
def setDir (d : DirEntry) (s : State) : State :=
  { s with fab := { s.fab with dir := d :: s.fab.dir.filter fun q => q.line != d.line } }

/-- The holders that a request has to have invalidated: every other one for ownership, and the one that has the line modified. -/
def holdersAgainst (d : DirEntry) (src : Nat) (own : Bool) : List Nat :=
  if own || d.state == .modified then d.sharers.filter (· != src) else []

/-- A request is granted: the requester holds the line and gets its data; an own access only finds the line free. -/
def grantLine (d : DirEntry) (src : Nat) (own : Bool) (s : State) : DirEntry × State :=
  if src = s.fab.pkg.toNat then ({ d with state := if own then .uncached else d.state, sharers := if own then [] else d.sharers }, s)
  else
    ({ d with state := if own then .modified else .shared
              sharers := if own then [src] else src :: d.sharers.filter (· != src) }
      , sendMsg (.data src d.line (lineNews s d.line true) .ok) s)

/-- A request whose holders cannot all be reached is refused (R283, R286). -/
def refuseLine (src line : Nat) (s : State) : State := sendMsg (.data src line noNews (.nack 3)) s

/-- Requests are completed in order while no acknowledgement is pending (R286). -/
def serveLine : Nat → DirEntry → State → DirEntry × State
  | 0, d, s => (d, s)
  | n + 1, d, s =>
    match d.reqs with
    | [] => (d, s)
    | (src, own) :: r =>
      if !d.pending.isEmpty then (d, s)
      else match holdersAgainst d src own with
        | [] => let g := grantLine { d with reqs := r } src own s; serveLine n g.1 g.2
        | hs =>
          if hs.all (reachable s) then ({ d with pending := hs }, hs.foldl (fun s h => sendMsg (.inv h d.line) s) s)
          else serveLine n { d with reqs := r } (refuseLine src d.line s)

/-- A directory entry is served and kept. -/
def settleLine (d : DirEntry) (s : State) : State :=
  let r := serveLine (d.reqs.length + 1) d s
  setDir r.1 r.2

/-- The sectors of a run of bytes at a physical address. -/
def sectorsOf (s : State) (pa n : Nat) : List Nat := (List.range ((pa % 32 + n + 31) / 32)).map fun i => sectorOf s (pa + 32 * i)

/-- An access of another package reaches its home here (R285, R287): it is refused, moved, refused where the line's holders cannot all be
`reached` (R283, R286) or with the race it meets, or made, and then recorded. -/
def homeAccess (pa n : Nat) (wr reached : Bool) (who : Sender) (answer : AckResult → State → State) (make : State → State)
    (s : State) : State :=
  match inboundCheck s s.fab.fbit pa wr with
  | .refused r => answer (.nack r) s
  | .moved => answer .moved s
  | .ok =>
    if !reached then answer (.nack 3) s
    else match farRace s (sectorsOf s pa n) who with
    | some q => answer (.race q) s
    | none => make (farRecord (sectorsOf s pa n) who s).2

/-- RDS or RDX arrives at this package for bytes of a line (R286, R287): refused, answered "moved" or with a race, or served once the
line's holders have given it up. -/
def arriveRequest (src : Nat) (ask : LineAsk) (own : Bool) (s : State) : State :=
  let line := ask.line
  if pkgOf (128 * line) ≠ s.fab.pkg.toNat then s
  else homeAccess (128 * line + ask.first) ask.n own ((holdersAgainst (dirAt s line) src own).all (reachable s)) ask.who (fun r s => sendMsg (.data src line noNews r) s)
    (fun s => settleLine { dirAt s line with reqs := (dirAt s line).reqs ++ [(src, own)] } s) s

/-- RDS (R286). -/
def execRds (src : Nat) (ask : LineAsk) (s : State) : Out := .next (arriveRequest src ask false s)

/-- RDX (R286). -/
def execRdx (src : Nat) (ask : LineAsk) (s : State) : Out := .next (arriveRequest src ask true s)

/-- INV (R286): this package gives the line up, with its data when it holds it modified. -/
def execInv (line : Nat) (s : State) : Out :=
  let modified := s.fab.held.any fun h => h.line == line && h.modified
  .next (sendMsg (.iack (pkgOf (128 * line)) line (givenBack s line modified))
    { s with fab := { s.fab with held := s.fab.held.filter (·.line != line) } })

/-- IACK (R286): a holder has given the line up. -/
def execIack (src line : Nat) (d : LineNews) (s : State) : Out :=
  let s1 := takeNews line d s
  let e := dirAt s1 line
  let sharers := e.sharers.filter (· != src)
  .next (settleLine { e with
    sharers := sharers, pending := e.pending.filter (· != src)
    state := if sharers.isEmpty then .uncached else e.state } s1)

/-- WB (R286): a modified line comes back. -/
def execWb (src line : Nat) (d : LineNews) (s : State) : Out :=
  let s1 := takeNews line d s
  let e := dirAt s1 line
  let sharers := e.sharers.filter (· != src)
  .next (setDir { e with sharers := sharers, state := if sharers.isEmpty then .uncached else e.state } s1)

/-! Data that comes back to this package. -/

/-- The transfers asked for that a condition names have come: a line of a CACHED page is held from now on, and the data of any other transfer
waits for its access (R285, R286). -/
def linesCome (p : Want → Bool) (s : State) : State :=
  let come := s.fab.wanted.filter p
  let s1 := { s with fab := { s.fab with
      wanted := s.fab.wanted.filter fun w => !p w
      inbox := s.fab.inbox ++ (come.filter fun w => !ofLine w.key).map fun w => (w.who, w.key) } }
  (come.filter fun w => ofLine w.key).foldl (fun s w => holdLine w.key.line w.key.wr s) s1

/-- What a package says of its line that comes here: of a line of this package nobody else says what it holds. -/
def fromHome (line : Nat) (n : LineNews) (s : State) : State := if pkgOf (128 * line) = s.fab.pkg.toNat then s else takeNews line n s

/-- The first transfer that waits for a line: the home answers in the order of the requests (R286). -/
def firstWant (s : State) (line : Nat) : Option Want := s.fab.wanted.find? fun w => w.key.line == line

/-- DATA (R286): line data, or another answer, comes for the first transfer that waits for the line and for every access that made the same
request. -/
def execData (line : Nat) (d : LineNews) (r : AckResult) (s : State) : Out :=
  let s1 := fromHome line d s
  .next (match firstWant s line with
    | some w =>
      if d.bits.isSome then linesCome (·.key == w.key) s1
      else (s.fab.wanted.filter fun v => v.key == w.key).foldl (fun s v => answerWant v r s) s1
    | none => s1)

/-- LOAD_DATA_RETURN (R151): the data that the access with a place in the order of the waiting ones asked for returns, with what is kept of
its line at the home (R46, R52); its word or chunk goes on when it is next tried. -/
def execLoadDataReturn (x : Returned) (s : State) : Out :=
  .next (match s.fab.wanted[x.place]? with
    | some w => linesCome (· == w) (fromHome w.key.line x.news s)
    | none => s)

/-- The line that this package gives up of its own accord: the one it has held longest, where it can write it back (R286): DESIGN CHOICE (log
entry 5: the manual names none). -/
def evictable (s : State) : Option HeldLine :=
  match s.fab.held.getLast? with
  | some h => if !h.modified || reachable s (pkgOf (128 * h.line)) then some h else none
  | none => none

/-- It is given up; one that is modified is written back (R286). -/
def evictTurn (s : State) : State :=
  match evictable s with
  | none => s
  | some h =>
    let s1 := { s with fab := { s.fab with held := s.fab.held.filter (·.line != h.line) } }
    if h.modified then sendMsg (.wb (pkgOf (128 * h.line)) h.line (lineNews s h.line true)) s1 else s1

/-! Requests of other packages to SLICE and NOCACHE pages (R285), and the host over CXL.mem (R329). -/

/-- The address in this package of an offset. -/
def ownAddr (s : State) (off : Nat) : Nat := s.fab.pkg.toNat * 2 ^ 42 + offOf off

/-- A read of another package is answered, with what is kept of the line here. -/
def answerRead (src off n : Nat) (s : State) : State :=
  let pa := ownAddr s off
  sendMsg (.readResp src off .ok (readBytes s.mem pa n) (lineNews s (pa / 128) false)) s

/-- A write of another package takes effect: an increment of a counter word with the sets it carries (R52, R160), or a store, which can be
a `.rlx` one with its note (R45, R161). -/
def farStore (pa : Nat) (ask : WriteAsk) (s : State) : State :=
  match ask.effect with
  | .count amount carries => counterAdd s pa amount carries
  | .store note => leaveNote note pa ask.bytes.length (putBytes (clearCounters s pa ask.bytes.length) pa ask.bytes)

/-- A write of another package is made and answered. -/
def answerWrite (src off : Nat) (ask : WriteAsk) (s : State) : State :=
  sendMsg (.writeResp src off .ok) (farStore (ownAddr s off) ask s)

/-- How many bytes a write touches. -/
def writeSize (ask : WriteAsk) : Nat := match ask.effect with | .count .. => 8 | .store _ => ask.bytes.length

/-- A host read of HBM is answered. -/
def answerHost (off : Nat) (s : State) : State :=
  { s with dev := { s.dev with hostRead := some (readWord s.mem (ownAddr s off)) } }

/-- A host write of HBM is made. -/
def hostStore (off : Nat) (v : Word) (s : State) : State :=
  let pa := ownAddr s off
  putBytes (clearCounters s pa 8) pa (leBytes 8 v.toNat)

/-- READ_REQUEST (R285, R287). -/
def execReadRequest (src off : Nat) (ask : ReadAsk) (s : State) : Out :=
  let no (r : AckResult) (s : State) : State := sendMsg (.readResp src off r [] noNews) s
  let line := ownAddr s off / 128
  .next (homeAccess (ownAddr s off) ask.n false (canRecall s line false) ask.who no
    (afterRecall line false (.read src off ask.n ask.who) id (answerRead src off ask.n)) s)

/-- WRITE_REQUEST (R285, R287): a refused or moved request has no effect. -/
def execWriteRequest (src off : Nat) (ask : WriteAsk) (s : State) : Out :=
  let no (r : AckResult) (s : State) : State := sendMsg (.writeResp src off r) s
  let line := ownAddr s off / 128
  .next (homeAccess (ownAddr s off) (writeSize ask) true (canRecall s line true) ask.who no
    (afterRecall line true (.write src off ask) id (answerWrite src off ask)) s)

/-- A host access to HBM goes through the line's home slice, so that it sees and updates every copy (R329). Where another package holds the
line and cannot be reached, a read answers 0 and a write is dropped: DESIGN CHOICE (log entry 93). -/
def hostAccess (wr : Bool) (off : Nat) (v : Word) (s : State) : State :=
  let line := ownAddr s off / 128
  if wr then afterRecall line true (.hostWrite off v) id (hostStore off v) s
  else afterRecall line false (.hostRead off) (fun s => { s with dev := { s.dev with hostRead := some 0 } }) (answerHost off) s

/-- CXL_MEM_ACCESS (R329): decoder 0 reaches HBM; through decoder 1 a write of LWIN acts, other writes are dropped, and a read returns
zero. Decoder 0 maps HBM alone. -/
def execCxlMemAccess (dec : BitVec 1) (wr : Bool) (off : Nat) (v : Word) (s : State) : Out :=
  .next (
    if dec = 1#1 then
      (if !wr then { s with dev := { s.dev with hostRead := some 0 } } else if off = 0 then opLwin v s else s)
    else if off + 8 ≤ hbmBytes then hostAccess wr off v s
    else s)

/-! Accesses that wait for holders (R286). -/

/-- The line of a waiting access, and whether it writes. -/
def farLine (s : State) : FarReq → Nat × Bool
  | .read _ off _ _ => (ownAddr s off / 128, false)
  | .write _ off _ => (ownAddr s off / 128, true)
  | .line _ l => (ownAddr s l.off / 128, true)
  | .hostRead off => (ownAddr s off / 128, false)
  | .hostWrite off _ => (ownAddr s off / 128, true)

/-- The home has asked for the line already. -/
def recalled (s : State) (q : Nat × Bool) : Bool :=
  s.fab.dir.any fun d => d.line == q.1 && d.reqs.contains (s.fab.pkg.toNat, q.2)

/-- The oldest access that waits whose line is free now, or has to be asked for again. -/
def lateDue (s : State) : Option FarReq :=
  s.fab.late.find? fun r =>
    let q := farLine s r
    (holdersOf s q.1 q.2).isEmpty || (!recalled s q && canRecall s q.1 q.2)

/-- It is made and answered, or its line is asked for. The records of a read or a write were made when it came. -/
def serveLate (s : State) : State :=
  match lateDue s with
  | none => s
  | some r =>
    let q := farLine s r
    if !(holdersOf s q.1 q.2).isEmpty then recallLine s q.1 q.2 else
    let s1 := { s with fab := { s.fab with late := s.fab.late.erase r } }
    match r with
    | .read src off n _ => answerRead src off n s1
    | .write src off ask => answerWrite src off ask s1
    | .line radd l => arriveLine radd l s1
    | .hostRead off => answerHost off s1
    | .hostWrite off v => hostStore off v s1

end Sys2Proof.Machine
end

