-- ==== Sys2Proof/Machine/Sluice.lean ====
section
/-!
DEFINITION. The Sluice generator (R94, R95).
-/

namespace Sys2Proof.Machine

/-- The 64-bit product of two 32-bit words, high and low. -/
def mulHiLo (a b : BitVec 32) : BitVec 32 × BitVec 32 :=
  let p := a.toNat * b.toNat
  (BitVec.ofNat 32 (p / 2 ^ 32), BitVec.ofNat 32 p)

/-- The state of a call: the four counter words and the two key words. -/
structure SluiceState where
  x0 : BitVec 32
  x1 : BitVec 32
  x2 : BitVec 32
  x3 : BitVec 32
  k0 : BitVec 32
  k1 : BitVec 32
  deriving DecidableEq, Repr

/-- One round (R94). -/
def sluiceRound (s : SluiceState) : SluiceState :=
  let p := mulHiLo 0xB5A39C6D#32 s.x0
  let q := mulHiLo 0xE0F15A27#32 s.x2
  { x0 := q.1 ^^^ s.x1 ^^^ s.k0, x1 := q.2.rotateLeft 7, x2 := p.1 ^^^ s.x3 ^^^ s.k1, x3 := p.2.rotateLeft 13
    k0 := s.k0 + 0x8F3C6E21#32, k1 := s.k1 + 0x5D19B7A3#32 }

/-- `n` rounds. -/
def sluiceRounds : Nat → SluiceState → SluiceState
  | 0, s => s
  | n + 1, s => sluiceRounds n (sluiceRound s)

/-- sluice(key, dom, salt, idx, draw) (R94). -/
def sluice (key : Word) (dom : Nat) (salt : Nat) (idx : Word) (draw : BitVec 32) : BitVec 128 :=
  let r := sluiceRounds 10
    { x0 := draw, x1 := idx.extractLsb' 0 32, x2 := idx.extractLsb' 32 32
      x3 := BitVec.ofNat 32 (dom % 256 * 2 ^ 24 + salt % 2 ^ 24)
      k0 := key.extractLsb' 0 32, k1 := key.extractLsb' 32 32 }
  r.x3 ++ r.x2 ++ r.x1 ++ r.x0

/-- Bits 23:0 for the stochastic rounding of loop element `idx` (R92). -/
def roundBits (s : State) (mode : Nat) (idx : Word) : Nat :=
  if mode = 4 then (sluice s.c.sys.seed 0 (saltOf s) idx 0).toNat % 2 ^ 24 else 0

end Sys2Proof.Machine
end

