-- ==== Sys2Proof/Machine/VInt.lean ====
section
/-!
DEFINITION. The VI words: vector integer arithmetic (R192).
-/

namespace Sys2Proof.Machine

/-- A format code is signed: the i codes (R192). -/
def fmtSigned (f : BitVec 4) : Bool := f.toNat % 2 == 0

/-- An element as an integer under its format. -/
def intVal (f : BitVec 4) (b : Nat) : Int :=
  if fmtSigned f then toSigned (plainWidth f) b else ((b % 2 ^ plainWidth f : Nat) : Int)

/-- The range of an integer format (R91). -/
def intLow (f : BitVec 4) : Int := if fmtSigned f then -(2 ^ (plainWidth f - 1) : Int) else 0
def intHigh (f : BitVec 4) : Int := if fmtSigned f then 2 ^ (plainWidth f - 1) - 1 else 2 ^ plainWidth f - 1

/-- The element operations of R192 on bits, at a format. -/
def iWrap (f : BitVec 4) (v : Int) : Nat := wrapTo (plainWidth f) v
def iAdd (f : BitVec 4) (a b : Nat) : Nat := iWrap f (intVal f a + intVal f b)
def iSub (f : BitVec 4) (a b : Nat) : Nat := iWrap f (intVal f a - intVal f b)
def iMul (f : BitVec 4) (a b : Nat) : Nat := iWrap f (intVal f a * intVal f b)
def iMulh (f : BitVec 4) (a b : Nat) : Nat := iWrap f (intVal f a * intVal f b / 2 ^ plainWidth f)
def iSat (f : BitVec 4) (v : Int) : Nat := iWrap f (max (intLow f) (min (intHigh f) v))
def iAdds (f : BitVec 4) (a b : Nat) : Nat := iSat f (intVal f a + intVal f b)
def iSubs (f : BitVec 4) (a b : Nat) : Nat := iSat f (intVal f a - intVal f b)
def iMin (f : BitVec 4) (a b : Nat) : Nat := if intVal f b < intVal f a then b else a
def iMax (f : BitVec 4) (a b : Nat) : Nat := if intVal f a < intVal f b then b else a
def iAnd (a b : Nat) : Nat := a &&& b
def iOr (a b : Nat) : Nat := a ||| b
def iXor (a b : Nat) : Nat := a ^^^ b
def iAndn (f : BitVec 4) (a b : Nat) : Nat := a &&& (2 ^ plainWidth f - 1 - b % 2 ^ plainWidth f)
/-- Shift amounts are bits k − 1:0 of the operand, with w = 2^k (R192). -/
def iAmount (f : BitVec 4) (b : Nat) : Nat := b % plainWidth f
def iSll (f : BitVec 4) (a b : Nat) : Nat := a * 2 ^ iAmount f b % 2 ^ plainWidth f
def iSrl (f : BitVec 4) (a b : Nat) : Nat := a / 2 ^ iAmount f b
def iSra (f : BitVec 4) (a b : Nat) : Nat := iWrap f (intVal f a / 2 ^ iAmount f b)
def iRshr (f : BitVec 4) (a b : Nat) : Nat :=
  let n := iAmount f b
  if n = 0 then a else iWrap f ((intVal f a + 2 ^ (n - 1)) / 2 ^ n)
def iAbs (f : BitVec 4) (a : Nat) : Nat := iSat f ((intVal f a).natAbs : Int)
def iNeg (f : BitVec 4) (a : Nat) : Nat := iWrap f (-(intVal f a))
def iMacc (f : BitVec 4) (a b d : Nat) : Nat := iWrap f (intVal f d + intVal f a * intVal f b)
def iWmacc (f : BitVec 4) (a b d : Nat) : Nat := wrapTo 32 ((d : Int) + intVal f a * intVal f b)

/-- A VI word of two operands of one width. -/
def viBinary (t : BitVec 1) (d a b : BitVec 5) (f : BitVec 4) (op : Nat → Nat → Nat) (rule : TagRule) (s : State) : Out :=
  let w := plainWidth f
  lanesWord .arith t (vreg d w) [vreg a w, vreg b w] (fun _ src e => (op (src 0 e) (src 1 e), 0)) rule s

/-- A VI word of one operand. -/
def viUnary (t : BitVec 1) (d a : BitVec 5) (f : BitVec 4) (op : Nat → Nat) (rule : TagRule) (s : State) : Out :=
  let w := plainWidth f
  lanesWord .arith t (vreg d w) [vreg a w] (fun _ src e => (op (src 0 e), 0)) rule s

/-- A VI word that accumulates into vd at width `wd`. -/
def viAccumulate (t : BitVec 1) (d a b : BitVec 5) (f : BitVec 4) (wd : Nat) (op : Nat → Nat → Nat → Nat) (s : State) : Out :=
  let w := plainWidth f
  lanesWord .arith t (vreg d wd) [vreg a w, vreg b w, vreg d wd]
    (fun _ src e => (op (src 0 e) (src 1 e) (src 2 e), 0)) .plain s

/-- VADD (R192). -/
def execVadd (_cs t : BitVec 1) (d a b : BitVec 5) (f : BitVec 4) (s : State) : Out := viBinary t d a b f (iAdd f) (.add false) s
/-- VSUB (R192). -/
def execVsub (_cs t : BitVec 1) (d a b : BitVec 5) (f : BitVec 4) (s : State) : Out := viBinary t d a b f (iSub f) (.add true) s
/-- VMUL (R192). -/
def execVmul (_cs t : BitVec 1) (d a b : BitVec 5) (f : BitVec 4) (s : State) : Out := viBinary t d a b f (iMul f) .mul s
/-- VMULH (R192). -/
def execVmulh (_cs t : BitVec 1) (d a b : BitVec 5) (f : BitVec 4) (s : State) : Out := viBinary t d a b f (iMulh f) .plain s
/-- VADDS (R192). -/
def execVadds (_cs t : BitVec 1) (d a b : BitVec 5) (f : BitVec 4) (s : State) : Out := viBinary t d a b f (iAdds f) .plain s
/-- VSUBS (R192). -/
def execVsubs (_cs t : BitVec 1) (d a b : BitVec 5) (f : BitVec 4) (s : State) : Out := viBinary t d a b f (iSubs f) .plain s
/-- VMIN (R192). -/
def execVmin (_cs t : BitVec 1) (d a b : BitVec 5) (f : BitVec 4) (s : State) : Out := viBinary t d a b f (iMin f) .plain s
/-- VMAX (R192). -/
def execVmax (_cs t : BitVec 1) (d a b : BitVec 5) (f : BitVec 4) (s : State) : Out := viBinary t d a b f (iMax f) .plain s
/-- VAND (R192). -/
def execVand (_cs t : BitVec 1) (d a b : BitVec 5) (f : BitVec 4) (s : State) : Out := viBinary t d a b f iAnd .plain s
/-- VOR (R192). -/
def execVor (_cs t : BitVec 1) (d a b : BitVec 5) (f : BitVec 4) (s : State) : Out := viBinary t d a b f iOr .plain s
/-- VXOR (R192). -/
def execVxor (_cs t : BitVec 1) (d a b : BitVec 5) (f : BitVec 4) (s : State) : Out := viBinary t d a b f iXor .plain s
/-- VANDN (R192). -/
def execVandn (_cs t : BitVec 1) (d a b : BitVec 5) (f : BitVec 4) (s : State) : Out := viBinary t d a b f (iAndn f) .plain s
/-- VSLL (R192). -/
def execVsll (_cs t : BitVec 1) (d a b : BitVec 5) (f : BitVec 4) (s : State) : Out := viBinary t d a b f (iSll f) .sll s
/-- VSRL (R192). -/
def execVsrl (_cs t : BitVec 1) (d a b : BitVec 5) (f : BitVec 4) (s : State) : Out := viBinary t d a b f (iSrl f) .plain s
/-- VSRA (R192). -/
def execVsra (_cs t : BitVec 1) (d a b : BitVec 5) (f : BitVec 4) (s : State) : Out := viBinary t d a b f (iSra f) .plain s
/-- VRSHR (R192). -/
def execVrshr (_cs t : BitVec 1) (d a b : BitVec 5) (f : BitVec 4) (s : State) : Out := viBinary t d a b f (iRshr f) .plain s
/-- VABS (R192). -/
def execVabs (_cs t : BitVec 1) (d a : BitVec 5) (f : BitVec 4) (s : State) : Out := viUnary t d a f (iAbs f) .plain s
/-- VNEG (R192). -/
def execVneg (_cs t : BitVec 1) (d a : BitVec 5) (f : BitVec 4) (s : State) : Out := viUnary t d a f (iNeg f) .neg s
/-- VMOV (R192). -/
def execVmov (_cs t : BitVec 1) (d a : BitVec 5) (f : BitVec 4) (s : State) : Out := viUnary t d a f (fun x => x) .copy s
/-- VMACC (R192). -/
def execVmacc (_cs t : BitVec 1) (d a b : BitVec 5) (f : BitVec 4) (s : State) : Out :=
  viAccumulate t d a b f (plainWidth f) (iMacc f) s
/-- VWMACC (R192): vd at width 32. -/
def execVwmacc (_cs t : BitVec 1) (d a b : BitVec 5) (f : BitVec 4) (s : State) : Out := viAccumulate t d a b f 32 (iWmacc f) s
/-- VID (R192): (SBASE + e) mod 2^w. -/
def execVid (_cs t : BitVec 1) (d : BitVec 5) (f : BitVec 4) (s : State) : Out :=
  lanesWord .arith t (vreg d (plainWidth f)) [] (fun v _ e => ((v.sbase.toNat + e) % 2 ^ plainWidth f, 0)) .iota s

end Sys2Proof.Machine
end

