-- ==== Sys2Proof/Machine/VPred.lean ====
section
/-!
DEFINITION. The VP words: compares and predicate operations (R196, R197).
-/

namespace Sys2Proof.Machine

/-- The end of a word that writes a predicate: each live element's bit is `g e` (R187). -/
def setPredBits (v : EpEnv) (old : PReg) (g : Nat → Bool) : PReg :=
  v.todo.foldl (fun acc e =>
    if g e then acc ||| BitVec.twoPow 1024 e else acc &&& ~~~ BitVec.twoPow 1024 e) old

/-- A word that writes predicate pd from a bit function. -/
def predWord (d : BitVec 5) (reads : List Opnd) (f : EpEnv → State → (Nat → Nat → Nat) → Nat → Bool × Flags) (s : State) : Out :=
  let w : EpWord := { cls := .arith, reads := reads }
  epWord w s fun s =>
    let v := epEnv s
    let src := sources s v reads
    let g := f v s src
    let fl := v.todo.foldl (fun acc e => acc ||| (g e).2) (0 : Flags)
    .ok () (orFlags fl (writeP (epDone w [] s) d.toNat (setPredBits v (readP s d.toNat) fun e => (g e).1)))

/-- The outcome of a compare, with NV where a NaN operand sets it (R196). -/
def compareInt (f : BitVec 4) (rel : Int → Int → Bool) (a b : Nat) : Bool × Flags := (rel (intVal f a) (intVal f b), 0)
def compareFloat (f : FFmt) (rel : Int → Int → Bool) (onNan invalid : Bool) (a b : Nat) : Bool × Flags :=
  if f.isNan a || f.isNan b then (onNan, flagIf invalid flagNV) else (rel (f.cmpKey a) (f.cmpKey b), 0)

/-- A compare word. -/
def compareWord (d a b : BitVec 5) (f : BitVec 4) (rel : Int → Int → Bool) (onNan invalid : Bool) (s : State) : Out :=
  let w := plainWidth f
  predWord d [vreg a w, vreg b w] (fun _ _ src e =>
    if fmtInt f then compareInt f rel (src 0 e) (src 1 e) else compareFloat (floatFmt f) rel onNan invalid (src 0 e) (src 1 e)) s

/-- VCMPEQ (R196). -/
def execVcmpeq (_cs : BitVec 1) (d a b : BitVec 5) (f : BitVec 4) (s : State) : Out :=
  compareWord d a b f (fun x y => decide (x = y)) false false s
/-- VCMPNE (R196). -/
def execVcmpne (_cs : BitVec 1) (d a b : BitVec 5) (f : BitVec 4) (s : State) : Out :=
  compareWord d a b f (fun x y => decide (x ≠ y)) true false s
/-- VCMPLT (R196). -/
def execVcmplt (_cs : BitVec 1) (d a b : BitVec 5) (f : BitVec 4) (s : State) : Out :=
  compareWord d a b f (fun x y => decide (x < y)) false true s
/-- VCMPLE (R196). -/
def execVcmple (_cs : BitVec 1) (d a b : BitVec 5) (f : BitVec 4) (s : State) : Out :=
  compareWord d a b f (fun x y => decide (x ≤ y)) false true s

/-- A predicate operation (R197). -/
def predOp (d a b : BitVec 5) (op : Bool → Bool → Bool) (s : State) : Out :=
  predWord d [] (fun _ s _ e => (op ((readP s a.toNat).getLsbD e) ((readP s b.toNat).getLsbD e), 0)) s

/-- PAND (R197). -/
def execPand (_cs : BitVec 1) (d a b : BitVec 5) (s : State) : Out := predOp d a b (fun x y => x && y) s
/-- POR (R197). -/
def execPor (_cs : BitVec 1) (d a b : BitVec 5) (s : State) : Out := predOp d a b (fun x y => x || y) s
/-- PXOR (R197). -/
def execPxor (_cs : BitVec 1) (d a b : BitVec 5) (s : State) : Out := predOp d a b (fun x y => x != y) s
/-- PANDN (R197). -/
def execPandn (_cs : BitVec 1) (d a b : BitVec 5) (s : State) : Out := predOp d a b (fun x y => x && !y) s
/-- PNOT (R197). -/
def execPnot (_cs : BitVec 1) (d a : BitVec 5) (s : State) : Out := predOp d a a (fun x _ => !x) s
/-- PSET (R197). -/
def execPset (_cs : BitVec 1) (d : BitVec 5) (s : State) : Out := predOp d 0 0 (fun _ _ => true) s
/-- PCLR (R197). -/
def execPclr (_cs : BitVec 1) (d : BitVec 5) (s : State) : Out := predOp d 0 0 (fun _ _ => false) s

end Sys2Proof.Machine
end

