-- ==== Sys2Proof/Machine/Lazy.lean ====
section
/-!
DEFINITION. The LZ words (R263 to R280): digits, decisions, making and moving reals, comparing, converting and drawing.
-/

namespace Sys2Proof.Machine

/-! Digits (R264). -/

/-- Digit d that the generator gives at a position. -/
def genDigit (seed p : Word) (d : Nat) : Bool :=
  (sluice seed 1 0 p (BitVec.ofNat 32 ((d - 1) / 128))).getLsbD (127 - (d - 1) % 128)

/-- Digit d of an element: a held one, or the generator's. -/
def ZElem.digit (seed : Word) (z : ZElem) (d : Nat) : Bool :=
  if d ≤ min z.len 64 then z.held.getLsbD (64 - d) else genDigit seed z.pos d

/-- A decision has examined digits 1 to k: L becomes max(L, k), and the new ones up to 64 are held (R265). -/
def ZElem.extend (seed : Word) (k : Nat) (z : ZElem) : ZElem :=
  if k ≤ z.len then z
  else
    { z with
      len := k
      held := (List.range (min k 64)).foldl (fun h i =>
        if z.len ≤ i && genDigit seed z.pos (i + 1) then h ||| BitVec.twoPow 64 (63 - i) else h) z.trim.held }

/-! Decisions (R266). -/

/-- The search for the first k at which m × 2^e lies outside the open interval of the first k digits: `lo` holds the first k − 1
digits as an integer. -/
def decideFrom (seed : Word) (z : ZElem) (m : Nat) (e : Int) : Nat → Nat → Nat → Bool × Nat
  | 0, k, _ => (false, k)
  | n + 1, k, lo =>
    let lo := 2 * lo + (if z.digit seed k then 1 else 0)
    let c := m * 2 ^ (e + k).toNat
    let u := 2 ^ (-(e + k)).toNat
    if (lo + 1) * u ≤ c then (true, k)
    else if c ≤ lo * u then (false, k)
    else decideFrom seed z m e n (k + 1) lo

/-- decide_lt: the bit, the digits examined, and NV on a NaN threshold (R266). -/
def decideLt (seed : Word) (z : ZElem) (c : FVal) : Bool × Nat × Flags :=
  match c with
  | .nan => (false, 0, flagNV)
  | .inf neg => (!neg, 0, 0)
  | .fin neg m e =>
    if neg || m == 0 then (false, 0, 0)
    else if 0 ≤ e || 2 ^ (-e).toNat ≤ m then (true, 0, 0)
    else
      let r := decideFrom seed z m e 512 1 0
      (r.1, r.2, 0)

/-- The first digit, from d on, at which two elements differ (R275). -/
def firstDiffer (seed : Word) (a b : ZElem) : Nat → Nat → Option Nat
  | 0, _ => none
  | n + 1, d => if a.digit seed d != b.digit seed d then some d else firstDiffer seed a b n (d + 1)

/-- The f32 value nearest to n × 2^−152, ties to even. -/
def nearest152 (n : Nat) : Nat := (fmtF32.rne (.fin false n (-152), 0)).1

/-- The value of ZCVT and the digits it examines (R276): the reals of the open interval of the first k digits all round to one
value when those just inside its two ends do, since every boundary is a multiple of 2^−150. -/
def convertFrom (seed : Word) (z : ZElem) : Nat → Nat → Nat → Nat × Nat
  | 0, k, lo => (nearest152 (lo * 4), k)
  | n + 1, k, lo =>
    let lo := 2 * lo + (if z.digit seed k then 1 else 0)
    let lowEnd := nearest152 (lo * 2 ^ (152 - k) + 1)
    if lowEnd = nearest152 ((lo + 1) * 2 ^ (152 - k) - 1) then (lowEnd, k) else convertFrom seed z n (k + 1) lo

/-! Registers. -/

/-- Element e of z register n at the strip's rotation (R263). -/
def readZ1 (s : State) (n e : Nat) : ZElem :=
  nth (nth s.c.z n (Vector.replicate 128 ZElem.fresh)) (zCell (rotNow s) e) ZElem.fresh

/-- Change element e of z register n at a rotation. -/
def setZ (s : State) (n rot e : Nat) (z : ZElem) : State :=
  { s with c := { s.c with z := upd s.c.z n (upd (nth s.c.z n (Vector.replicate 128 ZElem.fresh)) (zCell rot e) z) } }

/-- Write elements of a z register from a function over a list at a word's rotation, and note the register as written (R112). -/
def setZs (n rot : Nat) (f : Nat → ZElem) (es : List Nat) (s : State) : State :=
  (es.foldl (fun s e => setZ s n rot e (f e)) s).mark (.z n)

/-- A stale element among some of a register. -/
def anyStale (s : State) (n : Nat) (es : List Nat) : Bool := es.any fun e => (readZ1 s n e).stale

/-- The first register, in field order, with a stale element that the word reads: LAZY_STALE (R280). -/
def staleTrap (s : State) : List (Nat × List Nat) → Option TrapInfo
  | [] => none
  | (n, es) :: r => if anyStale s n es then some (s.trapInfo false 0x0E (BitVec.ofNat 64 n)) else staleTrap s r

/-- An LZ word: legal only with VLMAX = 128, a 32-bit EFMT, g = 1 and BLK = 0 (R272). The z elements it reads are checked, and
`k` has its effect. -/
def lazyWord (t : Bool) (dst : Option Opnd) (reads : List Opnd) (zr : EpEnv → List (Nat × List Nat)) (s : State)
    (k : EpWord → EpEnv → State → Res Unit) : Out :=
  let f := s.c.sys.vfmt
  let w : EpWord :=
    { cls := .lazy, t := t, dst := dst, reads := reads
      bad := !(vlmaxOf f == 128 && plainWidth (f.extractLsb' 0 4) == 32 && field f 12 4 == 0) }
  epWord w s fun s =>
    let v := epEnv s
    match staleTrap s (zr v) with
    | some e => .trap e s
    | none => k w v s

/-! The words that write z registers (R273). -/

/-- Every live element of zd from a function of the state before the word. -/
def makeZ (d : BitVec 5) (reads : List Opnd) (za : Option (BitVec 5)) (f : State → EpEnv → Nat → ZElem) (s : State) : Out :=
  lazyWord false none reads (fun v => match za with | some a => [(a.toNat, v.todo)] | none => []) s fun w v s =>
    .ok () (setZs d.toNat v.rot (f s v) v.todo (epDone w [] s))

/-- ZNEW (R273). -/
def execZnew (_cs : BitVec 1) (d a : BitVec 5) (s : State) : Out :=
  makeZ d [] none (fun s v e => ⟨s.rx a + v.sbase + BitVec.ofNat 64 e, 0, 0, false⟩) s
/-- ZFORK (R273): the new position is drawn from Sluice domain 3. -/
def execZfork (_cs : BitVec 1) (d a b : BitVec 5) (s : State) : Out :=
  makeZ d [] (some a) (fun s _ e =>
    let r := sluice s.c.sys.seed 3 0 (readZ1 s a.toNat e).pos ((s.rx b).extractLsb' 0 32)
    ⟨r.extractLsb' 0 64, 0, 0, false⟩) s
/-- ZMOV (R273). -/
def execZmov (_cs : BitVec 1) (d a : BitVec 5) (s : State) : Out :=
  makeZ d [] (some a) (fun s _ e => { readZ1 s a.toNat e with stale := false }) s
/-- ZPIN (R273): the position stays, and the first min(vb[e], 64) digits are va[e]'s. -/
def execZpin (_cs : BitVec 1) (d a b : BitVec 5) (s : State) : Out :=
  makeZ d [vreg a 64, vreg b 32] none (fun s v e =>
    let src := sources s v [vreg a 64, vreg b 32]
    let n := min (src 1 e) 64
    { pos := (readZ1 s d.toNat e).pos, len := n, stale := false
      held := BitVec.ofNat 64 (src 0 e / 2 ^ (64 - n) * 2 ^ (64 - n)) }) s
/-- ZSET (R273). -/
def execZset (_cs : BitVec 1) (d a b : BitVec 5) (s : State) : Out :=
  makeZ d [vreg a 32, vreg b 32] none (fun s v e =>
    let src := sources s v [vreg a 32, vreg b 32]
    ⟨BitVec.ofNat 64 (src 0 e + src 1 e * 2 ^ 32), 0, 0, false⟩) s

/-! Decisions (R274 to R276). -/

/-- The threshold format: bf16 or f32. -/
def thresholdFmt (f : BitVec 1) : FFmt := if f = 0#1 then fmtBf16 else fmtF32

/-- ZLT and ZLE (R274): a bit of pd for each live element. No prefix settles u = c, so both give the same. -/
def thresholdWord (d a b : BitVec 5) (f : BitVec 1) (s : State) : Out :=
  let o := vreg b (thresholdFmt f).bits
  lazyWord false none [o] (fun v => [(a.toNat, v.todo)]) s fun w v s =>
    let src := sources s v [o]
    let r (e : Nat) := decideLt s.c.sys.seed (readZ1 s a.toNat e) ((thresholdFmt f).decode (src 0 e))
    let s1 := setZs a.toNat v.rot (fun e => (readZ1 s a.toNat e).extend s.c.sys.seed (r e).2.1) v.todo (epDone w [] s)
    .ok () (orFlags (v.todo.foldl (fun acc e => acc ||| (r e).2.2) 0)
      (writeP s1 d.toNat (setPredBits v (readP s d.toNat) fun e => (r e).1)))

/-- ZLT (R274). -/
def execZlt (_cs : BitVec 1) (d a b : BitVec 5) (f : BitVec 1) (s : State) : Out := thresholdWord d a b f s
/-- ZLE (R274). -/
def execZle (_cs : BitVec 1) (d a b : BitVec 5) (f : BitVec 1) (s : State) : Out := thresholdWord d a b f s

/-- What ZCMP finds at an element: the bit and the digits examined; none when 512 digits agree (R275, R268). -/
def compareZ (seed : Word) (x y : ZElem) : Option (Bool × Nat) :=
  if x.pos = y.pos then some (false, 0)
  else (firstDiffer seed x y 512 1).map fun d => (!x.digit seed d, d)

/-- The elements before the first at which a compare finds no difference. -/
def beforeStop (g : Nat → Option (Bool × Nat)) (es : List Nat) : List Nat := es.takeWhile fun e => (g e).isSome

/-- ZCMP (R275, R280): PREFIX_LIMIT at the lowest element without a difference, with the elements below it complete. -/
def execZcmp (_cs : BitVec 1) (d a b : BitVec 5) (s : State) : Out :=
  lazyWord false none [] (fun v => [(a.toNat, v.todo), (b.toNat, v.todo)]) s fun w v s =>
    let x (e : Nat) := readZ1 s a.toNat e
    let y (e : Nat) := readZ1 s b.toNat e
    let g (e : Nat) := compareZ s.c.sys.seed (x e) (y e)
    let done := beforeStop g v.todo
    let k (e : Nat) : Nat := ((g e).map (·.2)).getD 0
    let effect (es : List Nat) (s1 : State) : State :=
      let bits := es.foldl (fun acc e =>
        if (g e).any (·.1) then acc ||| BitVec.twoPow 1024 e else acc &&& ~~~ BitVec.twoPow 1024 e) (readP s d.toNat)
      let s2 := setZs a.toNat v.rot (fun e => (x e).extend s.c.sys.seed (k e)) es s1
      let s3 := setZs b.toNat v.rot (fun e => (if a = b then (x e) else (y e)).extend s.c.sys.seed (k e)) es s2
      writeP s3 d.toNat bits
    match v.todo.find? fun e => (g e).isNone with
    | some e =>
      .trap { s.trapInfo false 0x0D (x e).pos with taux1 := (y e).pos, telem := e, estart := e, inLane := true } (effect done s)
    | none => .ok () (effect v.todo (epDone w [] s))

/-- An LZ word with a vector destination: values of the live elements, general tag (R272). -/
def lazyVec (t : BitVec 1) (d a : BitVec 5) (f : Word → ZElem → Nat × Nat) (s : State) : Out :=
  let o := vreg d 32
  lazyWord (t == 1#1) (some o) [] (fun v => [(a.toNat, v.todo)]) s fun w v s =>
    let r (e : Nat) := f s.c.sys.seed (readZ1 s a.toNat e)
    let imgs := setElems (baseImages s w o) 32 v.rot (fun e => (r e).1) v.todo
    let s1 := epDone w (finalTags v imgs fun _ => .general) s
    .ok () (if v.todo.all fun e => decide ((r e).2 ≤ (readZ1 s a.toNat e).len) then s1
      else setZs a.toNat v.rot (fun e => (readZ1 s a.toNat e).extend s.c.sys.seed (r e).2) v.todo s1)

/-- ZCVT (R276). -/
def execZcvt (_cs t : BitVec 1) (d a : BitVec 5) (s : State) : Out := lazyVec t d a (fun seed z => convertFrom seed z 150 1 0) s
/-- ZLEN (R279). -/
def execZlen (_cs t : BitVec 1) (d a : BitVec 5) (s : State) : Out := lazyVec t d a (fun _ z => (z.len, 0)) s
/-- ZPOSL (R279). -/
def execZposl (_cs t : BitVec 1) (d a : BitVec 5) (s : State) : Out := lazyVec t d a (fun _ z => (z.pos.toNat % 2 ^ 32, 0)) s
/-- ZPOSH (R279). -/
def execZposh (_cs t : BitVec 1) (d a : BitVec 5) (s : State) : Out := lazyVec t d a (fun _ z => (z.pos.toNat / 2 ^ 32, 0)) s

/-- ZCNT (R277, R278): segments of 2^j elements, segment m with the real za[m]. -/
def execZcnt (_cs t : BitVec 1) (d a b : BitVec 5) (j : BitVec 3) (f : BitVec 1) (s : State) : Out :=
  let o := vreg d 32
  let src := vreg b (thresholdFmt f).bits
  let seg := 2 ^ j.toNat
  let segments (v : EpEnv) : List Nat := List.range ((v.vl + seg - 1) / seg)
  lazyWord (t == 1#1) (some o) [src] (fun v => [(a.toNat, segments v)]) s fun w v s =>
    let c := sources s v [src]
    let decisions (m : Nat) : List (Bool × Nat × Flags) :=
      (v.lives.filter fun e => e / seg == m).map fun e =>
        decideLt s.c.sys.seed (readZ1 s a.toNat m) ((thresholdFmt f).decode (c 0 e))
    let count (m : Nat) : Nat := (decisions m).countP fun r => !r.1 && r.2.2 == 0
    let kmax (m : Nat) : Nat := (decisions m).foldl (fun k r => max k r.2.1) 0
    let imgs := setElems (baseImages s w o) 32 v.rot count (segments v)
    let s1 := epDone w (finalTags v imgs fun _ => .general) s
    let s2 := setZs a.toNat v.rot (fun m => (readZ1 s a.toNat m).extend s.c.sys.seed (kmax m)) (segments v) s1
    .ok () (orFlags ((segments v).foldl (fun acc m => (decisions m).foldl (fun acc r => acc ||| r.2.2) acc) 0) s2)

/-- SLUICE_CALL (R270): the digits of a draw are a function of SEED, position and draw, so a call's completion changes no
state a program can see. -/
def execSluiceCall (_pos : Word) (_draw : Nat) (s : State) : Out := .next s

end Sys2Proof.Machine
end

