-- ==== Sys2Proof/Machine/Block.lean ====
section
/-!
DEFINITION. The block formats (R85 to R87) and encoding into them (R93). A block code is that of R79: 0 to 5 are the MX formats,
6 to 8 are dx4, dx6 and dx8.
-/

namespace Sys2Proof.Machine

/-- Elements that one scale covers (R85, R86). -/
def blockLen (b : Nat) : Nat := if 6 ≤ b then 256 else 32

/-- The element format of an MX format (R85). -/
def mxElem (b : Nat) : ElemFmt :=
  match b with
  | 0 => .flt fmtE2m1 | 1 => .flt fmtE2m3 | 2 => .flt fmtE3m2 | 3 => .flt fmtE4m3 | 4 => .flt fmtE5m2 | _ => .int 8 true

/-- emax of an MX format (R93). -/
def mxEmax (b : Nat) : Int :=
  match b with
  | 0 => 2 | 1 => 2 | 2 => 4 | 3 => 8 | 4 => 15 | _ => 0

/-- Element bits of a dx format (R86). -/
def dxWidth (b : Nat) : Nat := if b = 6 then 4 else if b = 7 then 6 else 8

/-- A value times 2^n. -/
def FVal.scale (x : FVal) (n : Int) : FVal :=
  match x with
  | .fin s m e => .fin s m (e + n)
  | y => y

/-- What a block's scale says: every element is NaN, perhaps because the scale is malformed; or an exponent. -/
inductive Scale where
  | nan (malformed : Bool)
  | exp (x : Int)
  deriving DecidableEq, Repr

/-- The 16-bit scale slot of a block (R85 to R87). -/
def scaleOf (b slot : Nat) : Scale :=
  if 6 ≤ b then
    (if 512 ≤ slot then .nan true else if slot = 511 then .nan false else .exp ((slot : Int) - 255))
  else if 256 ≤ slot then .nan true
  else if slot = 255 then .nan false
  else .exp ((slot : Int) - 127)

/-- An element of a block format: its value, and MALF when its scale is malformed. `sub` is its block's sub-exponent byte. -/
def blockValue (b slot sub bits : Nat) : FVal × Flags :=
  match scaleOf b slot with
  | .nan mal => (.nan, flagIf mal flagMALF)
  | .exp x =>
    if 6 ≤ b then
      let w := dxWidth b
      let sel := bits / 2 ^ (w - 2) % 2
      let e := if sel = 1 then sub / 16 else sub % 16
      (.fin (bits / 2 ^ (w - 1) % 2 == 1) (bits % 2 ^ (w - 2)) (x - e), 0)
    else (((mxElem b).decode bits).scale (if b = 5 then x - 6 else x), 0)

/-! Encoding (R93). -/

/-- ⌊log2⌋ of the largest magnitude of the finite, nonzero elements. -/
def maxLog (xs : List FVal) : Option Int :=
  xs.foldl (fun acc x =>
    match x with
    | .fin _ m e =>
      if m = 0 then acc
      else
        let l : Int := (Nat.log2 m : Nat) + e
        some (match acc with | none => l | some k => max k l)
    | _ => acc) none

def FVal.isNan (x : FVal) : Bool := x == .nan
def FVal.isInf : FVal → Bool
  | .inf _ => true
  | _ => false

def clampInt (v lo hi : Int) : Int := max lo (min hi v)

/-- The encoding of one element: its bits and flags, FP_TRAP, or the NaN of a whole dx super-block (R93). -/
inductive Coded where
  | bits (v : Nat) (f : Flags)
  | trap
  | superNan
  deriving DecidableEq, Repr

/-- A rounded element as a coded one. -/
def Rounded.coded (r : Rounded) : Coded :=
  match r with
  | some (v, f) => .bits v f
  | none => .trap

/-- The block is written as NaN by its scale because of its source elements (R93). -/
def nanByScale (b ovf : Nat) (xs : List FVal) : Bool :=
  xs.any FVal.isNan || (xs.any FVal.isInf && (ovf == 1 || ovf == 2) && b != 4)

/-- The flags of such a block. -/
def nanBlockFlags (ovf : Nat) (xs : List FVal) : Flags :=
  flagIf (xs.any FVal.isNan) flagNV ||| flagIf (xs.any FVal.isInf && (ovf == 1 || ovf == 2)) flagOF

/-- X of an MX block (R93). -/
def mxScale (b : Nat) (xs : List FVal) : Int :=
  match maxLog xs with
  | none => -127
  | some l => clampInt (l - mxEmax b) (-127) 127

/-- An element of an MX block: under policy 11 an infinite one traps, mxf8b's too (R93, first line). Under policy 00 an infinite element of
mxf8b is e5m2's infinity, without a flag: DESIGN CHOICE (log entry 103: R93 has it saturate under R91, which acts only where the destination
has no infinity). -/
def mxCode (b : Nat) (x : Int) (mode ovf r24 : Nat) (v : FVal) : Coded :=
  if ovf = 3 ∧ v.isInf then .trap
  else if b = 5 then (roundInt (-127) 127 8 mode ovf r24 (v.scale (6 - x))).coded
  else ((mxElem b).round mode ovf r24 (v.scale (-x))).coded

/-- S of a dx super-block, before its offset of 255 (R93): S − 255. -/
def dxScale (b : Nat) (xs : List FVal) : Int :=
  match maxLog xs with
  | none => -255
  | some l => clampInt (l - ((dxWidth b : Int) - 3)) (-255) 255

/-- e_a of a block of 32 (R93). -/
def dxEa (b : Nat) (s : Int) (xs : List FVal) : Nat :=
  match maxLog xs with
  | none => 15
  | some l => (clampInt (s - l + ((dxWidth b : Int) - 3)) 0 15).toNat

/-- e_b (R93). -/
def dxEb (b ea : Nat) : Nat := min 15 (ea + (dxWidth b - 2))

/-- An element of a dx super-block (R93). -/
def dxCode (b : Nat) (s : Int) (ea : Nat) (mode ovf r24 : Nat) (v : FVal) : Coded :=
  let w := dxWidth b
  let top := 2 ^ (w - 2) - 1
  let pack (neg : Bool) (sel m : Nat) : Nat := (if neg then 2 ^ (w - 1) else 0) + sel * 2 ^ (w - 2) + m
  let beyond (neg : Bool) (nx : Flags) : Coded :=
    match ovf with
    | 0 => .bits (pack neg 0 top) (flagSAT ||| flagOF ||| nx)
    | 3 => .trap
    | _ => .superNan
  match v with
  | .nan => .superNan
  | .inf neg => beyond neg 0
  | .fin neg m e =>
    let lost (k : Nat) (exact : Bool) : Flags := flagIf (!exact) flagNX ||| flagIf (m != 0 && k == 0) flagUF
    let fine := roundQuanta mode neg r24 m (e + dxEb b ea - s) 0
    if fine.1 ≤ top then .bits (pack neg 1 fine.1) (lost fine.1 fine.2)
    else
      let coarse := roundQuanta mode neg r24 m (e + ea - s) 0
      if coarse.1 ≤ top then .bits (pack neg 0 coarse.1) (lost coarse.1 coarse.2) else beyond neg flagNX

/-- An encoded block: its scale slot, its sub-exponent bytes, the code of each element, and flags that belong to the whole
block. -/
structure EncBlock where
  slot  : Nat
  subs  : List Nat
  codes : List Coded
  flags : Flags
  deriving DecidableEq, Repr

/-- A block or super-block written as NaN by its scale: every element 0 (R93). -/
def nanBlock (b : Nat) (n : Nat) (f : Flags) : EncBlock :=
  { slot := if 6 ≤ b then 511 else 255, subs := List.replicate 8 0, codes := List.replicate n (.bits 0 0), flags := f }

/-- The elements of a dx super-block cut into its blocks of 32. -/
def dxParts (xs : List FVal) : List (List FVal) := (List.range 8).map fun j => (xs.drop (32 * j)).take 32

/-- A dx super-block whose overflow under policy 01 or 10 makes the whole of it NaN (R93). -/
def dxOverflowNan (codes : List Coded) : Bool := codes.any (· == .superNan)

/-- One block of B elements, encoded (R93). `r24` gives Sluice's bits for an element of the block. Under policy 11 with an
infinite element the trap is its, even in a block that a NaN would make NaN; the elements below it in such a block are written 0
with no flag, which is DESIGN CHOICE (log entry 17: the manual does not say how they convert). -/
def encodeBlock (b mode ovf : Nat) (r24 : Nat → Nat) (xs : List FVal) : EncBlock :=
  let n := xs.length
  if nanByScale b ovf xs then
    let z := nanBlock b n (nanBlockFlags ovf xs)
    if ovf = 3 then { z with codes := xs.map fun x => if x.isInf then Coded.trap else .bits 0 0 } else z
  else if 6 ≤ b then
    let s := dxScale b xs
    let parts := dxParts xs
    let eas := parts.map (dxEa b s)
    let codes := xs.zipIdx.map fun x => dxCode b s (eas.getD (x.2 / 32) 15) mode ovf (r24 x.2) x.1
    if dxOverflowNan codes then nanBlock b n (flagOF ||| flagNX)
    else { slot := (s + 255).toNat, subs := eas.map fun a => a + 16 * dxEb b a, codes := codes, flags := 0 }
  else
    let x := mxScale b xs
    { slot := (x + 127).toNat, subs := List.replicate 8 0
      codes := xs.zipIdx.map fun v => mxCode b x mode ovf (r24 v.2) v.1, flags := 0 }

end Sys2Proof.Machine
end

