-- ==== Sys2Proof/Machine/VConv.lean ====
section
/-!
DEFINITION. The conversion words (R198 to R200), with the scale registers of the block forms (R87).
-/

namespace Sys2Proof.Machine

/-! Salt and mode at the instruction's place (R88, R92). -/

/-- The salt a conversion uses: the recorded one when it replays (R92). -/
def convSalt (s : State) : Nat :=
  match s.c.replaySalt with
  | some (pc, salt) => if replaying s && pc == s.c.pc then salt else saltOf s
  | none => saltOf s

/-- The salt was recorded when the word was first broadcast, so SALT does not advance again (R92). -/
def saltRecorded (s : State) : Bool :=
  match s.c.replaySalt with
  | some (pc, _) => replaying s && pc == s.c.pc
  | none => false

/-- Bits 23:0 of Sluice for element e (R92). -/
def convBits (s : State) (mode salt : Nat) (sbase : Word) (e : Nat) : Nat :=
  if mode = 4 then (sluice s.c.sys.seed 0 salt (sbase + BitVec.ofNat 64 e) 0).toNat % 2 ^ 24 else 0

/-- SALT after the word has been broadcast (R92). -/
def afterBroadcast (mode : Nat) (s : State) : State := if saltRecorded s then s else advanceSalt mode s

/-- A record of the salt for the word's replay, when it traps (R92). -/
def recordSalt (mode salt : Nat) (s : State) : State :=
  { s with c := { s.c with replaySalt := if mode = 4 then some (s.c.pc, salt) else none } }

/-! Traps at an element (R106, R200). -/

/-- The word stops at element e: the elements below it are complete and set their flags; nothing else happens (R106, R200). A
result with T = 1 stays in the bypass until the word replays. -/
def stopAt (w : EpWord) (imgs : List VReg) (any : Bool) (f : Flags) (s : State) : State :=
  let s1 :=
    if !any then s
    else if w.t then { s with c := { s.c with bypass := imgs } }.mark (.part s.c.levels.length)
    else match w.dst with
      | none => s
      | some d => writeGroup d.reg (imgs.map fun i => (i, Tag.general)) s
  orFlags f s1

/-- FP_TRAP at element e with the source element's bits (R91, R200). -/
def fpTrap (s : State) (e bits : Nat) : TrapInfo :=
  { s.trapInfo false 0x0C (BitVec.ofNat 64 bits) with telem := e, estart := e, inLane := true }

/-- Convert elements in order until one traps: images, flags, elements done, and where it stopped. -/
def convertUntil (v : EpEnv) (d : Opnd) (f : Nat → Rounded) : List Nat → List VReg × Flags × Bool → List VReg × Flags × Bool × Option Nat
  | [], acc => (acc.1, acc.2.1, acc.2.2, none)
  | e :: r, acc =>
    match f e with
    | none => (acc.1, acc.2.1, acc.2.2, some e)
    | some (b, fl) => convertUntil v d f r (setElem acc.1 d.width v.rot e b, acc.2.1 ||| fl, true)

/-- The bits of an element that its format has (R182). -/
def ElemFmt.size : ElemFmt → Nat
  | .int w _ => w
  | .flt f => f.bits

/-- An element-wise conversion: `f e` is the rounded element and `bits e` the source element's bits. -/
def convertWord (w : EpWord) (d : Opnd) (mode salt : Nat) (f : Nat → Rounded) (bits : Nat → Nat) (tag : Nat → Tag)
    (s : State) : Res Unit :=
  let v := epEnv s
  let r := convertUntil v d f v.todo (baseImages s w d, 0, false)
  match r.2.2.2 with
  | some e => .trap (fpTrap s e (bits e)) (stopAt w r.1 r.2.2.1 r.2.1 (recordSalt mode salt (afterBroadcast mode s)))
  | none =>
    let s1 := afterBroadcast mode s
    let s2 := orFlags r.2.1 (epDone w (finalTags v r.1 tag) s1)
    .ok () { s2 with c := { s2.c with replaySalt := none } }

/-- VCVT (R198): round_to of the exact value of each element. -/
def execVcvt (_cs t : BitVec 1) (d a : BitVec 5) (g h : BitVec 4) (o : BitVec 2) (r : BitVec 3) (s : State) : Out :=
  let dst := vreg d (plainWidth g)
  let src := vreg a (plainWidth h)
  let w : EpWord := { cls := .arith, t := t == 1#1, dst := some dst, reads := [src] }
  epWord w s fun s =>
    let v := epEnv s
    let mode := roundMode s r
    let salt := convSalt s
    let x := sources s v [src]
    let tags := [(readTags s src, src.width)]
    convertWord w dst mode salt
      (fun e => (plainFmt g).round mode o.toNat (convBits s mode salt v.sbase e) ((plainFmt h).decode (x 0 e)))
      (fun e => x 0 e % 2 ^ (plainFmt h).size)
      (fun k => resultTag (if mode = 4 then .general else .plain) v dst.width tags (fun _ => 0) k) s

/-! Scale registers (R87). -/

/-- Byte i of a scale register. -/
def scaleByte (k : VReg) (i : Nat) : Nat := (k.extractLsb' (8 * i) 8).toNat

/-- Scale register n. -/
def State.rk (s : State) (n : Nat) : VReg := nth s.c.k n 0

/-- Scale register n := v. -/
def State.wk (s : State) (n : Nat) (v : VReg) : State := { s with c := { s.c with k := upd s.c.k n v } }.mark (.k n)

/-- The 16-bit slot of block j. -/
def scaleSlot (k : VReg) (j : Nat) : Nat := scaleByte k (2 * j) + 256 * scaleByte k (2 * j + 1)

/-- N of R87: ⌈n ÷ B⌉. -/
def blocksFor (b n : Nat) : Nat := (n + blockLen b - 1) / blockLen b

/-- The sub-exponent byte of element e's block of 32, in a layout of N super-blocks (R87). -/
def scaleSub (k : VReg) (n e : Nat) : Nat := if 2 * n + e / 32 < 512 then scaleByte k (2 * n + e / 32) else 0

/-- The value of element e of a block-format operand with its scales in a k register laid out for N blocks (R85 to R87). -/
def scaledValue (b : Nat) (k : VReg) (n e bits : Nat) : FVal × Flags :=
  blockValue b (scaleSlot k (e / blockLen b)) (if 6 ≤ b then scaleSub k n e else 0) bits

/-- Write the scale slot of block j, and its sub-exponents for dx (R199). -/
def putScale (b n j : Nat) (z : EncBlock) (k : VReg) : VReg :=
  let k1 := setBits k 16 (16 * j) z.slot
  if 6 ≤ b then
    z.subs.zipIdx.foldl (fun k x => setBits k 8 (8 * (2 * n + 8 * j + x.2)) x.1) k1
  else k1

/-- The supplied count of scales (R199). -/
def suppliedCount (s : State) (required : Nat) : Nat :=
  let c := field s.c.sys.vfmt 20 8
  if c = 0 then required else c

/-- SCALE_COUNT (R102, R199). -/
def scaleCountTrap (s : State) (required supplied : Nat) : TrapInfo :=
  { s.trapInfo false 0x0B s.c.pc with taux0 := BitVec.ofNat 64 (required % 65536 * 65536 + supplied % 65536) }

/-- VFMT.KREG. -/
def kregNow (s : State) : Nat := field s.c.sys.vfmt 16 3

/-- Bits of an element of a block format (R85, R86). -/
def blockBits (b : Nat) : Nat := if 6 ≤ b then dxWidth b else (mxElem b).size

/-- The decoding form (R199): NaN by a malformed scale sets MALF. -/
def decodeBlocks (w : EpWord) (dst src : Opnd) (b mode salt ovf : Nat) (g : BitVec 4) (s : State) : Res Unit :=
  let v := epEnv s
  let x := sources s v [src]
  let k := s.rk (kregNow s)
  let n := blocksFor b v.vlmax
  convertWord w dst mode salt
    (fun e =>
      let y := scaledValue b k n e (x 0 e)
      ((plainFmt g).round mode ovf (convBits s mode salt v.sbase e) y.1).map fun r => (r.1, r.2 ||| y.2))
    (fun e => x 0 e % 2 ^ blockBits b) (fun _ => .general) s

/-- The encoded block j of the word: dead elements count as zero (R199). -/
def encodedBlock (s : State) (v : EpEnv) (b mode salt ovf : Nat) (val : Nat → FVal) (j : Nat) : EncBlock :=
  let base := j * blockLen b
  encodeBlock b mode ovf (fun i => convBits s mode salt v.sbase (base + i))
    ((List.range (blockLen b)).map fun i => if v.live (base + i) then val (base + i) else .fin false 0 0)

/-- The encoding form (R93, R199): elements and scales of the blocks up to the element that traps. -/
def encodeBlocks (w : EpWord) (dst src : Opnd) (b mode salt ovf : Nat) (h : BitVec 4) (s : State) : Res Unit :=
  let v := epEnv s
  let x := sources s v [src]
  let n := blocksFor b v.vlmax
  let encs := (List.range (blocksFor b v.vl)).map fun j =>
    encodedBlock s v b mode salt ovf (fun e => (plainFmt h).decode (x 0 e)) j
  let code (e : Nat) : Coded :=
    match encs[e / blockLen b]? with
    | some z => z.codes.getD (e % blockLen b) .trap
    | none => .trap
  let r := convertUntil v dst (fun e => match code e with | .bits y f => some (y, f) | _ => none) v.todo
    (baseImages s w dst, 0, false)
  let stop := match r.2.2.2 with | some e => e / blockLen b | none => encs.length
  let written := encs.zipIdx.filter fun z => decide (v.first / blockLen b ≤ z.2) && decide (z.2 < stop)
  let f := written.foldl (fun acc z => acc ||| z.1.flags) r.2.1
  let kn := kregNow s
  let putAll (s : State) : State :=
    if written.isEmpty then s else s.wk kn (written.foldl (fun k z => putScale b n z.2 z.1 k) (s.rk kn))
  let s1 := putAll (afterBroadcast mode s)
  match r.2.2.2 with
  | some e => .trap (fpTrap s e (x 0 e)) (stopAt w r.1 r.2.2.1 f (recordSalt mode salt s1))
  | none =>
    let s2 := orFlags f (epDone w (finalTags v r.1 fun _ => .general) s1)
    .ok () { s2 with c := { s2.c with replaySalt := none } }

/-- VCVT_BLOCK (R199): dfmt 0xD to 0xF decodes, and otherwise the word encodes. VFMT.BLK must name the block format. -/
def execVcvtBlock (_cs t : BitVec 1) (d a : BitVec 5) (g h : BitVec 4) (o : BitVec 2) (r : BitVec 3) (s : State) : Out :=
  let dec := fmtFloat g
  let b := (if dec then h else g).toNat
  let dst := vreg d (if dec then plainWidth g else blockWidth b)
  let src := vreg a (if dec then blockWidth b else plainWidth h)
  let w : EpWord :=
    { cls := .arith, t := t == 1#1, dst := some dst, reads := [src], bad := field s.c.sys.vfmt 12 4 != b + 1 }
  epWord w s fun s =>
    let mode := roundMode s r
    let salt := convSalt s
    let required := blocksFor b (vlNow s)
    let supplied := suppliedCount s required
    if supplied ≠ required then
      .trap (scaleCountTrap s required supplied) (recordSalt mode salt (afterBroadcast mode s))
    else if dec then decodeBlocks w dst src b mode salt o.toNat g s
    else encodeBlocks w dst src b mode salt o.toNat h s

end Sys2Proof.Machine
end

