-- ==== Sys2Proof/Machine/Dot.lean ====
section
/-!
DEFINITION. The arithmetic of the matrix unit: the operand formats (R235), the places of operand A (R237, R239), the columns of
operand B (R238), 2:4 compression (R254), and the summation of dot products (R98, R241).
-/

namespace Sys2Proof.Machine

/-! Formats (R79, R235). -/

/-- A matrix format code's block code, when it carries scales (R79). -/
def matBlockCode (f : BitVec 5) : Option Nat := if matBlock f then some (f.toNat - 11) else none

/-- The element format of a plain matrix code. -/
def matElem (f : BitVec 5) : ElemFmt :=
  match f.toNat with
  | 0 => .int 4 true | 1 => .int 4 false | 2 => .int 8 true | 3 => .int 8 false
  | 4 => .flt fmtE2m1 | 5 => .flt fmtE2m3 | 6 => .flt fmtE3m2 | 7 => .flt fmtE4m3 | 8 => .flt fmtE5m2
  | 9 => .flt fmtF16 | _ => .flt fmtBf16

/-- Bits of an element in memory: w′ (R235). -/
def matBits (f : BitVec 5) : Nat :=
  match matBlockCode f with
  | some b => blockBits b
  | none => (matElem f).size

/-- Container width in registers: w (R235). -/
def matWidth (f : BitVec 5) : Nat := if matBits f = 6 then 8 else matBits f

/-- Kmax (R235). -/
def kMax (f : BitVec 5) : Nat := 512 / matWidth f

/-- Class I: the accumulator is i32 (R235). -/
def matInt (f : BitVec 5) : Bool := matClass f == some 0

/-- The required count of scales for K elements (R240). -/
def scalesNeeded (f : BitVec 5) (k : Nat) : Nat :=
  match matBlockCode f with
  | some b => (k + blockLen b - 1) / blockLen b
  | none => 0

/-- A logical element of an operand: its value, and whether it is stored rather than a zero of 2:4 compression. -/
abbrev MElem := FVal × Bool

/-! Operand A in the lanes (R237, R239). -/

/-- nA: the smallest of 1, 2, 4 and 8 registers that hold Ks elements a row (R237). -/
def regsForA (w ks : Nat) : Nat :=
  let s := 64 / w
  if ks ≤ s then 1 else if ks ≤ 2 * s then 2 else if ks ≤ 4 * s then 4 else 8

/-- a_loc of R237: register offset, and lowest bit in the register. -/
def aLoc (w nA i k : Nat) : Nat × Nat :=
  let half := 64 / w / 2
  let kh := half * nA
  let j := i / 16
  let u := i % 16 / 8
  let q := i % 8
  let h := k / kh
  let kk := k % kh
  (kk / half, 64 * (16 * j + 8 * h + q) + w * (u * half + kk % half))

/-- The bits of stored element (i, k). -/
def aBits (imgs : List VReg) (w nA i k : Nat) : Nat :=
  let l := aLoc w nA i k
  ((imgs.getD l.1 0).extractLsb' l.2 w).toNat

/-- Byte t of the string of scale registers from k[kreg] (R239). -/
def scaleString (k : Vector VReg 8) (kreg t : Nat) : Nat := scaleByte (nth k (kreg + t / 512) 0) (t % 512)

/-- Registers that the scales of A take (R239). -/
def scaleRegs (f : BitVec 5) (mr nsa : Nat) : Nat :=
  match matBlockCode f with
  | some b => (mr * nsa * (if 6 ≤ b then 10 else 2) + 511) / 512
  | none => 0

/-- The value of element (i, k) of A with its scale (R239, R241). -/
def aValue (f : BitVec 5) (imgs : List VReg) (ks : Vector VReg 8) (kreg mr nsa nA i k : Nat) : FVal × Flags :=
  let bits := aBits imgs (matWidth f) nA i k
  match matBlockCode f with
  | none => ((matElem f).decode bits, 0)
  | some b =>
    let t := i * nsa + k / blockLen b
    let slot := scaleString ks kreg (2 * t) + 256 * scaleString ks kreg (2 * t + 1)
    let sub := if 6 ≤ b then scaleString ks kreg (2 * (mr * nsa) + 8 * t + k % 256 / 32) else 0
    blockValue b slot sub bits

/-! Columns of B (R238). -/

/-- Column size CS (R238). -/
def columnSize (f : BitVec 5) (k : Nat) (sparse : Bool) : Nat :=
  let w := matBits f
  if sparse then (k * w + 15) / 16 + (k + 7) / 8
  else match matBlockCode f with
    | none => (k * w + 7) / 8
    | some b => if 6 ≤ b then 32 * w + 10 else (k + 31) / 32 * (4 * w + 1)

/-- Element k of a dense column given as a little-endian number (R238). -/
def bValue (f : BitVec 5) (kTotal col k : Nat) : FVal × Flags :=
  let w := matBits f
  let bits := col / 2 ^ (w * k) % 2 ^ w
  match matBlockCode f with
  | none => ((matElem f).decode bits, 0)
  | some b =>
    if 6 ≤ b then
      let sub := col / 2 ^ (8 * (32 * w + k / 32)) % 256
      let slot := col / 2 ^ (8 * (32 * w + 8)) % 65536
      blockValue b slot sub bits
    else
      let slot := col / 2 ^ (8 * (4 * w * ((kTotal + 31) / 32) + k / 32)) % 256
      blockValue b slot 0 bits

/-! 2:4 compression (R254). -/

/-- The four logical elements of a group from its stored values and indices, with MALF when x ≥ y. -/
def expandGroup (v0 v1 : FVal) (x y : Nat) : List MElem × Flags :=
  let bad := decide (y ≤ x)
  ((List.range 4).map fun n =>
      if n = x then (v0, true) else if !bad && n = y then (v1, true) else (.fin false 0 0, false)
    , flagIf bad flagMALF)

/-- The logical elements of compressed data with K ÷ 4 groups: `val t` is stored value t and `idx t` its index. -/
def expand (val : Nat → FVal) (idx : Nat → Nat) (k : Nat) : List MElem × Flags :=
  (List.range (k / 4)).foldl (fun acc g =>
    let e := expandGroup (val (2 * g)) (val (2 * g + 1)) (idx (2 * g)) (idx (2 * g + 1))
    (acc.1 ++ e.1, acc.2 ||| e.2)) ([], 0)

/-! Rows and columns as lists of logical elements, with the flags of reading them. -/

/-- Values and their flags gathered. -/
def gatherElems (f : Nat → FVal × Flags) (k : Nat) : List MElem × Flags :=
  (List.range k).foldl (fun acc i => let v := f i; (acc.1 ++ [(v.1, true)], acc.2 ||| v.2)) ([], 0)

/-- Row i of a dense A. -/
def denseRow (f : BitVec 5) (imgs : List VReg) (ks : Vector VReg 8) (kreg mr nsa nA k i : Nat) : List MElem × Flags :=
  gatherElems (aValue f imgs ks kreg mr nsa nA i) k

/-- Row i of a compressed A: the index of a stored value stands at its lane and slot in the registers after A's (R254). -/
def sparseRow (f : BitVec 5) (imgs idx : List VReg) (nA k i : Nat) : List MElem × Flags :=
  let w := matWidth f
  expand (fun t => (matElem f).decode (aBits imgs w nA i t))
    (fun t =>
      let l := aLoc w nA i t
      let slot := l.2 % 64 / w
      ((idx.getD l.1 0).extractLsb' (l.2 / 64 * 64 + 2 * slot) 2).toNat) k

/-- Column c of the tile. -/
def tileColumn (t : Tile) (c : Nat) : List MElem × Flags :=
  let col := t.cols.getD c 0
  let w := matBits t.fb
  if t.sparse then
    let base := 8 * ((t.K * w + 15) / 16)
    expand (fun n => (matElem t.fb).decode (col / 2 ^ (w * n))) (fun n => col / 2 ^ (base + 2 * n) % 4) t.K
  else gatherElems (bValue t.fb t.K col) t.K

/-! Dot products (R98). -/

/-- The exact sum of one group. A product with a zero of 2:4 compression adds nothing (R254). -/
def groupSum (a b : List MElem) : FVal × Flags :=
  let r := (a.zip b).foldl (fun (acc : ExactSum × Flags) p =>
    if p.1.2 && p.2.2 then
      let q := mulV p.1.1 p.2.1
      (acc.1.add q.1, acc.2 ||| q.2)
    else (acc.1.add (.fin false 0 0), acc.2)) (ExactSum.empty, 0)
  let v := r.1.value true
  (v.1, v.2 ||| r.2)

/-- The integer of a finite integral value. -/
def intOf (v : FVal) : Int :=
  match v with
  | .fin s m _ => if s then -(m : Int) else m
  | _ => 0

/-- The exact integer sum of one group. -/
def groupSumInt (a b : List MElem) : Int := (a.zip b).foldl (fun acc p => acc + intOf p.1.1 * intOf p.2.1) 0

/-- `n` groups of 32 into an f32 accumulator. -/
def dotFloat : Nat → Nat → List MElem → List MElem → Nat × Flags
  | 0, acc, _, _ => (acc, 0)
  | n + 1, acc, a, b =>
    let g := groupSum (a.take 32) (b.take 32)
    let s := addV (fmtF32.decode acc) g.1
    let r := fmtF32.rne (s.1, s.2 ||| g.2)
    let z := dotFloat n r.1 (a.drop 32) (b.drop 32)
    (z.1, r.2 ||| z.2)

/-- `n` groups of 32 into an i32 accumulator. -/
def dotInt : Nat → Nat → List MElem → List MElem → Nat × Flags
  | 0, acc, _, _ => (acc, 0)
  | n + 1, acc, a, b =>
    let v := toSigned 32 acc + groupSumInt (a.take 32) (b.take 32)
    let z := dotInt n (wrapTo 32 v) (a.drop 32) (b.drop 32)
    (z.1, flagIf (decide (v < -(2 ^ 31)) || decide (2 ^ 31 ≤ v)) flagMXOV ||| z.2)

/-- dot(acc, i, c, K) (R241). -/
def dotElem (int : Bool) (acc k : Nat) (a b : List MElem) : Nat × Flags :=
  let n := (k + 31) / 32
  if int then dotInt n acc a b else dotFloat n acc a b

/-- Column c of an accumulator row (R234). -/
def accElem (row : VReg) (c : Nat) : Nat := (row.extractLsb' (32 * c) 32).toNat

/-- A row of 128 columns. -/
def accRow (f : Nat → Nat) : VReg :=
  BitVec.ofNat 4096 ((List.range 128).foldl (fun acc c => acc + f c % 2 ^ 32 * 2 ^ (32 * c)) 0)

/-- One accumulator row after an issue, with its flags (R253). -/
def mulRow (int z : Bool) (k : Nat) (a : List MElem) (cols : List (List MElem)) (row : VReg) : VReg × Flags :=
  let out := cols.zipIdx.map fun c => dotElem int (if z then 0 else accElem row c.2) k a c.1
  (accRow fun c => (out.getD c (0, 0)).1, out.foldl (fun f x => f ||| x.2) 0)

/-- The product of rows fr to fr + cnt − 1 with a tile into a working bank: `rows i` is row i of A (R253). -/
def mulTile (int z : Bool) (t : Tile) (rows : Nat → List MElem × Flags) (fr cnt : Nat) (W : List VReg) : List VReg × Flags :=
  let cols := (List.range 128).map (tileColumn t)
  let flags := cols.foldl (fun f c => f ||| c.2) (0 : Flags)
  let cs := cols.map (·.1)
  (List.range cnt).foldl (fun acc n =>
    let a := rows (fr + n)
    let r := mulRow int z t.K a.1 cs (acc.1.getD (fr + n) 0)
    (acc.1.set (fr + n) r.1, acc.2 ||| a.2 ||| r.2)) (W, flags)

end Sys2Proof.Machine
end

