-- ==== Sys2Proof/Machine/Matrix.lean ====
section
/-!
DEFINITION. The matrix unit's words and steps: attachment (R249, R250), tiles and the matrix counter (R246, R252), issues (R253 to
R258), and the accumulators' banks (R259 to R261).
-/

namespace Sys2Proof.Machine

/-- One vector register, whatever VFMT holds. -/
def oneReg (n : Nat) : Opnd := { reg := n, width := 0 }

def State.withMat (s : State) (m : MatrixState) : State := { s with c := { s.c with mat := m } }

/-- Accumulator m. -/
def accAt (s : State) (m : Nat) : Acc := nth s.c.mat.acc m { W := [], V := [] }

/-- Accumulator m replaced, and noted as written (R112). -/
def withAcc (s : State) (m : Nat) (a : Acc) : State := (s.withMat { s.c.mat with acc := upd s.c.mat.acc m a }).mark (.acc m)

/-- NOT_ATTACHED (R245). -/
def notAttached (s : State) : TrapInfo := s.trapInfo false 0x15 s.c.pc

/-- Four issues have begun and not completed (R243). -/
def issuesFull (s : State) : Bool := decide (4 ≤ s.c.mat.issues.length)

/-- Rows 1 to 3 of R245 for a word that needs the attachment or not and can follow a PFX or not, and then the word's own rows 4 and 5. -/
def matRows (needAtt pfxOk : Bool) (own : State → Option TrapInfo) (s : State) : Option TrapInfo :=
  if s.c.vloop.active || (s.c.pfxLive && !pfxOk) then some (s.illegal false)
  else if needAtt && !attached s then some (notAttached s)
  else own s

/-- A matrix word: the checks of R67, then those of R245, `own` being its rows 4 and 5, all of them before it waits for a hold. A further
issue waits with reason 14 while four have begun (R243). -/
def matWord (reads : List Opnd) (dst : Option Opnd) (needAtt pfxOk : Bool) (own : State → Option TrapInfo) (s : State)
    (k : EpWord → State → Res Unit) : Out :=
  let w : EpWord := { cls := .matrix, dst := dst, reads := reads }
  epChecked w (matRows needAtt pfxOk own) s fun s => if needAtt && issuesFull s then .wait 14 s else k w s

/-- A word without fields that depend on state and without scale counts (R245 rows 4 and 5). -/
def noRows (_ : State) : Option TrapInfo := none

/-- The word completes with no vector result. -/
def matDone (w : EpWord) (s : State) : Res Unit := .ok () (epDone w [] s)

/-! Attachment. -/

/-- Blocks that are free and not held back (R249). -/
def freeBlocks (s : State) : List Nat := (List.range 4).filter fun b => !(blocksTaken s).testBit b

/-- Attach with the lowest-numbered free blocks: every bank zero, no tile, nothing recorded (R249). The banks
are written (R112); what a fatal event makes undefined is not GRANT, which changes only as R233 says (log entry 8). -/
def attach (blocks : List Nat) (s : State) : State :=
  let mr := 16 * blocks.length
  let map := blocks.foldl (fun m b => m + 2 ^ b) 0
  let zeros := List.replicate mr (0 : VReg)
  let s1 := s.withMat { MatrixState.detached with mr := mr, acc := Vector.replicate 4 { W := zeros, V := zeros } }
  ((List.range 4).map RegName.acc).foldl State.mark (s1.withSys { s1.c.sys with grant := BitVec.ofNat 64 (2 ^ 15 + map * 256 + mr) })

/-- MATT and MATT_FULL are illegal while attached (R249). -/
def detachedRow (s : State) : Option TrapInfo := if attached s then some (s.illegal false) else none

/-- MATT (R249): as many of the b blocks as are free; none leaves the context unattached. -/
def execMatt (_cs : BitVec 1) (n : BitVec 2) (s : State) : Out :=
  matWord [] none false false detachedRow s fun w s =>
    let got := (freeBlocks s).take (n.toNat + 1)
    if got.isEmpty then matDone w (s.withSys { s.c.sys with grant := 0 }) else matDone w (attach got s)

/-- MATT_FULL (R249): it waits with reason 14 until b blocks are free. -/
def execMattFull (_cs : BitVec 1) (n : BitVec 2) (s : State) : Out :=
  matWord [] none false false detachedRow s fun w s =>
    let free := freeBlocks s
    if free.length < n.toNat + 1 then .wait 14 s else matDone w (attach (free.take (n.toNat + 1)) s)

/-- MATT_FULL_GRANT (R249): `held` is what the quad's other contexts now hold or have had reserved; the waiting word takes its
blocks when it issues again. -/
def execMattFullGrant (held : BitVec 4) (s : State) : Out :=
  .next { s with quadHeld := held &&& ~~~ (BitVec.ofNat 4 (rbmapOf s.c)) }

/-- MDET (R250): waits for the older issues, releases the tile, and detaches. -/
def execMdet (_cs : BitVec 1) (s : State) : Out :=
  matWord [] none false false noRows s fun w s =>
    if !attached s then matDone w s
    else if !s.c.mat.issues.isEmpty then .wait 14 s
    else (releaseCheck s (s.trapInfo false 0 0)).bind fun loc s1 => matDone w (detach (releaseTile loc s1))

/-! Memory on the MATRIX path (R246). -/

/-- A piece of a span: its translation and its length. -/
abbrev SpanPart := Xlat × Nat

/-- Check a span of bytes, sector by sector (R42, R46). -/
def checkSpan (s : State) (h : List Nat) (p : Int) (n : Nat) (k : AccKind) (t : TrapInfo) : Res (List SpanPart) :=
  go (piecesFrom (fun o => p + (o : Nat)) (max n 1) false 24 0 n) s
where
  go : List Piece → State → Res (List SpanPart)
    | [], s => .ok [] s
    | x :: r, s =>
      (engineCheck .matrix s h (wordOf x.va) x.len k (!s.prv) t).bind fun l s1 =>
        (go r s1).bind fun rest s2 => .ok ((l, x.len) :: rest) s2

/-- Record a span's accesses (R47). -/
def recordSpan (k : AccKind) (ps : List SpanPart) (s : State) : List Nat × State :=
  ps.foldl (fun acc p => let r := engineRecord acc.2 .matrix p.1 p.2 k; (r.1 ++ acc.1, r.2)) ([], s)

/-- The bytes of a span, memory's or those of a block (R38). -/
def spanBytes (s : State) (ps : List SpanPart) : List Byte := ps.flatMap fun p => busBytes s p.1.loc p.2

/-- The location of each byte of a span. -/
def spanLocs (ps : List SpanPart) : List Nat := ps.flatMap fun p => (List.range p.2).map (p.1.loc + ·)

/-- Check the spans of a list of addresses in order; `t i` is the trap record of span i. -/
def checkSpans (s : State) (h : List Nat) (n : Nat) (k : AccKind) (t : Nat → TrapInfo) : List (Nat × Int) → State → Res (List (List SpanPart))
  | [], s1 => .ok [] s1
  | (i, p) :: r, s1 =>
    (checkSpan s1 h p n k (t i)).bind fun x s2 => (checkSpans s h n k t r s2).bind fun l s3 => .ok (x :: l) s3

/-- Column addresses of a tile (R238). -/
def columnAddrs (p pitch : Int) : List (Nat × Int) := (List.range 128).map fun c => (c, p + (c : Int) * pitch)

/-- A shape of a B load (R238). -/
def shapeK (d : DReg) : Nat := d.len.toNat % 65536
def shapeNsb (d : DReg) : Nat := d.len.toNat / 65536 % 256
def shapeNsa (d : DReg) : Nat := d.len.toNat / 16777216
def shapePitch (d : DReg) : Int := d.stride.toInt

/-- K breaks R236 for fb. -/
def badK (f : BitVec 5) (k : Nat) (sparse : Bool) : Bool :=
  if sparse then k % 4 != 0 || decide (kMax f < k / 2) else k == 0 || decide (kMax f < k)

/-- SCALE_COUNT when the counts differ (R240). -/
def countCheck (s : State) (required supplied : Nat) : Option TrapInfo :=
  if required = supplied then none else some (scaleCountTrap s required supplied)

/-- The checks that a recorded B shape takes: K (LIMIT), then the B count (R240, R252). -/
def shapeCheck (s : State) (f : BitVec 5) (d : DReg) (sparse : Bool) : Option TrapInfo :=
  if badK f (shapeK d) sparse then some (s.trapInfo false 0x06 (d.len.zeroExtend 64))
  else countCheck s (scalesNeeded f (shapeK d)) (shapeNsb d)

/-- The tile that checked columns hold, and the record of its reads. -/
def readTile (s : State) (p : Int) (d : DReg) (f : BitVec 5) (sparse : Bool) (cols : List (List SpanPart)) : Tile × State :=
  let r := cols.foldl (fun (acc : List Nat × State) ps => let x := recordSpan .read ps acc.2; (x.1 ++ acc.1, x.2)) ([], s)
  ({ addr := wordOf p, K := shapeK d, nsb := shapeNsb d, nsa := shapeNsa d, pitch := shapePitch d, fb := f, sparse := sparse
     cols := cols.map fun ps => leNat (spanBytes s ps), ids := r.1, prior := hSet s .matrix }, r.2)

/-- An issue's memory writes and increment become pending (R243). -/
def pushIssue (writes : List (Nat × Byte)) (ctr : Option Counter) (ids : List Nat) (prior : List Nat) (s : State) : State :=
  let i : MIssue := { pc := s.c.pc, writes := writes, ctr := ctr.map (·.1), prior := prior, ids := ids ++ (ctr.elim [] (·.2)) }
  if writes.isEmpty && ctr.isNone then s else s.withMat { s.c.mat with issues := s.c.mat.issues ++ [i] }

/-- Before a word of the unit reads memory, the context's buffered stores are committed and its older issues are complete (R44, R243). -/
def memoryPhase (s : State) : State := finishIssues (commitStores s)

/-- A trap record at a column, row or group (R252, R256, R260). -/
def matTrap (s : State) (cause : BitVec 8) (tval : Word) (e : Nat) : TrapInfo :=
  { s.trapInfo false cause tval with telem := e, estart := e }

/-- {L, E} and the bounds of a tile's 128 columns (R252). -/
def tileBounds (r : AReg) (p : Int) (f : BitVec 5) (k : Nat) (pitch : Int) (sparse : Bool) : Option Int :=
  boxCheckAt r { l := true, e := true } p (columnSize f k sparse) 128 pitch 1 0

/-- MLDB and MLDB_SP (R252). -/
def loadTile (a : BitVec 5) (k : BitVec 3) (f : BitVec 5) (sparse : Bool) (s : State) : Out :=
  matWord [] none true false noRows s fun w s =>
    let r := s.ra a.toNat
    let d := s.rd k.toNat
    match shapeCheck s f d sparse with
    | some t => .trap t s
    | none =>
      match tileBounds r r.ptr.toNat f (shapeK d) (shapePitch d) sparse with
      | some p => .trap (s.trapInfo false 0x07 (wordOf p)) s
      | none =>
        (checkSpans s (hSet s .matrix) (columnSize f (shapeK d) sparse) .read (matTrap s 0 0)
            (columnAddrs r.ptr.toNat (shapePitch d)) s).bind fun cols s1 =>
          (releaseCheck s1 (s.trapInfo false 0 0)).bind fun loc s2 =>
            let s3 := releaseTile loc (memoryPhase s2)
            let (tile, s4) := readTile s3 r.ptr.toNat d f sparse cols
            matDone w (s4.withMat { s4.c.mat with tile := some tile })

/-- MLDB (R252). -/
def execMldb (_cs : BitVec 1) (a : BitVec 5) (k : BitVec 3) (h : BitVec 5) (s : State) : Out := loadTile a k h false s
/-- MLDB_SP (R252). -/
def execMldbSp (_cs : BitVec 1) (a : BitVec 5) (k : BitVec 3) (h : BitVec 5) (s : State) : Out := loadTile a k h true s

/-- MCTR (R251). -/
def execMctr (_cs : BitVec 1) (a : BitVec 5) (s : State) : Out :=
  matWord [] none true false noRows s fun w s =>
    let r := s.ra a.toNat
    match counterChecks r with
    | some (cause, tval) => .trap (s.trapInfo false cause tval) s
    | none => matDone w (s.withMat { s.c.mat with ctr := some r.ptr })

/-- MSWAP (R259). -/
def execMswap (_cs : BitVec 1) (m : BitVec 2) (s : State) : Out :=
  matWord [] none true false noRows s fun w s =>
    let x := accAt s m.toNat
    matDone w (withAcc s m.toNat { W := x.V, V := x.W })

/-- MMOV (R261): one register from a row of the visible bank. -/
def execMmov (_cs : BitVec 1) (m : BitVec 2) (d r j : BitVec 5) (s : State) : Out :=
  let dst := oneReg d.toNat
  let row := r.toNat + 32 * j.toNat
  matWord [] (some dst) true true (fun s => if s.c.mat.mr ≤ row then some (s.illegal false) else none) s fun w s =>
    let src := (accAt s m.toNat).V.getD row 0
    let es := (List.range 128).filter fun c => (lentMask s).getLsbD c
    let imgs := setElems [nth s.c.v d.toNat 0] 32 0 (accElem src) es
    .ok () (epDone w (imgs.map fun i => (i, Tag.general)) s)

/-- MST (R260). -/
def execMst (_cs : BitVec 1) (m : BitVec 2) (a : BitVec 5) (k : BitVec 3) (s : State) : Out :=
  matWord [] none true false noRows s fun w s =>
    let r := s.ra a.toNat
    let d := s.rd k.toNat
    let cnt := d.len.toNat % 65536
    let fr := d.len.toNat / 65536
    let pitch := d.stride.toInt
    if cnt = 0 ∨ s.c.mat.mr < fr + cnt then .trap (s.trapInfo false 0x06 (d.len.zeroExtend 64)) s
    else match boxCheck r { s := true, e := true } 512 cnt pitch 1 0 with
      | some p => .trap (s.trapInfo false 0x07 (wordOf p)) s
      | none =>
        if r.ptr.toNat % 4 ≠ 0 ∨ pitch % 4 ≠ 0 then .trap (s.trapInfo false 0x05 r.ptr) s
        else
          let rows := (List.range cnt).map fun n => (fr + n, (r.ptr.toNat : Int) + (n : Int) * pitch)
          (checkSpans s (hSet s .matrix) 512 .write (matTrap s 0 0) rows s).bind fun ps s1 =>
            (matrixCounter s1 (s.trapInfo false 0 0)).bind fun loc s2 =>
              let rec_ := ps.foldl (fun (acc : List Nat × State) x => let y := recordSpan .write x acc.2; (y.1 ++ acc.1, y.2)) ([], s2)
              let V := (accAt s m.toNat).V
              let writes := ps.zipIdx.flatMap fun x => (spanLocs x.1).zip (leBytes 512 (V.getD (fr + x.2) 0).toNat)
              matDone w (pushIssue writes loc rec_.1 (hSet s .matrix) (commitStores rec_.2))

/-! Issues. -/

/-- Check 4 of R245 for operand A in the lanes: K, the alignment of va, and the span of k registers (R236, R237, R239). -/
def operandAOk (f : BitVec 5) (va kreg : Nat) (mr nsa k : Nat) (sparse : Bool) : Bool :=
  let ks := if sparse then k / 2 else k
  let nA := regsForA (matWidth f) ks
  decide (ks ≤ kMax f) && va % (if sparse then 2 * nA else nA) == 0 && decide (kreg + scaleRegs f mr nsa ≤ 8)

/-- The registers of operand A (R237, R254). -/
def regsA (f : BitVec 5) (va k : Nat) (sparse : Bool) : List Opnd :=
  let nA := regsForA (matWidth f) (if sparse then k / 2 else k)
  (List.range (if sparse then 2 * nA else nA)).map fun i => oneReg ((va + i) % 32)

/-- The images of operand A's registers. -/
def imagesA (s : State) (va n : Nat) : List VReg := (List.range n).map fun i => (readV s (va + i)).1

/-- The rows of a dense A in the lanes. -/
def rowsA (s : State) (f : BitVec 5) (va kreg nsa k : Nat) : Nat → List MElem × Flags :=
  let nA := regsForA (matWidth f) k
  let imgs := imagesA s va nA
  denseRow f imgs s.c.k kreg s.c.mat.mr nsa nA k

/-- The rows of a compressed A. -/
def rowsSparse (s : State) (f : BitVec 5) (va k : Nat) : Nat → List MElem × Flags :=
  let nA := regsForA (matWidth f) (k / 2)
  sparseRow f (imagesA s va nA) (imagesA s (va + nA) nA) nA k

/-- An issue over whole banks: every row of m[macc].W (R253). -/
def issueAll (w : EpWord) (m : BitVec 2) (f : BitVec 5) (z : BitVec 1) (t : Tile) (rows : Nat → List MElem × Flags) (s : State) : State :=
  let x := accAt s m.toNat
  let r := mulTile (matInt f) (z == 1#1) t rows 0 s.c.mat.mr x.W
  orFlags r.2 (epDone w [] (withAcc s m.toNat { x with W := r.1 }))

/-- The tile as a dense or sparse issue of format fb needs it (R245). -/
def tileFor (s : State) (h : BitVec 5) (sparse : Bool) : Option Tile :=
  match s.c.mat.tile with
  | some t => if t.fb = h && t.sparse == sparse then some t else none
  | none => none

/-- K of the shape in force for an issue's operands, when there is one. -/
def tileK (s : State) : Nat := match s.c.mat.tile with | some t => t.K | none => 1

/-- Rows 4 and 5 of R245 for an issue with A in the lanes and the tile: it is there in the format and kind that the word needs, A's fields
fit it, and its A count is right. -/
def tileRows (g h : BitVec 5) (va kreg : Nat) (sparse : Bool) (s : State) : Option TrapInfo :=
  match tileFor s h sparse with
  | none => some (s.illegal false)
  | some t =>
    if !operandAOk g va kreg s.c.mat.mr t.nsa t.K sparse then some (s.illegal false)
    else countCheck s (if sparse then 0 else scalesNeeded g t.K) t.nsa

/-- An issue with the tile that its checks have found. -/
def withTile (s : State) (h : BitVec 5) (sparse : Bool) (k : Tile → Res Unit) : Res Unit :=
  match tileFor s h sparse with
  | none => .trap (s.illegal false) s
  | some t => k t

/-- MMA (R253). -/
def execMma (_cs : BitVec 1) (m : BitVec 2) (a : BitVec 5) (k : BitVec 3) (g h : BitVec 5) (z : BitVec 1) (s : State) : Out :=
  matWord (regsA g a.toNat (tileK s) false) none true false (tileRows g h a.toNat k.toNat false) s fun w s =>
    withTile s h false fun t => .ok () (issueAll w m g z t (rowsA s g a.toNat k.toNat t.nsa t.K) s)

/-- MMASP (R254). -/
def execMmasp (_cs : BitVec 1) (m : BitVec 2) (a g h : BitVec 5) (z : BitVec 1) (s : State) : Out :=
  matWord (regsA g a.toNat (tileK s) true) none true false (tileRows g h a.toNat 0 true) s fun w s =>
    withTile s h true fun t => .ok () (issueAll w m g z t (rowsSparse s g a.toNat t.K) s)

/-- One element through the down-converter to a plain format, rnd 000 and ovf 00 (R255). -/
def downElem (f : BitVec 5) (int : Bool) (bits : Nat) : FVal × Flags :=
  let x := if int then (ElemFmt.int 32 true).decode bits else fmtF32.decode bits
  match (matElem f).round 0 0 0 x with
  | some r => ((matElem f).decode r.1, r.2)
  | none => (.nan, 0)

/-- The flags of an encoded block. -/
def encFlags (z : EncBlock) : Flags :=
  z.codes.foldl (fun f c => match c with | .bits _ x => f ||| x | _ => f) z.flags

/-- A row of the visible bank as operand A (R255). -/
def bankRow (f : BitVec 5) (k : Nat) (row : VReg) : List MElem × Flags :=
  match matBlockCode f with
  | none => gatherElems (fun i => downElem f (matInt f) (accElem row i)) k
  | some b =>
    let len := blockLen b
    let encs := (List.range ((k + len - 1) / len)).map fun j =>
      encodeBlock b 0 0 (fun _ => 0) ((List.range len).map fun i =>
        if j * len + i < k then fmtF32.decode (accElem row (j * len + i)) else .fin false 0 0)
    let r := gatherElems (fun i =>
      match encs[i / len]? with
      | some z =>
        match z.codes.getD (i % len) .trap with
        | .bits v _ => blockValue b z.slot (z.subs.getD (i % len / 32) 0) v
        | _ => (.nan, 0)
      | none => (.nan, 0)) k
    (r.1, encs.foldl (fun f z => f ||| encFlags z) r.2)

/-- Rows 4 and 5 of R245 for an issue with A in a visible bank. -/
def bankRows (g h : BitVec 5) (s : State) : Option TrapInfo :=
  match tileFor s h false with
  | none => some (s.illegal false)
  | some t => if kMax g < t.K ∨ 128 < t.K then some (s.illegal false) else countCheck s (scalesNeeded g t.K) t.nsa

/-- MMAC (R255). -/
def execMmac (_cs : BitVec 1) (m : BitVec 2) (a g h : BitVec 5) (z : BitVec 1) (s : State) : Out :=
  matWord [] none true false (bankRows g h) s fun w s =>
    withTile s h false fun t =>
      let V := (accAt s a.toNat).V
      .ok () (issueAll w m g z t (fun i => bankRow g t.K (V.getD i 0)) s)

/-! Grouped issues (R256). -/

/-- MGTAB (R256). -/
def execMgtab (_cs : BitVec 1) (a : BitVec 5) (k : BitVec 3) (g h : BitVec 5) (s : State) : Out :=
  matWord [] none true false noRows s fun w s =>
    let d := s.rd k.toNat
    match shapeCheck s h d false with
    | some t => .trap t s
    | none =>
      matDone w (s.withMat { s.c.mat with group := some { tab := s.ra a.toNat, b := s.ra g.toNat, shape := d, fb := h } })

/-- One group of the table: its tile's address, first row and row count. -/
structure Group where
  p   : Int
  fr  : Nat
  cnt : Nat
  deriving DecidableEq, Repr

/-- The groups of a table from its bytes after the header (R256). -/
def parseGroups (b : Word) (bytes : List Byte) (n : Nat) : List Group :=
  (List.range n).map fun g =>
    let at_ (o len : Nat) : Nat := leNat ((bytes.drop (16 * g + o)).take len)
    { p := (b.toNat : Int) + toSigned 64 (at_ 0 8), fr := at_ 8 2, cnt := at_ 10 2 }

/-- A checked span is read: its bytes, the records made, and the state with them. -/
def readParts (ps : List SpanPart) (s : State) : List Byte × List Nat × State :=
  let r := recordSpan .read ps s
  (spanBytes r.2 ps, r.1, r.2)

/-- A table read on MATRIX: checked, recorded, and its bytes. -/
def readSpan (s : State) (h : List Nat) (p : Int) (n : Nat) (t : TrapInfo) : Res (List Byte × List Nat) :=
  (checkSpan s h p n .read t).bind fun ps s1 => let r := readParts ps s1; .ok (r.1, r.2.1) r.2.2

/-- Step 4 of R256: the checks of each group, in order; the columns of those that read B. -/
def checkGroups (mr : Nat) (g : GroupShape) (h : List Nat) : List (Nat × Group) → State → Res (List (Group × List (List SpanPart)))
  | [], s => .ok [] s
  | (i, x) :: r, s =>
    if x.cnt = 0 then checkGroups mr g h r s
    else if mr < x.fr + x.cnt then .trap (matTrap s 0x06 (BitVec.ofNat 64 (x.fr + x.cnt)) i) s
    else match tileBounds g.b x.p g.fb (shapeK g.shape) (shapePitch g.shape) false with
      | some p => .trap (matTrap s 0x07 (wordOf p) i) s
      | none =>
        (checkSpans s h (columnSize g.fb (shapeK g.shape) false) .read (fun _ => matTrap s 0 0 i)
            (columnAddrs x.p (shapePitch g.shape)) s).bind fun cols s1 =>
          (checkGroups mr g h r s1).bind fun l s2 => .ok ((x, cols) :: l) s2

/-- The products of checked groups, in table order. -/
def mulGroups (g : GroupShape) (int z : Bool) (rows : Nat → List MElem × Flags) :
    List (Group × List (List SpanPart)) → List VReg → State → List VReg × Flags × List Nat × State
  | [], W, s => (W, 0, [], s)
  | (x, cols) :: r, W, s =>
    let (tile, s1) := readTile s x.p g.shape g.fb false cols
    let m := mulTile int z tile rows x.fr x.cnt W
    let y := mulGroups g int z rows r m.1 s1
    (y.1, m.2 ||| y.2.1, tile.ids ++ y.2.2.1, y.2.2.2)

/-- K of the recorded group shape, for the registers of A. -/
def groupK (s : State) : Nat := match s.c.mat.group with | some g => shapeK g.shape | none => 1

/-- The table of a grouped issue: steps 1 to 3 of R256. -/
def readTable (s : State) (g : GroupShape) (h : List Nat) : Res (List Group × List Nat) :=
  let p : Int := g.tab.ptr.toNat
  let t := s.trapInfo false 0 0
  match boxCheck g.tab { l := true, e := true } 16 1 0 1 0 with
  | some x => .trap (s.trapInfo false 0x07 (wordOf x)) s
  | none =>
    (readSpan s h p 16 t).bind fun hd s1 =>
      let n := leNat (hd.1.take 2)
      if 256 < n then .trap (s.trapInfo false 0x06 (BitVec.ofNat 64 n)) s1
      else match boxCheck g.tab { l := true, e := true } (16 + 16 * n) 1 0 1 0 with
        | some x => .trap (s.trapInfo false 0x07 (wordOf x)) s1
        | none =>
          (tableBody s1 h (p + 16) n t).bind fun b s2 => .ok (parseGroups g.b.ptr b.1 n, hd.2 ++ b.2) s2
where
  /-- The 16 bytes of each group in turn. -/
  tableBody (s : State) (h : List Nat) (p : Int) : Nat → TrapInfo → Res (List Byte × List Nat)
    | 0, _ => .ok ([], []) s
    | n + 1, t =>
      (tableBody s h p n t).bind fun b s1 =>
        (readSpan s1 h (p + 16 * (n : Int)) 16 t).bind fun c s2 => .ok (b.1 ++ c.1, b.2 ++ c.2) s2

/-- Rows 4 and 5 of R245 for a recorded shape: it is there in the format that the word needs, A's fields fit it, and its A count is
right. `bad` says what else of the shape the word refuses. -/
def shapeRows (shape : State → Option (DReg × BitVec 5)) (bad : Nat → Bool) (g h : BitVec 5) (va kreg : Nat) (s : State) : Option TrapInfo :=
  match shape s with
  | none => some (s.illegal false)
  | some (d, fb) =>
    if fb ≠ h ∨ bad (shapeK d) ∨ !operandAOk g va kreg s.c.mat.mr (shapeNsa d) (shapeK d) false then some (s.illegal false)
    else countCheck s (scalesNeeded g (shapeK d)) (shapeNsa d)

/-- The recorded shape of the groups, and of the sequencer. -/
def groupShape (s : State) : Option (DReg × BitVec 5) := s.c.mat.group.map fun g => (g.shape, g.fb)
def seqShape (s : State) : Option (DReg × BitVec 5) := s.c.mat.seq.map fun q => (q.shape, q.fb)

/-- MMAG (R256). The table is read after the commit of the issue (R44), which stays when a later check traps: DEDUCED (log entry 27). A word
that traps leaves no race record (R106). -/
def execMmag (_cs : BitVec 1) (m : BitVec 2) (a : BitVec 5) (k : BitVec 3) (g h : BitVec 5) (z : BitVec 1) (s : State) : Out :=
  matWord (regsA g a.toNat (groupK s) false) none true false (shapeRows groupShape (fun _ => false) g h a.toNat k.toNat) s fun w s =>
    match s.c.mat.group with
    | none => .trap (s.illegal false) s
    | some sh =>
      let kk := shapeK sh.shape
      let nsa := shapeNsa sh.shape
      let prior := hSet s .matrix
      withoutRecords s (
        (readTable (memoryPhase s) sh prior).bind fun tab s1 =>
          (checkGroups s.c.mat.mr sh prior (tab.1.zipIdx.map fun x => (x.2, x.1)) s1).bind fun gs s2 =>
            (matrixCounter s2 (s.trapInfo false 0 0)).bind fun loc s3 =>
              let s4 := releaseTile loc s3
              let x := accAt s4 m.toNat
              let r := mulGroups sh (matInt g) (z == 1#1) (rowsA s g a.toNat k.toNat nsa kk) gs x.W s4
              let s5 := withAcc r.2.2.2 m.toNat { x with W := r.1 }
              .ok () (orFlags r.2.1 (epDone w [] (pushIssue [] loc (tab.2 ++ r.2.2.1) prior s5))))

/-! The sequencer (R257, R258). -/

/-- The kept blocks of a parameter block, increasing, each once (R257). -/
def keptBlocks (bytes : List Byte) : List Nat :=
  let at_ (o len : Nat) : Nat := leNat ((bytes.drop o).take len)
  let qb := at_ 0x10 4
  let nkb := at_ 0x14 4
  let w := at_ 0x18 1 % 64 + 1
  let nw := at_ 0x18 1 / 64 % 2
  let mask := at_ 0x1A 2
  let window := if nw = 1 then [] else ((List.range w).map fun i => qb + 1 + i).filterMap fun x =>
    if w ≤ x ∧ x - w < nkb then some (x - w) else none
  let anchors := (List.range 16).filterMap fun j =>
    let v := at_ (0x20 + 2 * j) 2
    if mask.testBit j ∧ v < nkb then some v else none
  anchors.foldl insertSorted window
where
  /-- Insert into an increasing list, once. -/
  insertSorted (l : List Nat) (v : Nat) : List Nat :=
    match l with
    | [] => [v]
    | x :: r => if v < x then v :: x :: r else if v = x then x :: r else x :: insertSorted r v

/-- MSEQ (R257). The B count is row 5 of R245, which comes before the memory checks that R257 calls the first, and a full queue waits with
reason 14 between the bounds and the translation: DESIGN CHOICE (log entry 101). K of the recorded shape is not checked here: DEDUCED (log
entry 102). -/
def execMseq (_cs : BitVec 1) (a : BitVec 5) (k : BitVec 3) (q h : BitVec 5) (s : State) : Out :=
  let count (s : State) : Option TrapInfo := countCheck s (scalesNeeded h (shapeK (s.rd k.toNat))) (shapeNsb (s.rd k.toNat))
  matWord [] none true false count s fun w s =>
    let r := s.ra a.toNat
    let t := s.trapInfo false 0 0
    match boxCheck r { l := true, e := true } 64 1 0 1 0 with
    | some p => .trap (s.trapInfo false 0x07 (wordOf p)) s
    | none =>
      if q ≠ 0 && queueFull s q.toNat then .wait 14 s
      else
        let prior := hSet s .matrix
        (checkSpan s prior r.ptr.toNat 64 .read t).bind fun ps s1 =>
          (matrixCounter s1 t).bind fun loc s2 =>
            let b := readParts ps (memoryPhase s2)
            let at_ (o len : Nat) : Nat := leNat ((b.1.drop o).take len)
            let list := keptBlocks b.1
            let seq : Sequencer :=
              { list := list, pos := 0, a := r, shape := s.rd k.toNat, fb := h
                off := toSigned 64 (at_ 0 8), str := toSigned 64 (at_ 8 8) }
            let s3 := pushIssue [] loc b.2.1 prior (b.2.2.withMat { b.2.2.c.mat with seq := some seq })
            let s4 := if q = 0 then s3
              else s3.push q.toNat { val := BitVec.ofNat 64 list.length, filled := true }
            matDone w s4

/-- K of the recorded sequencer, for the registers of A. -/
def seqK (s : State) : Nat := match s.c.mat.seq with | some q => shapeK q.shape | none => 1

/-- MMA_SEQ (R258). A recorded K that breaks R236 for fb, which `mseq` took, is ILLEGAL_INSN here: DEDUCED (log entry 102). -/
def execMmaSeq (_cs : BitVec 1) (m : BitVec 2) (a : BitVec 5) (k : BitVec 3) (g h : BitVec 5) (z : BitVec 1) (s : State) : Out :=
  let rows := shapeRows seqShape (fun n => badK h n false) g h a.toNat k.toNat
  matWord (regsA g a.toNat (seqK s) false) none true false rows s fun w s =>
    match s.c.mat.seq with
    | none => .trap (s.illegal false) s
    | some q =>
      let kk := shapeK q.shape
      let nsa := shapeNsa q.shape
      let t := s.trapInfo false 0 0
      let prior := hSet s .matrix
      match q.list[q.pos]? with
      | none =>
        (matrixCounter s t).bind fun loc s1 => matDone w (pushIssue [] loc [] prior (commitStores s1))
      | some b =>
        let p : Int := (q.a.ptr.toNat : Int) + q.off + (b : Int) * q.str
        match tileBounds q.a p h kk (shapePitch q.shape) false with
        | some x => .trap (s.trapInfo false 0x07 (wordOf x)) s
        | none =>
          (checkSpans s prior (columnSize h kk false) .read (matTrap s 0 0) (columnAddrs p (shapePitch q.shape)) s).bind
            fun cols s1 =>
            (matrixCounter s1 t).bind fun loc s2 =>
              let s3 := releaseTile loc (memoryPhase s2)
              let (tile, s4) := readTile s3 p q.shape h false cols
              let s5 := pushIssue [] loc tile.ids prior (s4.withMat { s4.c.mat with seq := some { q with pos := q.pos + 1 } })
              .ok () (issueAll w m g z tile (rowsA s g a.toNat k.toNat nsa kk) s5)

/-! Steps. -/

/-- MATRIX_ISSUE_COMPLETE (R243): the oldest begun issue of the context completes. -/
def execMatrixIssueComplete (s : State) : Out :=
  .next (match s.c.mat.issues with
    | [] => s
    | i :: r => finishIssue (s.withMat { s.c.mat with issues := r }) i)

/-- CHAMBER_ACT (R24): with every lane at one word the partners arrive together and the chamber acts with its word, so that the
step by itself changes nothing. -/
def execChamberAct (s : State) : Out := .next s

/-- COMMIT (R207): the commits that the context has asked for take effect, and those of its stores that are younger stay buffered. -/
def execCommit (s : State) : Out := .next (if s.cs = .active then commitDue s else s)

end Sys2Proof.Machine
end

