-- ==== Sys2Proof/Machine/Package.lean ====
section
/-!
DEFINITION. The device steps of dispatch (R313 to R328), of the package's blocks (R284, R330 to R340) and of reset (R331).
-/

namespace Sys2Proof.Machine

/-! Launches and exits. -/

/-- LWIN (R315): a write of the launch window. -/
def execLwin (v : Word) (s : State) : Out := .next (opLwin v s)

/-- LAUNCH_ACCEPT (R313): the firmware drains a record and accepts or rejects it. -/
def execLaunchAccept (pl : Placing) (s : State) : Out := .next (opLaunchAccept pl s)

/-- DXIT (R328): the Active context's write to DXIT. -/
def execDxit (s : State) : Out := if s.cs = .active then (exitWrite s).out else .next s

/-- An exit that has waited for its commands takes place (R328). -/
def ownExit (s : State) : State :=
  if s.cs = .active ∧ s.c.exiting ∧ !commandsPending s then
    match (if attached s then releaseCheck s (s.trapInfo true 0 0) else .ok none s : Res (Option Counter)) with
    | .ok loc s1 => finishExit loc s1
    | .trap t s1 => takeTrap t s1
    | .wait _ s1 => s1
  else s

/-- The firmware acts on the end of a context that it was told of: its exit elsewhere, or its failure (R311, R316, R328). -/
def toldExit (e : ExitEvent) (s : State) : State :=
  match e with
  | .elsewhere launch => exitElsewhere launch s
  | .here save => exitHere save s
  | .failed save => failLaunch save s
  | .failedElsewhere launch name member tcause tpc => failElsewhere launch name member tcause tpc s

/-- CONTEXT_EXIT (R311, R316, R328): the oldest end of a context that the firmware was told of, else the Active context's own exit after its
waits (log entry 11). -/
def execContextExit (s : State) : Out :=
  .next (match s.disp.exits with
    | [] => ownExit s
    | e :: rest => toldExit e { s with disp := { s.disp with exits := rest } })

/-! Bind records (R320 to R322). Each is the firmware's write of the operation word with its OP. -/

/-- The operation word is written with an OP. -/
def writeOp (op : Nat) (w : Word) (s : State) : State := afterBind (writeSlot 0 (setField w 0 4 op) s)

/-- PRELOAD (R322): the firmware writes none while it withholds them (R337). -/
def execPreload (w : Word) (s : State) : Out := .next (if 0 < s.dev.holdoff then s else writeOp 1 w s)
/-- SWAP (R322). -/
def execSwap (w : Word) (s : State) : Out := .next (writeOp 2 w s)
/-- EVICT (R322). -/
def execEvict (w : Word) (s : State) : Out := .next (writeOp 3 w s)
/-- DROP (R322). -/
def execDrop (w : Word) (s : State) : Out := .next (writeOp 4 w s)

/-- FILL_COMPLETE (R322). -/
def execFillComplete (s : State) : Out := .next (afterBind (opFillComplete s))

/-- One byte of a B tile as it re-reads: memory's value or the old one (R247), with A set by its walk (R37). Where the address no longer
translates, the old one. -/
def rereadByte (user : Bool) (va : Int) (i : Nat) (old : Byte) (s : State) : Byte × State :=
  match translate s (wordOf va) 1 { write := false, fetch := false, user := user } with
  | (.ok x, s1) => (if Config.tileReread s1.tick i then (busBytes s1 x.loc 1).headD old else old, s1)
  | (.error _, s1) => (old, s1)

/-- A run of bytes of a column as it re-reads, in order: `i` is the first one's place in the tile, `old` the column's value from it on. -/
def rereadBytes (user : Bool) (va : Int) : Nat → Nat → Nat → State → List Byte × State
  | 0, _, _, s => ([], s)
  | n + 1, i, old, s =>
    let r := rereadByte user va i (BitVec.ofNat 8 old) s
    let rest := rereadBytes user (va + 1) n (i + 1) (old / 256) r.2
    (r.1 :: rest.1, rest.2)

/-- The B tile is read again after a swap-in, without records (R247). -/
def rereadTile (s : State) : State :=
  match s.c.mat.tile with
  | none => s
  | some t =>
    let n := columnSize t.fb t.K t.sparse
    let r := t.cols.zipIdx.foldl (fun (acc : List Nat × State) q =>
      let x := rereadBytes (!s.prv) (t.addr.toNat + (q.2 : Int) * t.pitch) n (n * q.2) q.1 acc.2
      (acc.1 ++ [leNat x.1], x.2)) ([], s)
    r.2.withMat { s.c.mat with tile := some { t with cols := r.1 } }

/-- The swap takes place, when it can (R116, R247, R322). -/
def activate (s : State) : State :=
  if s.pendSwap && s.shReady && s.spill.isNone then rereadTile (opSwapActivation s) else s

/-- SWAP_ACTIVATION (R116). -/
def execSwapActivation (s : State) : Out := .next (afterBind (activate s))

/-- SPILL_COMPLETE (R117). -/
def execSpillComplete (s : State) : Out := .next (afterBind (opSpillComplete s))

/-- SLICE_BUDGET_EXPIRY (R323): OVR, once per activation, where USED of the Active context has reached the budget, which changes nothing
else (R324). -/
def execSliceBudgetExpiry (s : State) : Out :=
  .next (if s.cs = .active ∧ budgetSpent s ∧ !s.slot.ovr then setEvent { s with slot := { s.slot with ovr := true } } 1 else s)

/-- AGING_INTERVAL (R318): effective priorities follow from the cycles that contexts have waited, and the firmware chooses anew. -/
def execAgingInterval (s : State) : Out := .next (firmwareTurn s)

/-! Registers and reset. -/

/-- FBIT_INV (R284). -/
def execFbitInv (s : State) : Out := .next (opFbitInv s)

/-- REGISTER_WRITE (R4, R330): a write of a whole register of control space by an agent, under its access codes. -/
def execRegisterWrite (agent : Writer) (off : Nat) (v : Word) (s : State) : Out := .next (ctrlWrite agent (off / 8 * 8) v s)

/-- PACKAGE_RESET (R331, R332). -/
def execPackageReset (trained : Bool) (s : State) : Out := .next (opPackageReset trained s)

/-- ENTER (R334). -/
def execEnter (s : State) : Out := .next (opEnter s)

/-- GO (R334). -/
def execGo (s : State) : Out := .next (opGo s)

/-- ATTESTATION_REQUEST (R335). -/
def execAttestationRequest (s : State) : Out := .next (opAttest s)

/-! Power (R336 to R338). -/

/-- POWER_READING (R337). -/
def execPowerReading (pnow tnow : Word) (s : State) : Out := .next (opPower pnow tnow s)

/-- THERMAL_TRIP (R337): package power is removed, and a flash log records it. -/
def execThermalTrip (s : State) : Out := .next { s with dev := { s.dev with power := false, tripLog := true } }

/-- D3HOT_ENTRY (R338). In D3hot it goes on to D3cold: DESIGN CHOICE (log entry 81). -/
def execD3hotEntry (s : State) : Out := .next (if s.dev.d3 then opD3Cold s else opD3Entry s)

/-- D3HOT_EXIT (R338): READY, with HBM kept. -/
def execD3hotExit (s : State) : Out :=
  .next (if s.dev.d3 && !s.dev.d3cold then { s with dev := { s.dev with d3 := false, state := .ready } } else s)

/-! Samples (R339, R340). -/

/-- The sampling interval in cycles. -/
def sampleEvery (s : State) : Nat := field (nth s.c.dbg 13 0) 8 24 * 256

/-- The Active context is sampled: an interval is set, and the filter passes. -/
def sampling (s : State) : Bool := s.cs == .active && sampleEvery s != 0 && filterPasses s (bit (nth s.c.dbg 13 0) 0)

/-- The queue that a word reads is empty (R28, R156, R189). -/
def queueEmpty (s : State) (ir : BitVec 32) : Bool :=
  match waitedQueue ir with | some q => (s.rq q).isEmpty | none => false

/-- A reason's condition can hold for the agent that holds the word (R28). The AP holds a word of its class: it waits for a translation, for
data, for the fabric, for a hold where the word is an RM or a BP one, or at an empty queue, which is a QBR's outcome. A lane holds an
EP-class word: a bank is lost in a vector memory word, a chamber waits in one of its words, and so on. -/
def agentCan (s : State) (ir : BitVec 32) (r : Nat) : Bool :=
  let op := (fld ir 25 6).toNat
  let ap := apOpcode op
  match r with
  | 0 | 6 | 7 => true
  | 1 | 2 | 3 => !ap
  | 4 => op == 0x15 || op == 0x16 || op == 0x1A
  | 5 => op == 0x17 || op == 0x20 || op == 0x21 || op == 0x22 || op == 0x30
  | 8 => !s.fab.wanted.isEmpty
  | 11 => (!ap || op == 0x28 || op == 0x29) && s.c.hold.any (· != 0)
  | 12 => queueEmpty s ir && !(op == 0x0B && fld ir 21 4 != 1)
  | 13 => queueEmpty s ir && op == 0x0B && fld ir 21 4 != 1
  | 14 => op == 0x20 || op == 0x21 || op == 0x22
  | 15 => op == 0x30
  | _ => false

/-- The reason of the agent that holds the oldest incomplete instruction, which is the word at PC (R29): the wait that the word is in, or
otherwise one whose condition can hold for that word's agent (log entry 5). A word at an address without a translation waits for one. -/
def stallReason (s : State) : Nat :=
  let r := Config.sampleReason s.tick % 16
  if s.c.wait ≠ 0 then s.c.wait
  else match wordAtPc s with
    | some ir => if agentCan s ir r then r else 0
    | none => if r = 6 then 6 else 0

/-- The sample record of a cycle (R340, R342). -/
def sampleAt (cycle : Word) (s : State) : State :=
  traceAt cycle 11 s.coreNum (field s.c.sys.berth 0 32) s.c.member.toNat (BitVec.ofNat 64 (stallReason s)) s.c.pc s

/-- SAMPLE (R340): an Active context emits a sample record when CYCLE is a multiple of the interval. -/
def execSample (s : State) : Out :=
  .next (if sampling s && s.cycle.toNat % sampleEvery s == 0 then sampleAt s.cycle s else s)

end Sys2Proof.Machine
end

