-- ==== Sys2Proof/Machine/Ring.lean ====
section
/-!
DEFINITION. The ring chambers: permutes, plans, reductions, scans and broadcasts (R221 to R225).
-/

namespace Sys2Proof.Machine

/-- A chamber word whose result at element i is `f i`, general-tagged (R221). -/
def ringWord (t : BitVec 1) (d : Opnd) (reads : List Opnd) (f : EpEnv → (Nat → Nat → Nat) → Nat → Nat) (s : State) : Out :=
  lanesWord .chamber t d reads (fun v src e => (f v src e, 0)) .general s

/-- Element j of va, or 0 beyond VLMAX (R222). -/
def permuted (v : EpEnv) (src : Nat → Nat → Nat) (j : Nat) : Nat := if j < v.vlmax then src 0 j else 0

/-- VPERM (R222). -/
def execVperm (_cs t : BitVec 1) (d a b : BitVec 5) (f : BitVec 4) (s : State) : Out :=
  let w := plainWidth f
  ringWord t (vreg d w) [vreg a w, vreg b 16] (fun v src i => permuted v src (src 1 i)) s

/-- VBRD (R222): element 0 of vb names the source, masked or not. -/
def execVbrd (_cs t : BitVec 1) (d a b : BitVec 5) (f : BitVec 4) (s : State) : Out :=
  let w := plainWidth f
  ringWord t (vreg d w) [vreg a w, vreg b 16] (fun v src _ => permuted v src (src 1 0)) s

/-- cl of R223. -/
def clusterOf (x : Nat) : Nat := x % 64 / 8

/-- The plan entry for destination i and source j (R223). -/
def planEntry (vlmax vlmax1 i j : Nat) : Nat :=
  if vlmax ≤ j then 0x8000
  else j / vlmax1 * 2 ^ 10 + j % vlmax1 / 64 * 2 ^ 6 + (clusterOf i + 8 - clusterOf j) % 8 * 2 ^ 3 + j % 8

/-- The source element that a plan entry names for destination i (R223): none where Z is 1. -/
def planSource (vlmax1 n rot i entry : Nat) : Option Nat :=
  if entry / 2 ^ 15 % 2 = 1 then none
  else
    let lane := (i + rot) % 64
    let srcLane := 8 * ((lane / 8 + 8 - entry / 2 ^ 3 % 8) % 8) + entry % 8
    some (entry / 2 ^ 10 % 8 % n * vlmax1 + entry / 2 ^ 6 % 16 % (vlmax1 / 64) * 64 + (srcLane + 64 - rot) % 64)

/-- VLMAX1 of the VFMT in force (R17). -/
def vlmax1Now (s : State) : Nat := vlmaxNow s / 2 ^ field s.c.sys.vfmt 8 2

/-- PPLAN (R223). -/
def execPplan (_cs t : BitVec 1) (d a : BitVec 5) (s : State) : Out :=
  ringWord t (vreg d 16) [vreg a 16]
    (fun v src i => planEntry v.vlmax (vlmax1Now s) i (src 0 i)) s

/-- VPERMP (R223). -/
def execVpermp (_cs t : BitVec 1) (d a b : BitVec 5) (f : BitVec 4) (s : State) : Out :=
  let w := plainWidth f
  ringWord t (vreg d w) [vreg a w, vreg b 16] (fun v src i =>
    match planSource (vlmax1Now s) (regCount v.vlmax w) v.rot i (src 1 i) with
    | none => 0
    | some j => src 0 j) s

/-! Reductions (R224). -/

/-- A reduction's 64-bit queue value (R224). -/
def queueValue (f : BitVec 4) (b : Nat) : Word := if fmtInt f then wordOf (intVal f b) else BitVec.ofNat 64 b

/-- A reduction: `fold` gives the result and flags from the elements folded. -/
def reduceWord (t : BitVec 1) (d a q : BitVec 5) (f : BitVec 4) (fold : List Nat → Nat × Flags) (s : State) : Out :=
  let w := plainWidth f
  let dst := vreg d w
  let src := vreg a w
  let ep : EpWord := { cls := .chamber, t := t == 1#1, dst := some dst, reads := [src] }
  epWord ep s fun s =>
    if q ≠ 0 && queueFull s q.toNat then .wait 5 s
    else
      let v := epEnv s
      let r := fold (v.lives.map fun e => sources s v [src] 0 e)
      let s1 := elementwise ep dst (fun _ => (r.1, 0)) (fun _ => .general) s
      let s2 := if q = 0 then s1
        else s1.push q.toNat { val := queueValue f r.1, filled := true }
      .ok () (orFlags r.2 s2)

/-- The exact sum of float elements, rounded once (R98, R224). -/
def sumFloat (f : FFmt) (xs : List Nat) : Nat × Flags :=
  f.rne ((xs.foldl (fun acc x => acc.add (f.decode x)) ExactSum.empty).value (!xs.isEmpty))

/-- vredsum. -/
def foldSum (f : BitVec 4) (xs : List Nat) : Nat × Flags :=
  if fmtInt f then (iWrap f (xs.foldl (fun acc x => acc + intVal f x) 0), 0) else sumFloat (floatFmt f) xs

/-- vredmin and vredmax. -/
def foldPick (f : BitVec 4) (larger : Bool) (xs : List Nat) : Nat × Flags :=
  if fmtInt f then
    match xs with
    | [] => (iWrap f (if larger then intLow f else intHigh f), 0)
    | x :: r => (r.foldl (if larger then iMax f else iMin f) x, 0)
  else
    let g := floatFmt f
    match xs with
    | [] => (g.infBits larger, 0)
    | x :: r =>
      let y := r.foldl (fun acc b => (fPick g larger acc b).1) x
      (if g.isNan y then g.canonNan else y, flagIf (xs.any g.isNan) flagNV)

/-- VREDSUM (R224). -/
def execVredsum (_cs t : BitVec 1) (d a q : BitVec 5) (f : BitVec 4) (s : State) : Out := reduceWord t d a q f (foldSum f) s
/-- VREDMIN (R224). -/
def execVredmin (_cs t : BitVec 1) (d a q : BitVec 5) (f : BitVec 4) (s : State) : Out :=
  reduceWord t d a q f (foldPick f false) s
/-- VREDMAX (R224). -/
def execVredmax (_cs t : BitVec 1) (d a q : BitVec 5) (f : BitVec 4) (s : State) : Out :=
  reduceWord t d a q f (foldPick f true) s
/-- VREDAND (R224). -/
def execVredand (_cs t : BitVec 1) (d a q : BitVec 5) (f : BitVec 4) (s : State) : Out :=
  reduceWord t d a q f (fun xs => (xs.foldl iAnd (2 ^ plainWidth f - 1), 0)) s
/-- VREDOR (R224). -/
def execVredor (_cs t : BitVec 1) (d a q : BitVec 5) (f : BitVec 4) (s : State) : Out :=
  reduceWord t d a q f (fun xs => (xs.foldl iOr 0, 0)) s
/-- VREDXOR (R224). -/
def execVredxor (_cs t : BitVec 1) (d a q : BitVec 5) (f : BitVec 4) (s : State) : Out :=
  reduceWord t d a q f (fun xs => (xs.foldl iXor 0, 0)) s

/-- VSCAN (R224): element i is the sum of the live elements 0 to i, each rounded once. -/
def execVscan (_cs t : BitVec 1) (d a : BitVec 5) (f : BitVec 4) (s : State) : Out :=
  let w := plainWidth f
  lanesWord .chamber t (vreg d w) [vreg a w]
    (fun v src i => foldSum f ((v.lives.filter fun e => decide (e ≤ i)).map fun e => src 0 e)) .general s

end Sys2Proof.Machine
end

