-- ==== Sys2Proof/Machine/Sync.lean ====
section
/-!
DEFINITION. Barriers (R26, R27, R158), counted signals and waits (R159, R160), fences (R55 to R57, R161), and the device steps
that complete them.
-/

namespace Sys2Proof.Machine

/-- The barrier record of a scope. -/
def barrierAt (s : State) (scope : Nat) : Barrier := nth s.c.barrier scope Barrier.reset

/-- The barrier record of a scope replaced. -/
def withBarrier (s : State) (scope : Nat) (b : Barrier) : State :=
  { s with c := { s.c with barrier := upd s.c.barrier scope b } }

/-- Every member of the barrier has arrived (R27). -/
def barrierFull (b : Barrier) : Bool := b.arrived && decide (b.members ≤ b.others + 1)

/-- The barrier releases: the next generation begins, with no arrival and no sets, and those that the members carried stay for the end of
the wait (R27, R45). -/
def releaseBarrier (b : Barrier) : Barrier :=
  { b with gen := b.gen + 1, arrived := false, others := 0, released := true, out := b.carries, carries := [] }

/-- P1 of a barrier's trace record (R342). -/
def barrierP1 (scope : Nat) (gen : BitVec 32) : Word := BitVec.ofNat 64 (scope + gen.toNat * 2 ^ 32)

/-- Another member's arrival is counted in the current generation, with the sets it carries (R27, R45). -/
def countArrival (h : List (Path × List Nat)) (b : Barrier) : Barrier :=
  let b1 := { b with others := b.others + 1, carries := b.carries ++ h }
  if barrierFull b1 then releaseBarrier b1 else b1

/-- A context is a member of the barrier that an arrival counts for (R26). -/
def isMember (scope : Nat) (m : Members) (c : Context) : Bool :=
  c.launch == m.launch && (scope != 2 || c.sys.berth.truncate 32 == m.berth) && (scope != 3 || c.die == m.die)

/-- The arrival is counted in a context that is a member. -/
def countIn (scope : Nat) (m : Members) (h : List (Path × List Nat)) (c : Context) : Context :=
  if isMember scope m c then { c with barrier := upd c.barrier scope (countArrival h (nth c.barrier scope Barrier.reset)) } else c

/-- The save area of a member records its barrier, and so a release that it did not see (R27). -/
def recordIn (scope : Nat) (m : Members) (mem : Memory) (c : Context) : Memory :=
  if isMember scope m c then writeWord mem (c.save + 0x8B80 + 8 * scope) (barrierWord (nth c.barrier scope Barrier.reset)) else mem

/-- A release of a barrier of a context is traced, with the address of its BAR (R342). -/
def traceRelease (scope : Nat) (c : Context) (old new : Barrier) (s : State) : State :=
  if new.released && !old.released then traceOf c 4 (barrierP1 scope old.gen) new.pc s else s

/-- The release that an arrival brings to a context outside the active slot is traced. -/
def traceCounted (scope : Nat) (m : Members) (h : List (Path × List Nat)) (c : Option Context) (s : State) : State :=
  match c with
  | some c =>
    traceRelease scope c (nth c.barrier scope Barrier.reset) (nth (countIn scope m h c).barrier scope Barrier.reset) s
  | none => s

/-- An arrival is counted in every member of this core but the one in the active slot: the shadow and the spilling context, and the
saved ones (R27). The save areas of the saved ones, and of the shadow one, record it. A release that a context meets which lies only in its
save area leaves no kind-4 record: DESIGN CHOICE (log entry 112). -/
def tellOthers (scope : Nat) (m : Members) (h : List (Path × List Nat)) (s : State) : State :=
  let sh := s.sh.map (countIn scope m h)
  let saved := s.saved.map (countIn scope m h)
  let areas := saved ++ sh.toList
  let s1 := { s with sh := sh, spill := s.spill.map (countIn scope m h), saved := saved, mem := areas.foldl (recordIn scope m) s.mem }
  traceCounted scope m h s.spill (traceCounted scope m h s.sh s1)

/-- The barrier of the context in the active slot changes; a release is traced as it happens (R342). -/
def setBarrier (scope : Nat) (b : Barrier) (s : State) : State :=
  traceRelease scope s.c (barrierAt s scope) b (withBarrier s scope b)

/-- An arrival of another member reaches this core (R27). -/
def memberArrival (scope : Nat) (m : Members) (h : List (Path × List Nat)) (s : State) : State :=
  let s1 := tellOthers scope m h s
  if s.cs ≠ .none && isMember scope m s.c then setBarrier scope (countArrival h (barrierAt s scope)) s1 else s1

/-- The members that an arrival of this context counts for. -/
def membersOf (c : Context) : Members := { launch := c.launch, berth := c.sys.berth.truncate 32, die := c.die }

/-- The other packages that a launch is placed on. -/
def launchPackages (s : State) (id : Nat) : List Nat := ((s.disp.launches.find? fun l => l.id == id).map (·.pkgs)).getD []

/-- An arrival at POD scope is sent over UALink to every other package of the launch that can be reached, with what happened before it
(R26, R45, R282, R283). -/
def sendBarrier (scope : Nat) (b : Barrier) (s : State) : State :=
  if scope = 5 then (launchPackages s s.c.launch).foldl (fun t p => sendMsg (.barrier p s.c.launch b.gen (hAll s)) t) s else s

/-- The context arrives, once (R27, R158): its older buffered stores are committed (R44), and the other members learn of it. -/
def arriveBarrier (scope : Nat) (s : State) : State :=
  let b := barrierAt s scope
  if b.arrived || b.released then s
  else
    let s1 := traceCtx 3 (barrierP1 scope b.gen) s.c.pc (commitStores s)
    let s2 := if scope < 2 then s1 else sendBarrier scope b (tellOthers scope (membersOf s.c) (hAll s1) s1)
    let b1 := { b with arrived := true, pc := s.c.pc }
    setBarrier scope (if barrierFull b1 then releaseBarrier b1 else b1) s2

/-- BAR (R158): arrival, then a wait with reason 9 until the barrier has released; the barrier edge then holds (R45). -/
def execBar (c : BitVec 3) (s : State) : Out :=
  apWord s fun s =>
    let s1 := arriveBarrier c.toNat s
    let b := barrierAt s1 c.toNat
    if b.released then .ok () (complete (hJoin (withBarrier s1 c.toNat { b with released := false, out := [] }) b.out))
    else .wait 9 s1

/-- BARRIER_ARRIVAL (R158): the Active context's own arrival, or that of another member. -/
def execBarrierArrival (scope : BitVec 3) (other : Option Members) (h : List (Path × List Nat)) (s : State) : Out :=
  .next (match other with
    | some m => memberArrival scope.toNat m h s
    | none => if s.cs = .active then arriveBarrier scope.toNat s else s)

/-- BARRIER_MESSAGE (R26): a POD barrier message of a launch counts an arrival. -/
def execBarrierMessage (m : BarrierNews) (s : State) : Out :=
  .next (memberArrival 5 { launch := m.launch, berth := 0, die := 15 } m.h s)

/-- The exact address of a counter operand: pointer + 8 × sext(offset) (R159). -/
def counterAddr (r : AReg) (o : BitVec 12) : Int := r.ptr.toNat + 8 * o.toInt

/-- SIGNAL (R160): commits older stores and adds x[amount] to the counter word, saturating (R51). One that writes DXIT ends the context
(R328). -/
def execSignal (d a : BitVec 5) (o : BitVec 12) (s : State) : Out :=
  apWord s fun s =>
    let r := s.ra a.toNat
    let addr := counterAddr r o
    match pointChecks r { a := true } addr 8 with
    | some (cause, tval) => .trap (s.trapInfo true cause tval) s
    | none =>
      (coreAccess s (wordOf addr) 8 .syncWrite false (s.trapInfo true 0 0)).bind fun loc s1 =>
        if isDxit loc then exitWrite s1
        else
          let s2 := commitStores s1
          .ok () (complete (counterAdd s2 loc (s.rx d).toNat (hAll s2)))

/-- A WAITC that does not complete waits with reason 10, also while its counter is on its way from another package (R29, R160); its beginning
is traced once (R342). -/
def waitcWaits (d : BitVec 5) (addr : Word) (s : State) : Res Unit :=
  .wait 10 (if s.c.wait = 10 then s else traceCtx 5 (s.rx d) addr s)

/-- One attempt of a WAITC (R52, R160): it completes when the word has reached the target, and then takes the counted-wait
edges; otherwise it waits. -/
def waitcTry (d a : BitVec 5) (o : BitVec 12) (s : State) : Res Unit :=
  let r := s.ra a.toNat
  let addr := counterAddr r o
  match pointChecks r { l := true } addr 8 with
  | some (cause, tval) => .trap (s.trapInfo true cause tval) s
  | none =>
    match coreAccess s (wordOf addr) 8 .syncRead false (s.trapInfo true 0 0) with
    | .trap t s1 => .trap t s1
    | .wait _ s1 => waitcWaits d (wordOf addr) s1
    | .ok loc s1 =>
      let v := (s.rx d).toNat
      let s2 := if s.c.wait = 10 then s1 else traceCtx 5 (s.rx d) (wordOf addr) s1
      if v ≤ loadValue s1 loc 8 then
        .ok () (complete (traceCtx 6 (s.rx d) (wordOf addr) (joinIncs s2 (includedIncs s2 loc v))))
      else waitcWaits d (wordOf addr) { s1 with recs := s.recs, nextRec := s.nextRec }

/-- WAITC (R160). -/
def execWaitc (d a : BitVec 5) (o : BitVec 12) (s : State) : Out := apWord s fun s => waitcTry d a o s

/-- The word being issued is a WAITC: its fields (R159). -/
def waitcFields (ir : BitVec 32) : Option (BitVec 5 × BitVec 5 × BitVec 12) :=
  if ir.extractLsb' 25 7 = 0x0C#7 ∧ ir.extractLsb' 12 3 = 2#3 then
    some (ir.extractLsb' 20 5, ir.extractLsb' 15 5, ir.extractLsb' 0 12)
  else none

/-- WAITC_COMPLETE (R52): a waiting WAITC looks again, and completes when the counter has reached its target. -/
def execWaitcComplete (s : State) : Out :=
  match waitcFields s.ir with
  | some (d, a, o) => if s.cs = .active ∧ s.c.wait = 10 then (waitcTry d a o s).out else .next s
  | none => .next s

/-- A FENCE.rel: later `.rlx` stores carry what happens before it (R45, R55). -/
def fenceRel (scope : Nat) (s : State) : State :=
  let s1 := commitStores s
  { s1 with c := { s1.c with rel := (scope, hSet s1 .core) :: s1.c.rel.filter fun r => r.1 != scope } }

/-- Two contexts lie within a scope of each other (R26): those of one group at QUAD, and of one launch beyond it, on one die at DIE and on
one package at DIE and PKG. At LANE and CORE that is one context, which program order serves. -/
def within (s : State) (n : RelNote) (scope : Nat) : Bool :=
  let mine : BitVec 32 := s.c.sys.berth.truncate 32
  decide (2 ≤ scope) && n.launch == s.c.launch && (scope != 2 || n.berth == mine) && (scope != 3 || n.die == s.c.die)
    && (scope == 5 || n.berth.toNat / 2 ^ 22 == mine.toNat / 2 ^ 22)

/-- A FENCE.acq: what the `.rlx` stores that were read carry joins H on CORE, where the two contexts lie within both scopes (R45, R55). -/
def fenceAcq (scope : Nat) (s : State) : State :=
  hJoin s (s.c.seen.flatMap fun n => (n.rels.filter fun r => within s n r.1 && within s n scope).map fun r => (Path.core, r.2))

/-- FENCE (R55, R161): kinds 1 and 3 are a FENCE.rel, kinds 2 and 3 a FENCE.acq. In a model that performs accesses in program order every
CORE access is already ordered, so that only the edge of R45 remains. -/
def execFence (k : BitVec 2) (c : BitVec 3) (s : State) : Out :=
  apPure s fun s =>
    let s1 := if k.getLsbD 0 then fenceRel c.toNat s else s
    if k.getLsbD 1 then fenceAcq c.toNat s1 else s1

/-- The paths a mask names (R161). -/
def maskPaths (m : BitVec 5) : List Path :=
  [Path.core, .copy, .gather, .matrix, .remote].filter fun p => m.getLsbD p.num

/-- The XFENCE edge (R45): each named path's set takes the union of the named paths' sets. -/
def xfenceJoin (m : BitVec 5) (s : State) : State :=
  let u := (maskPaths m).foldr (fun p h => unionIds (hSet s p) h) []
  hJoin s ((maskPaths m).map fun p => (p, u))

/-- XFENCE (R56, R161): commits older stores (R44). -/
def execXfence (m : BitVec 5) (s : State) : Out := apPure s fun s => xfenceJoin m (commitStores s)

/-- IFENCE (R57, R161): the instruction cache and the loop buffer are empty; the loop levels stay active. -/
def execIfence (s : State) : Out := apPure s fun s => { s with icache := [], lbuf := [] }

end Sys2Proof.Machine
end

