-- ==== Sys2Proof/Machine/VFloat.lean ====
section
/-!
DEFINITION. The VF words: vector float arithmetic (R193, R194).
-/

namespace Sys2Proof.Machine

/-- A VF word of two operands. -/
def vfBinary (t : BitVec 1) (d a b : BitVec 5) (f : BitVec 4) (op : Nat → Nat → Nat × Flags) (s : State) : Out :=
  let w := plainWidth f
  lanesWord .arith t (vreg d w) [vreg a w, vreg b w] (fun _ src e => op (src 0 e) (src 1 e)) .plain s

/-- A VF word of one operand. -/
def vfUnary (t : BitVec 1) (d a : BitVec 5) (f : BitVec 4) (op : Nat → Nat × Flags) (s : State) : Out :=
  let w := plainWidth f
  lanesWord .arith t (vreg d w) [vreg a w] (fun _ src e => op (src 0 e)) .plain s

/-- A VF word that accumulates into vd at width `wd`. -/
def vfAccumulate (t : BitVec 1) (d a b : BitVec 5) (f : BitVec 4) (wd : Nat) (op : Nat → Nat → Nat → Nat × Flags) (s : State) :
    Out :=
  let w := plainWidth f
  lanesWord .arith t (vreg d wd) [vreg a w, vreg b w, vreg d wd] (fun _ src e => op (src 0 e) (src 1 e) (src 2 e)) .plain s

/-- VFADD (R193). -/
def execVfadd (_cs t : BitVec 1) (d a b : BitVec 5) (f : BitVec 4) (s : State) : Out := vfBinary t d a b f (fAdd (floatFmt f)) s
/-- VFSUB (R193). -/
def execVfsub (_cs t : BitVec 1) (d a b : BitVec 5) (f : BitVec 4) (s : State) : Out := vfBinary t d a b f (fSub (floatFmt f)) s
/-- VFMUL (R193). -/
def execVfmul (_cs t : BitVec 1) (d a b : BitVec 5) (f : BitVec 4) (s : State) : Out := vfBinary t d a b f (fMul (floatFmt f)) s
/-- VFDIV (R193). -/
def execVfdiv (_cs t : BitVec 1) (d a b : BitVec 5) (f : BitVec 4) (s : State) : Out := vfBinary t d a b f (fDiv (floatFmt f)) s
/-- VFMIN (R194). -/
def execVfmin (_cs t : BitVec 1) (d a b : BitVec 5) (f : BitVec 4) (s : State) : Out := vfBinary t d a b f (fPick (floatFmt f) false) s
/-- VFMAX (R194). -/
def execVfmax (_cs t : BitVec 1) (d a b : BitVec 5) (f : BitVec 4) (s : State) : Out := vfBinary t d a b f (fPick (floatFmt f) true) s
/-- VFABS (R193). -/
def execVfabs (_cs t : BitVec 1) (d a : BitVec 5) (f : BitVec 4) (s : State) : Out := vfUnary t d a f (fAbs (floatFmt f)) s
/-- VFNEG (R193). -/
def execVfneg (_cs t : BitVec 1) (d a : BitVec 5) (f : BitVec 4) (s : State) : Out := vfUnary t d a f (fNeg (floatFmt f)) s
/-- VFMACC (R193). -/
def execVfmacc (_cs t : BitVec 1) (d a b : BitVec 5) (f : BitVec 4) (s : State) : Out :=
  vfAccumulate t d a b f (plainWidth f) (fFma (floatFmt f) false) s
/-- VFNMACC (R193). -/
def execVfnmacc (_cs t : BitVec 1) (d a b : BitVec 5) (f : BitVec 4) (s : State) : Out :=
  vfAccumulate t d a b f (plainWidth f) (fFma (floatFmt f) true) s
/-- VFWMACC (R193): vd at width 32. -/
def execVfwmacc (_cs t : BitVec 1) (d a b : BitVec 5) (f : BitVec 4) (s : State) : Out :=
  vfAccumulate t d a b f 32 (fWmacc (floatFmt f)) s

end Sys2Proof.Machine
end

