-- ==== Sys2Proof/Machine/VMem.lean ====
section
/-!
DEFINITION. The vector memory words: loads, stores, first-fault loads, gather and scatter (R210 to R215, R218), and the store
buffers (R207, R209).
-/

namespace Sys2Proof.Machine

/-! Addresses (R211, R218). -/

/-- The exact address of an element and TIDX, or none for a sweep element that has no address. -/
abbrev ElemAddr := Nat → Option (Int × Word)

/-- The d registers that a sweep value names (R210). -/
def sweepDims (s : State) (w : BitVec 3) : List DReg :=
  match w.toNat with
  | 1 => [s.rd 0] | 2 => [s.rd 0, s.rd 1] | 3 => [s.rd 0, s.rd 1, s.rd 2]
  | 4 => [s.rd 3] | 5 => [s.rd 3, s.rd 4] | 6 => [s.rd 3, s.rd 4, s.rd 5]
  | _ => []

/-- Element addresses of VL and VS words (R211). -/
def stripAddr (s : State) (v : EpEnv) (r : AReg) (sweep : BitVec 3) (w : Nat) : ElemAddr := fun e =>
  if sweep = 0 then some ((r.ptr.toNat : Int) + (e * w / 8 : Nat), 0)
  else
    let d (k : Nat) : Nat × Int := match (sweepDims s sweep)[k]? with
      | some x => (x.len.toNat, x.stride.toInt)
      | none => (1, 0)
    let j := v.sbase.toNat + e
    let (l0, s0) := d 0
    let (l1, s1) := d 1
    let (l2, s2) := d 2
    if l0 * l1 * l2 ≤ j then none
    else
      let i0 := j % l0
      let i1 := j / l0 % l1
      let i2 := j / (l0 * l1)
      some ((r.ptr.toNat : Int) + i0 * s0 + i1 * s1 + i2 * s2
        , BitVec.ofNat 64 (i0 % 65536 + i1 % 65536 * 2 ^ 16 + i2 % 65536 * 2 ^ 32))

/-- Element addresses of VG words (R218). -/
def indexAddr (r : AReg) (w : Nat) (idx : Nat → Nat) : ElemAddr := fun e =>
  some ((r.ptr.toNat : Int) + (idx e * w / 8 : Nat), 0)

/-! The checks of one element: rows 3 to 8 of R213. -/

/-- Bytes that an element of width w touches. -/
def elemBytes (w : Nat) : Nat := max 1 (w / 8)

/-- One element's checks and access: its location, or a trap at it, or a wait (R213). -/
def elemAccess (r : AReg) (need : Need) (w : Nat) (rlx : Bool) (addr : ElemAddr) (e : Nat) (s : State) : Res Nat :=
  let t (cause : BitVec 8) (tval tidx : Word) : TrapInfo :=
    { s.trapInfo false cause tval with telem := e, estart := e, tidx := tidx, inLane := true }
  match addr e with
  | none => .trap (t 0x06 r.ptr 0) s
  | some (a, tidx) =>
    if !aCheck r need a (elemBytes w) then .trap (t 0x07 (wordOf a) tidx) s
    else if 8 ≤ w && decide (a % ((w / 8 : Nat) : Int) ≠ 0) then .trap (t 0x05 (wordOf a) tidx) s
    else coreAccess s (wordOf a) (elemBytes w) (if need.s then .write else .read) rlx (t 0 0 tidx)

/-- Where an element loop stopped. -/
inductive Stop where
  | trap (e : Nat) (t : TrapInfo)
  | wait (n : Nat)
  deriving DecidableEq, Repr

/-- The elements in order, until one traps or waits: what each gave, and where it stopped. -/
def memLoop (f : Nat → State → Res Nat) : List Nat → State → List (Nat × Nat) × State × Option Stop
  | [], s => ([], s, none)
  | e :: r, s =>
    match f e s with
    | .ok a s1 => let z := memLoop f r s1; ((e, a) :: z.1, z.2)
    | .trap t s1 => ([], s1, some (.trap e t))
    | .wait n s1 => ([], s1, some (.wait n))

/-- A word that waits in the middle has made no access that counts: its race records are not kept. -/
def forgetAccesses (old : State) (s : State) : State := { s with recs := old.recs, nextRec := old.nextRec }

/-- STALLBANK counts the lanes and cycles of bank conflicts of a word with `n` elements, those of a word that stops included: each element
asks for one word, and waits at most 70 cycles for its bank (R220; log entry 5). -/
def countBanks (n : Nat) (s : State) : State :=
  (s.withSys { s.c.sys with
    stallbank := s.c.sys.stallbank + BitVec.ofNat 64 ((Config.bankStalls s.tick).toNat % (70 * n + 1)) }).mark (.sys 0x0B)

/-! The word's own checks: rows 1 and 2 of R213, and the advance of mode 1. -/

/-- The pointer after the advance of mode 1: ⌈VL × w ÷ 8⌉ bytes (R210). -/
def nextPtr (s : State) (r : AReg) (m : BitVec 3) (w : Nat) : Int :=
  if m = 1 then (r.ptr.toNat : Int) + ((vlNow s * w + 7) / 8 : Nat) else r.ptr.toNat

/-- Rows 1 and 2 (R213). -/
def wordChecks (s : State) (r : AReg) (rlx : Bool) (m : BitVec 3) (w : Nat) : Option (BitVec 8 × Word) :=
  if rlx && s.determ then some (0x14, s.c.pc)
  else if m = 1 && !advanceOk r (nextPtr s r m w) then some (0x06, wordOf (nextPtr s r m w))
  else none

/-- The pointer advances in mode 1 (R128, R210). -/
def advanceStrip (a : BitVec 4) (r : AReg) (m : BitVec 3) (next : Int) (s : State) : State :=
  if m = 1 then s.wa a.toNat { r with ptr := wordOf next } else s

/-! Loads. -/

/-- The value of an element at its location: w bits, the nibble of a 4-bit element by its index (R211). -/
def elemLoad (s : State) (w e loc : Nat) : Nat :=
  if w = 4 then loadValue s loc 1 / 16 ^ (e % 2) % 16 else loadValue s loc (w / 8)

/-- The element function of a load: its checks, then its value. -/
def loadElem (r : AReg) (w : Nat) (rlx : Bool) (addr : ElemAddr) (e : Nat) (s : State) : Res Nat :=
  (elemAccess r { l := true } w rlx addr e s).bind fun loc s1 => .ok (elemLoad s1 w e loc) s1

/-- The images with the loaded elements. -/
def loadedImages (v : EpEnv) (w : Nat) (base : List VReg) (got : List (Nat × Nat)) : List VReg :=
  got.foldl (fun acc x => setElem acc w v.rot x.1 x.2) base

/-- The loaded elements reach the destination and the word stops at a later element (R106). -/
def stopLoad (d : Opnd) (imgs : List VReg) (got : List (Nat × Nat)) (s : State) : State :=
  if got.isEmpty then s else writeGroup d.reg (imgs.map fun i => (i, Tag.general)) s

/-- A strided, swept or gathered load (R212, R218). -/
def loadStrip (w : EpWord) (d : Opnd) (r : AReg) (rlx : Bool) (addr : ElemAddr) (after : State → State) (s : State) : Res Unit :=
  let v := epEnv s
  let z := memLoop (loadElem r d.width rlx addr) v.todo s
  let imgs := loadedImages v d.width (baseImages s w d) z.1
  match z.2.2 with
  | some (.trap _ t) => .trap t (countBanks v.todo.length (stopLoad d imgs z.1 z.2.1))
  | some (.wait n) => .wait n (forgetAccesses s z.2.1)
  | none => .ok () (countBanks v.todo.length (after (epDone w (finalTags v imgs fun _ => .general) z.2.1)))

/-- FFS after a vldff (R215, R216). -/
def setFfs (fe : Nat) (trim : Bool) (cause : BitVec 8) (s : State) : State :=
  (s.withSys { s.c.sys with
    ffs := setField (setBit (setField s.c.sys.ffs 0 11 fe) 16 trim) 24 8 cause.toNat }).mark (.sys 6)

/-- A fault of rows 3 to 6 (R213, R215). -/
def suppressible (cause : BitVec 8) : Bool :=
  cause == 0x05 || cause == 0x06 || cause == 0x07 || cause == 0x08 || cause == 0x09

/-- A first-fault load (R215). -/
def loadFirst (w : EpWord) (d : Opnd) (r : AReg) (rlx : Bool) (addr : ElemAddr) (after : State → State) (s : State) : Res Unit :=
  let v := epEnv s
  let z := memLoop (loadElem r d.width rlx addr) v.todo s
  let imgs := loadedImages v d.width (baseImages s w d) z.1
  let done (fe : Nat) (trim : Bool) (cause : BitVec 8) : Res Unit :=
    .ok () (setFfs fe trim cause (countBanks v.todo.length (after (epDone w (finalTags v imgs fun _ => .general) z.2.1))))
  match z.2.2 with
  | none => done v.vl false 0
  | some (.wait n) => .wait n (forgetAccesses s z.2.1)
  | some (.trap e t) =>
    if suppressible t.cause && (v.lives.any fun i => decide (i < e)) then done e true t.cause
    else .trap t (countBanks v.todo.length (stopLoad d imgs z.1 z.2.1))

/-! Stores. -/

/-- A store-buffer entry being made, with the register of the group whose elements it holds (R207). -/
abbrev NewEntry := Nat × StoreEntry

/-- The newest byte at a location among the new entries. -/
def newByte (loc : Nat) (new : List NewEntry) : Option Byte := bufByte loc (new.map (·.2))

/-- A byte of a later element takes the place of an earlier one's. -/
def clearNew (loc : Nat) (new : List NewEntry) : List NewEntry :=
  new.map fun x => if x.2.addr = loc / 8 * 8 then (x.1, { x.2 with mask := x.2.mask &&& ~~~ (BitVec.twoPow 8 (loc % 8)) }) else x

/-- Put one byte into the entry of a group, lane and word, making the entry when there is none (R207). -/
def putByte (grp lane loc : Nat) (b : Byte) (new : List NewEntry) : List NewEntry :=
  let fits (x : NewEntry) : Bool := x.1 == grp && x.2.lane == lane && x.2.addr == loc / 8 * 8
  let set (x : StoreEntry) : StoreEntry :=
    { x with mask := x.mask ||| BitVec.twoPow 8 (loc % 8)
             data := (x.data &&& ~~~ ((0xFF : Word) <<< (8 * (loc % 8)))) ||| (b.zeroExtend 64 <<< (8 * (loc % 8))) }
  let cleared := clearNew loc new
  if cleared.any fits then cleared.map fun x => if fits x then (x.1, set x.2) else x
  else cleared ++ [(grp, set { lane := lane, addr := loc / 8 * 8, mask := 0, data := 0, rel := none, due := false })]

/-- Put a run of bytes. -/
def putRun (grp lane : Nat) : Nat → List Byte → List NewEntry → List NewEntry
  | _, [], new => new
  | loc, b :: r, new => putRun grp lane (loc + 1) r (putByte grp lane loc b new)

/-- The bytes that element e's store writes: a 4-bit element keeps the other half of its byte (R211). -/
def storeRun (s : State) (w e loc val : Nat) (new : List NewEntry) : List Byte :=
  if w = 4 then
    let old := ((newByte loc new).getD (coreByte s loc)).toNat
    [BitVec.ofNat 8 (if e % 2 = 0 then old / 16 * 16 + val % 16 else val % 16 * 16 + old % 16)]
  else leBytes (w / 8) val

/-- The new entries of a store's elements, in element order (R43, R207). -/
def newEntries (s : State) (v : EpEnv) (w : Nat) (val : Nat → Nat) (got : List (Nat × Nat)) : List NewEntry :=
  got.foldl (fun new x => putRun (x.1 / (4096 / w)) ((x.1 + v.rot) % 64) x.2 (storeRun s w x.1 x.2 (val x.1) new) new) []

/-- Some lane has too few free entries (R209). -/
def bufferShort (s : State) (new : List NewEntry) : Bool :=
  (List.range 64).any fun l =>
    let n := (new.filter fun x => x.2.lane == l).length
    decide (0 < n) && decide (64 < (s.c.sbuf.filter fun x => x.lane == l).length + n)

/-- The stores of the elements that passed their checks: a commit first when a lane is short (R209), then the entries. An element
whose place is in control space reaches its block with the word. What `.rlx` stores carry goes with them (R45). -/
def bufferStores (v : EpEnv) (w : Nat) (rlx : Bool) (val : Nat → Nat) (got : List (Nat × Nat)) (s : State) : State :=
  let note := if rlx then relNote s else none
  let plain := got.filter fun x => (ctrlOff x.2).isNone
  let new := newEntries s v w val plain
  let s1 := if bufferShort s new then commitStores s else s
  let s2 := plain.foldl (fun s x => overtakeBuffer s x.2 (elemBytes w)) s1
  let s3 := { s2 with c := { s2.c with sbuf := s2.c.sbuf ++ new.map fun x => { x.2 with rel := note } } }
  got.foldl (fun s x =>
    match ctrlOff x.2 with
    | some off => if isDxit x.2 then s else ctrlStore off (elemBytes w) (val x.1 % 2 ^ (8 * elemBytes w)) s
    | none => s) s3

/-- A lane store to DXIT ends the context as the AP's does (R328): its checks come before any of the word's stores, which have no effect where
one fails (R74), and the word's own reads count as consumption. `z` is the state that its accesses leave, `store` its stores. -/
def stripExit (w : EpWord) (store : State → State) (s z : State) : Res Unit :=
  let back (t : State) : State := forgetAccesses s { t with c := { t.c with windows := s.c.windows, exiting := s.c.exiting } }
  match exitCheck false { z with c := { z.c with windows := windowsAfter z w [] } } with
  | .trap t s1 => .trap t (back s1)
  | .wait n s1 => .wait n (back s1)
  | .ok loc s1 => .ok () (finishExit loc (store s1))

/-- A strided, swept or scattered store (R212, R218). One that reaches DXIT ends the context. -/
def storeStrip (w : EpWord) (d : Opnd) (r : AReg) (rlx : Bool) (addr : ElemAddr) (after : State → State) (s : State) : Res Unit :=
  let v := epEnv s
  let val := sources s v [d] 0
  let z := memLoop (elemAccess r { s := true } d.width rlx addr) v.todo s
  match z.2.2 with
  | some (.trap _ t) => .trap t (countBanks v.todo.length (bufferStores v d.width rlx val z.1 z.2.1))
  | some (.wait n) => .wait n (forgetAccesses s z.2.1)
  | none =>
    let store := bufferStores v d.width rlx val z.1
    if z.1.any fun x => isDxit x.2 then stripExit w store s z.2.1
    else
      let t := countBanks v.todo.length (after (epDone w [] (store z.2.1)))
      .ok () (if z.1.any fun x => (ctrlOff x.2).isSome then afterBind t else t)

/-! The words. -/

/-- A vector memory word: rows 1 and 2 of R213, and then its elements. -/
def vmemWord (w : EpWord) (a : BitVec 4) (rlx : BitVec 1) (m : BitVec 3) (width : Nat)
    (k : AReg → (State → State) → State → Res Unit) (s : State) : Out :=
  epWord w s fun s =>
    let r := s.ra a.toNat
    match wordChecks s r (rlx == 1#1) m width with
    | some (cause, tval) => .trap (s.trapInfo false cause tval) s
    | none => k r (advanceStrip a r m (nextPtr s r m width)) s

/-- VLD (R210 to R214). -/
def execVld (_cs : BitVec 1) (d : BitVec 5) (a : BitVec 4) (m w : BitVec 3) (r : BitVec 1) (f : BitVec 4) (s : State) : Out :=
  let o := vreg d (plainWidth f)
  let ep : EpWord := { cls := .vmem, dst := some o }
  vmemWord ep a r m o.width (fun g after s => loadStrip ep o g (r == 1#1) (stripAddr s (epEnv s) g w o.width) after s) s

/-- VLDFF (R215). -/
def execVldff (_cs : BitVec 1) (d : BitVec 5) (a : BitVec 4) (m w : BitVec 3) (r : BitVec 1) (f : BitVec 4) (s : State) : Out :=
  let o := vreg d (plainWidth f)
  let ep : EpWord := { cls := .vmem, dst := some o }
  vmemWord ep a r m o.width (fun g after s => loadFirst ep o g (r == 1#1) (stripAddr s (epEnv s) g w o.width) after s) s

/-- VST (R210 to R214). -/
def execVst (_cs : BitVec 1) (d : BitVec 5) (a : BitVec 4) (m w : BitVec 3) (r : BitVec 1) (f : BitVec 4) (s : State) : Out :=
  let o := vreg d (plainWidth f)
  let ep : EpWord := { cls := .vmem, reads := [o] }
  vmemWord ep a r m o.width (fun g after s => storeStrip ep o g (r == 1#1) (stripAddr s (epEnv s) g w o.width) after s) s

/-- VGATH (R218). -/
def execVgath (_cs : BitVec 1) (d : BitVec 5) (a : BitVec 4) (i : BitVec 5) (r : BitVec 1) (f : BitVec 4) (s : State) : Out :=
  let o := vreg d (plainWidth f)
  let x := vreg i 32
  let ep : EpWord := { cls := .vmem, dst := some o, reads := [x] }
  vmemWord ep a r 0 o.width (fun g after s =>
    loadStrip ep o g (r == 1#1) (indexAddr g o.width (sources s (epEnv s) [x] 0)) after s) s

/-- VSCAT (R218). -/
def execVscat (_cs : BitVec 1) (d : BitVec 5) (a : BitVec 4) (i : BitVec 5) (r : BitVec 1) (f : BitVec 4) (s : State) : Out :=
  let o := vreg d (plainWidth f)
  let x := vreg i 32
  let ep : EpWord := { cls := .vmem, reads := [o, x] }
  vmemWord ep a r 0 o.width (fun g after s =>
    storeStrip ep o g (r == 1#1) (indexAddr g o.width (sources s (epEnv s) [x] 0)) after s) s

end Sys2Proof.Machine
end

