-- ==== Sys2Proof/Machine/VScalar.lean ====
section
/-!
DEFINITION. The VX words: the second operand is a scalar register or a queue entry (R189, R195).
-/

namespace Sys2Proof.Machine

/-- A VX word on va and the scalar. -/
def vxWord (t : BitVec 1) (d a x : BitVec 5) (q : BitVec 1) (f : BitVec 4) (op : Nat → Nat → Nat × Flags)
    (rule : Word → TagRule) (s : State) : Out :=
  let w := plainWidth f
  scalarWord t (vreg d w) [vreg a w] x q (fun v src e => op (src 0 e) (v % 2 ^ w)) rule s

/-- A VX word that accumulates into vd at width `wd`. -/
def vxAccumulate (t : BitVec 1) (d a x : BitVec 5) (q : BitVec 1) (f : BitVec 4) (wd : Nat)
    (op : Nat → Nat → Nat → Nat × Flags) (s : State) : Out :=
  let w := plainWidth f
  scalarWord t (vreg d wd) [vreg a w, vreg d wd] x q (fun v src e => op (src 0 e) (v % 2 ^ w) (src 1 e)) (fun _ => .plain) s

/-- VADD with a scalar (R195). -/
def execVxVadd (_cs t : BitVec 1) (d a x : BitVec 5) (q : BitVec 1) (f : BitVec 4) (s : State) : Out :=
  vxWord t d a x q f (fun a b => (iAdd f a b, 0)) (fun v => .addS v 1 1) s
/-- VSUB with a scalar (R195). -/
def execVxVsub (_cs t : BitVec 1) (d a x : BitVec 5) (q : BitVec 1) (f : BitVec 4) (s : State) : Out :=
  vxWord t d a x q f (fun a b => (iSub f a b, 0)) (fun v => .addS v 1 (-1)) s
/-- VRSUB with a scalar (R195). -/
def execVrsub (_cs t : BitVec 1) (d a x : BitVec 5) (q : BitVec 1) (f : BitVec 4) (s : State) : Out :=
  vxWord t d a x q f (fun a b => (iSub f b a, 0)) (fun v => .addS v (-1) 1) s
/-- VMUL with a scalar (R195). -/
def execVxVmul (_cs t : BitVec 1) (d a x : BitVec 5) (q : BitVec 1) (f : BitVec 4) (s : State) : Out :=
  vxWord t d a x q f (fun a b => (iMul f a b, 0)) (fun v => .mulS v) s
/-- VMIN with a scalar (R195). -/
def execVxVmin (_cs t : BitVec 1) (d a x : BitVec 5) (q : BitVec 1) (f : BitVec 4) (s : State) : Out :=
  vxWord t d a x q f (fun a b => (iMin f a b, 0)) (fun _ => .plain) s
/-- VMAX with a scalar (R195). -/
def execVxVmax (_cs t : BitVec 1) (d a x : BitVec 5) (q : BitVec 1) (f : BitVec 4) (s : State) : Out :=
  vxWord t d a x q f (fun a b => (iMax f a b, 0)) (fun _ => .plain) s
/-- VAND with a scalar (R195). -/
def execVxVand (_cs t : BitVec 1) (d a x : BitVec 5) (q : BitVec 1) (f : BitVec 4) (s : State) : Out :=
  vxWord t d a x q f (fun a b => (iAnd a b, 0)) (fun _ => .plain) s
/-- VOR with a scalar (R195). -/
def execVxVor (_cs t : BitVec 1) (d a x : BitVec 5) (q : BitVec 1) (f : BitVec 4) (s : State) : Out :=
  vxWord t d a x q f (fun a b => (iOr a b, 0)) (fun _ => .plain) s
/-- VXOR with a scalar (R195). -/
def execVxVxor (_cs t : BitVec 1) (d a x : BitVec 5) (q : BitVec 1) (f : BitVec 4) (s : State) : Out :=
  vxWord t d a x q f (fun a b => (iXor a b, 0)) (fun _ => .plain) s
/-- VSLL with a scalar (R195). -/
def execVxVsll (_cs t : BitVec 1) (d a x : BitVec 5) (q : BitVec 1) (f : BitVec 4) (s : State) : Out :=
  vxWord t d a x q f (fun a b => (iSll f a b, 0)) (fun v => .sllS (iAmount f v.toNat)) s
/-- VSRL with a scalar (R195). -/
def execVxVsrl (_cs t : BitVec 1) (d a x : BitVec 5) (q : BitVec 1) (f : BitVec 4) (s : State) : Out :=
  vxWord t d a x q f (fun a b => (iSrl f a b, 0)) (fun _ => .plain) s
/-- VSRA with a scalar (R195). -/
def execVxVsra (_cs t : BitVec 1) (d a x : BitVec 5) (q : BitVec 1) (f : BitVec 4) (s : State) : Out :=
  vxWord t d a x q f (fun a b => (iSra f a b, 0)) (fun _ => .plain) s
/-- VRSHR with a scalar (R195). -/
def execVxVrshr (_cs t : BitVec 1) (d a x : BitVec 5) (q : BitVec 1) (f : BitVec 4) (s : State) : Out :=
  vxWord t d a x q f (fun a b => (iRshr f a b, 0)) (fun _ => .plain) s
/-- VBCAST (R195): every element is the scalar. On a float format it is a float VX word, for which a NaN counts (R83). -/
def execVbcast (_cs t : BitVec 1) (d x : BitVec 5) (q : BitVec 1) (f : BitVec 4) (s : State) : Out :=
  scalarWord t (vreg d (plainWidth f)) [] x q (fun v _ _ => passOn f v) (fun _ => .uniform) s
/-- VWMACC with a scalar (R195). -/
def execVxVwmacc (_cs t : BitVec 1) (d a x : BitVec 5) (q : BitVec 1) (f : BitVec 4) (s : State) : Out := vxAccumulate t d a x q f 32 (fun a b c => (iWmacc f a b c, 0)) s
/-- VMACC with a scalar (R195). -/
def execVxVmacc (_cs t : BitVec 1) (d a x : BitVec 5) (q : BitVec 1) (f : BitVec 4) (s : State) : Out := vxAccumulate t d a x q f (plainWidth f) (fun a b c => (iMacc f a b c, 0)) s
/-- VFADD with a scalar (R195). -/
def execVxVfadd (_cs t : BitVec 1) (d a x : BitVec 5) (q : BitVec 1) (f : BitVec 4) (s : State) : Out :=
  vxWord t d a x q f (fun a b => fAdd (floatFmt f) a b) (fun _ => .plain) s
/-- VFSUB with a scalar (R195). -/
def execVxVfsub (_cs t : BitVec 1) (d a x : BitVec 5) (q : BitVec 1) (f : BitVec 4) (s : State) : Out :=
  vxWord t d a x q f (fun a b => fSub (floatFmt f) a b) (fun _ => .plain) s
/-- VFRSUB with a scalar (R195). -/
def execVfrsub (_cs t : BitVec 1) (d a x : BitVec 5) (q : BitVec 1) (f : BitVec 4) (s : State) : Out :=
  vxWord t d a x q f (fun a b => fSub (floatFmt f) b a) (fun _ => .plain) s
/-- VFMUL with a scalar (R195). -/
def execVxVfmul (_cs t : BitVec 1) (d a x : BitVec 5) (q : BitVec 1) (f : BitVec 4) (s : State) : Out :=
  vxWord t d a x q f (fun a b => fMul (floatFmt f) a b) (fun _ => .plain) s
/-- VFMIN with a scalar (R195). -/
def execVxVfmin (_cs t : BitVec 1) (d a x : BitVec 5) (q : BitVec 1) (f : BitVec 4) (s : State) : Out :=
  vxWord t d a x q f (fun a b => fPick (floatFmt f) false a b) (fun _ => .plain) s
/-- VFMAX with a scalar (R195). -/
def execVxVfmax (_cs t : BitVec 1) (d a x : BitVec 5) (q : BitVec 1) (f : BitVec 4) (s : State) : Out :=
  vxWord t d a x q f (fun a b => fPick (floatFmt f) true a b) (fun _ => .plain) s
/-- VFMACC with a scalar (R195). -/
def execVxVfmacc (_cs t : BitVec 1) (d a x : BitVec 5) (q : BitVec 1) (f : BitVec 4) (s : State) : Out :=
  vxAccumulate t d a x q f (plainWidth f) (fFma (floatFmt f) false) s
/-- VFNMACC with a scalar (R195). -/
def execVxVfnmacc (_cs t : BitVec 1) (d a x : BitVec 5) (q : BitVec 1) (f : BitVec 4) (s : State) : Out :=
  vxAccumulate t d a x q f (plainWidth f) (fFma (floatFmt f) true) s

end Sys2Proof.Machine
end

