-- ==== Sys2Proof/Machine/Special.lean ====
section
/-!
DEFINITION. The special functions (R96, R97, R201). In f16 and bf16 a result is computed to at least 64 bits with a sticky bit
and rounded once; in f32 the six algorithms of R97 are followed step by step, on the tables and constants it gives.
-/

namespace Sys2Proof.Machine

/-! Tables of R97: each entry is the exact real value of its formula rounded once to f32. -/

/-- T of exp2: 2^(j/64) (R97). -/
def tabExp2 : List Nat :=
  [0x3F800000, 0x3F8164D2, 0x3F82CD87, 0x3F843A29, 0x3F85AAC3, 0x3F871F62, 0x3F88980F, 0x3F8A14D5
   , 0x3F8B95C2, 0x3F8D1ADF, 0x3F8EA43A, 0x3F9031DC, 0x3F91C3D3, 0x3F935A2B, 0x3F94F4F0, 0x3F96942D]
  ++ [0x3F9837F0, 0x3F99E046, 0x3F9B8D3A, 0x3F9D3EDA, 0x3F9EF532, 0x3FA0B051, 0x3FA27043, 0x3FA43516
   , 0x3FA5FED7, 0x3FA7CD94, 0x3FA9A15B, 0x3FAB7A3A, 0x3FAD583F, 0x3FAF3B79, 0x3FB123F6, 0x3FB311C4]
  ++ [0x3FB504F3, 0x3FB6FD92, 0x3FB8FBAF, 0x3FBAFF5B, 0x3FBD08A4, 0x3FBF179A, 0x3FC12C4D, 0x3FC346CD
   , 0x3FC5672A, 0x3FC78D75, 0x3FC9B9BE, 0x3FCBEC15, 0x3FCE248C, 0x3FD06334, 0x3FD2A81E, 0x3FD4F35B]
  ++ [0x3FD744FD, 0x3FD99D16, 0x3FDBFBB8, 0x3FDE60F5, 0x3FE0CCDF, 0x3FE33F89, 0x3FE5B907, 0x3FE8396A
   , 0x3FEAC0C7, 0x3FED4F30, 0x3FEFE4BA, 0x3FF28177, 0x3FF5257D, 0x3FF7D0DF, 0x3FFA83B3, 0x3FFD3E0C]

/-- T1 of log2: 1 ÷ (1 + j/64) (R97). -/
def tabLog1 : List Nat :=
  [0x3F800000, 0x3F7C0FC1, 0x3F783E10, 0x3F74898D, 0x3F70F0F1, 0x3F6D7304, 0x3F6A0EA1, 0x3F66C2B4
   , 0x3F638E39, 0x3F607038, 0x3F5D67C9, 0x3F5A740E, 0x3F579436, 0x3F54C77B, 0x3F520D21, 0x3F4F6475]
  ++ [0x3F4CCCCD, 0x3F4A4588, 0x3F47CE0C, 0x3F4565C8, 0x3F430C31, 0x3F40C0C1, 0x3F3E82FA, 0x3F3C5264
   , 0x3F3A2E8C, 0x3F381703, 0x3F360B61, 0x3F340B41, 0x3F321643, 0x3F302C0B, 0x3F2E4C41, 0x3F2C7692]
  ++ [0x3F2AAAAB, 0x3F28E83F, 0x3F272F05, 0x3F257EB5, 0x3F23D70A, 0x3F2237C3, 0x3F20A0A1, 0x3F1F1166
   , 0x3F1D89D9, 0x3F1C09C1, 0x3F1A90E8, 0x3F191F1A, 0x3F17B426, 0x3F164FDA, 0x3F14F209, 0x3F139A86]
  ++ [0x3F124925, 0x3F10FDBC, 0x3F0FB824, 0x3F0E7835, 0x3F0D3DCB, 0x3F0C08C1, 0x3F0AD8F3, 0x3F09AE41
   , 0x3F088889, 0x3F0767AB, 0x3F064B8A, 0x3F053408, 0x3F042108, 0x3F03126F, 0x3F020821, 0x3F010204]
  ++ [0x3F000000]

/-- T2 of log2: −log2 of T1[j] (R97). -/
def tabLog2 : List Nat :=
  [0x00000000, 0x3CB73CB3, 0x3D35D690, 0x3D8759C9, 0x3DB31FB7, 0x3DDE420E, 0x3E0462C4, 0x3E195751
   , 0x3E2E00D1, 0x3E42615F, 0x3E567AEF, 0x3E6A4F70, 0x3E7DE0B5, 0x3E88983F, 0x3E92203D, 0x3E9B8925]
  ++ [0x3EA4D3C2, 0x3EAE00D1, 0x3EB71110, 0x3EC0052D, 0x3EC8DDD3, 0x3ED19BAF, 0x3EDA3F60, 0x3EE2C97E
   , 0x3EEB3A9E, 0x3EF39355, 0x3EFBD42A, 0x3F01FED4, 0x3F060828, 0x3F0A0650, 0x3F0DF98A, 0x3F11E20E]
  ++ [0x3F15C01A, 0x3F1993E4, 0x3F1D5DA0, 0x3F211D84, 0x3F24D3C3, 0x3F28808D, 0x3F2C2410, 0x3F2FBE7F
   , 0x3F335004, 0x3F36D8CA, 0x3F3A58FE, 0x3F3DD0C9, 0x3F41404E, 0x3F44A7BB, 0x3F480731, 0x3F4B5ED6]
  ++ [0x3F4EAECF, 0x3F51F740, 0x3F553847, 0x3F58720A, 0x3F5BA4A5, 0x3F5ED038, 0x3F61F4E5, 0x3F6512C6
   , 0x3F6829FA, 0x3F6B3AA0, 0x3F6E44CF, 0x3F7148A2, 0x3F744636, 0x3F773DA2, 0x3F7A2F03, 0x3F7D1A71]
  ++ [0x3F800000]

/-- T of rsq: 1 ÷ √(1 + (j + 0.5)/32) (R97). -/
def tabRsq : List Nat :=
  [0x3F7E05EC, 0x3F7A33F9, 0x3F768CDC, 0x3F730D8A, 0x3F6FB345, 0x3F6C7B90, 0x3F69642A, 0x3F666B02
   , 0x3F638E39, 0x3F60CC16, 0x3F5E2305, 0x3F5B9193, 0x3F59166B, 0x3F56B051, 0x3F545E22, 0x3F521ED0]
  ++ [0x3F4FF162, 0x3F4DD4ED, 0x3F4BC89B, 0x3F49CBA2, 0x3F47DD45, 0x3F45FCD6, 0x3F4429AF, 0x3F426337
   , 0x3F40A8DE, 0x3F3EFA1C, 0x3F3D5671, 0x3F3BBD67, 0x3F3A2E8C, 0x3F38A975, 0x3F372DBF, 0x3F35BB09]
  ++ [0x3F3450FC, 0x3F32EF41, 0x3F319589, 0x3F304387, 0x3F2EF8F2, 0x3F2DB587, 0x3F2C7904, 0x3F2B432A
   , 0x3F2A13C0, 0x3F28EA8C, 0x3F27C759, 0x3F26A9F4, 0x3F25922C, 0x3F247FD3, 0x3F2372BD, 0x3F226ABE]
  ++ [0x3F2167AF, 0x3F206968, 0x3F1F6FC4, 0x3F1E7AA0, 0x3F1D89D9, 0x3F1C9D4E, 0x3F1BB4E1, 0x3F1AD073
   , 0x3F19EFE6, 0x3F191320, 0x3F183A05, 0x3F17647C, 0x3F16926C, 0x3F15C3BC, 0x3F14F857, 0x3F143026]
  ++ [0x3F136B13, 0x3F12A90B, 0x3F11E9F9, 0x3F112DCA, 0x3F10746D, 0x3F0FBDCE, 0x3F0F09DD, 0x3F0E5889
   , 0x3F0DA9C2, 0x3F0CFD79, 0x3F0C539F, 0x3F0BAC25, 0x3F0B06FD, 0x3F0A641A, 0x3F09C36D, 0x3F0924EC]
  ++ [0x3F088889, 0x3F07EE37, 0x3F0755ED, 0x3F06BF9E, 0x3F062B40, 0x3F0598C7, 0x3F05082A, 0x3F04795F
   , 0x3F03EC5C, 0x3F036117, 0x3F02D788, 0x3F024FA6, 0x3F01C967, 0x3F0144C4, 0x3F00C1B4, 0x3F004030]

/-! Fixed-point evaluation, with 128 bits after the point. -/

/-- The unit 2^128. -/
def fixOne : Nat := 2 ^ 128
/-- ⌊ln 2 × 2^128⌋. -/
def fixLn2 : Nat := 235865763225513294137944142764154484399
/-- ⌊2^128 ÷ ln 2⌋. -/
def fixInvLn2 : Nat := 490923683258796565746369346286093237521
/-- ⌊π × 2^128⌋. -/
def fixPi : Nat := 1069028584064966747859680373161870783300

/-- The sum of `n` more terms of the exponential series. -/
def expSum : Nat → Nat → Nat → Nat → Nat
  | 0, _, _, _ => 0
  | n + 1, k, y, t => t + expSum n (k + 1) y (t * y / fixOne / (k + 1))

/-- 2^f for f in [0, 1), fixed-point. -/
def fixExp2 (f : Nat) : Nat := expSum 40 0 (f * fixLn2 / fixOne) fixOne

/-- The sum of `n` more terms z^(2k+1) ÷ (2k + 1). -/
def atanhSum : Nat → Nat → Nat → Nat → Nat
  | 0, _, _, _ => 0
  | n + 1, k, z2, t => t / (2 * k + 1) + atanhSum n (k + 1) z2 (t * z2 / fixOne)

/-- log2 of m ÷ 2^n in [1, 2), fixed-point. -/
def fixLog2 (m n : Nat) : Nat :=
  let z := (m - 2 ^ n) * fixOne / (m + 2 ^ n)
  2 * atanhSum 45 0 (z * z / fixOne) z * fixInvLn2 / fixOne

/-- The alternating sum of `n` more terms u^k ÷ (step-wise factorial): the next divisors are d and d + 1. -/
def trigSum : Nat → Nat → Nat → Nat → Int
  | 0, _, _, _ => 0
  | n + 1, d, u, t => (t : Int) - trigSum n (d + 2) u (t * u / fixOne / (d * (d + 1)))

/-! f16 and bf16: the exact value, or one that rounds as it does. -/

/-- A finite value is an integer. -/
def isInteger (m : Nat) (e : Int) : Bool := decide (0 ≤ e) || m % 2 ^ (-e).toNat == 0

/-- 2^x. Beyond 2^13 in magnitude the result is far outside every format. -/
def exp2V (x : FVal) : FVal × Flags :=
  match x with
  | .nan => (.nan, flagNV)
  | .inf s => (if s then .fin false 0 0 else .inf false, 0)
  | .fin s m e =>
    if m = 0 then (.fin false 1 0, 0)
    else if 13 ≤ (Nat.log2 m : Int) + e then (.fin false 1 (if s then -9000 else 9000), 0)
    else if isInteger m e then (.fin false 1 (signedQuanta s m e (min e 0) / 2 ^ (-(min e 0)).toNat), 0)
    else
      let d : Nat := 2 ^ (-e).toNat
      let v : Int := if s then -(m : Int) else m
      let f := (v % (d : Int)).toNat * fixOne / d
      (.fin false (2 * fixExp2 f + 1) (v / (d : Int) - 129), 0)

/-- log2 x. -/
def log2V (x : FVal) : FVal × Flags :=
  match x with
  | .nan => (.nan, flagNV)
  | .inf s => if s then (.nan, flagNV) else (.inf false, 0)
  | .fin s m e =>
    if m = 0 then (.inf true, flagDZ)
    else if s then (.nan, flagNV)
    else
      let n := Nat.log2 m
      let k : Int := n + e
      if m = 2 ^ n then (ofQuanta k 0 false, 0)
      else
        let v : Int := k * (fixOne : Nat) + (fixLog2 m n : Nat)
        (.fin (decide (v < 0)) (if v < 0 then 2 * v.natAbs - 1 else 2 * v.natAbs + 1) (-129), 0)

/-- 1 ÷ √x. -/
def rsqV (x : FVal) : FVal × Flags :=
  match x with
  | .nan => (.nan, flagNV)
  | .inf s => if s then (.nan, flagNV) else (.fin false 0 0, 0)
  | .fin s m e =>
    if m = 0 then (.inf s, flagDZ)
    else if s then (.nan, flagNV)
    else
      let odd := e % 2 ≠ 0
      let m := if odd then 2 * m else m
      let e := if odd then e - 1 else e
      let r := isqrt (4 ^ 100 / m) 101 0
      (.fin false (2 * r + (if r * r * m = 4 ^ 100 then 0 else 1)) (-(e / 2) - 101), 0)

/-- The nearest integer, ties to even. -/
def nearestInt (s : Bool) (m : Nat) (e : Int) : Int :=
  let k := (roundQuanta 0 s 0 m e 0).1
  if s then -(k : Int) else k

/-- sin(πr) or cos(πr) for r = (−1)^s × m × 2^e not zero, |r| ≤ 1/4. -/
def trigV (cos s : Bool) (m : Nat) (e : Int) : FVal :=
  let u := fixPi * fixPi * (m * m) / 2 ^ (128 + 2 * (-e).toNat)
  if cos then .fin false (2 * (trigSum 24 1 u fixOne).toNat + 1) (-129)
  else .fin s (2 * (m * fixPi * (trigSum 24 2 u fixOne).toNat) + 1) (e - 257)

/-- sin(πx) and cos(πx). -/
def sincosV (cos : Bool) (x : FVal) : FVal × Flags :=
  match x with
  | .nan => (.nan, flagNV)
  | .inf _ => (.nan, flagNV)
  | .fin s m e =>
    let k := nearestInt s m (e + 1)
    let q := ((if cos then k + 1 else k) % 4).toNat
    let v := signedQuanta s m e (min e (-1)) - k * 2 ^ (-1 - min e (-1)).toNat
    let c := q % 2 == 1
    let flip := decide (2 ≤ q)
    if v = 0 then
      (if c then .fin flip 1 0 else .fin (!cos && s) 0 0, 0)
    else
      let y := trigV c (decide (v < 0)) v.natAbs (min e (-1))
      (if flip then y.neg else y, 0)

/-- tanh x. -/
def tanhV (x : FVal) : FVal × Flags :=
  match x with
  | .nan => (.nan, flagNV)
  | .inf s => (.fin s 1 0, 0)
  | .fin s m e =>
    let l : Int := (Nat.log2 m : Nat) + e
    if m = 0 then (.fin s 0 0, 0)
    else if 5 ≤ l then (.fin s (2 ^ 130 - 1) (-130), 0)
    else if l < -30 then (.fin s (m * 2 ^ 100 - 1) (e - 100), 0)
    else
      let t := if 0 ≤ e then 2 * m * 2 ^ e.toNat * fixInvLn2 else 2 * m * fixInvLn2 / 2 ^ (-e).toNat
      let ex := fixExp2 (t % fixOne) * 2 ^ (t / fixOne)
      let r := ratio (ex - fixOne) (ex + fixOne)
      (.fin s (r.1 ||| 1) r.2, 0)

/-! f32: the algorithms of R97. -/

/-- One rounding to f32 (R96). -/
def r32 (x : FVal) : FVal := fmtF32.decode (fmtF32.rne (x, 0)).1
def add32 (a b : FVal) : FVal := r32 (addV a b).1
def mul32 (a b : FVal) : FVal := r32 (mulV a b).1
def fma32 (a b c : FVal) : FVal := r32 (fmaV a b c false).1

/-- The f32 value of bits. -/
def c32 (b : Nat) : FVal := fmtF32.decode b
/-- Entry j of a table. -/
def entry (t : List Nat) (j : Nat) : FVal := c32 (t.getD j 0)

/-- Horner's rule by fma32, from the last coefficient. -/
def poly32 (u : FVal) : List Nat → FVal
  | [] => c32 0
  | c :: r => r.foldl (fun h k => fma32 u h (c32 k)) (c32 c)

/-- A finite value times 2^n. -/
def scale2 (x : FVal) (n : Int) : FVal :=
  match x with
  | .fin s m e => .fin s m (e + n)
  | y => y

/-- x − k × 2^(−b), exactly. -/
def lessK (s : Bool) (m : Nat) (e k : Int) (b : Nat) : FVal :=
  (addV (.fin s m e) (.fin (decide (0 < k)) k.natAbs (-(b : Int)))).1

/-- Only UF and OF of the final scaling of exp2 are kept (R96, R97). -/
def exp2f (x : FVal) : Nat × Flags :=
  match x with
  | .nan => (fmtF32.canonNan, flagNV)
  | .inf s => (if s then 0 else fmtF32.infBits false, 0)
  | .fin s m e =>
    let v := FVal.fin s m e
    if !s && fmtF32.cmpKey 0x43000000 ≤ fmtF32.cmpKey (fmtF32.rne (v, 0)).1 then (fmtF32.infBits false, flagOF)
    else if s && fmtF32.cmpKey (fmtF32.rne (v, 0)).1 ≤ fmtF32.cmpKey 0xC3200000 then (0, flagUF)
    else
      let k := nearestInt s m (e + 6)
      let r := lessK s m e k 6
      let n := k / 64
      let t := entry tabExp2 (k % 64).toNat
      let h := poly32 r [0x3C1D955B, 0x3D635847, 0x3E75FDF0, 0x3F317218]
      let y := fma32 t (mul32 r h) t
      let z := fmtF32.rne (scale2 y n, 0)
      (z.1, z.2 &&& (flagUF ||| flagOF))

def log2f (x : FVal) : Nat × Flags :=
  match x with
  | .nan => (fmtF32.canonNan, flagNV)
  | .inf s => if s then (fmtF32.canonNan, flagNV) else (fmtF32.infBits false, 0)
  | .fin s m e =>
    if m = 0 then (fmtF32.infBits true, flagDZ)
    else if s then (fmtF32.canonNan, flagNV)
    else
      let b := Nat.log2 m
      let j := ((m - 2 ^ b) * 128 + 2 ^ b) / 2 ^ (b + 1)
      let t := fma32 (.fin false m (-(b : Int))) (entry tabLog1 j) (c32 0xBF800000)
      let q := poly32 t [0xBEB8AA3B, 0x3EF6384F, 0xBF38AA3B, 0x3FB8AA3B]
      let n : Int := b + e
      ((fmtF32.rne (fma32 t q (add32 (ofQuanta n 0 false) (entry tabLog2 j)), 0)).1, 0)

/-- One of the two Newton steps of rsq. -/
def rsqStep (h y : FVal) : FVal :=
  let e := fma32 h.neg (mul32 y y) (c32 0x3F000000)
  fma32 y e y

def rsqf (x : FVal) : Nat × Flags :=
  match x with
  | .nan => (fmtF32.canonNan, flagNV)
  | .inf s => if s then (fmtF32.canonNan, flagNV) else (0, 0)
  | .fin s m e =>
    if m = 0 then (fmtF32.infBits s, flagDZ)
    else if s then (fmtF32.canonNan, flagNV)
    else
      let l : Int := (Nat.log2 m : Nat) + e
      let n := l / 2
      -- x = M × 2^(2n) with 1 ≤ M < 4, M = m × 2^(e − 2n)
      let j := (if 0 ≤ e - 2 * n + 5 then m * 2 ^ (e - 2 * n + 5).toNat else m / 2 ^ (-(e - 2 * n + 5)).toNat) - 32
      let h := FVal.fin false m (e - 2 * n - 1)
      let y := rsqStep h (rsqStep h (entry tabRsq j))
      ((fmtF32.rne (scale2 y (-n), 0)).1, 0)

def sincosf (cos : Bool) (x : FVal) : Nat × Flags :=
  match x with
  | .nan => (fmtF32.canonNan, flagNV)
  | .inf _ => (fmtF32.canonNan, flagNV)
  | .fin s m e =>
    if m ≠ 0 && decide (24 ≤ (Nat.log2 m : Int) + e) then (if cos then 0x3F800000 else if s then fmtF32.sign else 0, 0)
    else
      let k := nearestInt s m (e + 1)
      let r := lessK s m e k 1
      let u := mul32 r r
      let q := ((if cos then k + 1 else k) % 4).toNat
      let y :=
        if q % 2 = 0 then mul32 r (poly32 u [0x3DA83C1B, 0xBF196966, 0x402335E3, 0xC0A55DE7, 0x40490FDB])
        else fma32 u (poly32 u [0xBCD368F9, 0x3E70FA83, 0xBFAAE9E4, 0x4081E0FA, 0xC09DE9E6]) (c32 0x3F800000)
      let z := if 2 ≤ q then y.neg else y
      match z with
      | .fin _ 0 _ => (if !cos && s then fmtF32.sign else 0, 0)
      | w => ((fmtF32.rne (w, 0)).1, 0)

def tanhf (x : FVal) : Nat × Flags :=
  match x with
  | .nan => (fmtF32.canonNan, flagNV)
  | .inf s => (0x3F800000 + (if s then fmtF32.sign else 0), 0)
  | .fin s m e =>
    let sg := if s then fmtF32.sign else 0
    let a := FVal.fin false m e
    let b := (fmtF32.rne (a, 0)).1
    if m = 0 then (sg, 0)
    else if 0x41100000 ≤ b then (0x3F800000 + sg, 0)
    else if b < 0x39800000 then (sg + b, 0)
    else
      let y :=
        if b < 0x3EC00000 then
          let w := mul32 a a
          let g := mul32 w (poly32 w [0x3B6B69E8, 0xBC11371B, 0x3CB327A4, 0xBD5D0DD1, 0x3E088889, 0xBEAAAAAB])
          fma32 a g a
        else
          let ex := c32 (exp2f (mul32 a (c32 0x4038AA3B))).1
          let d := r32 (divV (c32 0x40000000) (add32 ex (c32 0x3F800000))).1
          add32 (c32 0x3F800000) d.neg
      (sg + (fmtF32.rne (y, 0)).1 % fmtF32.sign, 0)

/-! The eight functions on bits (R201). -/

def fRcp (f : FFmt) (a : Nat) : Nat × Flags := f.rne (divV (.fin false 1 0) (f.decode a))
def fRsq (f : FFmt) (a : Nat) : Nat × Flags := if f = fmtF32 then rsqf (f.decode a) else f.rne (rsqV (f.decode a))
def fExp2 (f : FFmt) (a : Nat) : Nat × Flags := if f = fmtF32 then exp2f (f.decode a) else f.rne (exp2V (f.decode a))
def fLog2 (f : FFmt) (a : Nat) : Nat × Flags := if f = fmtF32 then log2f (f.decode a) else f.rne (log2V (f.decode a))
def fSinpi (f : FFmt) (a : Nat) : Nat × Flags :=
  if f = fmtF32 then sincosf false (f.decode a) else f.rne (sincosV false (f.decode a))
def fCospi (f : FFmt) (a : Nat) : Nat × Flags :=
  if f = fmtF32 then sincosf true (f.decode a) else f.rne (sincosV true (f.decode a))
def fTanh (f : FFmt) (a : Nat) : Nat × Flags := if f = fmtF32 then tanhf (f.decode a) else f.rne (tanhV (f.decode a))

end Sys2Proof.Machine
end

