-- ==== Sys2Proof/Machine/VSpecial.lean ====
section
/-!
DEFINITION. The VN words: special functions and raw bits (R201, R202).
-/

namespace Sys2Proof.Machine

/-- A special-function word (R201). -/
def vnWord (t : BitVec 1) (d a : BitVec 5) (f : BitVec 4) (op : FFmt → Nat → Nat × Flags) (s : State) : Out :=
  let w := plainWidth f
  lanesWord .special t (vreg d w) [vreg a w] (fun _ src e => op (floatFmt f) (src 0 e)) .plain s

/-- VRCP (R201). -/
def execVrcp (_cs t : BitVec 1) (d a : BitVec 5) (f : BitVec 4) (s : State) : Out := vnWord t d a f fRcp s
/-- VRSQ (R201). -/
def execVrsq (_cs t : BitVec 1) (d a : BitVec 5) (f : BitVec 4) (s : State) : Out := vnWord t d a f fRsq s
/-- VSQRT (R201). -/
def execVsqrt (_cs t : BitVec 1) (d a : BitVec 5) (f : BitVec 4) (s : State) : Out := vnWord t d a f fSqrt s
/-- VEXP2 (R201). -/
def execVexp2 (_cs t : BitVec 1) (d a : BitVec 5) (f : BitVec 4) (s : State) : Out := vnWord t d a f fExp2 s
/-- VLOG2 (R201). -/
def execVlog2 (_cs t : BitVec 1) (d a : BitVec 5) (f : BitVec 4) (s : State) : Out := vnWord t d a f fLog2 s
/-- VSINPI (R201). -/
def execVsinpi (_cs t : BitVec 1) (d a : BitVec 5) (f : BitVec 4) (s : State) : Out := vnWord t d a f fSinpi s
/-- VCOSPI (R201). -/
def execVcospi (_cs t : BitVec 1) (d a : BitVec 5) (f : BitVec 4) (s : State) : Out := vnWord t d a f fCospi s
/-- VTANH (R201). -/
def execVtanh (_cs t : BitVec 1) (d a : BitVec 5) (f : BitVec 4) (s : State) : Out := vnWord t d a f fTanh s
/-- VRAND (R202): salt bits 9:5 and 4:0 stand in the va and vb fields; index SBASE + e; bits w − 1:0 of the call. -/
def execVrand (_cs t : BitVec 1) (d h j : BitVec 5) (f : BitVec 4) (s : State) : Out :=
  lanesWord .special t (vreg d (plainWidth f)) [] (fun v _ e =>
    ((sluice s.c.sys.seed 2 (h.toNat * 32 + j.toNat) (v.sbase + BitVec.ofNat 64 e) 0).toNat % 2 ^ plainWidth f, 0)) .general s

end Sys2Proof.Machine
end

