-- ==== Sys2Proof/Machine/Vk.lean ====
section
/-!
DEFINITION. The VK words: VFMT, VLOOP, SCOMMIT, VPART and VTRIM (R184, R204 to R208, R217).
-/

namespace Sys2Proof.Machine

/-- The VFMT value of a VFMT word's fields; SCNT is 0 (R181, R184). -/
def vfmtValue (e k : BitVec 5) (r : BitVec 3) (g : BitVec 2) : Word :=
  BitVec.ofNat 64 (e.toNat % 16 + g.toNat * 2 ^ 8 + k.toNat % 16 * 2 ^ 12 + r.toNat * 2 ^ 16)

/-- A VK word that only the AP acts on: no PFX may precede it (R206). -/
def vkWord (bad : Bool) : EpWord := { cls := .control, noPfx := true, bad := bad }

/-- VFMT (R184): illegal where it would change VLMAX inside the active vector loop (R206). -/
def execVfmt (_cs : BitVec 1) (e k : BitVec 5) (r : BitVec 3) (g : BitVec 2) (s : State) : Out :=
  let w := vkWord (vfmtBreaksLoop s (vfmtValue e k r g))
  epWord w s fun s => .ok () (epDone w [] (setVfmt s (vfmtValue e k r g)))

/-- A VLOOP at PC with last body word `last` breaks the nesting rule (R205). -/
def vloopNests (s : State) (last : Word) : Bool :=
  (List.range 3).any fun l => inBody (s.rdesc l) s.c.pc && decide (descLast (s.rdesc l) ≤ last)

/-- VLOOP (R204, R205). -/
def execVloop (_cs : BitVec 1) (h a j : BitVec 5) (s : State) : Out :=
  let w := vkWord false
  epWord w s fun s =>
    let last := s.c.pc + BitVec.ofNat 64 (4 * (h.toNat * 32 + j.toNat + 1))
    if s.c.vloop.active || vloopNests s last then .trap (s.illegal false) s
    else
      let n := s.rx a
      let s1 := retire (epSettle w [] s)
      let s2 := (s1.withSys { s1.c.sys with ffs := setBit s1.c.sys.ffs 47 false }).mark (.sys 6)
      if n = 0 then .ok () (s2.withPc (last + 4))
      else
        let v : VLoop := { active := true, n := n, strip := 0, vlmax := vlmaxNow s, first := s.c.pc + 4, last := last }
        .ok () { s2 with c := { s2.c with vloop := v, pc := s.c.pc + 4 } }

/-- SCOMMIT (R207, R208): a commit at its place, which does not hold up younger words. -/
def execScommit (_cs : BitVec 1) (s : State) : Out :=
  let w := vkWord false
  epWord w s fun s => .ok () (askCommit (epDone w [] s))

/-- A word that reads FFS after every older word has completed waits for the matrix issues (R29, R217). -/
def afterIssues (s : State) (k : Res Unit) : Res Unit := if s.c.mat.issues.isEmpty then k else .wait 14 s

/-- VPART (R217): bit e is 1 for e below FFS.FE. -/
def execVpart (_cs : BitVec 1) (d : BitVec 5) (s : State) : Out :=
  let w : EpWord := { cls := .control }
  epWord w s fun s => afterIssues s <|
    let v := epEnv s
    .ok () (writeP (epDone w [] s) d.toNat (setPredBits v (readP s d.toNat) fun e => decide (e < field s.c.sys.ffs 0 11)))

/-- VTRIM (R217). -/
def execVtrim (_cs : BitVec 1) (s : State) : Out :=
  let w := vkWord false
  epWord w s fun s => afterIssues s <|
    let tvl := min (field s.c.sys.ffs 0 11) (vlNow s)
    let s1 := (s.withSys { s.c.sys with ffs := setBit (setField s.c.sys.ffs 32 11 tvl) 47 true }).mark (.sys 6)
    .ok () (epDone w [] s1)

end Sys2Proof.Machine
end

