-- ==== Sys2Proof/Machine/Dispatch.lean ====
section
/-!
DEFINITION. The dispatch from an instruction or device step to its meaning.
-/

namespace Sys2Proof.Machine

def exec (i : Instr) (s : State) : Host.Outcome State Fault Refusal :=
  match i with
  | .pfx p n c v => Sys2Proof.Machine.execPfx p n c v s
  | .add d a b => Sys2Proof.Machine.execAdd d a b s
  | .sub d a b => Sys2Proof.Machine.execSub d a b s
  | .and d a b => Sys2Proof.Machine.execAnd d a b s
  | .or d a b => Sys2Proof.Machine.execOr d a b s
  | .xor d a b => Sys2Proof.Machine.execXor d a b s
  | .andn d a b => Sys2Proof.Machine.execAndn d a b s
  | .orn d a b => Sys2Proof.Machine.execOrn d a b s
  | .sll d a b => Sys2Proof.Machine.execSll d a b s
  | .srl d a b => Sys2Proof.Machine.execSrl d a b s
  | .sra d a b => Sys2Proof.Machine.execSra d a b s
  | .rotl d a b => Sys2Proof.Machine.execRotl d a b s
  | .rotr d a b => Sys2Proof.Machine.execRotr d a b s
  | .slt d a b => Sys2Proof.Machine.execSlt d a b s
  | .sltu d a b => Sys2Proof.Machine.execSltu d a b s
  | .seq d a b => Sys2Proof.Machine.execSeq d a b s
  | .sne d a b => Sys2Proof.Machine.execSne d a b s
  | .min d a b => Sys2Proof.Machine.execMin d a b s
  | .max d a b => Sys2Proof.Machine.execMax d a b s
  | .minu d a b => Sys2Proof.Machine.execMinu d a b s
  | .maxu d a b => Sys2Proof.Machine.execMaxu d a b s
  | .adds d a b => Sys2Proof.Machine.execAdds d a b s
  | .subs d a b => Sys2Proof.Machine.execSubs d a b s
  | .addus d a b => Sys2Proof.Machine.execAddus d a b s
  | .subus d a b => Sys2Proof.Machine.execSubus d a b s
  | .mul d a b => Sys2Proof.Machine.execMul d a b s
  | .mulh d a b => Sys2Proof.Machine.execMulh d a b s
  | .mulhu d a b => Sys2Proof.Machine.execMulhu d a b s
  | .mulhsu d a b => Sys2Proof.Machine.execMulhsu d a b s
  | .div d a b => Sys2Proof.Machine.execDiv d a b s
  | .divu d a b => Sys2Proof.Machine.execDivu d a b s
  | .rem d a b => Sys2Proof.Machine.execRem d a b s
  | .remu d a b => Sys2Proof.Machine.execRemu d a b s
  | .addw d a b => Sys2Proof.Machine.execAddw d a b s
  | .subw d a b => Sys2Proof.Machine.execSubw d a b s
  | .sllw d a b => Sys2Proof.Machine.execSllw d a b s
  | .srlw d a b => Sys2Proof.Machine.execSrlw d a b s
  | .sraw d a b => Sys2Proof.Machine.execSraw d a b s
  | .mulw d a b => Sys2Proof.Machine.execMulw d a b s
  | .clz d a => Sys2Proof.Machine.execClz d a s
  | .ctz d a => Sys2Proof.Machine.execCtz d a s
  | .popc d a => Sys2Proof.Machine.execPopc d a s
  | .brev d a => Sys2Proof.Machine.execBrev d a s
  | .sextb d a => Sys2Proof.Machine.execSextb d a s
  | .sexth d a => Sys2Proof.Machine.execSexth d a s
  | .sextw d a => Sys2Proof.Machine.execSextw d a s
  | .zextw d a => Sys2Proof.Machine.execZextw d a s
  | .jr a => Sys2Proof.Machine.execJr a s
  | .jalr d a => Sys2Proof.Machine.execJalr d a s
  | .addi d a im => Sys2Proof.Machine.execAddi d a im s
  | .andi d a im => Sys2Proof.Machine.execAndi d a im s
  | .ori d a im => Sys2Proof.Machine.execOri d a im s
  | .xori d a im => Sys2Proof.Machine.execXori d a im s
  | .slti d a im => Sys2Proof.Machine.execSlti d a im s
  | .sltiu d a im => Sys2Proof.Machine.execSltiu d a im s
  | .slli d a h => Sys2Proof.Machine.execSlli d a h s
  | .srli d a h => Sys2Proof.Machine.execSrli d a h s
  | .srai d a h => Sys2Proof.Machine.execSrai d a h s
  | .rotri d a h => Sys2Proof.Machine.execRotri d a h s
  | .addiw d a im => Sys2Proof.Machine.execAddiw d a im s
  | .lih d im => Sys2Proof.Machine.execLih d im s
  | .beqz a t => Sys2Proof.Machine.execBeqz a t s
  | .bnez a t => Sys2Proof.Machine.execBnez a t s
  | .bltz a t => Sys2Proof.Machine.execBltz a t s
  | .bgez a t => Sys2Proof.Machine.execBgez a t s
  | .bgtz a t => Sys2Proof.Machine.execBgtz a t s
  | .blez a t => Sys2Proof.Machine.execBlez a t s
  | .bra t => Sys2Proof.Machine.execBra t s
  | .j t => Sys2Proof.Machine.execJ t s
  | .call t => Sys2Proof.Machine.execCall t s
  | .loop l c n => Sys2Proof.Machine.execLoop l c n s
  | .lb d a im => Sys2Proof.Machine.execLb d a im s
  | .lh d a im => Sys2Proof.Machine.execLh d a im s
  | .lw d a im => Sys2Proof.Machine.execLw d a im s
  | .ld d a im => Sys2Proof.Machine.execLd d a im s
  | .lbu d a im => Sys2Proof.Machine.execLbu d a im s
  | .lhu d a im => Sys2Proof.Machine.execLhu d a im s
  | .lwu d a im => Sys2Proof.Machine.execLwu d a im s
  | .pref a o => Sys2Proof.Machine.execPref a o s
  | .sb xs a im => Sys2Proof.Machine.execSb xs a im s
  | .sh xs a im => Sys2Proof.Machine.execSh xs a im s
  | .sw xs a im => Sys2Proof.Machine.execSw xs a im s
  | .sd xs a im => Sys2Proof.Machine.execSd xs a im s
  | .atadd d a => Sys2Proof.Machine.execAtadd d a s
  | .atand d a => Sys2Proof.Machine.execAtand d a s
  | .ator d a => Sys2Proof.Machine.execAtor d a s
  | .atxor d a => Sys2Proof.Machine.execAtxor d a s
  | .atmin d a => Sys2Proof.Machine.execAtmin d a s
  | .atmax d a => Sys2Proof.Machine.execAtmax d a s
  | .atminu d a => Sys2Proof.Machine.execAtminu d a s
  | .atmaxu d a => Sys2Proof.Machine.execAtmaxu d a s
  | .atswp d a => Sys2Proof.Machine.execAtswp d a s
  | .atcas d a => Sys2Proof.Machine.execAtcas d a s
  | .ataddw d a => Sys2Proof.Machine.execAtaddw d a s
  | .atandw d a => Sys2Proof.Machine.execAtandw d a s
  | .atorw d a => Sys2Proof.Machine.execAtorw d a s
  | .atxorw d a => Sys2Proof.Machine.execAtxorw d a s
  | .atminw d a => Sys2Proof.Machine.execAtminw d a s
  | .atmaxw d a => Sys2Proof.Machine.execAtmaxw d a s
  | .atminuw d a => Sys2Proof.Machine.execAtminuw d a s
  | .atmaxuw d a => Sys2Proof.Machine.execAtmaxuw d a s
  | .atswpw d a => Sys2Proof.Machine.execAtswpw d a s
  | .atcasw d a => Sys2Proof.Machine.execAtcasw d a s
  | .amk d a b => Sys2Proof.Machine.execAmk d a b s
  | .amov d a => Sys2Proof.Machine.execAmov d a s
  | .aperm d a b => Sys2Proof.Machine.execAperm d a b s
  | .aadd d a b => Sys2Proof.Machine.execAadd d a b s
  | .anar d a b => Sys2Proof.Machine.execAnar d a b s
  | .aset d a b => Sys2Proof.Machine.execAset d a b s
  | .adiff d a b => Sys2Proof.Machine.execAdiff d a b s
  | .aget d a => Sys2Proof.Machine.execAget d a s
  | .agetb d a => Sys2Proof.Machine.execAgetb d a s
  | .agetl d a => Sys2Proof.Machine.execAgetl d a s
  | .agetp d a => Sys2Proof.Machine.execAgetp d a s
  | .dset d a b => Sys2Proof.Machine.execDset d a b s
  | .dgetl d a => Sys2Proof.Machine.execDgetl d a s
  | .dgets d a => Sys2Proof.Machine.execDgets d a s
  | .mtlc d a => Sys2Proof.Machine.execMtlc d a s
  | .mflc d a => Sys2Proof.Machine.execMflc d a s
  | .mflb d a => Sys2Proof.Machine.execMflb d a s
  | .mtlb d a => Sys2Proof.Machine.execMtlb d a s
  | .qw a n => Sys2Proof.Machine.execQw a n s
  | .qr d n => Sys2Proof.Machine.execQr d n s
  | .qbr n t => Sys2Proof.Machine.execQbr n t s
  | .qbrz n t => Sys2Proof.Machine.execQbrz n t s
  | .queueEntryFill n val => Sys2Proof.Machine.execQueueEntryFill n val s
  | .bar c => Sys2Proof.Machine.execBar c s
  | .barrierArrival scope other h => Sys2Proof.Machine.execBarrierArrival scope other h s
  | .barrierMessage m => Sys2Proof.Machine.execBarrierMessage m s
  | .signal d a o => Sys2Proof.Machine.execSignal d a o s
  | .waitc d a o => Sys2Proof.Machine.execWaitc d a o s
  | .waitcComplete => Sys2Proof.Machine.execWaitcComplete s
  | .fence k c => Sys2Proof.Machine.execFence k c s
  | .xfence m => Sys2Proof.Machine.execXfence m s
  | .ifence => Sys2Proof.Machine.execIfence s
  | .trap im => Sys2Proof.Machine.execTrap im s
  | .tret => Sys2Proof.Machine.execTret s
  | .aexit => Sys2Proof.Machine.execAexit s
  | .mfsr d r => Sys2Proof.Machine.execMfsr d r s
  | .mtsr a r => Sys2Proof.Machine.execMtsr a r s
  | .xinv a k => Sys2Proof.Machine.execXinv a k s
  | .xinvComplete => Sys2Proof.Machine.execXinvComplete s
  | .cpy d a b h v n => Sys2Proof.Machine.execCpy d a b h v n s
  | .cst d h => Sys2Proof.Machine.execCst d h s
  | .cabt h => Sys2Proof.Machine.execCabt h s
  | .gth d t im h v z c => Sys2Proof.Machine.execGth d t im h v z c s
  | .copyChunk ch => Sys2Proof.Machine.execCopyChunk ch s
  | .engineFaultTrap ch => Sys2Proof.Machine.execEngineFaultTrap ch s
  | .gatherBurst ch => Sys2Proof.Machine.execGatherBurst ch s
  | .vadd cs t d a b f => Sys2Proof.Machine.execVadd cs t d a b f s
  | .vsub cs t d a b f => Sys2Proof.Machine.execVsub cs t d a b f s
  | .vmul cs t d a b f => Sys2Proof.Machine.execVmul cs t d a b f s
  | .vmulh cs t d a b f => Sys2Proof.Machine.execVmulh cs t d a b f s
  | .vadds cs t d a b f => Sys2Proof.Machine.execVadds cs t d a b f s
  | .vsubs cs t d a b f => Sys2Proof.Machine.execVsubs cs t d a b f s
  | .vmin cs t d a b f => Sys2Proof.Machine.execVmin cs t d a b f s
  | .vmax cs t d a b f => Sys2Proof.Machine.execVmax cs t d a b f s
  | .vand cs t d a b f => Sys2Proof.Machine.execVand cs t d a b f s
  | .vor cs t d a b f => Sys2Proof.Machine.execVor cs t d a b f s
  | .vxor cs t d a b f => Sys2Proof.Machine.execVxor cs t d a b f s
  | .vandn cs t d a b f => Sys2Proof.Machine.execVandn cs t d a b f s
  | .vsll cs t d a b f => Sys2Proof.Machine.execVsll cs t d a b f s
  | .vsrl cs t d a b f => Sys2Proof.Machine.execVsrl cs t d a b f s
  | .vsra cs t d a b f => Sys2Proof.Machine.execVsra cs t d a b f s
  | .vrshr cs t d a b f => Sys2Proof.Machine.execVrshr cs t d a b f s
  | .vabs cs t d a f => Sys2Proof.Machine.execVabs cs t d a f s
  | .vneg cs t d a f => Sys2Proof.Machine.execVneg cs t d a f s
  | .vmov cs t d a f => Sys2Proof.Machine.execVmov cs t d a f s
  | .vmacc cs t d a b f => Sys2Proof.Machine.execVmacc cs t d a b f s
  | .vid cs t d f => Sys2Proof.Machine.execVid cs t d f s
  | .vwmacc cs t d a b f => Sys2Proof.Machine.execVwmacc cs t d a b f s
  | .vfadd cs t d a b f => Sys2Proof.Machine.execVfadd cs t d a b f s
  | .vfsub cs t d a b f => Sys2Proof.Machine.execVfsub cs t d a b f s
  | .vfmul cs t d a b f => Sys2Proof.Machine.execVfmul cs t d a b f s
  | .vfdiv cs t d a b f => Sys2Proof.Machine.execVfdiv cs t d a b f s
  | .vfmin cs t d a b f => Sys2Proof.Machine.execVfmin cs t d a b f s
  | .vfmax cs t d a b f => Sys2Proof.Machine.execVfmax cs t d a b f s
  | .vfmacc cs t d a b f => Sys2Proof.Machine.execVfmacc cs t d a b f s
  | .vfnmacc cs t d a b f => Sys2Proof.Machine.execVfnmacc cs t d a b f s
  | .vfabs cs t d a f => Sys2Proof.Machine.execVfabs cs t d a f s
  | .vfneg cs t d a f => Sys2Proof.Machine.execVfneg cs t d a f s
  | .vfwmacc cs t d a b f => Sys2Proof.Machine.execVfwmacc cs t d a b f s
  | .vcvt cs t d a g h o r => Sys2Proof.Machine.execVcvt cs t d a g h o r s
  | .vcvtBlock cs t d a g h o r => Sys2Proof.Machine.execVcvtBlock cs t d a g h o r s
  | .vcmpeq cs d a b f => Sys2Proof.Machine.execVcmpeq cs d a b f s
  | .vcmpne cs d a b f => Sys2Proof.Machine.execVcmpne cs d a b f s
  | .vcmplt cs d a b f => Sys2Proof.Machine.execVcmplt cs d a b f s
  | .vcmple cs d a b f => Sys2Proof.Machine.execVcmple cs d a b f s
  | .pand cs d a b => Sys2Proof.Machine.execPand cs d a b s
  | .por cs d a b => Sys2Proof.Machine.execPor cs d a b s
  | .pxor cs d a b => Sys2Proof.Machine.execPxor cs d a b s
  | .pandn cs d a b => Sys2Proof.Machine.execPandn cs d a b s
  | .pnot cs d a => Sys2Proof.Machine.execPnot cs d a s
  | .pset cs d => Sys2Proof.Machine.execPset cs d s
  | .pclr cs d => Sys2Proof.Machine.execPclr cs d s
  | .vxVadd cs t d a x q f => Sys2Proof.Machine.execVxVadd cs t d a x q f s
  | .vxVsub cs t d a x q f => Sys2Proof.Machine.execVxVsub cs t d a x q f s
  | .vrsub cs t d a x q f => Sys2Proof.Machine.execVrsub cs t d a x q f s
  | .vxVmul cs t d a x q f => Sys2Proof.Machine.execVxVmul cs t d a x q f s
  | .vxVmin cs t d a x q f => Sys2Proof.Machine.execVxVmin cs t d a x q f s
  | .vxVmax cs t d a x q f => Sys2Proof.Machine.execVxVmax cs t d a x q f s
  | .vxVand cs t d a x q f => Sys2Proof.Machine.execVxVand cs t d a x q f s
  | .vxVor cs t d a x q f => Sys2Proof.Machine.execVxVor cs t d a x q f s
  | .vxVxor cs t d a x q f => Sys2Proof.Machine.execVxVxor cs t d a x q f s
  | .vxVsll cs t d a x q f => Sys2Proof.Machine.execVxVsll cs t d a x q f s
  | .vxVsrl cs t d a x q f => Sys2Proof.Machine.execVxVsrl cs t d a x q f s
  | .vxVsra cs t d a x q f => Sys2Proof.Machine.execVxVsra cs t d a x q f s
  | .vxVrshr cs t d a x q f => Sys2Proof.Machine.execVxVrshr cs t d a x q f s
  | .vbcast cs t d x q f => Sys2Proof.Machine.execVbcast cs t d x q f s
  | .vxVwmacc cs t d a x q f => Sys2Proof.Machine.execVxVwmacc cs t d a x q f s
  | .vxVmacc cs t d a x q f => Sys2Proof.Machine.execVxVmacc cs t d a x q f s
  | .vxVfadd cs t d a x q f => Sys2Proof.Machine.execVxVfadd cs t d a x q f s
  | .vxVfsub cs t d a x q f => Sys2Proof.Machine.execVxVfsub cs t d a x q f s
  | .vfrsub cs t d a x q f => Sys2Proof.Machine.execVfrsub cs t d a x q f s
  | .vxVfmul cs t d a x q f => Sys2Proof.Machine.execVxVfmul cs t d a x q f s
  | .vxVfmin cs t d a x q f => Sys2Proof.Machine.execVxVfmin cs t d a x q f s
  | .vxVfmax cs t d a x q f => Sys2Proof.Machine.execVxVfmax cs t d a x q f s
  | .vxVfmacc cs t d a x q f => Sys2Proof.Machine.execVxVfmacc cs t d a x q f s
  | .vxVfnmacc cs t d a x q f => Sys2Proof.Machine.execVxVfnmacc cs t d a x q f s
  | .vld cs d a m w r f => Sys2Proof.Machine.execVld cs d a m w r f s
  | .vldff cs d a m w r f => Sys2Proof.Machine.execVldff cs d a m w r f s
  | .vst cs d a m w r f => Sys2Proof.Machine.execVst cs d a m w r f s
  | .commit => Sys2Proof.Machine.execCommit s
  | .vperm cs t d a b f => Sys2Proof.Machine.execVperm cs t d a b f s
  | .vpermp cs t d a b f => Sys2Proof.Machine.execVpermp cs t d a b f s
  | .pplan cs t d a => Sys2Proof.Machine.execPplan cs t d a s
  | .vredsum cs t d a q f => Sys2Proof.Machine.execVredsum cs t d a q f s
  | .vredmin cs t d a q f => Sys2Proof.Machine.execVredmin cs t d a q f s
  | .vredmax cs t d a q f => Sys2Proof.Machine.execVredmax cs t d a q f s
  | .vredand cs t d a q f => Sys2Proof.Machine.execVredand cs t d a q f s
  | .vredor cs t d a q f => Sys2Proof.Machine.execVredor cs t d a q f s
  | .vredxor cs t d a q f => Sys2Proof.Machine.execVredxor cs t d a q f s
  | .vscan cs t d a f => Sys2Proof.Machine.execVscan cs t d a f s
  | .vbrd cs t d a b f => Sys2Proof.Machine.execVbrd cs t d a b f s
  | .chamberAct => Sys2Proof.Machine.execChamberAct s
  | .vfmt cs e k r g => Sys2Proof.Machine.execVfmt cs e k r g s
  | .vloop cs h a j => Sys2Proof.Machine.execVloop cs h a j s
  | .scommit cs => Sys2Proof.Machine.execScommit cs s
  | .vpart cs d => Sys2Proof.Machine.execVpart cs d s
  | .vtrim cs => Sys2Proof.Machine.execVtrim cs s
  | .vrcp cs t d a f => Sys2Proof.Machine.execVrcp cs t d a f s
  | .vrsq cs t d a f => Sys2Proof.Machine.execVrsq cs t d a f s
  | .vsqrt cs t d a f => Sys2Proof.Machine.execVsqrt cs t d a f s
  | .vexp2 cs t d a f => Sys2Proof.Machine.execVexp2 cs t d a f s
  | .vlog2 cs t d a f => Sys2Proof.Machine.execVlog2 cs t d a f s
  | .vsinpi cs t d a f => Sys2Proof.Machine.execVsinpi cs t d a f s
  | .vcospi cs t d a f => Sys2Proof.Machine.execVcospi cs t d a f s
  | .vtanh cs t d a f => Sys2Proof.Machine.execVtanh cs t d a f s
  | .vrand cs t d h j f => Sys2Proof.Machine.execVrand cs t d h j f s
  | .vgath cs d a im r f => Sys2Proof.Machine.execVgath cs d a im r f s
  | .vscat cs d a im r f => Sys2Proof.Machine.execVscat cs d a im r f s
  | .matt cs n => Sys2Proof.Machine.execMatt cs n s
  | .mattFull cs n => Sys2Proof.Machine.execMattFull cs n s
  | .mattFullGrant held => Sys2Proof.Machine.execMattFullGrant held s
  | .mdet cs => Sys2Proof.Machine.execMdet cs s
  | .mldb cs a k h => Sys2Proof.Machine.execMldb cs a k h s
  | .mldbSp cs a k h => Sys2Proof.Machine.execMldbSp cs a k h s
  | .mswap cs m => Sys2Proof.Machine.execMswap cs m s
  | .mst cs m a k => Sys2Proof.Machine.execMst cs m a k s
  | .mmov cs m d r j => Sys2Proof.Machine.execMmov cs m d r j s
  | .mgtab cs a k g h => Sys2Proof.Machine.execMgtab cs a k g h s
  | .mctr cs a => Sys2Proof.Machine.execMctr cs a s
  | .mma cs m a k g h z => Sys2Proof.Machine.execMma cs m a k g h z s
  | .mmac cs m a g h z => Sys2Proof.Machine.execMmac cs m a g h z s
  | .mmag cs m a k g h z => Sys2Proof.Machine.execMmag cs m a k g h z s
  | .mmasp cs m a g h z => Sys2Proof.Machine.execMmasp cs m a g h z s
  | .mmaSeq cs m a k g h z => Sys2Proof.Machine.execMmaSeq cs m a k g h z s
  | .mseq cs a k q h => Sys2Proof.Machine.execMseq cs a k q h s
  | .matrixIssueComplete => Sys2Proof.Machine.execMatrixIssueComplete s
  | .znew cs d a => Sys2Proof.Machine.execZnew cs d a s
  | .zfork cs d a b => Sys2Proof.Machine.execZfork cs d a b s
  | .zmov cs d a => Sys2Proof.Machine.execZmov cs d a s
  | .zpin cs d a b => Sys2Proof.Machine.execZpin cs d a b s
  | .zset cs d a b => Sys2Proof.Machine.execZset cs d a b s
  | .zlt cs d a b f => Sys2Proof.Machine.execZlt cs d a b f s
  | .zle cs d a b f => Sys2Proof.Machine.execZle cs d a b f s
  | .zcmp cs d a b => Sys2Proof.Machine.execZcmp cs d a b s
  | .zcvt cs t d a => Sys2Proof.Machine.execZcvt cs t d a s
  | .zlen cs t d a => Sys2Proof.Machine.execZlen cs t d a s
  | .zposl cs t d a => Sys2Proof.Machine.execZposl cs t d a s
  | .zposh cs t d a => Sys2Proof.Machine.execZposh cs t d a s
  | .zcnt cs t d a b j f => Sys2Proof.Machine.execZcnt cs t d a b j f s
  | .sluiceCall pos draw => Sys2Proof.Machine.execSluiceCall pos draw s
  | .raddV d a b n l f t => Sys2Proof.Machine.execRaddV d a b n l f t s
  | .rmcst d a b n l t => Sys2Proof.Machine.execRmcst d a b n l t s
  | .vpost d a b t => Sys2Proof.Machine.execVpost d a b t s
  | .hold d a => Sys2Proof.Machine.execHold d a s
  | .remoteAtomicLine l => Sys2Proof.Machine.execRemoteAtomicLine l s
  | .multicastCopy l => Sys2Proof.Machine.execMulticastCopy l s
  | .remoteAck id ix r hint => Sys2Proof.Machine.execRemoteAck id ix r hint s
  | .aggregatedAck id bitmap => Sys2Proof.Machine.execAggregatedAck id bitmap s
  | .remoteReportTrap id => Sys2Proof.Machine.execRemoteReportTrap id s
  | .postDelivery p => Sys2Proof.Machine.execPostDelivery p s
  | .postApply p => Sys2Proof.Machine.execPostApply p s
  | .rds src ask => Sys2Proof.Machine.execRds src ask s
  | .rdx src ask => Sys2Proof.Machine.execRdx src ask s
  | .inv line => Sys2Proof.Machine.execInv line s
  | .iack src line d => Sys2Proof.Machine.execIack src line d s
  | .wb src line d => Sys2Proof.Machine.execWb src line d s
  | .data line d r => Sys2Proof.Machine.execData line d r s
  | .movedResponse id => Sys2Proof.Machine.execMovedResponse id s
  | .unfreezeBoundExpiry id => Sys2Proof.Machine.execUnfreezeBoundExpiry id s
  | .transferReplay x => Sys2Proof.Machine.execTransferReplay x s
  | .linkDown port => Sys2Proof.Machine.execLinkDown port s
  | .translationWalk va acc => Sys2Proof.Machine.execTranslationWalk va acc s
  | .trapEntry r => Sys2Proof.Machine.execTrapEntry r s
  | .arrivalEntry => Sys2Proof.Machine.execArrivalEntry s
  | .fatalEvent kind pa src => Sys2Proof.Machine.execFatalEvent kind pa src s
  | .lwin v => Sys2Proof.Machine.execLwin v s
  | .launchAccept pl => Sys2Proof.Machine.execLaunchAccept pl s
  | .dxit => Sys2Proof.Machine.execDxit s
  | .contextExit => Sys2Proof.Machine.execContextExit s
  | .preload w => Sys2Proof.Machine.execPreload w s
  | .swap w => Sys2Proof.Machine.execSwap w s
  | .evict w => Sys2Proof.Machine.execEvict w s
  | .drop w => Sys2Proof.Machine.execDrop w s
  | .fillComplete => Sys2Proof.Machine.execFillComplete s
  | .swapActivation => Sys2Proof.Machine.execSwapActivation s
  | .spillComplete => Sys2Proof.Machine.execSpillComplete s
  | .sliceBudgetExpiry => Sys2Proof.Machine.execSliceBudgetExpiry s
  | .agingInterval => Sys2Proof.Machine.execAgingInterval s
  | .fbitInv => Sys2Proof.Machine.execFbitInv s
  | .registerWrite agent off v => Sys2Proof.Machine.execRegisterWrite agent off v s
  | .packageReset trained => Sys2Proof.Machine.execPackageReset trained s
  | .enter => Sys2Proof.Machine.execEnter s
  | .go => Sys2Proof.Machine.execGo s
  | .attestationRequest => Sys2Proof.Machine.execAttestationRequest s
  | .powerReading pnow tnow => Sys2Proof.Machine.execPowerReading pnow tnow s
  | .thermalTrip => Sys2Proof.Machine.execThermalTrip s
  | .d3hotEntry => Sys2Proof.Machine.execD3hotEntry s
  | .d3hotExit => Sys2Proof.Machine.execD3hotExit s
  | .sample => Sys2Proof.Machine.execSample s
  | .cxlMemAccess dec wr off v => Sys2Proof.Machine.execCxlMemAccess dec wr off v s
  | .readRequest src off ask => Sys2Proof.Machine.execReadRequest src off ask s
  | .writeRequest src off ask => Sys2Proof.Machine.execWriteRequest src off ask s
  | .linkUp port => Sys2Proof.Machine.execLinkUp port s
  | .loadDataReturn id => Sys2Proof.Machine.execLoadDataReturn id s

end Sys2Proof.Machine
end

