-- ==== Sys2Proof/Machine/Turn.lean ====
section
/-!
DEFINITION. What happens beside the Active context's words: the traps and arrivals that are due before a word (R114, R176, R288, R292),
the turns of engines, of the fabric port and of the dispatch hardware, and the passing of time (R164, R323, R340).
-/

namespace Sys2Proof.Machine

/-! Between two words. -/

/-- The trap of an engine fault or of a remote report, the one whose command is older first (R176, R292). -/
def commandTrap (s : State) : Option State :=
  match faultDue s, reportDue s with
  | some i, some id =>
    let later := match cmdAt s id with | some c => decide (c.order < (chanAt s i).order) | none => false
    some (if later then takeReport id s else takeFault i s)
  | some i, none => some (takeFault i s)
  | none, some id => some (takeReport id s)
  | none, none => none

/-- What is taken at the word at PC before it issues: the end of a bound (R288), and where that is not the word's own trap, a command's trap
or an arrival (R114, R176). -/
def interruption (s : State) : Option State :=
  match expiryDue s with
  | some id => some (expireNow id s)
  | none =>
    if endsAtWord s then none
    else match commandTrap s with
      | some t => some t
      | none => if arrivalDue s then some (takeArrival s) else none

/-! Turns. -/

/-- Who can go on beside the Active context. -/
inductive Turn where
  | channel (i : Nat)
  | matrix
  | port
  | post
  | returned
  | invalidation
  | commit
  | fill
  | swap
  | spill
  | held
  | queue (n : Nat)
  | late
  | evict
  | firmware
  deriving DecidableEq, Repr

/-- A channel runs a command. -/
def chanRuns (s : State) (i : Nat) : Bool := (chanAt s i).act && !(chanAt s i).flt

/-- The turns of the Active context's commands. -/
def commandTurns (s : State) : List Turn :=
  if s.cs = .active then
    ((List.range 4).filter (chanRuns s)).map Turn.channel
      ++ (if s.c.mat.issues.isEmpty then [] else [.matrix])
      ++ (if remoteDue s then [.port] else [])
      ++ (if s.c.wait = 6 then [.invalidation] else [])
      ++ (if commitPends s.c then [.commit] else [])
      ++ ((List.range 8).filter fun n => (awaited (s.rq n)).isSome).map Turn.queue
  else []

/-- Every turn that is due. -/
def turnsDue (s : State) : List Turn :=
  commandTurns s
    ++ (if (postDue s).isSome then [.post] else [])
    ++ (if s.fab.wanted.isEmpty then [] else [.returned])
    ++ (if s.sh.isSome && !s.shReady then [.fill] else [])
    ++ (if s.pendSwap && s.shReady && s.spill.isNone then [.swap] else [])
    ++ (if s.spill.isSome then [.spill] else [])
    ++ (if heldDue s then [.held] else [])
    ++ (if (lateDue s).isSome then [.late] else [])
    ++ (if (evictable s).isSome && Config.evicts s.tick then [.evict] else [])
    ++ (if firmwareDue s then [.firmware] else [])

/-- An outcome's state; a turn never stops. -/
def outState (o : Out) (s : State) : State := match o with | .next t => t | _ => s

/-- A turn is taken. -/
def takeTurn (t : Turn) (s : State) : State :=
  match t with
  | .channel i => afterBind (chanStep i s)
  | .matrix => afterBind (outState (execMatrixIssueComplete s) s)
  | .port => afterBind (remoteTurn s)
  | .post => match postDue s with | some p => outState (execPostApply p s) s | none => s
  | .returned => outState (execLoadDataReturn { place := 0, news := noNews } s) s
  | .invalidation => outState (execXinvComplete s) s
  | .commit => commitDue s
  | .fill => afterBind (opFillComplete s)
  | .swap => afterBind (activate s)
  | .spill => afterBind (opSpillComplete s)
  | .held => afterBind s
  | .queue n => s.wq n (fillFirst ((awaited (s.rq n)).getD 0) (s.rq n))
  | .late => serveLate s
  | .evict => evictTurn s
  | .firmware => firmwareTurn s

/-- Whether a turn comes before the next word: every other time while the context waits; otherwise as the free choice of Config says, and
every sixteenth time in any case, so that what is due is done beside a context that never waits. The bound is a DESIGN CHOICE (R33; log
entry 5). -/
def turnFirst (s : State) : Bool :=
  if s.c.wait = 0 then Config.engineTurn s.tick || s.tick % 16 == 0 else s.tick % 2 == 0

/-- The turn to be taken among those due: each in its time. -/
def turnNow (s : State) : Option Turn :=
  let ts := turnsDue s
  ts[s.tick / (if s.c.wait = 0 then 16 else 2) % ts.length]?

/-- The turn that comes before the Active context's next word, if one does. -/
def turnBefore (s : State) : Option Turn :=
  if (turnsDue s).isEmpty then none else if turnFirst s then turnNow s else none

/-! Time. -/

/-- The cycles that pass. -/
def cyclesFrom (before n : Word) : List Word := (List.range n.toNat).map fun i => before + BitVec.ofNat 64 (i + 1)

/-- The Active context's samples of the cycles that pass (R340). -/
def takeSamples (before n : Word) (s : State) : State :=
  if sampling s then ((cyclesFrom before n).filter fun c => c.toNat % sampleEvery s == 0).foldl (fun s c => sampleAt c s) s else s

/-- Time passes: CYCLE, USED of the Active context, its budget (R323) and its samples (R340). -/
def advanceTime (s : State) : State :=
  let n := Config.stepCycles s.tick
  let used := if s.cs = .active then s.slot.used + n else s.slot.used
  let above := s.cs = .active ∧ s.slot.ovr = false ∧ (budgetOf s s.coreNum).toNat ≤ used.toNat
  let slot := { s.slot with
    used := used, ovr := if above then true else s.slot.ovr
    event := if above then setBit s.slot.event 1 true else s.slot.event }
  takeSamples s.cycle n { s with cycle := s.cycle + n, tick := s.tick + 1, slot := slot }

end Sys2Proof.Machine
end

