-- ==== Sys2Proof/Machine/Step.lean ====
section
/-!
DEFINITION. One step of the machine: a device step that is due, or else what is due at the Active context's next word, or else
that word.
-/

namespace Sys2Proof.Machine

/-- The word at PC issues. -/
noncomputable def issue (s : State) : Out :=
  match frontEnd s with
  | .error t => .next t
  | .ok (i, s1) => exec i s1

/-- What the core does next when no device step is due: the Active context's interruption, a turn beside it, or its word; without
an Active context, or where no core runs (R331), a turn if one is due (R15). -/
noncomputable def coreTurn (s : State) : Out :=
  if s.cs = .active ∧ s.dev.state = .ready then
    match interruption s with
    | some t => .next t
    | none =>
      match turnBefore s with
      | some t => .next (takeTurn t s)
      | none => issue s
  else
    match turnNow s with
    | some t => .next (takeTurn t s)
    | none => .next s

/-- The boot goes on (R331). -/
def booting (s : State) : Bool := s.dev.state == .reset || s.dev.state == .rom || s.dev.state == .firmware

/-- What the machine does next. Device steps come from the agenda, oldest first; an instruction word comes only from memory. Without
power nothing happens but a package reset (R337), in D3cold nothing has an effect but one, in D3hot the cores are gated (R338), and before
STATE 3 the boot goes on (R331). -/
noncomputable def act (s : State) : Out :=
  match s.agenda with
  | i :: r =>
    if !s.dev.power && !isReset i then .fault .noPower
    else if s.dev.d3cold && !isReset i then .next { s with agenda := r }
    else if (encode? i).isNone then exec i { s with agenda := r }
    else .next { s with agenda := r }
  | [] =>
    if !s.dev.power then .fault .noPower
    else if s.dev.d3 || s.dev.d3cold then .next s
    else if booting s then .next (bootTurn s)
    else coreTurn s
where
  /-- A package reset. -/
  isReset : Instr → Bool
    | .packageReset _ => true
    | _ => false

/-- Time passes with what an outcome leaves. -/
def timed (o : Out) : Out :=
  match o with
  | .next t => .next (advanceTime t)
  | .fault f => .fault f
  | .refused r => .refused r

/-- One step. -/
noncomputable def step (s : State) : Host.Outcome State Fault Refusal := timed (act s)

/-! Placing an instruction where the next step fetches it. -/

/-- The frames that `withFetchWord` uses for a page table and a page, as offsets in this package's HBM. -/
def fetchTable (s : State) (l : Nat) : Nat := s.fab.pkg.toNat * 2 ^ 42 + 0x100000 + 0x1000 * l
def fetchFrame (s : State) : Nat := s.fab.pkg.toNat * 2 ^ 42 + 0x200000

/-- The address that the next word is fetched from: PC, or 0 where PC is no word address of the virtual space. -/
def fetchPc (s : State) : Word := if s.c.pc.toNat % 4 = 0 ∧ s.c.pc.toNat < 2 ^ 48 then s.c.pc else 0

/-- Memory with a page table that maps the page of an address, executable at user level, and a word at it. -/
def placeWord (s : State) (pc : Nat) (w : Nat) : Memory :=
  let entry (l : Nat) (m : Memory) : Memory :=
    writeWord m (fetchTable s l + 8 * levelIndex l pc) (BitVec.ofNat 64 (fetchTable s (l - 1) + 1))
  let leaf (m : Memory) : Memory :=
    writeWord m (fetchTable s 0 + 8 * levelIndex 0 pc) (BitVec.ofNat 64 (2 ^ 58 + fetchFrame s + 13))
  writeBytes (leaf (entry 1 (entry 2 (entry 3 s.mem)))) (fetchFrame s + pc % 65536) (leBytes 4 w)

/-- The state with an instruction stored where the next step fetches it. The model loads programs from outside (log entry 12): the core
has an Active context whose page table maps the page of PC, and nothing else is due before the word. -/
def State.withFetchWord (s : State) (nbits w : Nat) : State :=
  let pc := fetchPc s
  { s with
    cs := .active, dev := { s.dev with state := .ready, power := true, d3 := false, d3cold := false, holdoff := 1 }
    mem := placeWord s pc.toNat (w % 2 ^ nbits), tlb := [], icache := [], lbuf := [], agenda := []
    fab := { s.fab with posts := [], wanted := [], answers := [], late := [], held := [], dir := [] }
    pendSwap := false, sh := none, spill := none, slot := { s.slot with held := [] }, disp := { s.disp with lost := [] }
    c := { s.c with
      pc := pc, root := fetchTable s 3, wait := 0, exempt := true, atTvec := false, qtrap := none, arrivals := 0, moved := []
      sbuf := s.c.sbuf.map fun e => { e with due := false }, older := []
      q := s.c.q.map fun l => l.map fun e => { e with filled := true }
      remote := [], chan := Vector.replicate 4 Channel.free, mat := { s.c.mat with issues := [] } } }

end Sys2Proof.Machine
end

