-- ==== Sys2Proof/Safety.lean ====
section
/-!
DEFINITION. The terms that claims use: a safe run, what a word leaves alone, what its completion does, and when a vector word meets no
check that stops it.
-/

namespace Sys2Proof.Machine

/-! Runs. -/

/-- A run of `n` steps goes on to a state. -/
def runs : Nat → State → State → Prop
  | 0, s, t => s = t
  | n + 1, s, t => ∃ u, step s = .next u ∧ runs n u t

/-- A safe run: a step never stops. -/
def SafeRun (s : State) : Prop := ∀ n t, runs n s t → ∃ u, step t = .next u

/-- The invariant that memory has its canonical form, and with it the scratchpad memory of every context that the core holds or has held. -/
def MemInv (s : State) : Prop :=
  s.mem.wf = true ∧ s.c.scratch.wf = true ∧ ∀ c, s.sh = some c ∨ s.spill = some c ∨ c ∈ s.saved → c.scratch.wf = true

/-! What a word leaves alone. -/

/-- The end of a word: the program counter and the hardware loops (R131, R204), RETIRED and FFS.TACT (R164, R216), and the model's own
marks of a word (the exemptions of R109 and R110, the wait of R28, the registers written of R112, those that loads wrote last (R157),
data that came from other packages). -/
def quiet (s : State) : State :=
  { s with
    c := { s.c with
      pc := 0, lc := Vector.replicate 3 0, desc := Vector.replicate 3 0, vloop := VLoop.off
      exempt := false, atTvec := false, wait := 0, dirty := [], older := [], loads := []
      sys := { s.c.sys with retired := 0, ffs := setBit s.c.sys.ffs 47 false } }
    fab := { s.fab with inbox := [] } }

/-- The two states differ in nothing but the end of a word and what `erase` takes out of the context: every byte of memory, every register
of every kind and every other part of the machine is as it was. -/
def Frame (erase : Context → Context) (s t : State) : Prop :=
  quiet { t with c := erase t.c } = quiet { s with c := erase s.c }

/-- Nothing is taken out. -/
def nothing (c : Context) : Context := c
/-- The scalar registers, both banks. -/
def scalars (c : Context) : Context := { c with x := Vector.replicate 32 0, xArr := Vector.replicate 8 0 }
/-- The address registers. -/
def addresses (c : Context) : Context := { c with a := Vector.replicate 16 AReg.zero }
/-- The queues. -/
def queues (c : Context) : Context := { c with q := Vector.replicate 8 [] }

/-- The registers of the bank that x24 to x31 do not name now (R123). -/
def hiddenBank (s : State) : List Word :=
  if s.ain then (List.range 8).map fun i => nth s.c.x (24 + i) 0 else s.c.xArr.toList

/-- Register d takes v, a write to x0 is discarded, and every other register of either bank is as it was (R123). -/
def ScalarWritten (d : BitVec 5) (v : Word) (s t : State) : Prop :=
  (∀ n : BitVec 5, t.rx n = if n = 0 then 0 else if n = d then v else s.rx n) ∧ hiddenBank t = hiddenBank s

/-- Address register d takes r, and every other one is as it was. -/
def AddressWritten (d : Nat) (r : AReg) (s t : State) : Prop := ∀ n, t.ra n = if n = d then r else s.ra n

/-! The end of a word. -/

/-- The word at PC is the last one of active level l's body (R131). -/
def atLast (l : Nat) (s : State) : Bool := descActive (s.rdesc l) && decide (descLast (s.rdesc l) = s.c.pc)

/-- The word at PC is the last one of active level l's body, which has passes left (R131). -/
def again (l : Nat) (s : State) : Bool := atLast l s && decide (1 < (s.rlc l).toNat)

/-- The innermost level with passes left that ends at the word at PC, of those that take part (R131). -/
def turnerAmong (q : Nat → Bool) (s : State) : Option Nat := [2, 1, 0].find? fun l => q l && again l s

/-- The word at PC is the vector loop's last one, and level l lies inside its body (R205). -/
def inStrip (s : State) (l : Nat) : Bool := endsVloop s.c.vloop s.c.pc && insideVloop s l

/-- The vector loop turns at the word at PC: it is its last word, and no level inside its body turns there (R204, R205). -/
def vloopTurns (s : State) : Bool := endsVloop s.c.vloop s.c.pc && (turnerAmong (inStrip s) s).isNone

/-- The vector loop goes on to its next strip at the word at PC (R204). -/
def nextStrip (s : State) : Bool :=
  vloopTurns s && decide ((s.c.vloop.strip + 1).toNat * s.c.vloop.vlmax < s.c.vloop.n.toNat)

/-- The level that turns at the word at PC: the innermost one with passes left that ends there; at the vector loop's last word the levels
inside its body come first, and the others only where no strip follows (R131, R205). -/
def turner (s : State) : Option Nat :=
  match turnerAmong (inStrip s) s with
  | some l => some l
  | none => if nextStrip s then none else turnerAmong (fun _ => true) s

/-- Level l's turn has come at the word at PC: no level before it has turned, and it lies inside the vector loop or no strip follows (R131,
R205). -/
def reached (l : Nat) (s : State) : Bool :=
  match turnerAmong (inStrip s) s with
  | some m => inStrip s l && decide (m < l)
  | none => inStrip s l || (!nextStrip s && (turner s).all (decide <| · < l))

/-- Level l ends at the word at PC: its last pass ends there, and its turn has come (R131). -/
def levelOver (l : Nat) (s : State) : Bool := atLast l s && decide ((s.rlc l).toNat ≤ 1) && reached l s

/-- PC and the loops after a word that does not transfer control: the next strip from the vector loop's first word (R204), or the turn of a
level, and otherwise the next word; the levels that are over are inactive, and the vector loop is where its last strip ends (R131, R205;
log entry 35 for a word that ends both). -/
def LoopsAfter (s t : State) : Prop :=
  t.c.pc = (if nextStrip s then s.c.vloop.first else (turner s).elim (s.c.pc + 4) fun l => descFirst (s.rdesc l)) ∧
  t.c.vloop = (if nextStrip s then { s.c.vloop with strip := s.c.vloop.strip + 1 }
    else if vloopTurns s then { s.c.vloop with active := false, strip := 0 } else s.c.vloop) ∧
  ∀ l < 3,
    t.rlc l = (if turner s = some l then s.rlc l - 1 else if levelOver l s then 0 else s.rlc l) ∧
    t.rdesc l = (if levelOver l s then setBit (s.rdesc l) 63 false else s.rdesc l)

/-- A word of state `s` that does not transfer control has completed: RETIRED counts it (R164), PC and the loops go on (R61, R131, R204), and
FFS.TACT is clear after the vector loop's turn (R216). -/
def Completed (s t : State) : Prop :=
  t.c.sys.retired = s.c.sys.retired + 1 ∧ LoopsAfter s t ∧
  t.c.sys.ffs = (if vloopTurns s then setBit s.c.sys.ffs 47 false else s.c.sys.ffs)

/-- An AP-class word may run: no PFX payload is pending for it (R70). -/
abbrev ApReady (s : State) : Prop := s.c.pfxLive = false

/-! Vector words. -/

/-- A vector word meets no check that stops it and no register it waits for (R67, R70, R74, R183, R188). -/
def epReady (w : EpWord) (s : State) : Bool :=
  match epChecks w s with
  | .ok _ _ => true
  | _ => false

/-- Element e of the file's registers that an operand names. -/
def fileElem (s : State) (o : Opnd) (vlmax rot e : Nat) : Nat :=
  elemAt ((o.regs vlmax).map fun n => nth s.c.v n 0) o.width rot e

/-- Element e of an operand as a word reads it: through the bypass where a transient result holds it (R73). -/
def readElem (s : State) (o : Opnd) (e : Nat) : Nat := elemAt (readOpnd s o) o.width (rotNow s) e

/-- The elements that a word acts on: below VL, not masked, and from ESTART on where the word replays (R69, R109, R188). -/
def acts (s : State) (e : Nat) : Bool := (epEnv s).live e && decide ((epEnv s).first ≤ e)

/-- What the end of an EP-class word takes out of the context (R20, R45, R69, R73, R84, R109): the convoy, the transient results, the payload
and its status bit, ESTART, the replay, the flags, and the post edges of the registers read. -/
def epEnd (c : Context) : Context :=
  { c with
    hb := Vector.replicate 5 [], postR := Vector.replicate 32 []
    convoy := Convoy.fresh, windows := [], bypass := [], replay := none, replaySalt := none, pfxLive := false
    sys := { c.sys with estart := 0, status := setBit c.sys.status 2 false, fpctl := c.sys.fpctl &&& ~~~ (0xFF : Word) } }

/-- What a word that writes vector registers takes out. -/
def vectors (c : Context) : Context := { epEnd c with v := Vector.replicate 32 0, vtag := Vector.replicate 32 .uniform }

/-- Element e of what a destination starts from: the file's, or for T = 1 what a replay finds in the bypass (R73, R109). -/
def startElem (s : State) (w : EpWord) (d : Opnd) (e : Nat) : Nat := elemAt (baseImages s w d) d.width (rotNow s) e

/-- Element e of a word's result: in the file, or with T = 1 in the bypass (R73). -/
def resultElem (s t : State) (w : EpWord) (d : Opnd) (e : Nat) : Nat :=
  if w.t then elemAt (readOpnd t d) d.width (rotNow s) e else fileElem t d (vlmaxNow s) (rotNow s) e

/-- The register that the PFX before the word has its result copied to (R69). -/
def copyOf (s : State) (d : Opnd) : Option Opnd :=
  match payload s with
  | some y => if y.cpe then some { d with reg := y.cpv } else none
  | none => none

/-- The registers of the file that a word writes: its destination's with T = 0, and the copy's. -/
def fileRegs (s : State) (w : EpWord) (d : Opnd) : List Nat :=
  (if w.t then [] else d.regs (vlmaxNow s)) ++ (match copyOf s d with | some c => c.regs (vlmaxNow s) | none => [])

/-- The flags that the elements a word acts on set. -/
def unionFlags (s : State) (g : Nat → Flags) : Flags := (epEnv s).todo.foldl (fun acc e => acc ||| g e) 0

/-- A vector word with destination `d` has completed: each element it acts on takes `f e`, every other element of the destination keeps
its value, the copy is the same, the flags `fl` are set, every other register of the file is as it was, and with them everything but what
`erase` takes out. -/
def VectorResult (erase : Context → Context) (w : EpWord) (d : Opnd) (f : Nat → Nat) (fl : Flags) (s t : State) : Prop :=
  (∀ e, e < vlmaxNow s → d.reg + e / (4096 / d.width) < 32 →
    resultElem s t w d e = if acts s e then f e % 2 ^ d.width else startElem s w d e) ∧
  (∀ c, copyOf s d = some c → ∀ e, e < vlmaxNow s → c.reg + e / (4096 / d.width) < 32 →
    fileElem t c (vlmaxNow s) (rotNow s) e = if acts s e then f e % 2 ^ d.width else startElem s w d e) ∧
  (∀ n, n ∉ fileRegs s w d → nth t.c.v n 0 = nth s.c.v n 0 ∧ nth t.c.vtag n .general = nth s.c.vtag n .general) ∧
  t.c.sys.fpctl = s.c.sys.fpctl ||| fl.zeroExtend 64 ∧ Frame erase s t ∧ Completed s t

/-- Predicate d takes the bits `g e` of the elements a word acts on, a write to p0 is discarded, and every other bit is as it was (R187). -/
def PredicateWritten (d : Nat) (g : Nat → Bool) (s t : State) : Prop :=
  ∀ n e, n < 8 → e < 1024 →
    (readP t n).getLsbD e = if n = d ∧ d ≠ 0 ∧ acts s e = true then g e else (readP s n).getLsbD e

/-- What a word that writes a predicate takes out. -/
def preds (c : Context) : Context := { epEnd c with p := Vector.replicate 8 0 }

end Sys2Proof.Machine
end

