-- ==== Sys2Proof/WellFormed.lean ====
section
/-!
DEFINITION. Well-formed instructions: those whose fields hold no reserved value (R63). The check itself is `fieldsOk` of
Decode, so that the decoder and this predicate cannot differ.
-/

namespace Sys2Proof

/-- An instruction none of whose fields holds a reserved value (R63). -/
abbrev Instr.wf (i : Instr) : Prop := fieldsOk i = true

end Sys2Proof
end

