-- ==== Sys2Proof/Certificates/Slice0/Obligations.lean ====
section
/-!
DEFINITION. The statements for the provers. Each is a claim about the machine, with the rules it follows in its docstring; the helpers
under Sys2Proof.Claims are the vocabulary they share. `Frame`, `ScalarWritten`, `Completed` and `VectorResult` are in Safety.
-/

open Sys2Proof Sys2Proof.Machine

namespace Sys2Proof.Claims

/-- The instruction answers a next state in which register d has taken v, every other register, every byte of memory and every other part
of the machine is as it was, and the word has completed. -/
def ScalarResult (i : Instr) (d : BitVec 5) (v : Word) (s : State) : Prop :=
  ∃ t, exec i s = .next t ∧ ScalarWritten d v s t ∧ Frame scalars s t ∧ Completed s t

/-- 1 or 0. -/
def flag (p : Prop) [Decidable p] : Word := if p then 1 else 0

/-- The low 32 bits of an integer, sign-extended to 64. -/
def low32 (v : Int) : Word := (BitVec.ofInt 32 v).signExtend 64

/-- An integer brought into [−2^63, 2^63 − 1]. -/
def clampSigned (v : Int) : Word := BitVec.ofInt 64 (max (-(2 ^ 63)) (min (2 ^ 63 - 1) v))

/-- A row of a family: the instruction of its operands, and the value it computes. -/
abbrev AluRow := (BitVec 5 → BitVec 5 → BitVec 5 → Instr) × (Word → Word → Word)
abbrev UnaryRow := (BitVec 5 → BitVec 5 → Instr) × (Word → Word)
abbrev ImmRow := (BitVec 5 → BitVec 5 → BitVec 12 → Instr) × (Word → Int → Word)
abbrev ShiftRow := (BitVec 5 → BitVec 5 → BitVec 6 → Instr) × (Word → Nat → Word)
def alu (i : BitVec 5 → BitVec 5 → BitVec 5 → Instr) (f : Word → Word → Word) : AluRow := (i, f)
def unary (i : BitVec 5 → BitVec 5 → Instr) (f : Word → Word) : UnaryRow := (i, f)
def imm (i : BitVec 5 → BitVec 5 → BitVec 12 → Instr) (f : Word → Int → Word) : ImmRow := (i, f)
def shift (i : BitVec 5 → BitVec 5 → BitVec 6 → Instr) (f : Word → Nat → Word) : ShiftRow := (i, f)

/-- The register-register words of R136 and R137 with what xd takes, from exact integers. -/
def aluRows : List AluRow :=
  [ alu .add (fun a b => BitVec.ofNat 64 (a.toNat + b.toNat)), alu .sub (fun a b => BitVec.ofInt 64 (a.toInt - b.toInt)),
    alu .and (fun a b => a &&& b), alu .or (fun a b => a ||| b), alu .xor (fun a b => a ^^^ b),
    alu .andn (fun a b => a &&& ~~~b), alu .orn (fun a b => a ||| ~~~b),
    alu .sll (fun a b => BitVec.ofNat 64 (a.toNat * 2 ^ (b.toNat % 64))),
    alu .srl (fun a b => BitVec.ofNat 64 (a.toNat / 2 ^ (b.toNat % 64))),
    alu .sra (fun a b => BitVec.ofInt 64 (a.toInt / 2 ^ (b.toNat % 64))),
    alu .rotl (fun a b => a <<< (b.toNat % 64) ||| a >>> ((64 - b.toNat % 64) % 64)),
    alu .rotr (fun a b => a >>> (b.toNat % 64) ||| a <<< ((64 - b.toNat % 64) % 64)),
    alu .slt (fun a b => flag (a.toInt < b.toInt)), alu .sltu (fun a b => flag (a.toNat < b.toNat)),
    alu .seq (fun a b => flag (a = b)), alu .sne (fun a b => flag (a ≠ b)),
    alu .min (fun a b => BitVec.ofInt 64 (min a.toInt b.toInt)), alu .max (fun a b => BitVec.ofInt 64 (max a.toInt b.toInt)),
    alu .minu (fun a b => BitVec.ofNat 64 (min a.toNat b.toNat)), alu .maxu (fun a b => BitVec.ofNat 64 (max a.toNat b.toNat)),
    alu .adds (fun a b => clampSigned (a.toInt + b.toInt)), alu .subs (fun a b => clampSigned (a.toInt - b.toInt)),
    alu .addus (fun a b => BitVec.ofNat 64 (min (2 ^ 64 - 1) (a.toNat + b.toNat))),
    alu .subus (fun a b => BitVec.ofNat 64 (a.toNat - b.toNat)),
    alu .mul (fun a b => BitVec.ofInt 64 (a.toInt * b.toInt)), alu .mulh (fun a b => BitVec.ofInt 64 (a.toInt * b.toInt / 2 ^ 64)),
    alu .mulhu (fun a b => BitVec.ofNat 64 (a.toNat * b.toNat / 2 ^ 64)),
    alu .mulhsu (fun a b => BitVec.ofInt 64 (a.toInt * b.toNat / 2 ^ 64)),
    alu .div (fun a b => if b = 0 then BitVec.allOnes 64 else BitVec.ofInt 64 (a.toInt.tdiv b.toInt)),
    alu .divu (fun a b => if b = 0 then BitVec.allOnes 64 else BitVec.ofNat 64 (a.toNat / b.toNat)),
    alu .rem (fun a b => if b = 0 then a else BitVec.ofInt 64 (a.toInt.tmod b.toInt)),
    alu .remu (fun a b => if b = 0 then a else BitVec.ofNat 64 (a.toNat % b.toNat)),
    alu .addw (fun a b => low32 (a.toInt + b.toInt)), alu .subw (fun a b => low32 (a.toInt - b.toInt)),
    alu .sllw (fun a b => low32 (a.toNat * 2 ^ (b.toNat % 32))),
    alu .srlw (fun a b => low32 (a.toNat % 2 ^ 32 / 2 ^ (b.toNat % 32) : Nat)),
    alu .sraw (fun a b => low32 ((BitVec.ofNat 32 a.toNat).toInt / 2 ^ (b.toNat % 32))),
    alu .mulw (fun a b => low32 (a.toInt * b.toInt)) ]

/-- The one-operand words of R136. -/
def unaryRows : List UnaryRow :=
  [ unary .clz (fun a => BitVec.ofNat 64 (((List.range 64).find? fun i => a.getLsbD (63 - i)).getD 64)),
    unary .ctz (fun a => BitVec.ofNat 64 (((List.range 64).find? fun i => a.getLsbD i).getD 64)),
    unary .popc (fun a => BitVec.ofNat 64 ((List.range 64).countP fun i => a.getLsbD i)),
    unary .brev (fun a => BitVec.ofNat 64 ((List.range 64).foldl (fun n i => n + if a.getLsbD i then 2 ^ (63 - i) else 0) 0)),
    unary .sextb (fun a => BitVec.ofInt 64 (BitVec.ofNat 8 a.toNat).toInt),
    unary .sexth (fun a => BitVec.ofInt 64 (BitVec.ofNat 16 a.toNat).toInt),
    unary .sextw (fun a => low32 a.toInt), unary .zextw (fun a => BitVec.ofNat 64 (a.toNat % 2 ^ 32)) ]

/-- The immediate words of R139, with the immediate as the signed number it stands for. -/
def immRows : List ImmRow :=
  [ imm .addi (fun a i => BitVec.ofInt 64 (a.toInt + i)), imm .andi (fun a i => a &&& BitVec.ofInt 64 i),
    imm .ori (fun a i => a ||| BitVec.ofInt 64 i), imm .xori (fun a i => a ^^^ BitVec.ofInt 64 i),
    imm .slti (fun a i => flag (a.toInt < i)), imm .sltiu (fun a i => flag (a.toNat < (BitVec.ofInt 64 i).toNat)),
    imm .addiw (fun a i => low32 (a.toInt + i)) ]

/-- The shifts by an immediate of R139. -/
def shiftRows : List ShiftRow :=
  [ shift .slli (fun a n => BitVec.ofNat 64 (a.toNat * 2 ^ n)), shift .srli (fun a n => BitVec.ofNat 64 (a.toNat / 2 ^ n)),
    shift .srai (fun a n => BitVec.ofInt 64 (a.toInt / 2 ^ n)), shift .rotri (fun a n => a >>> n ||| a <<< ((64 - n) % 64)) ]

/-! Control transfer. -/

/-- Control has gone to `target`: RETIRED counts the word; a level whose active body, or that of an active level above it, `target` lies
outside of is inactive and otherwise as it was; every other level is as it was, and so are the counters; and the vector loop ends, with strip
0, where it was active and `target` lies outside its body, and is as it was elsewhere (R133, R164, R204). -/
def Transferred (target : Word) (s t : State) : Prop :=
  t.c.pc = target ∧ t.c.sys.retired = s.c.sys.retired + 1 ∧ t.c.lc = s.c.lc ∧
  (∀ l, l < 3 → t.rdesc l = if (∃ m, m ≤ l ∧ descActive (s.rdesc m) = true ∧ inBody (s.rdesc m) target = false)
    then setBit (s.rdesc l) 63 false else s.rdesc l) ∧
  t.c.vloop = if s.c.vloop.active = true ∧ inVloop s.c.vloop target = false then { s.c.vloop with active := false, strip := 0 }
    else s.c.vloop

/-- PC + 4 × the signed offset (R61). -/
def pcPlus (s : State) (off : Int) : Word := BitVec.ofInt 64 (s.c.pc.toInt + 4 * off)

abbrev BranchRow := (BitVec 5 → BitVec 16 → Instr) × (Int → Bool)
def branchRow (i : BitVec 5 → BitVec 16 → Instr) (f : Int → Bool) : BranchRow := (i, f)

/-- The conditional branches of R141 with their conditions on x[xa] as a signed number. -/
def branchRows : List BranchRow :=
  [ branchRow .beqz (fun v => v = 0), branchRow .bnez (fun v => v ≠ 0), branchRow .bltz (fun v => v < 0),
    branchRow .bgez (fun v => 0 ≤ v), branchRow .bgtz (fun v => 0 < v), branchRow .blez (fun v => v ≤ 0),
    branchRow (fun _ => .bra) (fun _ => true) ]

/-- Words of several families that do not transfer control. -/
def plainWords (d a b : BitVec 5) (n : BitVec 12) (o : BitVec 11) (k : BitVec 2) (e : BitVec 3) : List Instr :=
  (aluRows.map fun r => r.1 d a b) ++ (unaryRows.map fun r => r.1 d a) ++ (immRows.map fun r => r.1 d a n) ++
    [.pref (a.truncate 4) o, .amov d a, .adiff d a b, .dset d a b, .fence k e, .ifence]

/-- LOOP has changed a level: the word counts in RETIRED, every other level's count is as it was, a level that was active makes those deeper
than it inactive, and every other descriptor is as it was (R132); `u` is the state that its fetches leave. -/
def LevelSet (l : BitVec 2) (s u t : State) : Prop :=
  Frame nothing u t ∧ t.c.sys.retired = u.c.sys.retired + 1 ∧ t.c.vloop = s.c.vloop ∧ (∀ m, m ≠ l.toNat → t.rlc m = s.rlc m) ∧
  ∀ m, m < 3 → m ≠ l.toNat → t.rdesc m =
    if l.toNat < m ∧ descActive (s.rdesc l.toNat) = true then setBit (s.rdesc m) 63 false else s.rdesc m

/-- The loop buffer has the body of n words at the state that LOOP's fetches leave (R135): each word of the body that is there is what a fetch
of its address gave, one that is not there ended in a fault, everything else of the buffer is as it was, and registers and PC are. -/
def BodyFetched (n : Nat) (s u : State) : Prop :=
  let inside (va : Word) : Prop := ∃ k, k < n ∧ va = s.c.pc + BitVec.ofNat 64 (4 * k + 4)
  (∀ e ∈ u.lbuf, inside e.1 → ∃ v w, fetchAt e.1 v = .ok e.2 w) ∧
  (∀ va, inside va → (∀ w, (va, w) ∉ u.lbuf) → ∃ v r w, fetchAt va v = .trap r w) ∧
  (∀ e, ¬inside e.1 → (e ∈ u.lbuf ↔ e ∈ s.lbuf)) ∧
  u.c.pc = s.c.pc ∧ u.c.x = s.c.x ∧ u.c.lc = s.c.lc ∧ u.c.desc = s.c.desc ∧ u.c.vloop = s.c.vloop ∧ u.c.sys = s.c.sys ∧ u.c.scratch = s.c.scratch

/-- The word takes a trap with the given record, and does nothing else. -/
def TakesTrap (i : Instr) (r : TrapInfo) (s : State) : Prop := exec i s = .next (takeTrap r s)

/-- The level that a trap leaves for the handler: the record of R100 to R102, PPRV = the level trapped from, PRV = 1, PC = TVEC (R108), TRP
in the event word (R323), and nothing else of STATUS. The matrix issues that had begun are complete by then (R105, R243). -/
def TrapTaken (r : TrapInfo) (s t : State) : Prop :=
  t.c.sys.tpc = r.tpc ∧ field t.c.sys.tcause 0 8 = r.cause.toNat ∧ bit t.c.sys.tcause 14 = r.apw ∧ bit t.c.sys.tcause 15 = r.strip ∧
  t.c.sys.tval = r.tval ∧ t.c.sys.telem = BitVec.ofNat 64 (r.telem % 65536) ∧ t.c.sys.taux0 = r.taux0 ∧ t.c.sys.taux1 = r.taux1 ∧
  t.c.sys.estart = BitVec.ofNat 64 r.estart ∧ t.c.pc = s.c.sys.tvec ∧ t.prv = true ∧ t.pprv = s.prv ∧
  (∀ n, 2 ≤ n → bit t.c.sys.status n = bit s.c.sys.status n) ∧ bit t.slot.event 0 = true ∧
  t.c.x = s.c.x ∧ t.c.xArr = s.c.xArr ∧ t.c.a = s.c.a ∧ t.c.v = s.c.v ∧ t.c.p = s.c.p ∧ t.c.mat.issues = [] ∧
  t.mem = (finishIssues s).mem ∧ (s.c.mat.issues = [] → t.mem = s.mem)

/-- The word at PC is the last one of an active level's body or of the active vector loop's (R129, R204). -/
def lastWord (s : State) : Prop := (∃ l, l < 3 ∧ atLast l s = true) ∨ endsVloop s.c.vloop s.c.pc = true

/-! Address registers. -/

/-- The instruction gives address register d the value r; every other register and everything else is as it was. -/
def AddressResult (i : Instr) (d : Nat) (r : AReg) (s : State) : Prop :=
  ∃ t, exec i s = .next t ∧ AddressWritten d r s t ∧ Frame addresses s t ∧ Completed s t

/-- The instruction moves a copy of r to the exact address p, or traps LIMIT with TVAL p mod 2^64 where p lies outside its bounds
(R128). -/
def PointerResult (i : Instr) (d : Nat) (r : AReg) (p : Int) (s : State) : Prop :=
  if (r.base.toNat : Int) ≤ p ∧ p ≤ r.limit.toNat then AddressResult i d { r with ptr := BitVec.ofInt 64 p } s
  else TakesTrap i (s.trapInfo true 0x06 (BitVec.ofInt 64 p)) s

/-- The dimension registers. -/
def dims (c : Context) : Context := { c with d := Vector.replicate 6 DReg.zero }

/-! Memory. -/

/-- A load's instruction of xd, an address register and imm13, its width in bytes, and what xd takes of the bytes as a number. -/
abbrev LoadRow := (BitVec 5 → BitVec 4 → BitVec 13 → Instr) × Nat × (Nat → Word)
def loadRow (i : BitVec 5 → BitVec 4 → BitVec 13 → Instr) (w : Nat) (f : Nat → Word) : LoadRow := (i, w, f)

/-- The loads of R147, sign- or zero-extended. -/
def loadRows : List LoadRow :=
  [ loadRow .lb 1 (fun v => BitVec.ofInt 64 (BitVec.ofNat 8 v).toInt), loadRow .lh 2 (fun v => BitVec.ofInt 64 (BitVec.ofNat 16 v).toInt),
    loadRow .lw 4 (fun v => BitVec.ofInt 64 (BitVec.ofNat 32 v).toInt), loadRow .ld 8 (fun v => BitVec.ofNat 64 v),
    loadRow .lbu 1 (fun v => BitVec.ofNat 64 v), loadRow .lhu 2 (fun v => BitVec.ofNat 64 v), loadRow .lwu 4 (fun v => BitVec.ofNat 64 v) ]

abbrev StoreRow := (BitVec 5 → BitVec 4 → BitVec 13 → Instr) × Nat
def storeRow (i : BitVec 5 → BitVec 4 → BitVec 13 → Instr) (w : Nat) : StoreRow := (i, w)

/-- The stores of R147. -/
def storeRows : List StoreRow := [storeRow .sb 1, storeRow .sh 2, storeRow .sw 4, storeRow .sd 8]

/-- An atomic's instruction of xd and an address register, its width in bytes, and the new value of the old one and the operand. -/
abbrev AtomicRow := (BitVec 5 → BitVec 4 → Instr) × Nat × (Nat → Nat → Nat)
def atomicRow (i : BitVec 5 → BitVec 4 → Instr) (w : Nat) (f : Nat → Nat → Nat) : AtomicRow := (i, w, f)

/-- The smaller or the larger of two patterns of n bits as signed numbers. -/
def lower (n x y : Nat) : Nat := if (BitVec.ofNat n y).toInt < (BitVec.ofNat n x).toInt then y else x
def higher (n x y : Nat) : Nat := if (BitVec.ofNat n x).toInt < (BitVec.ofNat n y).toInt then y else x

/-- The atomics of R152 but for compare and swap. -/
def atomicRows : List AtomicRow :=
  [ atomicRow .atadd 8 (fun x y => (x + y) % 2 ^ 64), atomicRow .atand 8 (fun x y => x &&& y), atomicRow .ator 8 (fun x y => x ||| y),
    atomicRow .atxor 8 (fun x y => x ^^^ y), atomicRow .atmin 8 (lower 64), atomicRow .atmax 8 (higher 64),
    atomicRow .atminu 8 (fun x y => min x y), atomicRow .atmaxu 8 (fun x y => max x y), atomicRow .atswp 8 (fun _ y => y),
    atomicRow .ataddw 4 (fun x y => (x + y) % 2 ^ 32), atomicRow .atandw 4 (fun x y => x &&& y), atomicRow .atorw 4 (fun x y => x ||| y),
    atomicRow .atxorw 4 (fun x y => x ^^^ y), atomicRow .atminw 4 (lower 32), atomicRow .atmaxw 4 (higher 32),
    atomicRow .atminuw 4 (fun x y => min x y), atomicRow .atmaxuw 4 (fun x y => max x y), atomicRow .atswpw 4 (fun _ y => y) ]

/-- The loads and the stores: width, the permission bit they need, and the kind of their access. -/
def memRows : List ((BitVec 5 → BitVec 4 → BitVec 13 → Instr) × Nat × Nat × AccKind) :=
  (loadRows.map fun r => (r.1, r.2.1, 0, AccKind.read)) ++ storeRows.map fun r => (r.1, r.2, 1, AccKind.write)

/-- Every atomic's instruction and width. -/
def everyAtomic : List ((BitVec 5 → BitVec 4 → Instr) × Nat) :=
  (atomicRows.map fun r => (r.1, r.2.1)) ++ [(.atcas, 8), (.atcasw, 4)]

/-- The registers of every kind are as they were. -/
def RegistersKept (s t : State) : Prop :=
  t.c.x = s.c.x ∧ t.c.xArr = s.c.xArr ∧ t.c.a = s.c.a ∧ t.c.d = s.c.d ∧ t.c.v = s.c.v ∧ t.c.vtag = s.c.vtag ∧ t.c.p = s.c.p ∧ t.c.k = s.c.k ∧
  t.c.z = s.c.z ∧ t.c.q = s.c.q ∧ t.c.sys.status = s.c.sys.status ∧ t.c.sys.fpctl = s.c.sys.fpctl ∧ t.c.sys.vfmt = s.c.sys.vfmt ∧
  t.c.sys.seed = s.c.sys.seed ∧ t.c.sys.tvec = s.c.sys.tvec ∧ t.c.sys.tpc = s.c.sys.tpc ∧ t.c.sys.tcause = s.c.sys.tcause ∧
  t.c.sys.tval = s.c.sys.tval ∧ t.c.sys.avec = s.c.sys.avec ∧ t.c.sys.arpc = s.c.sys.arpc

/-- Rows 5 to 7 of R150, in order: the traps of an access whose word passes its own checks. A translation that fails gives its cause; the
fabric port may refuse the access or make it wait (R283, R285 to R288), and `held` says how it waits then; a race gives R47's record, and a
watchpoint its number (R340). -/
def AccessTraps (i : Instr) (va : Word) (w : Nat) (k : AccKind) (rlx : Bool) (held : Nat → State → Prop) (s : State) : Prop :=
  let wr := decide (k ≠ .read ∧ k ≠ .syncRead)
  let x := translate s va w { write := wr, fetch := false, user := !s.prv }
  let info := s.trapInfo true 0 0
  (∀ cause, x.1 = .error cause → exec i s = .next (takeTrap (s.trapInfo true cause va) x.2)) ∧
  ∀ y, x.1 = .ok y →
    let gate := remoteGate .core x.2 va y w wr info
    (∀ r u, gate = .trap r u → exec i s = .next (takeTrap r u)) ∧
    (∀ n u, gate = .wait n u → held n u) ∧
    (∀ u, gate = .ok () u →
      let race := if y.rd = true ∧ rlx = false then findRace u (hSet u .core) k (sectorOf u y.loc) else none
      (∀ q, race = some q → exec i s = .next (takeTrap (raceTrap info va q) u)) ∧
      (race = none → ∀ n, watchHit u va w (k == .read || k == .syncRead || k == .atomic) wr = some n →
        exec i s = .next (takeTrap { s.trapInfo true 0x18 va with taux0 := BitVec.ofNat 64 n } u)))

/-- The word waits with the reason that its access at the port gives (R28). -/
def WaitsAtPort (i : Instr) (s : State) (n : Nat) (u : State) : Prop := exec i s = .next { u with c := { u.c with wait := n } }

/-- WAITC waits for its counter with reason 10, also while the word is on its way from another package (R29, R160). -/
def WaitsForCounter (i : Instr) (s : State) (_ : Nat) (u : State) : Prop :=
  ∃ t, exec i s = .next t ∧ t.c.wait = 10 ∧ t.c.pc = s.c.pc ∧ RegistersKept s t ∧ (s.dev.trctl = 0 → t = { u with c := { u.c with wait := 10 } })

/-- The checks of a word whose access lies at an exact address, with no advance: permission and bounds, alignment, and then the access's own
(R150, R152, R160). -/
def PointTraps (i : Instr) (r : AReg) (permBit : Nat) (addr : Int) (w : Nat) (k : AccKind) (held : Nat → State → Prop) (s : State) : Prop :=
  let within := bit r.perm permBit = true ∧ (r.base.toNat : Int) ≤ addr ∧ addr + w ≤ r.limit.toNat
  (¬within → TakesTrap i (s.trapInfo true 0x07 (BitVec.ofInt 64 addr)) s) ∧
  (within → addr % w ≠ 0 → TakesTrap i (s.trapInfo true 0x05 (BitVec.ofInt 64 addr)) s) ∧
  (within → addr % w = 0 → AccessTraps i (BitVec.ofInt 64 addr) w k false held s)

/-- The location of an access that passes its checks, and the state after translation, the fabric and the records: `coreAccess` answers
it. -/
def Reaches (s : State) (va : Word) (w : Nat) (k : AccKind) (rlx : Bool) (loc : Nat) (u : State) : Prop :=
  coreAccess s va w k rlx (s.trapInfo true 0 0) = .ok loc u

/-- Both memories of a state have the canonical form. -/
def MemoriesOk (s : State) : Prop := s.mem.wf = true ∧ s.c.scratch.wf = true

/-- The bytes at `loc` are those of v, little-endian, and every byte at any other location of the same memory is as it was, as is the
other memory. -/
def Stored (loc w v : Nat) (u t : State) : Prop :=
  (∀ l, (l < coreLoc ↔ loc < coreLoc) →
    locByte t l = if loc ≤ l ∧ l < loc + w then BitVec.ofNat 8 (v / 256 ^ (l - loc)) else locByte u l) ∧
  (loc < coreLoc → t.c.scratch = u.c.scratch) ∧ (coreLoc ≤ loc → t.mem = u.mem)

/-- What a store takes out of a state: memory, the store buffer's overtaken bytes, the histories of counter words and what `.rlx` stores
left (R43, R45, R52). -/
def storedOut (s : State) : State :=
  { s with mem := [], ctrs := [], rlxw := [], c := { s.c with scratch := [], sbuf := [] } }

/-- The address register after the advance of a form (R128, R149). -/
def advanced (s : State) (a : BitVec 4) (f : MemForm) : AReg :=
  match f.advance with
  | none => s.ra a.toNat
  | some x => { s.ra a.toNat with ptr := BitVec.ofInt 64 ((s.ra a.toNat).ptr.toNat + (s.rx x).toInt) }

/-! Queues, waits and system registers. -/

/-- The word waits with a stall reason and does nothing else: it issues again (R28). -/
def Waits (i : Instr) (reason : Nat) (s : State) : Prop := exec i s = .next { s with c := { s.c with wait := reason } }

/-- A context is a member of the barrier: of the group at QUAD, and of the launch at the wider scopes, at DIE on the same die (R26). -/
def inBarrier (scope : Nat) (m : Members) (c : Context) : Prop :=
  c.launch = m.launch ∧ (scope = 2 → c.sys.berth.truncate 32 = m.berth) ∧ (scope = 3 → c.die = m.die)

/-- A barrier has counted one more arrival, and has released where it was the last (R27). -/
def Counts (b b' : Barrier) : Prop :=
  if b.arrived = true ∧ b.members ≤ b.others + 2 then b'.released = true ∧ b'.gen = b.gen + 1 ∧ b'.arrived = false ∧ b'.others = 0
  else b'.gen = b.gen ∧ b'.others = b.others + 1 ∧ b'.arrived = b.arrived

/-- The members of the barrier that stand in the shadow slot, in the spill or in a save area have counted an arrival, and the contexts that
are none are as they were (R27). -/
def OthersCount (scope : Nat) (m : Members) (s t : State) : Prop :=
  let seen (c c' : Context) : Prop := c'.save = c.save ∧
    (inBarrier scope m c → Counts (nth c.barrier scope Barrier.reset) (nth c'.barrier scope Barrier.reset)) ∧ (¬inBarrier scope m c → c' = c)
  (∀ c, s.sh = some c → ∃ c', t.sh = some c' ∧ seen c c') ∧ (∀ c, s.spill = some c → ∃ c', t.spill = some c' ∧ seen c c') ∧
  ∀ c ∈ s.saved, ∃ c' ∈ t.saved, seen c c'

/-- What a fence keeps and joins (R45). -/
def fenceSets (c : Context) : Context := { c with rel := [], hb := Vector.replicate 5 [] }

/-- The queues and DQBR, which a stalled queue branch may count (R339). -/
def queuesDqbr (c : Context) : Context := { c with q := Vector.replicate 8 [], dbg := upd c.dbg 14 0 }

/-- Every other queue is as it was. -/
def QueueWritten (n : Nat) (es : List QEntry) (s t : State) : Prop := t.rq n = es ∧ ∀ m, m ≠ n → t.rq m = s.rq m

/-- The readable system registers of R164 by number, with what each reads as; those of the debug group at the end (R339). -/
def sysTable : List (Nat × (State → Word)) :=
  [ (0x00, fun s => s.c.sys.status), (0x01, fun s => s.c.sys.fpctl), (0x02, fun s => s.c.sys.vfmt), (0x03, fun s => s.c.sys.seed),
    (0x04, fun s => if s.c.vloop.active then BitVec.ofNat 64 (s.c.vloop.strip.toNat * s.c.vloop.vlmax) else 0),
    (0x05, fun s => s.c.sys.estart), (0x06, fun s => s.c.sys.ffs), (0x07, fun s => s.c.sys.grant), (0x08, fun s => s.c.sys.berth), (0x09, fun s => s.cycle), (0x0A, fun s => s.c.sys.retired), (0x0B, fun s => s.c.sys.stallbank), (0x0C, fun s => s.c.sys.avec),
    (0x0D, fun s => s.c.sys.arpc), (0x0E, fun s => s.c.sys.shvec), (0x0F, fun s => s.c.sys.shpc), (0x10, fun s => s.c.sys.shinfo) ] ++
  [ (0x20, fun s => s.c.sys.tvec), (0x21, fun s => s.c.sys.tpc), (0x22, fun s => s.c.sys.tcause), (0x23, fun s => s.c.sys.tval),
    (0x24, fun s => s.c.sys.telem), (0x25, fun s => s.c.sys.tidx), (0x26, fun s => s.c.sys.tpfx), (0x27, fun s => s.c.sys.taux0),
    (0x28, fun s => s.c.sys.taux1), (0x10F, fun _ => 0) ] ++
  (List.range 8).map (fun n => (0x30 + n, fun s => nth s.c.tcp n 0)) ++
  (List.range 15).map (fun n => (0x100 + n, fun s => nth s.c.dbg n 0))

/-- The system registers that ignore every write: GRANT, BERTH, CYCLE, SBASE, the commit pointers, and the last of the debug group (R164,
R339). -/
def sysFixed : List Nat := [0x04, 0x07, 0x08, 0x09, 0x10F] ++ (List.range 8).map (0x30 + ·)

/-- What a debug register keeps of a value written (R339): a breakpoint's enable, filter and word address; a watchpoint's likewise; its
control, whose LOG is at least 2; the filter; the sampling control; and DQBR whole. -/
def debugKeeps (n : Nat) (v : Word) : Word :=
  if n < 8 then v &&& 0x0000FFFFFFFFFFFF
  else if n < 12 then BitVec.ofNat 64 (v.toNat % 4 + 16 * max 2 (v.toNat / 16 % 16))
  else if n = 12 then v &&& 0x00000007FFFFFFFF
  else if n = 13 then v &&& 0x00000000FFFFFF01
  else v

/-- The system registers that read back what was written, under the mask of their reserved bits: those that user level may write, and
those that supervisor level may (R164, R165). -/
def userWritable : List (Nat × Word) :=
  [ (0x03, BitVec.allOnes 64), (0x06, 0x000087FFFF0107FF), (0x0B, BitVec.allOnes 64), (0x0C, BitVec.allOnes 64),
    (0x0D, BitVec.allOnes 64), (0x0E, BitVec.allOnes 64) ]
def supervisorWritable : List (Nat × Word) :=
  [ (0x05, BitVec.allOnes 64), (0x0F, BitVec.allOnes 64), (0x10, 3), (0x20, BitVec.allOnes 64), (0x21, BitVec.allOnes 64), (0x22, 0xC0FF),
    (0x23, BitVec.allOnes 64), (0x24, 0xFFFF), (0x25, 0x0000FFFFFFFFFFFF), (0x26, 0x1FFC000), (0x27, BitVec.allOnes 64),
    (0x28, BitVec.allOnes 64) ]

/-! Vector words. -/

/-- The value of a bit pattern under an integer format: the even codes are signed (R79). -/
def intOf (f : BitVec 4) (x : Nat) : Int :=
  if f.toNat % 2 = 0 then (BitVec.ofNat (plainWidth f) x).toInt else x

/-- The largest and the least value of an integer format. -/
def intTop (f : BitVec 4) : Int := if f.toNat % 2 = 0 then 2 ^ (plainWidth f - 1) - 1 else 2 ^ plainWidth f - 1
def intBottom (f : BitVec 4) : Int := if f.toNat % 2 = 0 then -(2 ^ (plainWidth f - 1)) else 0

/-- The pattern of an exact integer modulo 2^w. -/
def patternOf (w : Nat) (v : Int) : Nat := (v % (2 ^ w : Nat)).toNat

/-- An exact integer brought into the range of a format. -/
def clampTo (f : BitVec 4) (v : Int) : Int := max (intBottom f) (min (intTop f) v)

abbrev Lane2 := BitVec 1 → BitVec 1 → BitVec 5 → BitVec 5 → BitVec 5 → BitVec 4 → Instr
abbrev Lane1 := BitVec 1 → BitVec 1 → BitVec 5 → BitVec 5 → BitVec 4 → Instr
abbrev LaneX := BitVec 1 → BitVec 1 → BitVec 5 → BitVec 5 → BitVec 5 → BitVec 1 → BitVec 4 → Instr

/-- A VI word of two operands, and the exact integer it computes of two patterns under a format. -/
abbrev LaneRow := Lane2 × (BitVec 4 → Nat → Nat → Int)
def lane (i : Lane2) (f : BitVec 4 → Nat → Nat → Int) : LaneRow := (i, f)

/-- A shift amount: the low k bits of the operand, where the width is 2^k (R192). -/
def amount (f : BitVec 4) (y : Nat) : Nat := y % plainWidth f

/-- The integer shifts right with rounding: by 0 bits a value is as it was, and otherwise half a unit is added first. -/
def shiftRound (f : BitVec 4) (x y : Nat) : Int :=
  if amount f y = 0 then x else (intOf f x + 2 ^ (amount f y - 1)) / 2 ^ amount f y

/-- The two-operand words of R192. -/
def laneRows : List LaneRow :=
  [ lane .vadd (fun f x y => intOf f x + intOf f y), lane .vsub (fun f x y => intOf f x - intOf f y),
    lane .vmul (fun f x y => intOf f x * intOf f y), lane .vmulh (fun f x y => intOf f x * intOf f y / 2 ^ plainWidth f),
    lane .vadds (fun f x y => clampTo f (intOf f x + intOf f y)), lane .vsubs (fun f x y => clampTo f (intOf f x - intOf f y)),
    lane .vmin (fun f x y => min (intOf f x) (intOf f y)), lane .vmax (fun f x y => max (intOf f x) (intOf f y)),
    lane .vand (fun _ x y => (x &&& y : Nat)), lane .vor (fun _ x y => (x ||| y : Nat)), lane .vxor (fun _ x y => (x ^^^ y : Nat)),
    lane .vandn (fun f x y => (x &&& (2 ^ plainWidth f - 1 - y) : Nat)),
    lane .vsll (fun f x y => (x * 2 ^ amount f y : Nat)), lane .vsrl (fun f x y => (x / 2 ^ amount f y : Nat)),
    lane .vsra (fun f x y => intOf f x / 2 ^ amount f y), lane .vrshr shiftRound ]

/-- The same words, and a few more, with a scalar operand (R195). -/
abbrev LaneXRow := LaneX × (BitVec 4 → Nat → Nat → Int)
def laneX (i : LaneX) (f : BitVec 4 → Nat → Nat → Int) : LaneXRow := (i, f)
def laneXRows : List LaneXRow :=
  [ laneX .vxVadd (fun f x y => intOf f x + intOf f y), laneX .vxVsub (fun f x y => intOf f x - intOf f y),
    laneX .vrsub (fun f x y => intOf f y - intOf f x), laneX .vxVmul (fun f x y => intOf f x * intOf f y),
    laneX .vxVmin (fun f x y => min (intOf f x) (intOf f y)), laneX .vxVmax (fun f x y => max (intOf f x) (intOf f y)),
    laneX .vxVand (fun _ x y => (x &&& y : Nat)), laneX .vxVor (fun _ x y => (x ||| y : Nat)),
    laneX .vxVxor (fun _ x y => (x ^^^ y : Nat)), laneX .vxVsll (fun f x y => (x * 2 ^ amount f y : Nat)),
    laneX .vxVsrl (fun f x y => (x / 2 ^ amount f y : Nat)), laneX .vxVsra (fun f x y => intOf f x / 2 ^ amount f y),
    laneX .vxVrshr shiftRound ]

/-- The one-operand words of R192. -/
abbrev Lane1Row := Lane1 × (BitVec 4 → Nat → Int)
def lane1 (i : Lane1) (f : BitVec 4 → Nat → Int) : Lane1Row := (i, f)
def lane1Rows : List Lane1Row :=
  [ lane1 .vabs (fun f x => clampTo f (intOf f x).natAbs), lane1 .vneg (fun f x => -(intOf f x)), lane1 .vmov (fun _ x => x) ]

/-- An arithmetic word with destination and operands. -/
def laneWord (t : BitVec 1) (d : Opnd) (reads : List Opnd) : EpWord :=
  { cls := .arith, t := t == 1#1, dst := some d, reads := reads }

/-- No convoy holds more words of a class than R22 allows. -/
def ConvoyOk (c : Convoy) : Prop :=
  c.total ≤ 8 ∧ c.arith ≤ 2 ∧ c.vmem ≤ 1 ∧ c.chamber ≤ 1 ∧ c.special ≤ 1 ∧ c.matrix ≤ 1 ∧ c.lazy ≤ 1

/-- What stops a vector word before its own effect, in order (R67): a reserved operand or a payload it may not have; a convoy that has
eight words, or as many of the word's class as may stand in one (R20, R22); a transient result read after its window has closed, or lost
unread (R74); and a hold count that is not zero on a register that the word reads or writes, where it waits with reason 11, or with that of
its own effect where that is higher (R29, R188). -/
def WordStops (i : Instr) (w : EpWord) (count : Convoy → Nat) (limit code : Nat) (s : State) : Prop :=
  let illegal : Prop := w.bad = true ∨ operandsOk (vlmaxNow s) w = false ∨ payloadOk s w = false
  let c := if s.ir.getLsbD 31 || !s.c.convoy.opened then Convoy.fresh else s.c.convoy
  let convoy (n : Nat) : TrapInfo := s.trapInfo false 0x02 (BitVec.ofNat 64 (s.ir.toNat + n * 2 ^ 32))
  let reads := w.readRegs (vlmaxNow s)
  let names (v : Window) (ns : List Nat) : Prop := ∃ r ∈ v.regs, r.1 ∈ ns
  let late (v : Window) : Prop := 3 ≤ v.results ∧ names v reads
  let lost (v : Window) : Prop := v.consumed = false ∧ ¬names v reads ∧ ((w.dst.isSome = true ∧ 2 ≤ v.results) ∨ names v (writeRegs s w))
  let first (p : Window → Prop) (v : Window) : Prop := ∃ b a, s.c.windows = b ++ v :: a ∧ p v ∧ ∀ x ∈ b, ¬p x
  (illegal → TakesTrap i (s.illegal false) s) ∧
  (¬illegal → ConvoyOk c →
    (8 = c.total → TakesTrap i (convoy 0) s) ∧
    (c.total < 8 → count c = limit → TakesTrap i (convoy code) s) ∧
    (c.total < 8 → count c < limit →
      (∀ v, first late v → TakesTrap i (s.trapInfo false 0x03 v.addr) s) ∧
      ((∀ v ∈ s.c.windows, ¬late v) → ∀ v, first lost v → TakesTrap i (s.trapInfo false 0x03 v.addr) s) ∧
      ((∀ v ∈ s.c.windows, ¬late v ∧ ¬lost v) → (∃ n ∈ reads ++ writeRegs s w, nth s.c.hold n 0 ≠ 0) → ∃ n, 11 ≤ n ∧ Waits i n s)))

/-- The instruction answers a next state in which every element has its result and the word has completed. -/
def LaneResult (i : Instr) (w : EpWord) (d : Opnd) (f : Nat → Nat) (fl : Flags) (s : State) : Prop :=
  ∃ t, exec i s = .next t ∧ VectorResult vectors w d f fl s t

/-- The scalar operand of a VX word is v, and `u` is the state after the entry it may take from a queue (R189). -/
def ScalarOperand (x : BitVec 5) (q : BitVec 1) (v : Word) (s u : State) : Prop :=
  if q = 1#1 then ∃ rest, s.rq x.toNat = { val := v, filled := true } :: rest ∧ u = s.wq x.toNat rest else v = s.rx x ∧ u = s

/-- A word with a scalar operand: relative to the state after the queue entry is taken, every element has its result. -/
def LaneScalarResult (i : Instr) (w : EpWord) (d : Opnd) (f : Nat → Nat) (fl : Flags) (s u : State) : Prop :=
  ∃ t, exec i s = .next t ∧ VectorResult vectors w d f fl u t

/-- The operand queue's oldest entry is missing or not yet written. -/
def entryMissing (s : State) (n : Nat) : Bool :=
  match s.rq n with
  | [] => true
  | e :: _ => !e.filled

/-- What stops a VX word before its effect: what stops a vector word, and then a queue whose oldest entry is missing or not yet written, for
which it waits with reason 12 (R28, R157, R189). -/
def ScalarStops (i : Instr) (w : EpWord) (x : BitVec 5) (q : BitVec 1) (s : State) : Prop :=
  WordStops i w (·.arith) 2 1 s ∧ (epReady w s = true → q = 1#1 → entryMissing s x.toNat = true → Waits i 12 s)

/-! Floats. -/

/-- A finite value as a rational number. -/
def ratOf : FVal → Rat
  | .fin neg m e => (if neg then -1 else 1) * (m : Rat) * (2 : Rat) ^ e.toNat / (2 : Rat) ^ (-e).toNat
  | _ => 0

def finite : FVal → Bool
  | .fin _ _ _ => true
  | _ => false

def absRat (x : Rat) : Rat := if x < 0 then -x else x

/-- Twice the least magnitude that rounds to an infinity, as a rational: the largest finite value and half a unit above it (R88). -/
def overflowBound (f : FFmt) : Rat := ratOf (.fin false (2 * f.maxFin.1 + 1) (f.maxFin.2 - 1))

/-- `r` is a bit pattern nearest to x in the format, the even one of two nearest. -/
def NearestEven (f : FFmt) (x : Rat) (r : Nat) : Prop :=
  r < 2 ^ f.bits ∧ finite (f.decode r) = true ∧
  ∀ b, b < 2 ^ f.bits → finite (f.decode b) = true → ratOf (f.decode b) ≠ ratOf (f.decode r) →
    absRat (x - ratOf (f.decode r)) ≤ absRat (x - ratOf (f.decode b)) ∧
    (absRat (x - ratOf (f.decode r)) = absRat (x - ratOf (f.decode b)) → r % 2 = 0)

/-- The value of a pattern of a format. -/
def valueOf (f : FFmt) (b : Nat) : Rat := ratOf (f.decode b)

/-- The least normal value of a format, and the value before it where the exponent has no bound (R83). -/
def leastNormal (f : FFmt) : Rat := valueOf f (2 ^ f.mb)
def belowNormal (f : FFmt) : Rat := (leastNormal f + valueOf f (2 ^ f.mb - 1)) / 2

/-- The rounded result of an operation whose exact value is x (R83, R89): the nearest pattern with the flag NX where it is not exact, and UF
where it is also tiny after rounding, or an infinity with OF and NX. -/
def RoundedTo (f : FFmt) (x : Rat) (r : Nat × Flags) : Prop :=
  (absRat x < overflowBound f → NearestEven f x r.1 ∧ (r.2 &&& (flagNX ||| flagUF) = r.2) ∧
    (r.2.getLsbD 4 = true ↔ ratOf (f.decode r.1) ≠ x) ∧
    (r.2.getLsbD 3 = true ↔ ratOf (f.decode r.1) ≠ x ∧ 2 * absRat x < belowNormal f + leastNormal f)) ∧
  (overflowBound f ≤ absRat x → r = (f.infBits (decide (x < 0)), flagOF ||| flagNX))

/-- The magnitude x, above lo and below hi, goes to hi in a rounding mode (R88, R92); `even` says that hi has an even last bit. -/
def TakesHi (mode : Nat) (neg : Bool) (r24 : Nat) (even : Bool) (lo hi x : Rat) : Prop :=
  lo < x ∧ match mode with
    | 0 => lo + hi < 2 * x ∨ (lo + hi = 2 * x ∧ even = true)
    | 1 => False
    | 2 => neg = true
    | 3 => neg = false
    | 4 => ((r24 % 2 ^ 24 : Nat) : Int) < ((x - lo) / (hi - lo) * 2 ^ 24).floor
    | _ => lo + hi ≤ 2 * x

/-- L is the pattern of the largest finite value of a format. -/
def LargestFinite (f : FFmt) (L : Nat) : Prop :=
  L < f.sign ∧ finite (f.decode L) = true ∧ ∀ b, b < f.sign → finite (f.decode b) = true → b ≤ L

/-- What a policy gives in place of a value beyond the range of the float format of a plain code, or of an infinity it lacks (R91); the
policies that ask for what the format lacks are reserved. -/
def OverflowGives (c : BitVec 4) (f : FFmt) (ovf : Nat) (neg : Bool) (more : Flags) (r : Rounded) : Prop :=
  (ovf = 0 → ∀ L, LargestFinite f L → r = some ((if neg then f.sign else 0) + L, flagSAT ||| flagOF ||| more)) ∧ (ovf = 3 → r = none) ∧
  (11 ≤ c.toNat → (ovf = 1 → r = some (if f.top = .special then f.infBits neg else f.canonNan, flagOF ||| more)) ∧
    (ovf = 2 → r = some (f.canonNan, flagOF ||| more)))

/-- A finite value rounded to the float format of a plain code (R83, R88, R91, R92): one of the two values around it, the next pattern or the
one before, as the mode says, with NX where it is not exact and UF where it is tiny after rounding too; beyond the largest finite value L,
that value or the overflow outcome, which stands at one unit above L. That a directed mode keeps L however far beyond it the value lies, and
that a stochastic one takes the overflow only by its bits, are the model's readings (log entries 15 and 16). -/
def FloatRounds (c : BitVec 4) (f : FFmt) (mode ovf r24 : Nat) (neg : Bool) (m : Nat) (e : Int) : Prop :=
  let x := absRat (ratOf (.fin neg m e))
  let r := f.round mode ovf r24 (.fin neg m e)
  let s := if neg then f.sign else 0
  let tiny : Prop := x < leastNormal f ∧ ¬TakesHi mode neg r24 true (belowNormal f) (leastNormal f) x
  let gives (b : Nat) (inexact : Prop) : Prop :=
    ∃ fl : Flags, r = some (s + b, fl) ∧ ∀ k, k < 8 → (fl.getLsbD k = true ↔ inexact ∧ (k = 4 ∨ (k = 3 ∧ tiny)))
  (∀ l, l + 1 < f.sign → finite (f.decode (l + 1)) = true → valueOf f l ≤ x → x < valueOf f (l + 1) →
    let up := TakesHi mode neg r24 ((l + 1) % 2 == 0) (valueOf f l) (valueOf f (l + 1)) x
    (up → gives (l + 1) True) ∧ (¬up → gives l (valueOf f l ≠ x))) ∧
  (∀ L, LargestFinite f L → valueOf f L ≤ x →
    let next := valueOf f L + (valueOf f L - valueOf f (L - 1))
    let beyond : Prop := (x < next → TakesHi mode neg r24 ((L + 1) % 2 == 0) (valueOf f L) next x) ∧
      (next ≤ x → ¬(mode = 1 ∨ (mode = 2 ∧ neg = false) ∨ (mode = 3 ∧ neg = true)))
    (x = valueOf f L → r = some (s + L, 0)) ∧ (valueOf f L < x → ¬beyond → r = some (s + L, flagNX)) ∧
    (beyond → OverflowGives c f ovf neg flagNX r))

/-- The sign bit of a pattern. -/
def minus (f : FFmt) (b : Nat) : Bool := b / f.sign % 2 == 1

/-- The special cases of a fused operation on a and b of format f and c of format g, its product negated or not: a NaN, an invalid product and
the difference of two infinities are invalid; an infinite product or addend gives an infinity; and a sum that is exactly zero is −0 only where
both its terms are (R83, R193). -/
def FusedSpecials (f g : FFmt) (negated : Bool) (op : Nat → Nat → Nat → Nat × Flags) (a b c : Nat) : Prop :=
  let invalid : Nat × Flags := (g.canonNan, flagNV)
  let big (x : Nat) : Prop := ∃ p, f.decode x = .inf p
  let zero (x : Nat) : Prop := ∃ p e, f.decode x = .fin p 0 e
  let sign : Bool := (minus f a != minus f b) != negated
  let term := if negated then -(valueOf f a * valueOf f b) else valueOf f a * valueOf f b
  (f.decode a = .nan ∨ f.decode b = .nan ∨ g.decode c = .nan → op a b c = invalid) ∧
  ((big a ∧ zero b) ∨ (zero a ∧ big b) → op a b c = invalid) ∧
  (f.decode a ≠ .nan → f.decode b ≠ .nan → (big a ∧ ¬zero b) ∨ (¬zero a ∧ big b) →
    (finite (g.decode c) = true → op a b c = (g.infBits sign, 0)) ∧
    ∀ p, g.decode c = .inf p → op a b c = if p = sign then (g.infBits p, 0) else invalid) ∧
  (finite (f.decode a) = true → finite (f.decode b) = true →
    (∀ p, g.decode c = .inf p → op a b c = (g.infBits p, 0)) ∧
    (finite (g.decode c) = true → term + valueOf g c = 0 → op a b c = (if sign && minus g c then g.sign else 0, 0)))

/-- The float formats of the arithmetic words (R193). -/
def laneFloats : List FFmt := [fmtF16, fmtBf16, fmtF32]

/-- A VF word of two operands, and its operation on two patterns. -/
abbrev FloatRow := Lane2 × (FFmt → Nat → Nat → Nat × Flags)
def floatRow (i : Lane2) (f : FFmt → Nat → Nat → Nat × Flags) : FloatRow := (i, f)
def floatRows : List FloatRow :=
  [ floatRow .vfadd fAdd, floatRow .vfsub fSub, floatRow .vfmul fMul, floatRow .vfdiv fDiv, floatRow .vfmin (fun f => fPick f false),
    floatRow .vfmax (fun f => fPick f true) ]
abbrev FloatXRow := LaneX × (FFmt → Nat → Nat → Nat × Flags)
def floatXRow (i : LaneX) (f : FFmt → Nat → Nat → Nat × Flags) : FloatXRow := (i, f)
def floatXRows : List FloatXRow :=
  [ floatXRow .vxVfadd fAdd, floatXRow .vxVfsub fSub, floatXRow .vfrsub (fun f x y => fSub f y x), floatXRow .vxVfmul fMul,
    floatXRow .vxVfmin (fun f => fPick f false), floatXRow .vxVfmax (fun f => fPick f true) ]

/-- A compare word on integers and on floats: its relation, what a NaN operand makes it, and whether that sets NV (R196). -/
abbrev CompareRow := (BitVec 1 → BitVec 5 → BitVec 5 → BitVec 5 → BitVec 4 → Instr) × (Rat → Rat → Bool) × Bool × Bool
def compareRow (i : BitVec 1 → BitVec 5 → BitVec 5 → BitVec 5 → BitVec 4 → Instr) (r : Rat → Rat → Bool) (onNan invalid : Bool) : CompareRow :=
  (i, r, onNan, invalid)
def compareRows : List CompareRow :=
  [ compareRow .vcmpeq (fun x y => x == y) false false, compareRow .vcmpne (fun x y => x != y) true false,
    compareRow .vcmplt (fun x y => decide (x < y)) false true, compareRow .vcmple (fun x y => decide (x ≤ y)) false true ]

/-- A value that is not NaN as a number for comparing: an infinity stands beyond every finite value of the arithmetic formats. -/
def orderOf : FVal → Rat
  | .inf neg => if neg then -((2 : Rat) ^ 200) else (2 : Rat) ^ 200
  | v => ratOf v

/-- The predicate operations of R197 on two bits. -/
abbrev PredRow := (BitVec 1 → BitVec 5 → BitVec 5 → BitVec 5 → Instr) × (Bool → Bool → Bool)
def predRow (i : BitVec 1 → BitVec 5 → BitVec 5 → BitVec 5 → Instr) (f : Bool → Bool → Bool) : PredRow := (i, f)
def predRows : List PredRow :=
  [ predRow .pand (fun x y => x && y), predRow .por (fun x y => x || y), predRow .pxor (fun x y => x != y),
    predRow .pandn (fun x y => x && !y), predRow (fun cs d a _ => .pnot cs d a) (fun x _ => !x),
    predRow (fun cs d _ _ => .pset cs d) (fun _ _ => true), predRow (fun cs d _ _ => .pclr cs d) (fun _ _ => false) ]

/-- A word that reads vectors and writes a predicate. -/
def predicateWord (reads : List Opnd) : EpWord := { cls := .arith, reads := reads }

/-- The word answers a next state in which predicate d has the bits `g` and the flags `fl` are set. -/
def PredicateResult (i : Instr) (d : BitVec 5) (g : Nat → Bool) (fl : Flags) (s : State) : Prop :=
  ∃ t, exec i s = .next t ∧ PredicateWritten d.toNat g s t ∧ t.c.sys.fpctl = s.c.sys.fpctl ||| fl.zeroExtend 64 ∧
    Frame preds s t ∧ Completed s t

/-- A trap at element e of a vector word (R106): the record names it, and a replay starts at it. -/
def ElementTrap (cause e : Nat) (tval : Word) (s t : State) : Prop :=
  t.c.sys.tpc = s.c.pc ∧ field t.c.sys.tcause 0 8 = cause ∧ bit t.c.sys.tcause 14 = false ∧ t.c.sys.tval = tval ∧
  t.c.sys.telem = BitVec.ofNat 64 (e % 65536) ∧ t.c.sys.estart = BitVec.ofNat 64 e ∧ t.c.pc = s.c.sys.tvec ∧ t.prv = true ∧ t.pprv = s.prv

/-- The random bits of a stochastic rounding for element e (R92). -/
def randomBits (s : State) (mode e : Nat) : Nat := convBits s mode (convSalt s) (sbaseOf s.c.vloop) e

/-! Vector memory words. -/

/-- What a vector memory word takes out beside a vector word's end: STALLBANK (R220). -/
def banked (c : Context) : Context := vectors { c with sys := { c.sys with stallbank := 0 } }

/-- The state with the pointer of a strip's address register advanced by ⌈VL × w ÷ 8⌉ bytes in mode 1 (R210). -/
def stripMoved (a : BitVec 4) (m : BitVec 3) (w : Nat) (s u : State) : State :=
  if m = 1 then u.wa a.toNat { s.ra a.toNat with ptr := BitVec.ofInt 64 ((s.ra a.toNat).ptr.toNat + ((vlNow s * w + 7) / 8 : Nat)) } else u

/-- The value that a load's element loop gave element e, or what the destination holds. -/
def gotElem (got : List (Nat × Nat)) (u : State) (w : EpWord) (d : Opnd) (e : Nat) : Nat :=
  match got.find? (fun x => x.1 == e) with
  | some x => x.2
  | none => startElem u w d e

/-- A load's elements, in order: each acted on so far with its value, the state they leave, and where the loop stopped. -/
def loadLoop (s : State) (r : AReg) (w : Nat) (rlx : BitVec 1) (addr : ElemAddr) : List (Nat × Nat) × State × Option Stop :=
  memLoop (loadElem r w (rlx == 1#1) addr) (epEnv s).todo s

/-- A store's elements, in order, with the location of each. -/
def storeLoop (s : State) (r : AReg) (w : Nat) (rlx : BitVec 1) (addr : ElemAddr) : List (Nat × Nat) × State × Option Stop :=
  memLoop (elemAccess r { s := true } w (rlx == 1#1) addr) (epEnv s).todo s

/-- A load or a gather: its instruction, its word, its base register, mode, width, RLX bit and element addresses. -/
structure LoadForm where
  i    : Instr
  y    : EpWord
  d    : Opnd
  a    : BitVec 4
  m    : BitVec 3
  rlx  : BitVec 1
  addr : ElemAddr

/-- VLD and VGATH at a state (R210, R211, R218). -/
def vldForm (s : State) (cs : BitVec 1) (d : BitVec 5) (a : BitVec 4) (m w : BitVec 3) (r : BitVec 1) (f : BitVec 4) : LoadForm :=
  let o := vreg d (plainWidth f)
  ⟨.vld cs d a m w r f, { cls := .vmem, dst := some o }, o, a, m, r, stripAddr s (epEnv s) (s.ra a.toNat) w o.width⟩
def vgathForm (s : State) (cs : BitVec 1) (d : BitVec 5) (a : BitVec 4) (i : BitVec 5) (r : BitVec 1) (f : BitVec 4) : LoadForm :=
  let o := vreg d (plainWidth f)
  ⟨.vgath cs d a i r f, { cls := .vmem, dst := some o, reads := [vreg i 32] }, o, a, 0, r,
    indexAddr (s.ra a.toNat) o.width (readElem s (vreg i 32))⟩

/-- VST and VSCAT at a state; `d` is the source here. -/
def vstForm (s : State) (cs : BitVec 1) (d : BitVec 5) (a : BitVec 4) (m w : BitVec 3) (r : BitVec 1) (f : BitVec 4) : LoadForm :=
  let o := vreg d (plainWidth f)
  ⟨.vst cs d a m w r f, { cls := .vmem, reads := [o] }, o, a, m, r, stripAddr s (epEnv s) (s.ra a.toNat) w o.width⟩
def vscatForm (s : State) (cs : BitVec 1) (d : BitVec 5) (a : BitVec 4) (i : BitVec 5) (r : BitVec 1) (f : BitVec 4) : LoadForm :=
  let o := vreg d (plainWidth f)
  ⟨.vscat cs d a i r f, { cls := .vmem, reads := [o, vreg i 32] }, o, a, 0, r,
    indexAddr (s.ra a.toNat) o.width (readElem s (vreg i 32))⟩

/-- Rows 1 and 2 of R213, which are the word's: a relaxed word under DETERM, and a mode-1 advance beyond the bounds, whose TVAL is the new
pointer (R60, R128). -/
def StripStops (x : LoadForm) (s : State) : Prop :=
  let r := s.ra x.a.toNat
  let next : Int := r.ptr.toNat + ((vlNow s * x.d.width + 7) / 8 : Nat)
  let relaxed : Prop := x.rlx = 1#1 ∧ s.determ = true
  (relaxed → TakesTrap x.i (s.trapInfo false 0x14 s.c.pc) s) ∧
  (¬relaxed → x.m = 1 → ¬((r.base.toNat : Int) ≤ next ∧ next ≤ r.limit.toNat) →
    TakesTrap x.i (s.trapInfo false 0x06 (BitVec.ofInt 64 next)) s)

/-- Rows 3 to 8 of R213 for element e, in order: a sweep's product, permission and bounds, alignment, translation, the fabric, the race and
the watchpoints. Each names the element in TELEM, ESTART and TIDX, and as a lane's fault (R106); an element that passes has its location. -/
def ElementChecks (r : AReg) (need : Need) (w : Nat) (rlx : Bool) (addr : ElemAddr) (e : Nat) (u : State) : Prop :=
  let at' (cause : BitVec 8) (tval tidx : Word) : TrapInfo :=
    { u.trapInfo false cause tval with telem := e, estart := e, tidx := tidx, inLane := true }
  let got := elemAccess r need w rlx addr e u
  (addr e = none → got = .trap (at' 0x06 r.ptr 0) u) ∧
  ∀ p tidx, addr e = some (p, tidx) →
    let va := BitVec.ofInt 64 p
    let within : Prop := permOk r.perm need = true ∧ (r.base.toNat : Int) ≤ p ∧ p + elemBytes w ≤ r.limit.toNat
    let aligned : Prop := 8 ≤ w → p % ((w / 8 : Nat) : Int) = 0
    let k : AccKind := if need.s then .write else .read
    let x := translate u va (elemBytes w) { write := need.s, fetch := false, user := !u.prv }
    (¬within → got = .trap (at' 0x07 va tidx) u) ∧
    (within → ¬aligned → got = .trap (at' 0x05 va tidx) u) ∧
    (within → aligned →
      (∀ cause, x.1 = .error cause → got = .trap (at' cause va tidx) x.2) ∧
      ∀ y, x.1 = .ok y →
        let gate := remoteGate .core x.2 va y (elemBytes w) need.s (at' 0 0 tidx)
        (∀ q v, gate = .trap q v → got = .trap q v) ∧ (∀ n v, gate = .wait n v → got = .wait n v) ∧
        (∀ v, gate = .ok () v →
          let race := if y.rd = true ∧ rlx = false then findRace v (hSet v .core) k (sectorOf v y.loc) else none
          let watch := watchHit v va (elemBytes w) (!need.s) need.s
          (∀ q, race = some q → got = .trap (raceTrap (at' 0 0 tidx) va q) v) ∧
          (race = none → ∀ n, watch = some n →
            got = .trap { at' 0x18 va tidx with taux0 := BitVec.ofNat 64 n } v) ∧
          (race = none → watch = none → ∃ t, got = .ok y.loc t ∧
            { t with recs := v.recs, nextRec := v.nextRec, c := { t.c with seen := v.c.seen } } = v)))

/-- A load or store form whose element waits, for the fabric or for another package, waits as a whole, with nothing of it done. -/
def StripWaits (x : LoadForm) (n : Nat) (s u : State) : Prop :=
  exec x.i s = .next { forgetAccesses s u with c := { u.c with wait := n } }

/-- A load form completes: every element that its loop reached has the value read, and the pointer has moved. -/
def LoadCompletes (x : LoadForm) (s : State) : Prop :=
  ∀ got u, loadLoop s (s.ra x.a.toNat) x.d.width x.rlx x.addr = (got, u, none) →
    ∃ t, exec x.i s = .next t ∧
      VectorResult banked x.y x.d (gotElem got u x.y x.d) 0 (stripMoved x.a x.m x.d.width s u) t

/-- A load form whose loop stops at an element traps there, with the elements below it loaded (R106), or waits. -/
def LoadTraps (x : LoadForm) (s : State) : Prop :=
  (∀ got u n, loadLoop s (s.ra x.a.toNat) x.d.width x.rlx x.addr = (got, u, some (.wait n)) → StripWaits x n s u) ∧
  ∀ got u e r, loadLoop s (s.ra x.a.toNat) x.d.width x.rlx x.addr = (got, u, some (.trap e r)) →
    ∃ t, exec x.i s = .next t ∧ ElementTrap r.cause.toNat e r.tval s t ∧
      (∀ k, k < vlmaxNow s → x.d.reg + k / (4096 / x.d.width) < 32 →
        fileElem t x.d (vlmaxNow s) (rotNow s) k = gotElem got u x.y x.d k) ∧ t.mem = (finishIssues u).mem

/-- The byte that the elements of a store leave at a location, the later ones over the earlier: a 4-bit element changes half of its
byte (R43, R211). -/
def storedByte (w : Nat) (val : Nat → Nat) : List (Nat × Nat) → (Nat → Byte) → Nat → Byte
  | [], b, l => b l
  | (e, loc) :: r, b, l =>
    storedByte w val r (fun k =>
      if loc ≤ k ∧ k < loc + elemBytes w then
        (if w = 4 then
          (if e % 2 = 0 then BitVec.ofNat 8 ((b loc).toNat / 16 * 16 + val e % 16) else BitVec.ofNat 8 (val e % 16 * 16 + (b loc).toNat % 16))
        else BitVec.ofNat 8 (val e / 256 ^ (k - loc)))
      else b k) l

/-- Every entry of the store buffers is an aligned word (R207). -/
def BufferOk (s : State) : Prop := ∀ e ∈ s.c.sbuf, e.addr % 8 = 0

/-- A store form completes: the context reads back what its elements stored, nothing becomes visible to others but by the commit of a full
buffer, and the pointer has moved. -/
def StoreCompletes (x : LoadForm) (s : State) : Prop :=
  ∀ got u, storeLoop s (s.ra x.a.toNat) x.d.width x.rlx x.addr = (got, u, none) → (∀ g ∈ got, ctrlOff g.2 = none) →
    MemoriesOk u → BufferOk u →
    ∃ t, exec x.i s = .next t ∧
      (∀ l, coreByte t l = storedByte x.d.width (readElem s x.d) got (coreByte u) l) ∧
      ((t.mem = u.mem ∧ t.c.scratch = u.c.scratch) ∨ (t.mem = (commitStores u).mem ∧ t.c.scratch = (commitStores u).c.scratch)) ∧
      Frame (fun c => epEnd { c with sys := { c.sys with stallbank := 0 } }) (storedOut (stripMoved x.a x.m x.d.width s u)) (storedOut t) ∧
      Completed (stripMoved x.a x.m x.d.width s u) t

/-- A store form whose loop stops at an element traps there, with the elements below it stored (R106), or waits. -/
def StoreTraps (x : LoadForm) (s : State) : Prop :=
  (∀ got u n, storeLoop s (s.ra x.a.toNat) x.d.width x.rlx x.addr = (got, u, some (.wait n)) → StripWaits x n s u) ∧
  ∀ got u e r, storeLoop s (s.ra x.a.toNat) x.d.width x.rlx x.addr = (got, u, some (.trap e r)) → (∀ g ∈ got, ctrlOff g.2 = none) →
    MemoriesOk u → BufferOk u →
    ∃ t, exec x.i s = .next t ∧ ElementTrap r.cause.toNat e r.tval s t ∧
      (u.c.mat.issues = [] → ∀ l, coreByte t l = storedByte x.d.width (readElem s x.d) got (coreByte u) l) ∧ t.c.v = s.c.v

/-! Chambers and special functions. -/

/-- A word of a class with a destination. -/
def classWord (k : EpClass) (t : BitVec 1) (d : Opnd) (reads : List Opnd) : EpWord :=
  { cls := k, t := t == 1#1, dst := some d, reads := reads }

/-- The live elements of an operand, masked ones left out, in order (R224). -/
def liveElems (s : State) (o : Opnd) : List Nat := (epEnv s).lives.map (readElem s o)

/-- The sum, the least and the greatest of a list of exact integers. -/
def sumInt (l : List Int) : Int := l.foldr (· + ·) 0
def leastInt (top : Int) (l : List Int) : Int := l.foldr min top
def greatestInt (bottom : Int) (l : List Int) : Int := l.foldr max bottom

/-- A reduction and what it gives of the live elements under an integer format (R224). -/
abbrev ReduceRow := (BitVec 1 → BitVec 1 → BitVec 5 → BitVec 5 → BitVec 5 → BitVec 4 → Instr) × (BitVec 4 → List Nat → Int)
def reduceRow (i : BitVec 1 → BitVec 1 → BitVec 5 → BitVec 5 → BitVec 5 → BitVec 4 → Instr) (f : BitVec 4 → List Nat → Int) : ReduceRow :=
  (i, f)
def reduceRows : List ReduceRow :=
  [ reduceRow .vredsum (fun f l => sumInt (l.map (intOf f))), reduceRow .vredmin (fun f l => leastInt (intTop f) (l.map (intOf f))),
    reduceRow .vredmax (fun f l => greatestInt (intBottom f) (l.map (intOf f))),
    reduceRow .vredand (fun f l => (l.foldr (· &&& ·) (2 ^ plainWidth f - 1) : Nat)),
    reduceRow .vredor (fun _ l => (l.foldr (· ||| ·) 0 : Nat)), reduceRow .vredxor (fun _ l => (l.foldr (· ^^^ ·) 0 : Nat)) ]

/-- A reduction has completed with value r and flags fl: every element it acts on takes r, and where the word names a queue, the queue has
`v` appended (R224). -/
def Reduced (i : Instr) (y : EpWord) (d : Opnd) (r : Nat) (fl : Flags) (q : BitVec 5) (v : Word) (s : State) : Prop :=
  ∃ t, exec i s = .next t ∧ VectorResult (fun c => vectors (queues c)) y d (fun _ => r) fl s t ∧
    if q = 0 then t.c.q = s.c.q else QueueWritten q.toNat (s.rq q.toNat ++ [{ val := v, filled := true }]) s t

/-- A special-function word and its operation (R201). -/
abbrev SpecialRow := Lane1 × (FFmt → Nat → Nat × Flags)
def specialRow (i : Lane1) (f : FFmt → Nat → Nat × Flags) : SpecialRow := (i, f)
def specialRows : List SpecialRow :=
  [ specialRow .vrcp fRcp, specialRow .vrsq fRsq, specialRow .vsqrt fSqrt, specialRow .vexp2 fExp2, specialRow .vlog2 fLog2,
    specialRow .vsinpi fSinpi, specialRow .vcospi fCospi, specialRow .vtanh fTanh ]

/-! The six functions that R97 defines on f32. -/

/-- y is the f32 value nearest to x: one add32, mul32 or fma32 (R96). -/
def Near32 (x y : Rat) : Prop := ∃ b, NearestEven fmtF32 x b ∧ y = valueOf fmtF32 b

/-- Horner's rule by fma32 from h on, coefficient by coefficient, ends at y (R97). -/
def Horner32 (u : Rat) : Rat → List Nat → Rat → Prop
  | h, [], y => y = h
  | h, c :: r, y => ∃ k, Near32 (u * h + valueOf fmtF32 c) k ∧ Horner32 u k r y

/-- k is the integer nearest to x, the even one of two nearest. -/
def NearestInt (x : Rat) (k : Int) : Prop := absRat (x - k) ≤ 1 / 2 ∧ (absRat (x - k) = 1 / 2 → k % 2 = 0)

/-- The entry of a table of R97 as a value. -/
def tableAt (t : List Nat) (j : Nat) : Rat := valueOf fmtF32 (t.getD j 0)

/-- exp2 of x by the algorithm of R97: 2^n times y, rounded once, of whose flags only UF and OF are kept (R96). -/
def Exp2By (x : Rat) (r : Nat × Flags) : Prop :=
  ∃ (k : Int) (h p y : Rat) (fl : Flags), NearestInt (64 * x) k ∧
    Horner32 (x - k / 64) (valueOf fmtF32 0x3C1D955B) [0x3D635847, 0x3E75FDF0, 0x3F317218] h ∧ Near32 ((x - k / 64) * h) p ∧
    Near32 (tableAt tabExp2 (k % 64).toNat * p + tableAt tabExp2 (k % 64).toNat) y ∧ RoundedTo fmtF32 (y * 2 ^ (k / 64)) (r.1, fl) ∧
    r.2 = fl &&& (flagUF ||| flagOF)

/-- log2 of m × 2^n, with 1 ≤ m < 2 (R97). -/
def Log2By (m : Rat) (n : Int) (r : Nat × Flags) : Prop :=
  ∃ (j : Nat) (t q s : Rat), (j : Int) = (64 * (m - 1) + 1 / 2).floor ∧ Near32 (m * tableAt tabLog1 j - 1) t ∧
    Horner32 t (valueOf fmtF32 0xBEB8AA3B) [0x3EF6384F, 0xBF38AA3B, 0x3FB8AA3B] q ∧ Near32 (n + tableAt tabLog2 j) s ∧
    NearestEven fmtF32 (t * q + s) r.1 ∧ r.2 = 0

/-- One of the two steps of rsq (R97). -/
def RsqStep (h y z : Rat) : Prop := ∃ w e, Near32 (y * y) w ∧ Near32 (1 / 2 - h * w) e ∧ Near32 (y * e + y) z

/-- 1 ÷ √(m × 4^n), with 1 ≤ m < 4 (R97). -/
def RsqBy (m : Rat) (n : Int) (r : Nat × Flags) : Prop :=
  ∃ (j : Nat) (y z : Rat), (j : Int) = (32 * (m - 1)).floor ∧ RsqStep (m / 2) (tableAt tabRsq j) y ∧ RsqStep (m / 2) y z ∧
    valueOf fmtF32 r.1 = z * 2 ^ (-n) ∧ r.2 = 0

/-- sin(πx), or cos(πx), below 2^24 (R97); a zero is +0, but sinpi keeps the sign of x. -/
def TrigBy (cos neg : Bool) (x : Rat) (r : Nat × Flags) : Prop :=
  ∃ (k : Int) (u p s q c : Rat), NearestInt (2 * x) k ∧ Near32 ((x - k / 2) * (x - k / 2)) u ∧
    Horner32 u (valueOf fmtF32 0x3DA83C1B) [0xBF196966, 0x402335E3, 0xC0A55DE7, 0x40490FDB] p ∧ Near32 ((x - k / 2) * p) s ∧
    Horner32 u (valueOf fmtF32 0xBCD368F9) [0x3E70FA83, 0xBFAAE9E4, 0x4081E0FA, 0xC09DE9E6] q ∧ Near32 (u * q + 1) c ∧ r.2 = 0 ∧
    let quarter := ((if cos then k + 1 else k) % 4).toNat
    valueOf fmtF32 r.1 = [s, c, -s, -c].getD quarter 0 ∧
    (valueOf fmtF32 r.1 = 0 → r.1 = if cos = false ∧ neg = true then fmtF32.sign else 0)

/-- tanh of a, from 2^−12 to 9 (R97): the pattern before it takes the sign of x. -/
def TanhBy (a : Rat) (r : Nat) : Prop :=
  (a < 3 / 8 → ∃ w p g, Near32 (a * a) w ∧
    Horner32 w (valueOf fmtF32 0x3B6B69E8) [0xBC11371B, 0x3CB327A4, 0xBD5D0DD1, 0x3E088889, 0xBEAAAAAB] p ∧ Near32 (w * p) g ∧
    NearestEven fmtF32 (a * g + a) r) ∧
  (3 / 8 ≤ a → ∃ (l : Nat) (E : Nat × Flags) (d q : Rat), NearestEven fmtF32 (a * valueOf fmtF32 0x4038AA3B) l ∧
    Exp2By (valueOf fmtF32 l) E ∧ Near32 (valueOf fmtF32 E.1 + 1) d ∧ Near32 (2 / d) q ∧ NearestEven fmtF32 (1 - q) r)

/-- The pattern of a positive format nearest to 1 ÷ √x, the even one of two nearest. -/
def NearestRoot (f : FFmt) (x : Rat) (r : Nat) : Prop :=
  r < f.sign ∧ finite (f.decode r) = true ∧ ∀ b, b < f.sign → finite (f.decode b) = true →
    let mid := (valueOf f r + valueOf f b) / 2
    (valueOf f r < valueOf f b → 1 ≤ mid * mid * x ∧ (mid * mid * x = 1 → r % 2 = 0)) ∧
    (valueOf f b < valueOf f r → mid * mid * x ≤ 1 ∧ (mid * mid * x = 1 → r % 2 = 0))

/-! Copies and gathers. -/

/-- What the issue of a command takes out: the channels and the place in program order. -/
def channels (c : Context) : Context := { c with chan := Vector.replicate 4 Channel.free, order := 0 }

/-- A dimension of a copy that ND names has the length and the strides of its registers, and else length 1 and strides 0 (R169). -/
def dimOf (named : Bool) (src dst : DReg) : Nat × Int × Int :=
  if named then (src.len.toNat, src.stride.toInt, dst.stride.toInt) else (1, 0, 0)

/-- The command of a CPY's operands, as its channel holds it (R169, R171). -/
def CpyHeld (s : State) (d a b : BitVec 5) (v : BitVec 1) (n : BitVec 2) (c : Channel) : Prop :=
  c.act = true ∧ c.flt = false ∧ c.off = 0 ∧ c.gth = false ∧ c.arv = (v == 1#1) ∧ c.pc = s.c.pc ∧ c.user = !s.prv ∧
  c.src = (s.ra a.toNat).ptr ∧ c.dst = (s.ra d.toNat).ptr ∧ c.ctr = (s.ra b.toNat).ptr ∧ c.run = (s.rd 0).len.toNat ∧
  (c.n1, c.ss1, c.ds1) = dimOf (decide (2 ≤ n.toNat)) (s.rd 1) (s.rd 4) ∧
  (c.n2, c.ss2, c.ds2) = dimOf (decide (3 ≤ n.toNat)) (s.rd 2) (s.rd 5)

/-- The command of a GTH's operands (R170, R171). -/
def GthHeld (s : State) (d t i : BitVec 5) (v z : BitVec 1) (k : BitVec 4) (c : Channel) : Prop :=
  c.act = true ∧ c.flt = false ∧ c.off = 0 ∧ c.gth = true ∧ c.arv = (v == 1#1) ∧ c.pc = s.c.pc ∧ c.user = !s.prv ∧
  c.src = (s.ra t.toNat).ptr ∧ c.tbl = s.ra t.toNat ∧ c.dst = (s.ra d.toNat).ptr ∧ c.idx = (s.ra i.toNat).ptr ∧ c.ctr = (s.ra k.toNat).ptr ∧
  c.isz = (if z = 1#1 then 8 else 4) ∧ c.run = (s.rd 1).len.toNat ∧ c.n1 = (s.rd 0).len.toNat ∧ c.n2 = 1 ∧ c.ss1 = (s.rd 0).stride.toInt

/-- The word puts a command into a channel, commits the context's buffered stores and completes; a command with nothing to move then
completes as R173 says (R44, R171). Nothing else changes, where nothing is traced. -/
def Issues (i : Instr) (h : BitVec 2) (held : Channel → Prop) (s : State) : Prop :=
  ∃ u, held (chanAt u h.toNat) ∧ (∀ k, k ≠ h.toNat → chanAt u k = chanAt s k) ∧ RegistersKept s u ∧ Completed s u ∧ u.c.sbuf = [] ∧
    (s.dev.trctl = 0 → Frame channels (commitStores s) u) ∧
    exec i s = .next (if chanTotal (chanAt u h.toNat) = 0 then completeChan h.toNat (chanAt u h.toNat) u else u)

/-- Byte q is one that a box of rows touches. -/
def touched (p : Int) (run n1 : Nat) (s1 : Int) (n2 : Nat) (s2 : Int) (q : Int) : Prop :=
  ∃ i j b : Nat, i < n1 ∧ j < n2 ∧ b < run ∧ q = p + i * s1 + j * s2 + b

/-- Byte q fails the check of an address register (R127). -/
def failsAt (r : AReg) (need : Need) (q : Int) : Prop :=
  permOk r.perm need = false ∨ q < r.base.toNat ∨ (r.limit.toNat : Int) ≤ q

/-- Where the checked pieces read or write the byte of a linear offset. -/
def pieceLoc (ps : List (Piece × Xlat)) (wr : Bool) (o : Nat) : Option Nat :=
  (ps.find? fun p => p.1.write == wr && decide (p.1.off ≤ o) && decide (o < p.1.off + p.1.len)).map fun p => p.2.loc + (o - p.1.off)

/-- The byte at l after n bytes from offset o on have moved: the last of them whose destination is l, and otherwise the byte of before. -/
def movedByte (u : State) (ps : List (Piece × Xlat)) (o n l : Nat) : Byte :=
  (List.range n).foldl (fun b k =>
    if pieceLoc ps true (o + k) = some l then locByte u ((pieceLoc ps false (o + k)).getD 0) else b) (locByte u l)

/-- No piece lies in control space or crosses from one memory into the other. -/
def PiecesPlain (ps : List (Piece × Xlat)) : Prop :=
  ∀ p ∈ ps, ctrlOff p.2.loc = none ∧ (p.2.loc + p.1.len ≤ coreLoc ∨ coreLoc ≤ p.2.loc)

/-- A state without its race records. -/
def recordsOut (s : State) : State := { s with recs := [], nextRec := 0 }

/-- The state in which nothing is waited for, or kept, of an agent's accesses: a line asked for comes for nobody's access (R285). -/
def withoutTransfers (who : Agent) (s : State) : State :=
  { s with fab := { s.fab with
      wanted := (s.fab.wanted.filter fun w => w.who ≠ who ∨ w.key.off = 0).map fun w => if w.who = who then { w with who := .nobody } else w
      inbox := s.fab.inbox.filter (·.1 ≠ who), answers := s.fab.answers.filter (·.1 ≠ who) } }

/-- The chunk of channel i has moved: every byte of memory is as the pieces say, and the channel goes on after it, or completes where it
was the last (R172, R173). -/
def ChunkMoves (i : Instr) (ch : Nat) (c : Channel) (ps : List (Piece × Xlat)) (s u : State) : Prop :=
  ∃ w ids, (∀ l, locByte w l = movedByte u ps c.off (chunkEnd c - c.off) l) ∧
    Frame nothing (recordsOut (storedOut (withoutTransfers (.channel ch) u))) (recordsOut (storedOut w)) ∧
    exec i s = .next (if chanTotal c ≤ chunkEnd c then completeChan ch { c with off := chunkEnd c, ids := ids, wait := 7 } w
      else withChan w ch { c with off := chunkEnd c, ids := ids, wait := 7 })

/-- The channel has stopped at a fault: nothing of its chunk is written, the counter is not incremented, and the channel keeps the offset
to go on from (R175). -/
def ChannelStops (i : Instr) (ch off : Nat) (r : TrapInfo) (s u : State) : Prop :=
  ∃ t, exec i s = .next t ∧ (chanAt t ch).flt = true ∧ (chanAt t ch).act = (chanAt s ch).act ∧ (chanAt t ch).off = off ∧
    ((chanAt t ch).cause.map fun x => (x.cause, x.tpc, x.tval, x.telem, x.tidx)) = some (r.cause, r.tpc, r.tval, r.telem, r.tidx) ∧
    (∀ k, k ≠ ch → chanAt t k = chanAt u k) ∧ RegistersKept u t ∧ t.mem = u.mem ∧ t.c.scratch = u.c.scratch ∧ t.c.pc = u.c.pc

/-! The matrix unit. -/

/-- A matrix word meets no check that stops it before its own: no vector loop is active and no PFX is pending (R67, R245). -/
def MatReady (reads : List Opnd) (dst : Option Opnd) (s : State) : Prop :=
  epReady { cls := .matrix, dst := dst, reads := reads } s = true ∧ s.c.vloop.active = false ∧ s.c.pfxLive = false

/-- The checks of R67 find nothing against the word; a held register can still make it wait. -/
def EpPasses (w : EpWord) (s : State) : Prop := ∀ r u, epChecks w s ≠ .trap r u

/-- The same for a matrix word that reads registers, with no vector loop active and no PFX pending (R245 rows 1 and 2). -/
def MatPasses (reads : List Opnd) (s : State) : Prop :=
  EpPasses { cls := .matrix, reads := reads } s ∧ s.c.vloop.active = false ∧ s.c.pfxLive = false

/-- What a matrix word takes out: the matrix state and GRANT. -/
def matrixOut (c : Context) : Context := epEnd { c with mat := MatrixState.detached, sys := { c.sys with grant := 0 } }

/-- The row blocks of the quad that neither the other cores nor a shadow context hold, in order (R249). -/
def quadFree (s : State) : List Nat :=
  (List.range 4).filter fun b => !s.quadHeld.getLsbD b && (match s.sh with | some c => !bit c.sys.grant (8 + b) | none => true)

/-- The word attaches the context with row blocks `got`: 16 rows each, every bank zero, no tile and nothing recorded (R232, R233, R249). -/
def Attaches (i : Instr) (got : List Nat) (s : State) : Prop :=
  ∃ t, exec i s = .next t ∧ t.c.sys.grant = BitVec.ofNat 64 (2 ^ 15 + got.foldr (fun b m => 2 ^ (8 + b) + m) 0 + 16 * got.length) ∧
    t.c.mat.mr = 16 * got.length ∧
    (∀ m, m < 4 → accAt t m = { W := List.replicate (16 * got.length) 0, V := List.replicate (16 * got.length) 0 }) ∧
    t.c.mat.tile = none ∧ t.c.mat.group = none ∧ t.c.mat.seq = none ∧ t.c.mat.ctr = none ∧ t.c.mat.issues = [] ∧
    Frame matrixOut s t ∧ Completed s t

/-- The record with no fields that a matrix word's accesses start from. -/
def matInfo (s : State) : TrapInfo := s.trapInfo false 0 0

/-- Nothing but memory, the records and the matrix state has changed from u to t, and the word has completed. -/
def MatrixFrame (u t : State) : Prop :=
  Frame (fun c => epEnd { c with mat := MatrixState.detached }) (recordsOut (storedOut u)) (recordsOut (storedOut t)) ∧ Completed u t

/-- One access of an engine or of the matrix unit, in the order of its checks (R42, R46, R175, R213): translation, whose failure gives its
cause with TVAL the address; the fabric port; and the race of the lowest sector that meets one. -/
def EngineAccess (who : Agent) (h : List Nat) (va : Word) (n : Nat) (k : AccKind) (user : Bool) (r : TrapInfo) (s : State) : Prop :=
  let wr := decide (k ≠ .read ∧ k ≠ .syncRead)
  let got := engineCheck who s h va n k user r
  let x := translate s va n { write := wr, fetch := false, user := user }
  (∀ cause, x.1 = .error cause → got = .trap { r with cause := cause, tval := va } x.2) ∧
  ∀ y, x.1 = .ok y →
    let gate := remoteGate who x.2 va y n wr r
    (∀ q u, gate = .trap q u → got = .trap q u) ∧ (∀ m u, gate = .wait m u → got = .wait m u) ∧
    (∀ u, gate = .ok () u →
      let met (q : Nat) : Option RaceRec := if y.rd = true then findRace u h k (sectorOf u (32 * q)) else none
      let touches (q : Nat) : Prop := y.loc / 32 ≤ q ∧ 32 * q < y.loc + n
      (∀ q z, touches q → met q = some z → (∀ l, touches l → l < q → met l = none) →
        got = .trap (raceTrap r (sectorVa va y.loc q) z) u) ∧
      ((∀ q, touches q → met q = none) → got = .ok y u))

/-- The spans of a matrix word (R246, R252): each is checked sector by sector from its lowest byte, and the spans in order; the first failure
decides, with the trap record of its span, and so does the first wait. -/
def SpanChecks (h : List Nat) (p : Int) (n : Nat) (k : AccKind) (r : TrapInfo) (s : State) : Prop :=
  let m := min n (32 - (p % 32).toNat)
  let first := engineCheck .matrix s h (BitVec.ofInt 64 p) m k (!s.prv) r
  let got := checkSpan s h p n k r
  (n = 0 → got = .ok [] s) ∧
  (0 < n → n ≤ 512 →
    (∀ q u, first = .trap q u → got = .trap q u) ∧ (∀ w u, first = .wait w u → got = .wait w u) ∧
    (∀ x u, first = .ok x u →
      let rest := checkSpan u h (p + m) (n - m) k r
      (∀ q v, rest = .trap q v → got = .trap q v) ∧ (∀ w v, rest = .wait w v → got = .wait w v) ∧
      (∀ l v, rest = .ok l v → got = .ok ((x, m) :: l) v)))
def SpansInOrder (h : List Nat) (n : Nat) (k : AccKind) (r : Nat → TrapInfo) (x : Nat × Int) (xs : List (Nat × Int)) (s u : State) : Prop :=
  let first := checkSpan u h x.2 n k (r x.1)
  let got := checkSpans s h n k r (x :: xs) u
  (∀ q v, first = .trap q v → got = .trap q v) ∧ (∀ w v, first = .wait w v → got = .wait w v) ∧
  (∀ l v, first = .ok l v →
    let rest := checkSpans s h n k r xs v
    (∀ q w, rest = .trap q w → got = .trap q w) ∧ (∀ m w, rest = .wait m w → got = .wait m w) ∧ (∀ z w, rest = .ok z w → got = .ok (l :: z) w))

/-- The word stops where a part of it does (R67, R106): it takes the part's trap, or waits with its reason, in the state reached. -/
def StopsWith {α : Type} (i : Instr) (r : Res α) (s : State) : Prop :=
  (∀ t u, r = .trap t u → exec i s = .next (takeTrap t u)) ∧
  (∀ n u, r = .wait n u → exec i s = .next { u with c := { u.c with wait := n } })

/-- The columns' addresses of a tile at p. -/
def columnsAt (p pitch : Int) : List (Nat × Int) := (List.range 128).map fun c => (c, p + (c : Int) * pitch)

/-- A tile of a shape at p in format f whose columns are the bytes that the spans have in state v (R238, R252). -/
def TileHolds (v : State) (x : Tile) (p : Int) (d : DReg) (f : BitVec 5) (sparse : Bool) (cols : List (List SpanPart)) : Prop :=
  x.addr = BitVec.ofInt 64 p ∧ x.K = d.len.toNat % 65536 ∧ x.nsb = d.len.toNat / 65536 % 256 ∧ x.nsa = d.len.toNat / 2 ^ 24 ∧
  x.pitch = d.stride.toInt ∧ x.fb = f ∧ x.sparse = sparse ∧ x.cols = cols.map fun ps => leNat (spanBytes v ps)

/-- Accumulator m's working bank has taken `f row column` in its first `mr` rows; its visible bank, its other rows and the other
accumulators are as they were. -/
def WorkingBank (m : BitVec 2) (f : Nat → Nat → Nat) (u t : State) : Prop :=
  let W := (accAt u m.toNat).W
  (∀ r c, r < W.length → c < 128 → accElem ((accAt t m.toNat).W.getD r 0) c = if r < u.c.mat.mr then f r c else accElem (W.getD r 0) c) ∧
  (accAt t m.toNat).W.length = W.length ∧ (accAt t m.toNat).V = (accAt u m.toNat).V ∧ (∀ n, n ≠ m.toNat → accAt t n = accAt u n) ∧
  t.c.mat.mr = u.c.mat.mr

/-- What an issue starts an element from: 0 with Z = 1, and else the accumulator's (R253). -/
def startFrom (z : BitVec 1) (u : State) (m : BitVec 2) (r c : Nat) : Nat :=
  if z = 1#1 then 0 else accElem ((accAt u m.toNat).W.getD r 0) c

/-- Every element of the issue is the dot product of a row of A and a column of the tile, added to what it starts from, and the flags are
those of its elements (R241, R253). -/
def Multiplies (i : Instr) (m : BitVec 2) (g : BitVec 5) (z : BitVec 1) (x : Tile) (rows : Nat → List MElem × Flags) (u : State)
    (s : State) (rest : MatrixState → MatrixState → Prop) : Prop :=
  let dot (r c : Nat) := dotElem (matInt g) (startFrom z u m r c) x.K (rows r).1 (tileColumn x c).1
  ∃ t, exec i s = .next t ∧ WorkingBank m (fun r c => (dot r c).1 % 2 ^ 32) u t ∧ rest u.c.mat t.c.mat ∧
    MatrixFrame { u with c := { u.c with sys := { u.c.sys with fpctl := 0 } } } { t with c := { t.c with sys := { t.c.sys with fpctl := 0 } } } ∧
    ∃ fl : Flags, t.c.sys.fpctl = s.c.sys.fpctl ||| fl.zeroExtend 64 ∧
      ∀ k, k < 8 → (fl.getLsbD k = true ↔
        (∃ c, c < 128 ∧ (tileColumn x c).2.getLsbD k = true) ∨
        (∃ r, r < u.c.mat.mr ∧ ((rows r).2.getLsbD k = true ∨
          ∃ c, c < 128 ∧ (dotElem (matInt g) (startFrom z u m r c) x.K (rows r).1 (tileColumn x c).1).2.getLsbD k = true)))

/-- Everything of the matrix state but the accumulators is as it was. -/
def bankOnly (a b : MatrixState) : Prop := { b with acc := a.acc } = a

/-- The counter increment that a queued issue will make: none without a matrix counter (R243, R246). -/
def IssueQueued (ctr : Option Counter) (a b : MatrixState) : Prop :=
  match ctr with
  | none => b.issues = a.issues
  | some c => ∃ y : MIssue, y.writes = [] ∧ y.ctr = some c.1 ∧ b.issues = a.issues ++ [y]

/-- The element at row r and column c after the groups of a table in turn (R256). -/
def groupCell (int : Bool) (z : BitVec 1) (sh : GroupShape) (rows : Nat → List MElem × Flags) (v : State) (r c : Nat) :
    List (Group × List (List SpanPart)) → Nat → Nat
  | [], acc => acc
  | y :: rest, acc =>
    groupCell int z sh rows v r c rest
      (if y.1.fr ≤ r ∧ r < y.1.fr + y.1.cnt then
        (dotElem int (if z = 1#1 then 0 else acc) (shapeK sh.shape) (rows r).1
          (tileColumn (readTile v y.1.p sh.shape sh.fb false y.2).1 c).1).1 % 2 ^ 32
      else acc)

/-- The value of an element of an operand as an integer or a rational. -/
def elemInt (x : MElem) : Int := match x.1 with | .fin neg m _ => (if neg then -1 else 1) * (m : Int) | _ => 0
def elemRat (x : MElem) : Rat := ratOf x.1

/-- The blocks that a parameter block keeps (R257): those of the window, and the anchors used. -/
def keeps (bytes : List Byte) (b : Nat) : Prop :=
  let at_ (o len : Nat) : Nat := leNat ((bytes.drop o).take len)
  let width := at_ 0x18 1 % 64 + 1
  b < at_ 0x14 4 ∧
    ((at_ 0x18 1 / 64 % 2 = 0 ∧ (at_ 0x10 4 : Int) - width + 1 ≤ b ∧ b ≤ at_ 0x10 4) ∨
     ∃ j, j < 16 ∧ (at_ 0x1A 2).testBit j = true ∧ at_ (0x20 + 2 * j) 2 = b)

/-! The lazy-uniform unit. -/

/-- The VFMT that LZ words need: VLMAX 128, a 32-bit EFMT and no blocks (R272). -/
def lazyVfmt (s : State) : Prop :=
  vlmaxNow s = 128 ∧ plainWidth (s.c.sys.vfmt.extractLsb' 0 4) = 32 ∧ field s.c.sys.vfmt 12 4 = 0

/-- An LZ word, and that it meets no check that stops it. -/
def lazyForm (t : BitVec 1) (dst : Option Opnd) (reads : List Opnd) : EpWord := { cls := .lazy, t := t == 1#1, dst := dst, reads := reads }
def LazyReady (w : EpWord) (s : State) : Prop := lazyVfmt s ∧ epReady w s = true

/-- What an LZ word takes out beside a vector word's end: the z registers. -/
def lazyOut (c : Context) : Context := epEnd { c with z := Vector.replicate 8 (Vector.replicate 128 ZElem.fresh) }

/-- An element that the word acts on is stale. -/
def staleIn (s : State) (n : Nat) : Prop := ∃ e, acts s e = true ∧ (readZ1 s n e).stale = true

/-- LAZY_STALE for register n (R280). -/
def staleInfo (s : State) (n : BitVec 5) : TrapInfo := s.trapInfo false 0x0E (BitVec.ofNat 64 n.toNat)

/-- Element e of z register n in state t, at the strip that the word of state s has run in: a word that ends the vector loop's body begins
the next strip (R204, R263). -/
def realAfter (s t : State) (n e : Nat) : ZElem :=
  nth (nth t.c.z n (Vector.replicate 128 ZElem.fresh)) (64 * (e / 64) + (e + rotNow s) % 64) ZElem.fresh

/-- Every element of the registers `sel` names that the word acts on has changed by `f`, and every other element is as it was. -/
def RealsWritten (sel : Nat → Prop) [DecidablePred sel] (f : Nat → Nat → ZElem) (s t : State) : Prop :=
  ∀ n e, n < 8 → e < 128 → realAfter s t n e = if sel n ∧ acts s e = true then f n e else readZ1 s n e

/-- The word makes the reals of zd (R273). -/
def MakesReals (i : Instr) (d : BitVec 5) (f : Nat → ZElem) (s : State) : Prop :=
  ∃ t, exec i s = .next t ∧ RealsWritten (· = d.toNat) (fun _ e => f e) s t ∧ Frame lazyOut s t ∧ Completed s t

/-- A real with position p and no digits held. -/
def freshReal (p : Word) : ZElem := { pos := p, len := 0, held := 0, stale := false }

/-- Digits 1 to k as a rational number: lo(z, k) of R266. -/
def prefixOf (seed : Word) (z : ZElem) (k : Nat) : Rat :=
  (List.range k).foldr (fun i (x : Rat) => (if z.digit seed (i + 1) then 1 / 2 ^ (i + 1) else 0) + x) 0

/-- The real lies between the first k digits and the next value of k digits. -/
def between (seed : Word) (z : ZElem) (k : Nat) (x : Rat) : Prop :=
  prefixOf seed z k < x ∧ x < prefixOf seed z k + 1 / 2 ^ k

/-- What a threshold word decides at element e (R266). -/
def decided (s : State) (z : ZElem) (f : BitVec 1) (bits : Nat) : Bool × Nat × Flags :=
  decideLt s.c.sys.seed z ((thresholdFmt f).decode bits)

/-- The segment's thresholds that are below VL and not masked, in order (R277). -/
def segment (s : State) (j : BitVec 3) (m : Nat) : List Nat := (epEnv s).lives.filter fun e => e / 2 ^ j.toNat == m
def segmentCount (s : State) (j : BitVec 3) : Nat := (vlNow s + 2 ^ j.toNat - 1) / 2 ^ j.toNat

/-! The fabric port's commands. -/

/-- What the issue of a remote command takes out of a context: its commands, the place in program order, the payload it used, and what posts
to the register it read have carried (R45). -/
def portOut (c : Context) : Context :=
  { c with
    remote := [], order := 0, pfxLive := false, hb := Vector.replicate 5 [], postR := Vector.replicate 32 []
    sys := { c.sys with status := setBit c.sys.status 2 false } }

/-- A state without what the port numbers and sends. -/
def portState (s : State) : State := recordsOut { s with fab := { s.fab with nextId := 0, sent := [] } }

/-- A word of the port may run: its payload and its source register's window allow it (R70, R74, R294). -/
def PortReady (v : BitVec 5) (byVfmt : Bool) (s : State) : Prop :=
  payloadOk s { cls := .control } = true ∧ (byVfmt = true → vfmtWidth s = 4 → lendsOther s = false) ∧ windowOf s v.toNat = none

/-- The word takes a trap with the given record; no register changes but by that, and no race record is left (R106). -/
def TrapsWith (i : Instr) (r : TrapInfo) (s : State) : Prop :=
  ∃ u, exec i s = .next (takeTrap r u) ∧ RegistersKept s u ∧ u.c.pc = s.c.pc ∧ u.c.remote = s.c.remote ∧ u.recs = s.recs

/-- The registers and the pending commands stay, and the word waits with a stall reason. -/
def WaitsWith (i : Instr) (n : Nat) (s : State) : Prop :=
  ∃ t, exec i s = .next t ∧ RegistersKept s t ∧ t.c.pc = s.c.pc ∧ t.c.wait = n ∧ t.c.remote = s.c.remote

/-- A command that has just been put into the port (R291). -/
def CommandHeld (s : State) (kind : RemoteKind) (b : BitVec 5) (t : BitVec 1) (c : RemoteCmd) : Prop :=
  c.id = s.fab.nextId ∧ c.kind = kind ∧ c.pc = s.c.pc ∧ c.block = (s.ra b.toNat).ptr ∧ c.nt = (t == 1#1) ∧ c.user = !s.prv ∧ c.bitmap = 0 ∧
  c.nk = false ∧ c.bg = false ∧ c.hu = false ∧ c.rc = false ∧ c.refused = 0 ∧ c.reports = [] ∧ c.wfail = none ∧ c.written = false ∧
  c.taken = false ∧ c.deferred = false

/-- The word puts the command into the port, and commits the context's buffered stores (R44, R107, R291); `u` is the state its checks
leave. -/
def CommandIssued (i : Instr) (kind : RemoteKind) (b : BitVec 5) (t : BitVec 1) (xfers : List Transfer → Prop) (s u : State) : Prop :=
  ∃ x c, exec i s = .next x ∧ x.c.remote = s.c.remote ++ [c] ∧ CommandHeld s kind b t c ∧ xfers c.xfers ∧ x.fab.nextId = s.fab.nextId + 1 ∧
    x.c.sbuf = [] ∧ Completed s x ∧ (s.dev.trctl = 0 → Frame portOut (portState (commitStores u)) (portState x))

/-- Index j of a register is sent: with rotation rot, its element is 64⌊j ÷ 64⌋ + ((j − rot) mod 64), below VL and not masked (R294). -/
def sentIndex (s : State) (j : Nat) : Bool := (epEnv s).live (64 * (j / 64) + (j + 64 - rotNow s % 64) % 64)

/-- Line n of register v's image at width w (R294), with the context that sends it (R46). -/
def HoldsLine (s : State) (v : BitVec 5) (w n : Nat) (l : LinePacket) : Prop :=
  l.launch = s.c.launch ∧ l.berth = s.c.sys.berth.truncate 32 ∧ l.member = s.c.member ∧
  ∀ j, j < 1024 / w → (l.data.extractLsb' (w * j) w).toNat = elemAt [(readV s v.toNat).1] w 0 (1024 / w * n + j)

/-- The first address and the number of each line that a word sends. -/
def lineList (l n : BitVec 2) (va : Word) : List (Nat × Word) :=
  (List.range (n.toNat + 1)).map fun i => (l.toNat + i, va + BitVec.ofNat 64 (128 * i))

/-- The checks of a completion register (R295 rows 2 and 3). -/
def blockFails (r : AReg) : Option (BitVec 8 × Word) :=
  if aCheck r { a := true, e := true } r.ptr.toNat 16 = false then some (0x07, r.ptr)
  else if r.ptr.toNat % 16 ≠ 0 then some (0x05, r.ptr) else none

/-- The transfers stand for the lines, in order, with packets as `p` says. -/
def LinesSent (ls : List (Nat × Word × Xlat)) (p : Nat → LinePacket → Prop) (away : Bool) (xs : List Transfer) : Prop :=
  xs.length = ls.length ∧ ∀ k, k < ls.length → ∀ q x, ls[k]? = some q → xs[k]? = some x →
    x.ix = q.1 ∧ x.va = q.2.1 ∧ x.loc = q.2.2.loc ∧ x.post = none ∧ x.acked = false ∧ x.moved = false ∧ x.away = away ∧
    ∃ l, x.line = some l ∧ l.off = (if q.2.2.loc < coreLoc then offOf q.2.2.loc else q.2.2.loc) ∧ l.rd = q.2.2.rd ∧ p q.1 l

/-! What arrives for remote commands and posts. -/

/-- A message leaves the package only where its destination is another one with a route and a link that is up (R283). -/
def leaving (s : State) (m : FabMsg) : List FabMsg := if reachable s (msgDest m) then [m] else []

/-- A step that sends one message and changes memory only as `bytes` says; the records aside, nothing else changes. -/
def Answers (i : Instr) (m : FabMsg) (s : State) (bytes : Nat → Byte) : Prop :=
  ∃ t, exec i s = .next t ∧ t.fab.sent = s.fab.sent ++ leaving s m ∧ (∀ a, readByte t.mem a = bytes a) ∧
    { recordsOut t with mem := [], ctrs := [], rlxw := [], fab := { t.fab with sent := [] } }
      = { recordsOut s with mem := [], ctrs := [], rlxw := [], fab := { s.fab with sent := [] } }

/-- Memory as it is. -/
def sameBytes (s : State) (a : Nat) : Byte := readByte s.mem a

/-- The bytes after a RADD.v line at `pa` (R295): each element sent is the sum, in its format, of the old one and the packet's. -/
def addedBytes (s : State) (pa : Nat) (l : LinePacket) (a : Nat) : Byte :=
  let n := if l.f32 then 4 else 2
  let f := if l.f32 then fmtF32 else fmtBf16
  let t := (a - pa) / n
  if pa ≤ a ∧ a < pa + 128 ∧ l.mask.getLsbD t = true then
    BitVec.ofNat 8 ((fAdd f (leNat (readBytes s.mem (pa + n * t) n)) (l.data.extractLsb' (8 * n * t) (8 * n)).toNat).1 / 256 ^ ((a - pa) % n))
  else sameBytes s a

/-- The bytes after a multicast copy at `pa` (R296): each byte sent is the packet's. -/
def copiedBytes (s : State) (pa : Nat) (l : LinePacket) (a : Nat) : Byte :=
  if pa ≤ a ∧ a < pa + 128 ∧ l.mask.getLsbD (a - pa) = true then l.data.extractLsb' (8 * (a - pa)) 8 else sameBytes s a

/-- What the inbound table answers for a line of this package's HBM or slices (R287). -/
def lineCheck (s : State) (l : LinePacket) : Inbound := inboundCheck s s.fab.fbit (s.fab.pkg.toNat * 2 ^ 42 + offOf l.off) true

/-- The record that the first outcome of a kind with NT = 1 adds to a command's reports (R292). -/
def reported (c : RemoteCmd) (t : TrapInfo) (c' : RemoteCmd) : Prop :=
  c'.reports = (if c.nt = true ∧ c.other = false then c.reports ++ [t] else c.reports) ∧ c'.other = true

/-- Byte b is the first one of sector q of a line that is sent (R47). -/
def firstSent (radd : Bool) (l : LinePacket) (q b : Nat) : Prop :=
  32 * q ≤ b ∧ b < 32 * q + 32 ∧ byteSent radd l b = true ∧ ∀ k, 32 * q ≤ k → k < b → byteSent radd l k = false

/-- The race that a line meets at the address it goes to, in the sectors that a byte of it is sent to (R46, R295, R296). -/
def lineRace (s : State) (pa : Nat) (radd : Bool) (l : LinePacket) : Option RaceRec :=
  farRace s ((sectorsSent radd l).map fun i => sectorOf s (pa + 32 * i)) (lineSender radd l)

/-- What a command has gathered after one more answer (R291, R292, R296). -/
def Gathered (c : RemoteCmd) (x : Transfer) (r : AckResult) (c' : RemoteCmd) : Prop :=
  let neg := if c.kind = .rmcst ∧ r ≠ .ok ∧ r ≠ .moved then c.bitmap ||| BitVec.twoPow 512 (x.ix / 4) else c.bitmap
  let info (cause : BitVec 8) (aux : Word) := c.info cause (tvalOf x) (telemOf c.kind x.ix) aux
  c'.bitmap = neg ∧ c'.nk = (c.nk || (match r with | .nack _ => true | _ => false)) ∧ c'.bg = (c.bg || r == .gone) ∧ c'.hu = (c.hu || r == .hold) ∧
  c'.rc = (c.rc || (match r with | .race _ => true | _ => false)) ∧
  c'.refused = c.refused + (match r with | .nack _ => 1 | _ => 0) ∧
  (match r with
    | .ok => c'.reports = c.reports ∧ c'.other = c.other
    | .moved => c'.reports = c.reports ∧ c'.other = c.other
    | .nack k => reported c (info 0x11 (BitVec.ofNat 64 (k % 256 * 65536))) c'
    | .gone => reported c (info 0x12 0) c'
    | .hold =>
      ∀ p, x.post = some p → reported c (info 0x13 (BitVec.ofNat 64 (field p.desc 34 5 + field p.desc 32 2 * 256))) c'
    | .race q => ∃ t, t.cause = 0x0A ∧ t.tpc = c.pc ∧ t.telem = telemOf c.kind x.ix ∧ c'.reports = c.reports ++ [t] ∧ c'.other = c.other ∧
        ∀ l b, x.line = some l → firstSent (c.kind == .radd) l (q.sector % 4) b → t.tval = x.va + BitVec.ofNat 64 b)

/-- The command with an identifier in the Active context. -/
def commandOf (s : State) (id : Nat) : Option RemoteCmd := s.c.remote.find? fun c => c.id == id

/-- The name that a post addressed to `n` is sent under (R306). -/
def servedAs (s : State) (n : BitVec 32) : BitVec 32 := ((s.fab.cache.find? fun q => q.1 == n).map (·.2)).getD n

/-- The berth cache after the answer of a transfer: the hint of a forwarded post's acknowledgement is what its name is served as from now on,
and nothing else there changes (R306). -/
def CacheLearns (x : Transfer) (hint : Option (BitVec 32)) (s t : State) : Prop :=
  (∀ h p, hint = some h → x.post = some p →
    ∀ n, servedAs t n = if n = p.desc.truncate 32 then h else servedAs s n) ∧
  ((hint = none ∨ x.post = none) → t.fab.cache = s.fab.cache)

/-- A state without the commands of its context and the berth cache. -/
def commandsOut (s : State) : State := { s with c := { s.c with remote := [] }, fab := { s.fab with cache := [] } }

/-- The bytes of a run have been written over its parts, in order, and every other byte is as it was. -/
def StoredParts (ps : List (Xlat × Nat)) (v : Nat) (u t : State) : Prop :=
  ∀ l, locByte t l = (((ps.flatMap fun p => (List.range p.2).map (p.1.loc + ·)).zipIdx.reverse.find? fun p => p.1 == l).map fun p =>
    BitVec.ofNat 8 (v / 256 ^ p.2)).getD (locByte u l)

/-- No part lies in control space or crosses from one memory into the other. -/
def PartsPlain (ps : List (Xlat × Nat)) : Prop :=
  ∀ p ∈ ps, ctrlOff p.1.loc = none ∧ (p.1.loc + p.2 ≤ coreLoc ∨ coreLoc ≤ p.1.loc)

/-- This package is home to the post's name, and the entry is as its words say (R298, R299). -/
def postEntry (s : State) (p : Post) : Nat :=
  s.fab.pkg.toNat * 2 ^ 42 + field s.fab.fbbt 20 28 * 2 ^ 20 + 64 * (p.name.toNat / 256 % 16384)
def entryLives (s : State) (p : Post) : Prop :=
  bit s.fab.fbbt 0 = true ∧ bit (readWord s.mem (postEntry s p)) 63 = true ∧ field (readWord s.mem (postEntry s p)) 32 8 = p.name.toNat % 256

/-- A post that arrives from another package is answered, with its name as the hint where it was forwarded, and nothing else changes
(R304). -/
def PostAnswered (p : Post) (r : AckResult) (s : State) : Prop :=
  Answers (.postDelivery p) (.postResp p.src p.id r (if p.fwd then some p.name else none)) s (sameBytes s)

/-! What arrives at the fabric port for memory. -/

/-- Memory after a line's data has been written: the data in the line, and every other byte as it was. -/
def withLine (s : State) (line : Nat) (d : BitVec 1024) (a : Nat) : Byte :=
  if 128 * line ≤ a ∧ a < 128 * line + 128 then d.extractLsb' (8 * (a - 128 * line)) 8 else readByte s.mem a

/-- The access waits until the line's holders have given it up: they are asked to, and memory is as it was (R286). -/
def Deferred (i : Instr) (q : FarReq) (line : Nat) (s : State) : Prop :=
  ∃ t, exec i s = .next t ∧ t.fab.late = s.fab.late ++ [q] ∧ t.mem = s.mem ∧ t.c = s.c ∧
    ∀ m ∈ t.fab.sent, m ∈ s.fab.sent ∨ ∃ h ∈ holdersOf s line (match q with | .read .. => false | .hostRead _ => false | _ => true), m = .inv h line

/-- A line's 128 bytes. -/
def isLine (s : State) (line : Nat) (d : BitVec 1024) : Prop := ∀ b, b < 128 → d.extractLsb' (8 * b) 8 = readByte s.mem (128 * line + b)

/-- What a message says of a line has been learnt: its race records, counter histories and notes are here, and every record that was. -/
def Learns (line : Nat) (n : LineNews) (s t : State) : Prop :=
  (∀ r ∈ s.recs, r ∈ t.recs) ∧ (∀ r ∈ t.recs, r ∈ s.recs ∨ r ∈ n.recs) ∧
  (∀ r ∈ n.recs, r.sector / 4 = line → ∃ q ∈ t.recs, q.id = r.id) ∧ (∀ h ∈ n.ctrs, h ∈ t.ctrs) ∧ ∀ w ∈ n.notes, w ∈ t.rlxw

/-- A message about a line carries every race record of it that its sender has. -/
def TellsRecords (line : Nat) (n : LineNews) (s : State) : Prop := ∀ r ∈ s.recs, r.sector / 4 = line → r ∈ n.recs

/-- The step leaves the directory with the entry d, sends the messages, leaves memory as `bytes` says, and what is kept of memory aside
changes nothing else. -/
def Directory (i : Instr) (d : DirEntry) (ms : List FabMsg) (bytes : Nat → Byte) (s : State) : Prop :=
  ∃ t, exec i s = .next t ∧ dirAt t d.line = d ∧ (∀ l, l ≠ d.line → dirAt t l = dirAt s l) ∧ t.fab.sent = s.fab.sent ++ ms ∧
    (∀ a, readByte t.mem a = bytes a) ∧
    { recordsOut t with mem := [], ctrs := [], rlxw := [], fab := { t.fab with dir := [], sent := [] } }
      = { recordsOut s with mem := [], ctrs := [], rlxw := [], fab := { s.fab with dir := [], sent := [] } }

/-- The holders that the request (src, own) has to have invalidated first (R286). -/
def holdersFor (d : DirEntry) (src : Nat) (own : Bool) : List Nat :=
  if own = true ∨ d.state = .modified then d.sharers.filter (· ≠ src) else []

/-- What a home does with the one request (src, own) of a line with no INV outstanding (R286): it sends an INV to each holder in the way and
waits, or it grants the line, with its data and race records to another package. The packages concerned can be reached (R283). -/
def Served (i : Instr) (d : DirEntry) (src : Nat) (own : Bool) (bytes : Nat → Byte) (s : State) : Prop :=
  (holdersFor d src own ≠ [] → (∀ h ∈ holdersFor d src own, reachable s h = true) →
    Directory i { d with reqs := [(src, own)], pending := holdersFor d src own } ((holdersFor d src own).map fun h => .inv h d.line) bytes s) ∧
  (holdersFor d src own = [] → reachable s src = true → ∀ b : BitVec 1024,
    (∀ k, k < 128 → b.extractLsb' (8 * k) 8 = bytes (128 * d.line + k)) →
    ∃ news : LineNews, news.bits = some b ∧ TellsRecords d.line news s ∧
      Directory i { d with reqs := [], state := if own then .modified else .shared
                           sharers := if own then [src] else src :: d.sharers.filter (· ≠ src) } [.data src d.line news .ok] bytes s) ∧
  (holdersFor d src own = [] → src = s.fab.pkg.toNat →
    Directory i { d with reqs := [], state := if own then .uncached else d.state, sharers := if own then [] else d.sharers } [] bytes s)

/-- A directory entry after a holder has given the line up. -/
def without (d : DirEntry) (src : Nat) : DirEntry :=
  { d with sharers := d.sharers.filter (· ≠ src), state := if d.sharers.filter (· ≠ src) = [] then .uncached else d.state }

/-- Only the lines asked for, come and answered otherwise, the lines held, memory and what is kept of it may change. -/
def linesOut (s : State) : State := { recordsOut s with mem := [], ctrs := [], rlxw := [], fab := { s.fab with wanted := [], inbox := [], answers := [], held := [] } }

/-- The transfers of one key have come (R285, R286): the line of a CACHED page is held, to be written where it was asked for so, and other
data lies ready for each access that waited. -/
def TransfersCame (key : FarKey) (ws : List Want) (s t : State) : Prop :=
  if key.off = 0 then t.fab.inbox = s.fab.inbox ∧ t.fab.held = ⟨key.line, key.wr⟩ :: s.fab.held.filter (·.line ≠ key.line)
  else t.fab.inbox = s.fab.inbox ++ ws.map (fun w => (w.who, w.key)) ∧ t.fab.held = s.fab.held

/-- What has come of a line: another package's data is in memory where there is some, and what it says is learnt; of a line of this package
nobody else says anything. -/
def LineCame (line : Nat) (n : LineNews) (s t : State) : Prop :=
  let far := pkgOf (128 * line) ≠ s.fab.pkg.toNat
  (∀ a, readByte t.mem a = match n.bits with | some b => if far then withLine s line b a else readByte s.mem a | none => readByte s.mem a) ∧
  (far → Learns line n s t) ∧ (¬far → t.recs = s.recs ∧ t.ctrs = s.ctrs ∧ t.rlxw = s.rlxw)

/-- Memory is as before. -/
def sameMemory (s t : State) : Prop := ∀ a, readByte t.mem a = readByte s.mem a

/-- A transfer of a command of the Active context changes, and nothing else of the commands. -/
def TransferChanged (id ix : Nat) (f : Transfer → Transfer) (c : RemoteCmd) (s t : State) : Prop :=
  commandOf t id = some { c with xfers := c.xfers.map fun x => if x.ix = ix then f x else x } ∧ ∀ j, j ≠ id → commandOf t j = commandOf s j

/-- A transfer was answered "moved": it is to be sent again after a new walk, in its turn among those that were, and U counts from the first
such answer (R288). -/
def TransferMoved (id : Nat) (x : Transfer) (c : RemoteCmd) (s t : State) : Prop :=
  TransferChanged id x.ix (fun y =>
    { y with away := false, moved := true, since := if y.moved then y.since else s.cycle, tries := y.tries + 1 }) c s t ∧
  t.tlb = (s.tlb.filter fun e => ¬(e.va ≤ x.va.toNat ∧ x.va.toNat < e.va + e.size)) ∧
  { commandsOut t with tlb := [] } = { commandsOut s with tlb := [] }

/-- A transfer ends as refused with a reason, and its command completes where that was its last. -/
def TransferRefused (i : Instr) (id : Nat) (c : RemoteCmd) (x : Transfer) (reason : Nat) (s : State) : Prop :=
  ∃ u c', exec i s = .next (finishCommand id u) ∧ commandOf u id = some c' ∧ Gathered c x (.nack reason) c' ∧
    c'.xfers = c.xfers.map (fun y => if y.ix = x.ix then { y with acked := true } else y) ∧ commandsOut u = commandsOut s

/-- What a fatal event leaves at the strip handler: every register that the context had not written since the latest commit that has taken
effect, and every transient result older than it, those of interrupted words too, is as it was,
a queue has as many entries as it had, buffered stores are gone, and older matrix issues are complete, which alone change memory (R105, R112, R243). -/
def stillDefined (s u : State) : Prop :=
  let kept := fun r => r ∉ s.c.dirty ++ s.c.older
  let rest (depth : Nat) (ws : List Window) : List Window :=
    ws.map fun w => { w with regs := w.regs.filter fun r => !(s.c.dirty ++ s.c.older).contains (.win depth r.1) }
  (∀ n, kept (.x n) → nth u.c.x n 0 = nth s.c.x n 0) ∧ (∀ n, (∀ m, m - 24 = n → kept (.xArr m)) → nth u.c.xArr n 0 = nth s.c.xArr n 0) ∧
  (∀ n, kept (.a n) → nth u.c.a n AReg.zero = nth s.c.a n AReg.zero) ∧ (∀ n, kept (.d n) → nth u.c.d n DReg.zero = nth s.c.d n DReg.zero) ∧
  (∀ n, kept (.lc n) → nth u.c.lc n 0 = nth s.c.lc n 0) ∧ (∀ n, kept (.desc n) → nth u.c.desc n 0 = nth s.c.desc n 0) ∧
  (∀ n, kept (.v n) → nth u.c.v n 0 = nth s.c.v n 0) ∧ (∀ n, kept (.p n) → nth u.c.p n 0 = nth s.c.p n 0) ∧
  (∀ n, kept (.k n) → nth u.c.k n 0 = nth s.c.k n 0) ∧ (∀ n e, kept (.z n) → readZ1 u n e = readZ1 s n e) ∧
  (∀ n, kept (.acc n) → accAt u n = accAt s n) ∧ (∀ n, n ≠ 5 → kept (.sys n) → sysRead u n = sysRead s n) ∧
  (∀ n, (u.rq n).length = (s.rq n).length ∧ (kept (.q n) → u.rq n = s.rq n)) ∧
  rest s.c.levels.length u.c.windows = rest s.c.levels.length s.c.windows ∧ u.c.levels.length = s.c.levels.length ∧
  (∀ n l, s.c.levels[n]? = some l → ∃ m, u.c.levels[n]? = some m ∧ m.pc = l.pc ∧ m.convoy = l.convoy ∧
    let depth := s.c.levels.length - 1 - n
    rest depth m.windows = rest depth l.windows ∧ (kept (.part depth) → m.bypass = l.bypass)) ∧
  u.c.sbuf = [] ∧ u.c.dirty = [] ∧ u.c.older = [] ∧
  u.mem = (finishIssues s).mem ∧ (s.c.mat.issues = [] → u.mem = s.mem ∧ u.slot = s.slot)

/-! Dispatch. -/

/-- A step changes only memory, and there only the 8 bytes of a record's status word, which become ST and REASON (R311). -/
def StatusSays (i : Instr) (rec st reason : Nat) (s : State) : Prop :=
  ∃ t, exec i s = .next t ∧ { t with mem := [] } = { s with mem := [] } ∧
    ∀ a, readByte t.mem a = if rec + 8 ≤ a ∧ a < rec + 16 then BitVec.ofNat 8 ((st + 256 * reason) / 256 ^ (a - (rec + 8))) else readByte s.mem a

/-- The operation word that a bind record's instruction writes. -/
def bindOf (w : Word) (op : Nat) : Word := setField w 0 4 op

/-- The reserved fields of an operation word are zero (R321). -/
def bindFieldsZero (w : Word) : Prop := field w 4 4 = 0 ∧ field w 14 2 = 0 ∧ field w 22 2 = 0 ∧ field w 28 36 = 0

/-- No operation is being carried out, and none is held (R320). -/
def bindFree (s : State) : Prop := (s.sh.isSome = true → s.shReady = true) ∧ s.pendSwap = false ∧ s.slot.held = []

/-- The bind record as the hardware reads it when its operation word is written (R320). -/
def recordAt (s : State) (op : Word) : BindRec := ⟨op, s.slot.save, s.slot.scratch, s.slot.root, s.slot.berth⟩

/-- The core can take a context of the priority p: it has none, or its own may be preempted and has used its budget or is outranked (R318). -/
def Yields (s : State) (p : Nat) : Prop :=
  s.cs = .none ∨ (s.cs = .active ∧ s.c.preempt = true ∧
    ((budgetOf s s.coreNum).toNat ≤ s.slot.used.toNat ∨ ∃ l, launchOf s s.c.save = some l ∧ l.prio < p))

/-- The effective priority of a context that waits: PRIO and one more for each A cycles since it became Runnable, 7 at most (R318). -/
def agedPriority (s : State) (l : Launch) (c : CtxInfo) : Nat :=
  min 7 (l.prio + (s.cycle - c.since).toNat / max 1 (s.disp.dage.toNat % 2 ^ 32))

/-- Row blocks of the quad that nobody holds (R232, R322). -/
def freeBlocks (s : State) : List Nat := (List.range 4).filter fun n => !(blocksTaken s).testBit n

/-- A waiting context's partition fits beside those that are claimed, and enough row blocks are free (R322, R326, R327). -/
def Fits (s : State) (l : Launch) (c : CtxInfo) : Prop :=
  partitionOk s l.scr l.l1m = true ∧ field (readWord s.mem c.save) 16 8 / 16 ≤ (freeBlocks s).length

/-- A refused bind record: BAD, its reason, and nothing else (R322, R323). -/
def BindRefused (i : Instr) (op : Word) (reason : Nat) (s : State) : Prop :=
  ∃ t, exec i s = .next t ∧ field t.slot.event 8 8 = reason ∧ (∀ n, n < 8 ∨ 16 ≤ n → bit t.slot.event n = (bit s.slot.event n || n == 7)) ∧
    t.slot.op = op ∧ { t with slot := { t.slot with op := 0, event := 0 } } = { s with slot := { s.slot with op := 0, event := 0 } }

/-- The firmware's note of a context's state; one that becomes Runnable starts to wait anew, and one that leaves that state keeps how long
it waited (R15, R318). -/
def Noted (save : Nat) (st : CtxState) (s t : State) : Prop :=
  t.disp = { s.disp with launches := s.disp.launches.map fun l =>
    { l with ctxs := l.ctxs.map fun c =>
      if c.save = save then
        { c with
          state := st, since := if st = .runnable then s.cycle else c.since
          waited := if c.state = .runnable then s.cycle - c.since else c.waited }
      else c } }

/-- One bit of the event word has become 1, and no other has changed. -/
def EventSet (n : Nat) (s t : State) : Prop := ∀ k, bit t.slot.event k = (bit s.slot.event k || k == n)

/-- SAVED and BUSY of a member's location word (R299, R300). -/
def LocationSays (saved busy : Bool) (name : Nat) (member : Nat) (t : State) : Prop :=
  bit (readWord t.mem (locationAddr t name member)) 63 = saved ∧ bit (readWord t.mem (locationAddr t name member)) 62 = busy

/-- Every byte outside the given runs (address and length) is as it was. -/
def OutsideKept (runs : List (Nat × Nat)) (s t : State) : Prop :=
  ∀ a, (∀ r ∈ runs, a < r.1 ∨ r.1 + r.2 ≤ a) → readByte t.mem a = readByte s.mem a

/-- Two runs of bytes share none. -/
def apart (a n b m : Nat) : Prop := a + n ≤ b ∨ b + m ≤ a

/-- What a PRELOAD names: the context's save area, berth name and member. -/
def namedSave (s : State) : Nat := s.slot.save.toNat
def namedBerth (s : State) : Nat := field s.slot.berth 0 32
def namedMember (s : State) : Nat := field s.slot.berth 32 2

/-- The context named is not ready to load, or the shadow slot is taken (R322, reason 1). -/
def notLoadable (s : State) : Prop :=
  let e := readWord s.mem (berthEntry s (namedBerth s))
  let l := readWord s.mem (locationAddr s (namedBerth s) (namedMember s))
  let h := readWord s.mem (namedSave s)
  s.sh.isSome = true ∨ bit e 63 = false ∨ field e 32 8 ≠ namedBerth s % 256 ∨ bit l 63 = false ∨ bit l 62 = true ∨ bit h 24 = true ∨ bit h 25 = true

/-- The partition rule fails, or both ends hold partitions of nonzero size (R326, R327; reason 2). -/
def noPartition (w : Word) (s : State) : Prop :=
  let scr := field w 8 6
  40 < (s.parts.map (·.scr)).sum + scr + (s.parts.map (·.l1m)).foldr max (max 8 (field w 16 6)) ∨
  (0 < scr ∧ (∃ p ∈ s.parts, p.high = true ∧ 0 < p.scr) ∧ ∃ p ∈ s.parts, p.high = false ∧ 0 < p.scr)

/-- The row blocks asked for are not free, or are not as many as the save area needs (R322, reason 3). -/
def noBlocks (w : Word) (s : State) : Prop :=
  field w 24 4 &&& blocksTaken s ≠ 0 ∨
  16 * ((List.range 4).filter fun n => bit w (24 + n)).length ≠ field (readWord s.mem (namedSave s)) 16 8

/-- The context has left the active slot and is being spilled: it goes on at PC with ESTART 0, and its begun matrix issues are complete
(R116, R117, R300, R322). -/
def SwappedOut (s t : State) : Prop :=
  ∃ o, t.spill = some o ∧ o.save = s.c.save ∧ o.pc = s.c.pc ∧ o.x = s.c.x ∧ o.a = s.c.a ∧ o.d = s.c.d ∧ o.v = s.c.v ∧ o.p = s.c.p ∧ o.k = s.c.k ∧
    o.z = s.c.z ∧ (o.q.map fun l => l.map (·.val)) = (s.c.q.map fun l => l.map (·.val)) ∧ o.hold = s.c.hold ∧ o.chan = s.c.chan ∧
    o.sys = { s.c.sys with estart := 0 } ∧ o.replay = none ∧ o.mat = { s.c.mat with issues := [] } ∧
    o.sbuf = s.c.sbuf.filter (fun e => !e.due) ∧ o.older = [] ∧ o.scratch = (commitDue (finishIssues s)).c.scratch

/-- The Active context has ended (R328): the slot, its partition and its berth name are free, XIT is set, and the shadow slot is as it was. When
every context of its launch has exited, on other packages too, the launch is closed with ST = 3 (R311). A completion counter can lie in
control space, and is then not among what is said of the event word and the window. -/
def Exits (i : Instr) (s : State) : Prop :=
  ∃ t, exec i s = .next t ∧ t.cs = .none ∧ t.c = Context.reset ∧ t.parts = s.parts.filter (·.owner ≠ s.c.save) ∧
    t.saved = s.saved.filter (·.save ≠ s.c.save) ∧ t.sh = s.sh ∧ t.shReady = s.shReady ∧ t.spill = s.spill ∧
    ((∀ l, launchOf s s.c.save = some l → l.ctr = 0) → EventSet 4 s t ∧ t.disp.lwin = s.disp.lwin) ∧
    (∀ l ∈ t.disp.launches, ∀ q ∈ l.ctxs, q.save = s.c.save → q.state = .exited) ∧
    (∀ l, launchOf s s.c.save = some l →
      (l.others = 0 → (∀ q ∈ l.ctxs, q.save ≠ s.c.save → q.state = .exited) →
        (∀ k ∈ t.disp.launches, k.id ≠ l.id) ∧ (l.ctr = 0 → s.mem.wf = true → s.c.scratch.wf = true → readWord t.mem (l.rec_ + 8) = 3)) ∧
      ((l.others ≠ 0 ∨ ∃ q ∈ l.ctxs, q.save ≠ s.c.save ∧ q.state ≠ .exited) →
        t.disp.launches.map (·.id) = s.disp.launches.map (·.id)))

/-- The firmware reads n words from a virtual address up through a root table (R313). -/
def ReadsThrough (s : State) (root va : Word) (n : Nat) (ws : List Word) : Prop :=
  ws.length = n ∧ ∀ k, k < n → ∃ p, readPhys s root.toNat (va + BitVec.ofNat 64 (8 * k)).toNat = some p ∧ ws[k]? = some (readWord s.mem p)

/-- One of n words cannot be translated or read. -/
def Unread (s : State) (root va : Word) (n : Nat) : Prop := ∃ k, k < n ∧ readPhys s root.toNat (va + BitVec.ofNat 64 (8 * k)).toNat = none

/-- The placement list of a record, the default of a single group where none is named (R312). -/
def PlacementsAre (s : State) (r : LaunchRec) (ws : List Word) : Prop :=
  if r.place = 0 ∧ r.ngrp = 0 then ws = [BitVec.ofNat 64 (s.fab.pkg.toNat + 15 * 65536)] else ReadsThrough s r.root r.place (r.ngrp + 1) ws

/-- Argument entry k of a list is for register n of member m of group g (R312). -/
def argHits (ws : List Word) (g m n k : Nat) : Prop :=
  let w := ws.getD (2 * k) 0
  (bit w 31 = true ∨ field w 16 10 = g) ∧ (bit w 15 = true ∨ field w 8 2 = m) ∧ field w 0 5 = n

/-- The value that the argument list gives a register: that of the last entry for it, and 0 where there is none (R312, R317). -/
def ArgGives (ws : List Word) (num g m n : Nat) (v : Word) : Prop :=
  ((∀ k, k < num → ¬argHits ws g m n k) → v = 0) ∧
  ∀ k, k < num → argHits ws g m n k → (∀ j, k < j → j < num → ¬argHits ws g m n j) → v = ws.getD (2 * k + 1) 0

/-- Reason 1 of R313, with the placement and argument lists where they can be read. That the last three lines have that reason is the
model's choice (log entry 104). -/
def FieldsBad (s : State) (r : LaunchRec) : Prop :=
  field r.head 48 16 ≠ 1 ∨ field r.head 18 2 ≠ 0 ∨ field r.head 6 6 ≠ 0 ∨ (∃ n, n < 64 ∧ n ≠ 3 ∧ n ≠ 5 ∧ bit r.status n = true) ∨
  (∃ ws, PlacementsAre s r ws ∧ ∃ w ∈ ws, field w 10 6 ≠ 0 ∨ field w 20 44 ≠ 0) ∨
  (∃ ws, ReadsThrough s r.root r.args (2 * r.narg) ws ∧ ∃ k, k < r.narg ∧
    let w := ws.getD (2 * k) 0
    field w 5 3 ≠ 0 ∨ field w 10 5 ≠ 0 ∨ field w 26 5 ≠ 0 ∨ field w 32 32 ≠ 0 ∨ (bit w 31 = false ∧ r.ngrp < field w 16 10) ∨
      (bit w 15 = false ∧ r.nmem < field w 8 2) ∨ field w 0 5 = 0) ∨
  field r.root 0 12 ≠ 0 ∨ field r.root 52 12 ≠ 0 ∨
  r.ctr.toNat % 8 ≠ 0 ∨
  (r.place = 0 ∧ r.ngrp ≠ 0) ∨ (r.args = 0 ∧ r.narg ≠ 0)

/-- Reason 3: a die that there is not, any die for a group of several, or a package that cannot be reached (R283, R313). -/
def PlaceBad (s : State) (r : LaunchRec) : Prop :=
  ∃ ws, PlacementsAre s r ws ∧ ∃ w ∈ ws, (7 < field w 16 4 ∧ field w 16 4 ≠ 15) ∨ (field w 16 4 = 15 ∧ 0 < r.ngrp) ∨
    (field w 0 10 ≠ s.fab.pkg.toNat ∧ routePort s (field w 0 10) = none)

/-- Reason 4: a list or a virtual field that cannot be translated and read through ROOT (R313). -/
def RecordUnread (s : State) (r : LaunchRec) : Prop :=
  (¬(r.place = 0 ∧ r.ngrp = 0) ∧ Unread s r.root r.place (r.ngrp + 1)) ∨ Unread s r.root r.args (2 * r.narg) ∨
  readPhys s r.root.toNat r.pc.toNat = none ∨ readPhys s r.root.toNat r.tvec.toNat = none ∨
  (r.ctr ≠ 0 ∧ readPhys s r.root.toNat r.ctr.toNat = none)

/-- What R313 answers for a record: the first check that fails, in order, or 0. -/
def RejectsAs (s : State) (refused : Bool) (r : LaunchRec) (why : Nat) : Prop :=
  let large : Prop := 32 < r.scr ∨ 40 < r.scr + max r.l1m 8
  let away : Prop := refused = true ∧ ∃ ws, PlacementsAre s r ws ∧ ∃ w ∈ ws, field w 0 10 ≠ s.fab.pkg.toNat
  (FieldsBad s r → why = 1) ∧
  (¬FieldsBad s r →
    (large → why = 2) ∧ (¬large → PlaceBad s r → why = 3) ∧ (¬large → ¬PlaceBad s r → RecordUnread s r → why = 4) ∧
    (¬large → ¬PlaceBad s r → ¬RecordUnread s r → (away → why = 6) ∧ (¬away → why = 0)))

/-- Memory after the firmware has added 1 to a completion counter, 8 bytes of memory at `p` (R311). -/
def counted (u : State) (p a : Nat) : Byte :=
  if p ≤ a ∧ a < p + 8 then BitVec.ofNat 8 (min (2 ^ 64 - 1) (counterAt u p + 1) / 256 ^ (a - p)) else readByte u.mem a

/-- A launch none of whose contexts is in a slot ends by error (R311, R316): ST is 4, the error record names the context that failed with its
TCAUSE and TPC, and nothing of the launch's contexts is left. -/
def LaunchFails (l : Launch) (name : BitVec 32) (member : BitVec 2) (tcause tpc : Word) (s : State) : Prop :=
  (∀ c ∈ s.saved, c.sbuf = [] ∧ c.mat.issues = []) → l.ctr = 0 → s.mem.wf = true →
  (∀ q ∈ l.ctxs, apart (berthEntry s q.berth.toNat) 8 (l.rec_ + 0x50) 16) →
  ∃ t, exec .contextExit s = .next t ∧ readWord t.mem (l.rec_ + 8) = 4 ∧ (∀ k ∈ t.disp.launches, k.id ≠ l.id) ∧
    field (readWord t.mem (l.rec_ + 0x50)) 0 32 = name.toNat ∧ field (readWord t.mem (l.rec_ + 0x50)) 32 2 = member.toNat ∧
    field (readWord t.mem (l.rec_ + 0x50)) 48 16 = field tcause 0 16 ∧ readWord t.mem (l.rec_ + 0x58) = tpc ∧
    ∀ c ∈ t.saved, ∀ q ∈ l.ctxs, c.save ≠ q.save

/-- The check of the matrix counter that the exit makes for an attached context (R246, R328). -/
def counterCheck (s : State) : Res (Option Counter) :=
  if attached s then releaseCheck s (s.trapInfo true 0 0) else .ok none s

/-- A save area holds the context: PC, STATUS, x registers, hold counts and vector images (R119, R121). -/
def SaveHolds (m : Memory) (c : Context) : Prop :=
  let rot := rotOf (if c.vloop.active then c.vloop.strip else 0)
  saveWord m c.save 0x10 = c.pc ∧ saveWord m c.save 8 = c.sys.status ∧ saveWord m c.save 0x40 = 0 ∧
  (∀ n, 0 < n → n < 32 → saveWord m c.save (0x40 + 8 * n) = nth c.x n 0) ∧
  VectorsHeld m c rot
where
  VectorsHeld (m : Memory) (c : Context) (rot : Nat) : Prop :=
    ∀ n, n < 32 →
      let e := encodeVec (nth c.v n 0) (nth c.vtag n .general) rot
      saveNat m c.save (0x8A40 + 2 * n) 2 = (nth c.hold n 0).toNat ∧
      saveWord m c.save (0xAC00 + 8 * n) = BitVec.ofNat 64 (e.2.1 + e.1 * 256 + e.2.2.length * 65536) ∧
      readBytes m (c.save + voff (grantRows c.sys.grant) + 512 * n) e.2.2.length = e.2.2

/-- The tag of a register has a width that an affine descriptor can name (R121, R185). -/
def tagOk : Tag → Prop
  | .affine _ _ w => w = 4 ∨ w = 8 ∨ w = 16 ∨ w = 32
  | _ => True

/-- The accumulator banks have as many rows as the grant, which is at most 64 (R120, R233). -/
def BanksFit (c : Context) : Prop :=
  grantRows c.sys.grant ≤ 64 ∧ ∀ a ∈ c.mat.acc.toList, a.W.length = grantRows c.sys.grant ∧ a.V.length = grantRows c.sys.grant
/-! The device's blocks. -/

/-- A register of control space that reads back what was written, within a mask. -/
abbrev RegRow := Nat × Word

/-- Such registers, by offset in control space: device, memory, power, trace and fabric blocks (R284, R332, R334 to R336, R341). -/
def plainRows : List RegRow :=
  [(0x08, ~~~0), (0x10, ~~~0), (0x100, ~~~0), (0x108, ~~~0), (0x110, ~~~0), (0x118, ~~~0), (0x128, ~~~0),
   (0x10000, 0xFFFFFFFFFFFF0000), (0x10008, ~~~0), (0x20000, ~~~0), (0x20018, ~~~0), (0x20020, ~~~0),
   (0x30000, 0xFFFFFFFFFFFFF000), (0x30008, ~~~0), (0x30018, 0xFFFFFFFF00071FFE),
   (0x40000, 0x3FF), (0x40010, 0x0000FFFFFFF00001), (0x40018, 0x0000FFFFFFFFF001)]

/-- The same for indexed registers: routes, slice budgets, and the bind records of all cores (R284, R314, R320). -/
def indexedRows : List RegRow :=
  (List.range 128).map (fun n => (0x40400 + 8 * n, 0x1F1F1F1F1F1F1F1F)) ++ (List.range 1024).map (fun n => (0x101000 + 8 * n, 0xFFFFFFFF)) ++
    (List.range 1024).flatMap fun k => [8, 0x10, 0x18, 0x20].map fun o => (0x110000 + 0x80 * k + o, ~~~0)

/-- Registers that ignore every write of software (R331, R336, R341), and DXIT, which only the Active context's store reaches (R314). -/
def fixedRegs : List Nat := [0, 0x130, 0x20008, 0x20010, 0x30010, 0x30020, 0x100008]

/-- Who may write a register (R329, R330). -/
def writers (off : Nat) : List Writer :=
  if off < 0x10000 then [.host, .management]
  else if off < 0x30000 then [.management]
  else if off = 0x100000 then [.host, .supervisor, .management]
  else [.supervisor, .management]

/-- A register has taken a value, every other one reads as before, and nothing outside the blocks has changed. -/
def RegisterTakes (w : Writer) (off : Nat) (v r : Word) (s : State) : Prop :=
  ∃ t, exec (.registerWrite w off v) s = .next t ∧ ctrlRead t off = r ∧ (∀ o, o % 8 = 0 → o ≠ off → ctrlRead t o = ctrlRead s o) ∧
    t.c = s.c ∧ t.cs = s.cs ∧ t.sh = s.sh ∧ t.mem = s.mem ∧ t.disp.launches = s.disp.launches

/-- The fields of an image are as R333 lays them out, and it is as long as they say (log entry 80). -/
def imageFormed (img : List Byte) : Prop :=
  0x2000 + imageNat img 0x10 8 ≤ img.length ∧ imageNat img 0 4 = 0x54484631 ∧ imageNat img 4 4 = 1 ∧ imageNat img 0xC 4 = 0 ∧
    imageNat img 0x18 8 = 0 ∧ imageNat img 0x1C53 941 = 0

/-- The SHA3-512 of the image's public key is the one fused at manufacture, and its signature by that key is good for the digest of the first
32 bytes and the body (R333). -/
def keyFused (img : List Byte) : Prop := Config.sha3 ((img.drop 0x20).take 2592) = Config.keyDigest
def signed (img : List Byte) : Prop :=
  Config.mldsaVerify ((img.drop 0x20).take 2592) (Config.sha3 (img.take 0x20 ++ (img.drop 0x2000).take (imageNat img 0x10 8)))
    ((img.drop 0xA40).take 4627) = true

/-- The checks of the ROM, in their order: the first that fails gives ERR, and 0 stands for an image that passes (R333). -/
def RomAnswers (img : List Byte) (rollback e : Nat) : Prop :=
  (¬imageFormed img → e = 4) ∧ (imageFormed img → ¬keyFused img → e = 2) ∧ (imageFormed img → keyFused img → ¬signed img → e = 1) ∧
  (imageFormed img → keyFused img → signed img → e = if imageNat img 8 4 < rollback then 3 else 0)

/-- The state that an image with ROM answer e leaves the device in (R331, R333): its firmware starts and the counter is raised, or it is
RECOVERY with the reason. -/
def Started (img : List Byte) (e : Nat) (old new : Device) : Prop :=
  (e = 0 → new.state = .firmware ∧ new.err = 0 ∧ new.image = img ∧ new.svn.toNat = imageNat img 8 4 ∧
    new.rollback = max old.rollback (imageNat img 8 4)) ∧
  (e ≠ 0 → new.state = .recovery ∧ new.err.toNat = e ∧ new.image = old.image ∧ new.svn = old.svn ∧ new.rollback = old.rollback)

/-- Every launch has ended: none is left, and no context of one is resident (R311, R316). -/
def LaunchesEnded (s t : State) : Prop :=
  t.disp.launches = [] ∧
  (∀ l ∈ s.disp.launches, ∀ q ∈ l.ctxs,
    (s.cs ≠ .none → s.c.save = q.save → t.cs = .none) ∧ (∀ c, s.sh = some c → c.save = q.save → t.sh = none) ∧
    (∀ c, s.spill = some c → c.save = q.save → t.spill = none) ∧ ∀ c ∈ t.saved, c.save ≠ q.save) ∧
  (s.disp.launches = [] → t = s) ∧
  (∀ l, s.disp.launches = [l] → l.ctr = 0 → s.mem.wf = true → readWord t.mem (l.rec_ + 8) = 4)

/-- The device is as it was, but for its trace block: a matrix counter of a launch that ends may name its registers (R38, R330), and the
swap-out of a context is traced (R341). -/
def deviceKept (s t : State) : Prop :=
  t.dev = { s.dev with
    trbase := t.dev.trbase, trsize := t.dev.trsize, trctl := t.dev.trctl, trwp := t.dev.trwp, trdrop := t.dev.trdrop
    port := t.dev.port, ringPend := t.dev.ringPend, portPend := t.dev.portPend }

/-- The next step of a machine with an empty agenda and core goes on with the boot, and so changes the device alone (R331). -/
def Boots (s : State) (p : Device → Prop) : Prop :=
  ∃ t, step s = .next t ∧ p t.dev ∧ t.mem = s.mem ∧ t.cs = s.cs ∧ t.c = s.c ∧ t.fab = s.fab ∧ t.disp = s.disp

/-- A trace record has been kept by the paths that TRCTL enables and that can take it, or counted as dropped (R341): the ring in memory, and
the port with the record's CRC. -/
def Traced (s t : State) (r : BitVec 256) (noRing noPort : Bool) : Prop :=
  let at_ := s.fab.pkg.toNat * 2 ^ 42 + s.dev.trbase.toNat + s.dev.trwp.toNat
  let ring := bit s.dev.trctl 16 && !noRing
  let port := bit s.dev.trctl 17 && !noPort
  t.dev.trdrop = (if noRing || noPort then s.dev.trdrop + 1 else s.dev.trdrop) ∧
  (port = true → ∃ c, t.dev.port = s.dev.port ++ [c] ∧ c.extractLsb' 0 256 = r) ∧ (port = false → t.dev.port = s.dev.port) ∧
  (ring = false → t.mem = s.mem ∧ t.dev.trwp = s.dev.trwp) ∧
  (ring = true → (∀ n, n < 32 → readByte t.mem (at_ + n) = r.extractLsb' (8 * n) 8) ∧ OutsideKept [(at_, 32)] s t ∧
    t.dev.trwp.toNat = (s.dev.trwp.toNat + 32) % max 1 s.dev.trsize.toNat)

/-- No context is in a slot of the core or being spilled (R338). -/
def coreEmpty (s : State) : Prop := s.cs = .none ∧ s.sh = none ∧ s.spill = none

/-- A record of 32 bytes as R342 lays it out. -/
def traceRecord (kind : Nat) (s : State) (p1 p2 : Word) (r : BitVec 256) : Prop :=
  r.extractLsb' 0 8 = BitVec.ofNat 8 kind ∧ r.extractLsb' 8 10 = BitVec.ofNat 10 s.coreNum ∧ r.extractLsb' 18 2 = s.c.member ∧
  r.extractLsb' 20 12 = 0 ∧ r.extractLsb' 32 32 = s.c.sys.berth.truncate 32 ∧ r.extractLsb' 64 64 = s.cycle ∧ r.extractLsb' 128 64 = p1 ∧
  r.extractLsb' 192 64 = p2
end Sys2Proof.Claims

open Sys2Proof.Claims

/-- R123, R136, R137: every register-register word of the ALU gives xd the value the rule states of x[xa] and x[xb], read before xd is
written; a write to x0 is discarded; nothing else changes. -/
def Obligations.AluRegisterWords : Prop :=
  ∀ r ∈ aluRows, ∀ (d a b : BitVec 5) (s : State), ApReady s → ScalarResult (r.1 d a b) d (r.2 (s.rx a) (s.rx b)) s

/-- R136: every one-operand word of the ALU gives xd the value the rule states of x[xa]; a write to x0 is discarded; nothing else changes. -/
def Obligations.AluUnaryWords : Prop :=
  ∀ r ∈ unaryRows, ∀ (d a : BitVec 5) (s : State), ApReady s → ScalarResult (r.1 d a) d (r.2 (s.rx a)) s

/-- R139, R140: every immediate word gives xd the value the rule states of x[xa] and the immediate, and LIH that of its 20 bits; a write
to x0 is discarded; nothing else changes. -/
def Obligations.ImmediateWords : Prop :=
  (∀ r ∈ immRows, ∀ (d a : BitVec 5) (i : BitVec 12) (s : State), ApReady s →
    ScalarResult (r.1 d a i) d (r.2 (s.rx a) i.toInt) s) ∧
  (∀ r ∈ shiftRows, ∀ (d a : BitVec 5) (h : BitVec 6) (s : State), ApReady s →
    ScalarResult (r.1 d a h) d (r.2 (s.rx a) h.toNat) s) ∧
  (∀ (d : BitVec 5) (i : BitVec 20) (s : State), ApReady s → ScalarResult (.lih d i) d (low32 (i.toNat * 2 ^ 12)) s)

/-- R61, R133, R138, R141, R142: branches, jumps and calls. A taken one goes to its target and ends the loops that it leaves; one not
taken goes on; JR and JALR trap ALIGN, with TVAL the target, where bits 1:0 of the target are not zero. -/
def Obligations.ControlTransfers : Prop :=
  (∀ r ∈ branchRows, ∀ (a : BitVec 5) (o : BitVec 16) (s : State), ApReady s → ∃ t, exec (r.1 a o) s = .next t ∧ Frame nothing s t ∧
    if r.2 (s.rx a).toInt then Transferred (pcPlus s o.toInt) s t else Completed s t) ∧
  (∀ (o : BitVec 24) (s : State), ApReady s →
    ∃ t, exec (.j o) s = .next t ∧ Frame nothing s t ∧ Transferred (pcPlus s o.toInt) s t) ∧
  (∀ (o : BitVec 24) (s : State), ApReady s → ∃ t, exec (.call o) s = .next t ∧ ScalarWritten 1 (s.c.pc + 4) s t ∧
    Frame scalars s t ∧ Transferred (pcPlus s o.toInt) s t) ∧
  (∀ (a : BitVec 5) (s : State), ApReady s → (s.rx a).toNat % 4 = 0 →
    ∃ t, exec (.jr a) s = .next t ∧ Frame nothing s t ∧ Transferred (s.rx a) s t) ∧
  (∀ (d a : BitVec 5) (s : State), ApReady s → (s.rx a).toNat % 4 = 0 → ∃ t, exec (.jalr d a) s = .next t ∧
    ScalarWritten d (s.c.pc + 4) s t ∧ Frame scalars s t ∧ Transferred (s.rx a) s t) ∧
  (∀ (d a : BitVec 5) (s : State), ApReady s → (s.rx a).toNat % 4 ≠ 0 →
    TakesTrap (.jr a) (s.trapInfo true 0x05 (s.rx a)) s ∧ TakesTrap (.jalr d a) (s.trapInfo true 0x05 (s.rx a)) s)

/-- R130, R132: LOOP sets its level up and enters the body, or skips it where the count is 0; a level that it sets up again where it is
active makes the deeper ones inactive, and every other level is as it was; where its place breaks the nesting rules (R132, R205) it is
ILLEGAL_INSN. The loop buffer takes the words of the body as LOOP issues, which waits for them (R135); the model leaves out a word whose fetch
ends in a fault, until it is reached (log entry 83). -/
def Obligations.LoopSetUp : Prop :=
  ∀ (l : BitVec 2) (c : BitVec 5) (n : BitVec 9) (s : State), ApReady s → l.toNat < 3 → s.c.pc.toNat % 4 = 0 → s.c.pc.toNat + 4 < 2 ^ 48 →
    let last := s.c.pc + BitVec.ofNat 64 (4 * (n.toNat + 1))
    let nested := ∀ m, m < 3 → inBody (s.rdesc m) s.c.pc = true → m < l.toNat ∧ last ≤ descLast (s.rdesc m)
    let clear := inVloop s.c.vloop s.c.pc = true → last < s.c.vloop.last
    (¬(nested ∧ clear) → TakesTrap (.loop l c n) (s.illegal true) s) ∧
    (nested ∧ clear → s.rx c = 0 → ∃ t, exec (.loop l c n) s = .next t ∧ LevelSet l s s t ∧ t.c.pc = last + 4 ∧
      t.rdesc l.toNat = setBit (s.rdesc l.toNat) 63 false ∧ t.rlc l.toNat = 0) ∧
    (nested ∧ clear → s.rx c ≠ 0 →
      (∀ k u, fillBody (s.c.pc + 4) (n.toNat + 1) s = .wait k u → exec (.loop l c n) s = .next { u with c := { u.c with wait := k } }) ∧
      ∀ u, fillBody (s.c.pc + 4) (n.toNat + 1) s = .ok () u → BodyFetched (n.toNat + 1) s u ∧
        ∃ t, exec (.loop l c n) s = .next t ∧ LevelSet l s u t ∧ t.rlc l.toNat = s.rx c ∧ t.c.pc = s.c.pc + 4 ∧
          descActive (t.rdesc l.toNat) = true ∧ descFirst (t.rdesc l.toNat) = s.c.pc + 4 ∧ descLast (t.rdesc l.toNat) = last)

/-- R131, R204, R205: at the last word of a level, from the innermost out, a count above 1 turns the level, and otherwise the level ends;
where nothing turns, control goes to the next word. Where the vector loop ends there too, the levels inside its body come before it, and the
next strip begins where elements are left; otherwise the vector loop ends, and the levels around it come after. It holds of every word that
does not transfer control: `plainWords` names some here, and the other statements say the same of theirs by `Completed`. That a level which
begins where the vector loop does, as MTLB can make it, counts as inside is the model's reading (log entry 35). -/
def Obligations.LoopTurns : Prop :=
  ∀ (d a b : BitVec 5) (n : BitVec 12) (o : BitVec 11) (k : BitVec 2) (e : BitVec 3) (s : State), ApReady s →
    ∀ i ∈ plainWords d a b n o k e, ∃ t, exec i s = .next t ∧
      let v := s.c.vloop
      let strips : Prop := v.active = true ∧ v.last = s.c.pc
      let more : Prop := (v.strip + 1).toNat * v.vlmax < v.n.toNat
      let ends (l : Nat) : Prop := descActive (s.rdesc l) = true ∧ descLast (s.rdesc l) = s.c.pc
      let turns (l : Nat) : Prop := l < 3 ∧ ends l ∧ 1 < (s.rlc l).toNat
      let inside (l : Nat) : Prop := strips ∧ v.first ≤ descFirst (s.rdesc l)
      let kept (l : Nat) : Prop := t.rlc l = s.rlc l ∧ t.rdesc l = s.rdesc l
      let turned (l : Nat) : Prop := t.c.pc = descFirst (s.rdesc l) ∧ t.rlc l = s.rlc l - 1 ∧ t.rdesc l = s.rdesc l
      let isOver (l : Nat) : Prop := t.rlc l = 0 ∧ t.rdesc l = setBit (s.rdesc l) 63 false
      let outer : Prop := (∀ l, inside l → ¬turns l) ∧ ¬(strips ∧ more)
      (∀ l, l < 3 → ¬ends l → kept l) ∧
      (∀ l, turns l → inside l → (∀ m, l < m → inside m → ¬turns m) →
        turned l ∧ t.c.vloop = v ∧ t.c.sys.ffs = s.c.sys.ffs ∧ ∀ m, m < 3 → (m < l ∨ ¬inside m) → kept m) ∧
      (∀ l, l < 3 → ends l → (s.rlc l).toNat ≤ 1 → inside l → (∀ m, l < m → inside m → ¬turns m) → isOver l) ∧
      (strips → (∀ l, inside l → ¬turns l) → bit t.c.sys.ffs 47 = false ∧
        (more → t.c.pc = v.first ∧ t.c.vloop = { v with strip := v.strip + 1 } ∧ ∀ l, l < 3 → ¬inside l → kept l) ∧
        (¬more → t.c.vloop = { v with active := false, strip := 0 })) ∧
      (¬strips → t.c.vloop = v ∧ t.c.sys.ffs = s.c.sys.ffs) ∧
      (outer →
        (∀ l, turns l → (∀ m, l < m → ¬turns m) → turned l ∧ ∀ m, m < l → ¬inside m → kept m) ∧
        ((∀ l, ¬turns l) → t.c.pc = s.c.pc + 4) ∧
        (∀ l, l < 3 → ends l → (s.rlc l).toNat ≤ 1 → (∀ m, l < m → ¬turns m) → isOver l))

/-- R69, R71, R72: PFX leaves its payload in TPFX, pending for the word at PFX + 4, and sets STATUS.PFXP; at the end of a loop body it is
ILLEGAL_INSN; under a pending payload every AP-class word shown, PFX among them, is ILLEGAL_INSN (R70); and an element that a vector word
acts on is one below VL, from ESTART on in a replay (R109), whose bit the lent predicate has, or lacks where it is negated (R69, R187). That
TPFX is written at the PFX is the model's reading (log entry 63). -/
def Obligations.PrefixPending : Prop :=
  (∀ (p : BitVec 4) (n c : BitVec 1) (v : BitVec 5) (s : State), ApReady s → ¬lastWord s →
    ∃ t, exec (.pfx p n c v) s = .next t ∧ t.c.sys.retired = s.c.sys.retired ∧ t.c.pfxLive = true ∧ t.c.pc = s.c.pc + 4 ∧ t.pfxp = true ∧
      payload t = some { p := p.toNat, neg := n == 1#1, cpe := c == 1#1, cpv := v.toNat } ∧
      t.c.x = s.c.x ∧ t.c.a = s.c.a ∧ t.c.v = s.c.v ∧ t.mem = s.mem ∧ (∀ k, k ≠ 2 → bit t.c.sys.status k = bit s.c.sys.status k)) ∧
  (∀ (p : BitVec 4) (n c : BitVec 1) (v : BitVec 5) (s : State), ApReady s → lastWord s →
    TakesTrap (.pfx p n c v) (s.illegal true) s) ∧
  (∀ (p : BitVec 4) (n c : BitVec 1) (v d a b : BitVec 5) (o : BitVec 16) (s : State), s.c.pfxLive = true →
    TakesTrap (.pfx p n c v) (s.illegal true) s ∧ TakesTrap (.add d a b) (s.illegal true) s ∧
    TakesTrap (.beqz a o) (s.illegal true) s ∧ TakesTrap .tret (s.illegal true) s) ∧
  (∀ (s : State) (e : Nat), e < 1024 →
    let first := s.c.replay = some s.c.pc → s.c.sys.estart.toNat ≤ e
    (payload s = none → (acts s e = true ↔ e < vlNow s ∧ first)) ∧
    (∀ y, payload s = some y → (acts s e = true ↔ e < vlNow s ∧ first ∧
      (if y.p = 0 then true else (nth s.c.p y.p 0).getLsbD e) = !y.neg)))

/-- R126, R128, R144: the words that write an address register, with LIMIT where a rule of theirs is broken. -/
def Obligations.AddressWords : Prop :=
  ∀ (d a b : BitVec 5) (s : State), ApReady s → d.toNat < 16 →
    let r := s.ra a.toNat
    (if (s.rx a).toNat + (s.rx b).toNat ≤ 2 ^ 48 then
      AddressResult (.amk d a b) d.toNat { ptr := s.rx a, base := s.rx a, limit := s.rx a + s.rx b, perm := 15 } s
    else TakesTrap (.amk d a b) (s.trapInfo true 0x06 (s.rx a + s.rx b)) s) ∧
    AddressResult (.amov d a) d.toNat r s ∧
    AddressResult (.aperm d a b) d.toNat { r with perm := s.rx b &&& 15 } s ∧
    PointerResult (.aadd d a b) d.toNat r (r.ptr.toNat + (s.rx b).toInt) s ∧
    PointerResult (.aset d a b) d.toNat r (s.rx b).toNat s ∧
    (if r.ptr.toNat + (s.rx b).toNat ≤ r.limit.toNat then
      AddressResult (.anar d a b) d.toNat { r with base := r.ptr, limit := r.ptr + s.rx b } s
    else TakesTrap (.anar d a b) (s.trapInfo true 0x06 (r.ptr + s.rx b)) s)

/-- R144: the words that read an address register, a dimension register or a loop register into xd. -/
def Obligations.AddressReads : Prop :=
  ∀ (d a b : BitVec 5) (s : State), ApReady s →
    ScalarResult (.adiff d a b) d (BitVec.ofInt 64 ((s.ra a.toNat).ptr.toNat - (s.ra b.toNat).ptr.toNat)) s ∧
    ScalarResult (.aget d a) d (s.ra a.toNat).ptr s ∧ ScalarResult (.agetb d a) d (s.ra a.toNat).base s ∧
    ScalarResult (.agetl d a) d (s.ra a.toNat).limit s ∧ ScalarResult (.agetp d a) d (s.ra a.toNat).perm s ∧
    ScalarResult (.dgetl d a) d (BitVec.ofNat 64 (s.rd a.toNat).len.toNat) s ∧
    ScalarResult (.dgets d a) d (BitVec.ofInt 64 (s.rd a.toNat).stride.toInt) s ∧
    ScalarResult (.mflc d a) d (s.rlc a.toNat) s ∧ ScalarResult (.mflb d a) d (s.rdesc a.toNat) s

/-- R134, R144, R145: DSET writes a length and a stride; MTLC writes a loop counter; MTLB writes a loop descriptor, with bits 62:57 and
1:0 cleared; the word's own end then looks at the loops as they are now, which is the model's choice (log entry 87). -/
def Obligations.LoopRegisterWrites : Prop :=
  (∀ (d a b : BitVec 5) (s : State), ApReady s → d.toNat < 6 → ∃ t, exec (.dset d a b) s = .next t ∧
    t.rd d.toNat = { len := (s.rx a).truncate 32, stride := (s.rx b).truncate 32 } ∧ (∀ n, n ≠ d.toNat → t.rd n = s.rd n) ∧
    Frame dims s t ∧ Completed s t) ∧
  (∀ (d a : BitVec 5) (s : State), ApReady s → d.toNat < 3 → ∃ t, exec (.mtlc d a) s = .next t ∧ Frame nothing s t ∧
    Completed (s.wlc d.toNat (s.rx a)) t ∧
    (¬lastWord s → t.rlc d.toNat = s.rx a ∧ (∀ n, n ≠ d.toNat → t.rlc n = s.rlc n) ∧ t.c.desc = s.c.desc ∧ t.c.pc = s.c.pc + 4)) ∧
  (∀ (d a : BitVec 5) (s : State), ApReady s → d.toNat < 3 → ∃ t, exec (.mtlb d a) s = .next t ∧ Frame nothing s t ∧
    let u := s.wdesc d.toNat (s.rx a &&& 0x81FFFFFFFFFFFFFC)
    Completed u t ∧ (¬lastWord u → t.rdesc d.toNat = s.rx a &&& 0x81FFFFFFFFFFFFFC ∧ (∀ n, n ≠ d.toNat → t.rdesc n = s.rdesc n) ∧
      t.c.lc = s.c.lc ∧ t.c.pc = s.c.pc + 4))

/-- R148 to R150, R152, R160: the checks of a load or a store, in order, with the trap of the first that fails: a relaxed form under DETERM,
permission and bounds over the exact span, alignment, the bounds of the advance, translation, the race check and the watchpoints; and those
of an atomic, of SIGNAL and of WAITC, which have no advance and no relaxed form. An access to another package waits, WAITC with its own
reason. -/
def Obligations.MemoryChecks : Prop :=
  (∀ m ∈ memRows, ∀ (d : BitVec 5) (a : BitVec 4) (i : BitVec 13) (s : State), ApReady s →
    let f := memForm i
    let r := s.ra a.toNat
    let w := m.2.1
    let addr : Int := r.ptr.toNat + f.offset
    let within := bit r.perm m.2.2.1 = true ∧ (r.base.toNat : Int) ≤ addr ∧ addr + w ≤ r.limit.toNat
    let target : Int := match f.advance with | none => r.ptr.toNat | some x => r.ptr.toNat + (s.rx x).toInt
    let moves := f.advance.isSome = true → (r.base.toNat : Int) ≤ target ∧ target ≤ r.limit.toNat
    (f.rlx = true → s.determ = true → TakesTrap (m.1 d a i) (s.trapInfo true 0x14 s.c.pc) s) ∧
    (¬(f.rlx = true ∧ s.determ = true) →
      (¬within → TakesTrap (m.1 d a i) (s.trapInfo true 0x07 (BitVec.ofInt 64 addr)) s) ∧
      (within → addr % w ≠ 0 → TakesTrap (m.1 d a i) (s.trapInfo true 0x05 (BitVec.ofInt 64 addr)) s) ∧
      (within → addr % w = 0 → ¬moves → TakesTrap (m.1 d a i) (s.trapInfo true 0x06 (BitVec.ofInt 64 target)) s) ∧
      (within → addr % w = 0 → moves → AccessTraps (m.1 d a i) (BitVec.ofInt 64 addr) w m.2.2.2 f.rlx (WaitsAtPort (m.1 d a i) s) s))) ∧
  (∀ m ∈ everyAtomic, ∀ (d : BitVec 5) (a : BitVec 4) (s : State), ApReady s →
    PointTraps (m.1 d a) (s.ra a.toNat) 2 (s.ra a.toNat).ptr.toNat m.2 .atomic (WaitsAtPort (m.1 d a) s) s) ∧
  (∀ (d a : BitVec 5) (o : BitVec 12) (s : State), ApReady s →
    let r := s.ra a.toNat
    PointTraps (.signal d a o) r 2 (r.ptr.toNat + 8 * o.toInt) 8 .syncWrite (WaitsAtPort (.signal d a o) s) s ∧
    PointTraps (.waitc d a o) r 0 (r.ptr.toNat + 8 * o.toInt) 8 .syncRead (WaitsForCounter (.waitc d a o) s) s)

/-- R43, R147, R149: a load that passes its checks gives xd the little-endian bytes at its location, its own buffered stores included,
extended; the advance form moves the pointer; nothing else changes from the state its translation leaves. -/
def Obligations.LoadsRead : Prop :=
  ∀ r ∈ loadRows, ∀ (d : BitVec 5) (a : BitVec 4) (i : BitVec 13) (s u : State) (loc : Nat), ApReady s →
    let f := memForm i
    memChecks s (s.ra a.toNat) { l := true } r.2.1 f = none →
    Reaches s (wordOf (memAddr (s.ra a.toNat) f)) r.2.1 .read f.rlx loc u → ctrlOff loc = none →
    ∃ t, exec (r.1 d a i) s = .next t ∧ ScalarWritten d (r.2.2 (coreRead u loc r.2.1)) u t ∧
      AddressWritten a.toNat (if f.advance.isSome then advanced s a f else u.ra a.toNat) u t ∧
      Frame (fun c => scalars (addresses c)) u t ∧ Completed u t ∧ (∀ l, locByte t l = locByte u l)

/-- R43, R147, R149, R151: a store that passes its checks writes the low bytes of its register at its location, little-endian, and no
other byte; the advance form moves the pointer; nothing else changes from the state its translation leaves. -/
def Obligations.StoresWrite : Prop :=
  ∀ r ∈ storeRows, ∀ (x : BitVec 5) (a : BitVec 4) (i : BitVec 13) (s u : State) (loc : Nat), ApReady s →
    let f := memForm i
    memChecks s (s.ra a.toNat) { s := true } r.2 f = none →
    Reaches s (wordOf (memAddr (s.ra a.toNat) f)) r.2 .write f.rlx loc u → ctrlOff loc = none → MemoriesOk u →
    ∃ t, exec (r.1 x a i) s = .next t ∧ Stored loc r.2 (s.rx x).toNat u t ∧
      AddressWritten a.toNat (if f.advance.isSome then advanced s a f else u.ra a.toNat) u t ∧
      Frame addresses (storedOut u) (storedOut t) ∧ Completed u t

/-- R152: an atomic that passes its checks gives xd the old value, sign-extended at 4 bytes, and stores the new one; a compare and swap
stores only where the old value equals x[xd + 1]. -/
def Obligations.AtomicsUpdate : Prop :=
  (∀ r ∈ atomicRows, ∀ (d : BitVec 5) (a : BitVec 4) (s u : State) (loc : Nat), ApReady s →
    pointChecks (s.ra a.toNat) { a := true } (s.ra a.toNat).ptr.toNat r.2.1 = none →
    Reaches s (s.ra a.toNat).ptr r.2.1 .atomic false loc u → ctrlOff loc = none → MemoriesOk u →
    ∃ t, exec (r.1 d a) s = .next t ∧
      let old := coreRead u loc r.2.1
      ScalarWritten d (if r.2.1 = 4 then BitVec.ofInt 64 (BitVec.ofNat 32 old).toInt else BitVec.ofNat 64 old) u t ∧
      Stored loc r.2.1 (r.2.2 old ((s.rx d).toNat % 256 ^ r.2.1)) u t ∧ Frame scalars (storedOut u) (storedOut t) ∧ Completed u t) ∧
  (∀ (d : BitVec 5) (a : BitVec 4) (s u : State) (loc : Nat), ApReady s →
    pointChecks (s.ra a.toNat) { a := true } (s.ra a.toNat).ptr.toNat 8 = none →
    Reaches s (s.ra a.toNat).ptr 8 .atomic false loc u → ctrlOff loc = none → MemoriesOk u →
    ∃ t, exec (.atcas d a) s = .next t ∧
      let old := coreRead u loc 8
      ScalarWritten d (BitVec.ofNat 64 old) u t ∧ Completed u t ∧ Frame scalars (storedOut u) (storedOut t) ∧
      if old = (s.rx (d + 1)).toNat then Stored loc 8 (s.rx d).toNat u t else t.mem = u.mem ∧ t.c.scratch = u.c.scratch) ∧
  (∀ (d : BitVec 5) (a : BitVec 4) (s u : State) (loc : Nat), ApReady s →
    pointChecks (s.ra a.toNat) { a := true } (s.ra a.toNat).ptr.toNat 4 = none →
    Reaches s (s.ra a.toNat).ptr 4 .atomic false loc u → ctrlOff loc = none → MemoriesOk u →
    ∃ t, exec (.atcasw d a) s = .next t ∧
      let old := coreRead u loc 4
      ScalarWritten d (BitVec.ofInt 64 (BitVec.ofNat 32 old).toInt) u t ∧ Completed u t ∧ Frame scalars (storedOut u) (storedOut t) ∧
      if old = (s.rx (d + 1)).toNat % 2 ^ 32 then Stored loc 4 ((s.rx d).toNat % 2 ^ 32) u t else t.mem = u.mem ∧ t.c.scratch = u.c.scratch)

/-- R37 to R41: what a translation may change: the translation caches, and bits 4 (A) and 5 (D) of the leaf entry it used; every other
byte of memory, every register and every other part of the machine is as it was. -/
def Obligations.TranslationFrame : Prop :=
  ∀ (s : State) (va : Word) (n : Nat) (acc : Access), s.mem.wf = true →
    let t := (translate s va n acc).2
    { t with mem := [], tlb := [] } = { s with mem := [], tlb := [] } ∧
    (t.mem = s.mem ∨ ∃ e size entry, findLeaf s va.toNat = .leaf e size entry ∧ permitted e acc = true ∧
      (∀ a, a ≠ entry → readByte t.mem a = readByte s.mem a) ∧
      (∀ k, k ≠ 4 → k ≠ 5 → (readByte t.mem entry).getLsbD k = (readByte s.mem entry).getLsbD k))

/-- R155 to R157: the queues are first in, first out. QW appends x[xa], as an entry that is written at once unless a load is what wrote x[xa]
last, or waits where the queue holds 64 entries; QR removes the oldest entry into xd, or waits with reason 12 until it has been written; a
load's data fills the oldest entry not yet written. The reason 1 of a full queue is the model's reading of R29 (log entry 84), and when a
load's data is late a free value (log entry 5). -/
def Obligations.QueueWords : Prop :=
  (∀ (a : BitVec 5) (n : BitVec 3) (s : State), ApReady s →
    if (s.rq n.toNat).length < 64 then
      ∃ t arrived, exec (.qw a n) s = .next t ∧ QueueWritten n.toNat (s.rq n.toNat ++ [{ val := s.rx a, filled := arrived }]) s t ∧
        (a = 0 ∨ s.xName a ∉ s.c.loads → arrived = true) ∧ Frame queues s t ∧ Completed s t
    else Waits (.qw a n) 1 s) ∧
  (∀ (d : BitVec 5) (n : BitVec 3) (s : State), ApReady s →
    (∀ e r, s.rq n.toNat = e :: r → e.filled = true → ∃ t, exec (.qr d n) s = .next t ∧ QueueWritten n.toNat r s t ∧
      ScalarWritten d e.val s t ∧ Frame (fun c => scalars (queues c)) s t ∧ Completed s t) ∧
    ((∀ e, (s.rq n.toNat).head? = some e → e.filled = false) → Waits (.qr d n) 12 s)) ∧
  (∀ (n : BitVec 3) (v : Word) (s : State) (before after : List QEntry) (e : QEntry), s.rq n.toNat = before ++ e :: after →
    (∀ b ∈ before, b.filled = true) → e.filled = false →
    ∃ t, exec (.queueEntryFill n v) s = .next t ∧ QueueWritten n.toNat (before ++ { val := v, filled := true } :: after) s t ∧
      Frame queues s t ∧ t.c.pc = s.c.pc)

/-- R156: QBR and QBRZ remove the oldest entry and are taken where it is not zero, or zero; they wait with reason 13 until it has been
written. -/
def Obligations.QueueBranches : Prop :=
  ∀ (n : BitVec 5) (o : BitVec 16) (s : State), ApReady s → n.toNat < 8 →
    (∀ e r, s.rq n.toNat = e :: r → e.filled = true →
      (∃ t, exec (.qbr n o) s = .next t ∧ QueueWritten n.toNat r s t ∧ Frame queuesDqbr s t ∧
        if e.val ≠ 0 then Transferred (pcPlus s o.toInt) s t else Completed s t) ∧
      (∃ t, exec (.qbrz n o) s = .next t ∧ QueueWritten n.toNat r s t ∧ Frame queuesDqbr s t ∧
        if e.val = 0 then Transferred (pcPlus s o.toInt) s t else Completed s t)) ∧
    ((∀ e, (s.rq n.toNat).head? = some e → e.filled = false) → Waits (.qbr n o) 13 s ∧ Waits (.qbrz n o) 13 s)

/-- R26, R27, R158: a context arrives at a barrier once; where it is the last member the barrier releases, its generation advances and BAR
completes; where it is not, BAR waits with reason 9; a BAR whose barrier has released meanwhile completes; the other members on this core
count its arrival, and at POD scope the launch's other packages are told, with what happened before it, where they can be reached; another
member's arrival counts in every member on this core, in its slot or saved, and the last one releases. -/
def Obligations.BarrierWords : Prop :=
  (∀ (c : BitVec 3) (s : State), ApReady s → c.toNat < 6 → (barrierAt s c.toNat).arrived = false →
    (barrierAt s c.toNat).released = false →
    let b := barrierAt s c.toNat
    ∃ t, exec (.bar c) s = .next t ∧ RegistersKept s t ∧ t.c.sbuf = [] ∧ (∀ m, m ≠ c.toNat → barrierAt t m = barrierAt s m) ∧
      (b.members ≤ b.others + 1 → (barrierAt t c.toNat).gen = b.gen + 1 ∧ (barrierAt t c.toNat).arrived = false ∧
        (barrierAt t c.toNat).released = false ∧ (barrierAt t c.toNat).others = 0 ∧ Completed s t) ∧
      (b.others + 1 < b.members → barrierAt t c.toNat = { b with arrived := true, pc := s.c.pc } ∧ t.c.wait = 9 ∧ t.c.pc = s.c.pc) ∧
      (2 ≤ c.toNat → OthersCount c.toNat { launch := s.c.launch, berth := s.c.sys.berth.truncate 32, die := s.c.die } s t) ∧
      let u := commitStores s
      t.fab.sent = u.fab.sent ++
        if c = 5 then ((launchPackages u s.c.launch).filter (reachable u)).map fun p => .barrier p s.c.launch b.gen (hAll u) else []) ∧
  (∀ (c : BitVec 3) (s : State), ApReady s → c.toNat < 6 → (barrierAt s c.toNat).released = true →
    ∃ t, exec (.bar c) s = .next t ∧ RegistersKept s t ∧ Completed s t ∧ t.mem = s.mem ∧ (∀ m, m ≠ c.toNat → barrierAt t m = barrierAt s m) ∧
      barrierAt t c.toNat = { barrierAt s c.toNat with released := false, out := [] }) ∧
  (∀ (c : BitVec 3) (s : State), ApReady s → c.toNat < 6 → (barrierAt s c.toNat).arrived = true →
    (barrierAt s c.toNat).released = false → Waits (.bar c) 9 s) ∧
  (∀ (c : BitVec 3) (m : Members) (h : List (Path × List Nat)) (s : State), c.toNat < 6 →
    ∃ t, exec (.barrierArrival c (some m) h) s = .next t ∧ RegistersKept s t ∧ t.c.pc = s.c.pc ∧ OthersCount c.toNat m s t ∧
      (s.cs ≠ .none → inBarrier c.toNat m s.c → Counts (barrierAt s c.toNat) (barrierAt t c.toNat)) ∧
      (¬inBarrier c.toNat m s.c → t.c = s.c) ∧
      (s.saved = [] → s.sh = none → s.dev.trctl = 0 → t.mem = s.mem)) ∧
  (∀ (l : Nat) (h : List (Path × List Nat)) (s : State), ∃ t, exec (.barrierMessage ⟨l, h⟩) s = .next t ∧
    exec (.barrierArrival 5 (some { launch := l, berth := 0, die := 15 }) h) s = .next t)

/-- R51, R159, R160: SIGNAL commits older stores and adds x[xd] to the counter word at its location in memory or in its partition, saturating
at 2^64 − 1, and writes no other byte. -/
def Obligations.SignalAdds : Prop :=
  ∀ (d a : BitVec 5) (o : BitVec 12) (s u : State) (loc : Nat), ApReady s →
    pointChecks (s.ra a.toNat) { a := true } (counterAddr (s.ra a.toNat) o) 8 = none →
    Reaches s (wordOf (counterAddr (s.ra a.toNat) o)) 8 .syncWrite false loc u → loc % 8 = 0 → ctrlOff loc = none → MemoriesOk u →
    let v := commitStores u
    ∃ t, exec (.signal d a o) s = .next t ∧ Stored loc 8 (min (2 ^ 64 - 1) (counterAt v loc + (s.rx d).toNat)) v t ∧
      t.c.sbuf = [] ∧ RegistersKept s t ∧ Completed u t

/-- R52, R160: WAITC completes where the counter word has reached x[xd], as unsigned numbers, and waits with reason 10 otherwise; looked
at again, by WAITC_COMPLETE, it ends in the same way. That a waiting WAITC makes no record is the model's reading (log entry 36). -/
def Obligations.WaitForCounter : Prop :=
  ∀ (d a : BitVec 5) (o : BitVec 12) (s u : State) (loc : Nat), ApReady s →
    pointChecks (s.ra a.toNat) { l := true } (counterAddr (s.ra a.toNat) o) 8 = none →
    Reaches s (wordOf (counterAddr (s.ra a.toNat) o)) 8 .syncRead false loc u →
    ∃ t, exec (.waitc d a o) s = .next t ∧ RegistersKept s t ∧ (s.dev.trctl = 0 → t.mem = u.mem) ∧
      (if (s.rx d).toNat ≤ loadValue u loc 8 then Completed u t else t.c.wait = 10 ∧ t.c.pc = s.c.pc) ∧
      (s.cs = .active → s.c.wait = 10 → waitcFields s.ir = some (d, a, o) → exec .waitcComplete s = .next t)

/-- R44, R45, R55 to R57, R161: FENCE of kind 1 or 3 and XFENCE commit the buffered stores; a FENCE.rel keeps what happens before it for the
stores after it, and a FENCE.acq joins what the stores that it has seen carry, where the two contexts lie within both scopes; XFENCE joins
the sets of its paths; IFENCE drops every word fetched; PREF does nothing (R154); each changes no register. What only another agent could
see of a fence is outside the model (log entry 33). -/
def Obligations.FenceWords : Prop :=
  (∀ (k : BitVec 2) (c : BitVec 3) (s : State), ApReady s →
    let u := if k.getLsbD 0 = true then commitStores s else s
    ∃ t, exec (.fence k c) s = .next t ∧ Completed s t ∧ Frame fenceSets u t ∧
      (k.getLsbD 0 = true → (c.toNat, hSet u .core) ∈ t.c.rel) ∧ (k.getLsbD 0 = false → t.c.rel = s.c.rel) ∧
      (k.getLsbD 1 = true → ∀ n ∈ s.c.seen, ∀ r ∈ n.rels, within s n r.1 = true → within s n c.toNat = true → ∀ x ∈ r.2, x ∈ hSet t .core) ∧
      (k.getLsbD 1 = false → t.c.hb = s.c.hb)) ∧
  (∀ (m : BitVec 5) (s : State), ApReady s → ∃ t, exec (.xfence m) s = .next t ∧ Completed s t ∧ RegistersKept s t ∧
    t.mem = (commitStores s).mem ∧ t.c.sbuf = [] ∧
    ∀ p ∈ maskPaths m, ∀ q ∈ maskPaths m, ∀ x ∈ hSet (commitStores s) q, x ∈ hSet t p) ∧
  (∀ (s : State), ApReady s → ∃ t, exec .ifence s = .next t ∧ Completed s t ∧ t.icache = [] ∧ t.lbuf = [] ∧
    Frame nothing { s with icache := [], lbuf := [] } t) ∧
  (∀ (a : BitVec 4) (o : BitVec 11) (s : State), ApReady s → ∃ t, exec (.pref a o) s = .next t ∧ Completed s t ∧ Frame nothing s t)

/-- R100, R101, R108, R162: TRAP takes the trap TRAP with TPC the next word and TVAL its immediate, and is counted in RETIRED; a trap
entry leaves the record, PPRV, PRV and PC as R108 says, whatever its cause. -/
def Obligations.TrapEntry : Prop :=
  (∀ (i : BitVec 12) (s : State), ApReady s → ∃ t, exec (.trap i) s = .next t ∧ t.c.sys.retired = s.c.sys.retired + 1 ∧
    TrapTaken { s.trapInfo true 0x19 (BitVec.ofNat 64 i.toNat) with tpc := s.c.pc + 4 } s t) ∧
  (∀ (r : TrapInfo) (s : State), s.cs = .active → ∃ t, exec (.trapEntry r) s = .next t ∧ t.c.sys.retired = s.c.sys.retired ∧
    TrapTaken r s t ∧ t.c.sys.tidx = r.tidx &&& 0xFFFFFFFFFFFF)

/-- What a TRET leaves alone wherever it goes: every register but STATUS, whose bits 3 and up stay, the loops, and memory (R109, R134, R204). -/
def TretKeeps (s t : State) : Prop :=
  (∀ n, 3 ≤ n → bit t.c.sys.status n = bit s.c.sys.status n) ∧ t.c.x = s.c.x ∧ t.c.xArr = s.c.xArr ∧ t.c.a = s.c.a ∧ t.c.d = s.c.d ∧
  t.c.v = s.c.v ∧ t.c.vtag = s.c.vtag ∧ t.c.p = s.c.p ∧ t.c.k = s.c.k ∧ t.c.z = s.c.z ∧ t.c.q = s.c.q ∧ t.c.mat = s.c.mat ∧ t.c.lc = s.c.lc ∧
  t.c.desc = s.c.desc ∧ t.c.vloop = s.c.vloop ∧ t.mem = s.mem ∧ t.c.sys.fpctl = s.c.sys.fpctl ∧ t.c.sys.vfmt = s.c.sys.vfmt

/-- TRET goes to an address at the level of PPRV (R109, R162). -/
def TretGoes (target : Word) (s t : State) : Prop :=
  exec .tret s = .next t ∧ t.c.pc = target ∧ t.prv = s.pprv ∧ t.pprv = false ∧ t.c.sys.retired = s.c.sys.retired + 1 ∧ TretKeeps s t

/-- R109, R162, R177, R292: TRET at supervisor level restores PRV from PPRV, clears PPRV and goes to TPC. Where the latest engine-fault trap
reported a channel that is still stopped and TPC is its command's address, it clears that channel's FLT and goes to its return point, and
where TPC is the address of the command whose report the latest such trap took, that report is over and it goes to the report's return
point; every other channel and report stays as it is, the pending reports until the next user-level instruction. At user level it raises
PRIV with TVAL the word, and where it would go to what is no word address ALIGN. -/
def Obligations.TrapReturn : Prop :=
  (∀ (s : State), ApReady s → s.prv = true → resumedChannel s = none → resumedReport s = none → s.c.sys.tpc.toNat % 4 = 0 →
    ∃ t, TretGoes s.c.sys.tpc s t ∧ t.c.chan = s.c.chan ∧ t.c.remote = s.c.remote) ∧
  (∀ (s : State) (n : Nat), ApReady s → s.prv = true → s.c.lastFlt = some n →
    let c := nth s.c.chan n Channel.free
    c.act = true → c.flt = true → c.pc = s.c.sys.tpc →
    (c.ret.toNat % 4 = 0 → ∃ t, TretGoes c.ret s t ∧ t.c.lastFlt = none ∧ t.c.lastRep = s.c.lastRep ∧ t.c.remote = s.c.remote ∧
      ∀ m, nth t.c.chan m Channel.free =
        if m = n then { c with flt := false, told := false, cause := none } else nth s.c.chan m Channel.free) ∧
    (c.ret.toNat % 4 ≠ 0 → TakesTrap .tret (s.trapInfo true 0x05 c.ret) s)) ∧
  (∀ (s : State) (q : RemoteCmd), ApReady s → s.prv = true → resumedChannel s = none → s.c.lastRep = some q.id → q ∈ s.c.remote →
    (∀ c ∈ s.c.remote, c.id = q.id → c = q) → q.taken = true → q.pc = s.c.sys.tpc →
    let ended : RemoteCmd :=
      if q.wfail.isSome then { q with taken := false, wfail := none } else { q with taken := false, reports := q.reports.tail }
    let done (c : RemoteCmd) : Prop := c.written = true ∧ c.reports = []
    let waits (c : RemoteCmd) : RemoteCmd :=
      if c.wfail.isSome || (c.written && !c.reports.isEmpty) then { c with deferred := true } else c
    (q.ret.toNat % 4 = 0 → ∃ t, TretGoes q.ret s t ∧ t.c.lastRep = none ∧ t.c.lastFlt = s.c.lastFlt ∧ t.c.chan = s.c.chan ∧
      ∀ c, c ∈ t.c.remote ↔ (¬done ended ∧ c = waits ended) ∨ ∃ o ∈ s.c.remote, o.id ≠ q.id ∧ ¬done o ∧ c = waits o) ∧
    (q.ret.toNat % 4 ≠ 0 → TakesTrap .tret (s.trapInfo true 0x05 q.ret) s)) ∧
  (∀ (s : State), ApReady s → s.prv = false → TakesTrap .tret (s.trapInfo true 0x04 (s.ir.zeroExtend 64)) s) ∧
  (∀ (s : State), ApReady s → s.prv = true → resumedChannel s = none → resumedReport s = none → s.c.sys.tpc.toNat % 4 ≠ 0 →
    TakesTrap .tret (s.trapInfo true 0x05 s.c.sys.tpc) s)

/-- R20, R71, R73, R108, R109: a trap taken at the word at PC, and the TRET after it, come back to that word at its level, with its
convoy, its transient results and its pending payload, every register as it was and PPRV 0; memory is as it was but for the matrix issues
that had begun, which are complete (R105, R243). What is set aside for the return is the model's reading (log entry 61). -/
def Obligations.TrapRoundTrip : Prop :=
  ∀ (r : TrapInfo) (s : State), r.tpc = s.c.pc → s.c.pc.toNat % 4 = 0 → s.c.lastFlt = none → s.c.lastRep = none → s.pfxp = s.c.pfxLive →
    ∃ t, exec .tret (takeTrap r s) = .next t ∧ t.c.pc = s.c.pc ∧ t.prv = s.prv ∧ t.pprv = false ∧ t.c.convoy = s.c.convoy ∧
      t.c.windows = s.c.windows ∧ t.c.bypass = s.c.bypass ∧ t.c.levels = s.c.levels ∧ t.c.pfxLive = s.c.pfxLive ∧ t.pfxp = s.pfxp ∧
      t.c.sys.tpfx = s.c.sys.tpfx ∧ t.c.sys.fpctl = s.c.sys.fpctl ∧ t.c.sys.vfmt = s.c.sys.vfmt ∧ t.c.x = s.c.x ∧ t.c.xArr = s.c.xArr ∧
      t.c.a = s.c.a ∧ t.c.d = s.c.d ∧ t.c.v = s.c.v ∧ t.c.vtag = s.c.vtag ∧ t.c.p = s.c.p ∧ t.c.k = s.c.k ∧ t.c.z = s.c.z ∧
      t.c.q = s.c.q ∧ t.c.lc = s.c.lc ∧ t.c.desc = s.c.desc ∧ t.c.vloop = s.c.vloop ∧ t.c.mat = { s.c.mat with issues := [] } ∧ t.mem = (finishIssues s).mem ∧ (s.c.mat.issues = [] → t.mem = s.mem)

/-- R114, R115: a pending arrival is taken only at user level with AIE = 1 and AIN = 0; it saves PC in ARPC, sets AIN and goes to AVEC, with the
matrix issues that had begun complete (R243); AEXIT in the handler brings PC and AIN back, and is ILLEGAL_INSN outside one or at supervisor level. -/
def Obligations.ArrivalHandling : Prop :=
  (∀ (s : State), s.cs = .active → 0 < s.c.arrivals → s.prv = false → s.aie = true → s.ain = false →
    ∃ t, exec .arrivalEntry s = .next t ∧ t.c.sys.arpc = s.c.pc ∧ t.c.pc = s.c.sys.avec ∧ t.ain = true ∧ t.c.arrivals = s.c.arrivals - 1 ∧
      (∀ n, n ≠ 4 → bit t.c.sys.status n = bit s.c.sys.status n) ∧ t.c.x = s.c.x ∧ t.c.xArr = s.c.xArr ∧ t.c.v = s.c.v ∧
      t.c.mat.issues = [] ∧ t.mem = (finishIssues s).mem ∧ (s.c.mat.issues = [] → t.mem = s.mem)) ∧
  (∀ (s : State), (s.prv = true ∨ s.aie = false ∨ s.ain = true ∨ s.c.arrivals = 0) → exec .arrivalEntry s = .next s) ∧
  (∀ (s : State), ApReady s → s.ain = true → s.prv = false → s.c.sys.arpc.toNat % 4 = 0 →
    ∃ t, exec .aexit s = .next t ∧ t.c.pc = s.c.sys.arpc ∧ t.ain = false ∧ t.prv = false ∧ t.c.x = s.c.x ∧ t.c.xArr = s.c.xArr ∧
      t.c.v = s.c.v ∧ t.mem = s.mem) ∧
  (∀ (s : State), ApReady s → (s.ain = false ∨ s.prv = true) → TakesTrap .aexit (s.illegal true) s)

/-- R162 to R166, R181, R339: MFSR reads each system register by its number, FPCTL, FFS, GRANT, RETIRED and STALLBANK once older matrix issues
are complete, with their stall reason while they are not (R29), and MTSR writes it under its access code: a register of number
0x020 and up is PRIV at user level; a read-only one, and at user level one that only supervisor level may write, keeps its value; VFMT takes
a value that the VFMT word would accept, and is ILLEGAL_INSN otherwise; SEED makes every lazy real stale; the debug registers keep what their
fields hold. That the word counts itself in the RETIRED that it writes is the model's reading (log entry 42). -/
def Obligations.SystemRegisters : Prop :=
  (∀ r ∈ sysTable, ∀ (d : BitVec 5) (s : State), ApReady s → (r.1 < 0x20 ∨ s.prv = true) →
    let olderFirst := r.1 ∈ [0x01, 0x06, 0x07, 0x0A, 0x0B]
    ((olderFirst → s.c.mat.issues = []) → ScalarResult (.mfsr d (BitVec.ofNat 12 r.1)) d (r.2 s) s) ∧
    (olderFirst → s.c.mat.issues ≠ [] → Waits (.mfsr d (BitVec.ofNat 12 r.1)) 14 s)) ∧
  (∀ (d a : BitVec 5) (n : BitVec 12) (s : State), ApReady s → 0x20 ≤ n.toNat → s.prv = false →
    TakesTrap (.mfsr d n) (s.trapInfo true 0x04 (s.ir.zeroExtend 64)) s ∧ TakesTrap (.mtsr a n) (s.trapInfo true 0x04 (s.ir.zeroExtend 64)) s) ∧
  (∀ (a : BitVec 5) (n : Nat) (r : Word → Word) (s : State), ApReady s → ¬lastWord s →
    ((∃ m, r = (· &&& m) ∧ (n, m) ∈ userWritable) ∨ (s.prv = true ∧ ((∃ m, r = (· &&& m) ∧ (n, m) ∈ supervisorWritable) ∨
      (n = 0x0A ∧ r = (· + 1)) ∨ ∃ k, k < 15 ∧ n = 0x100 + k ∧ r = debugKeeps k))) →
    ∃ t, exec (.mtsr a (BitVec.ofNat 12 n)) s = .next t ∧ sysRead t n = r (s.rx a) ∧ t.c.pc = s.c.pc + 4 ∧
      t.c.x = s.c.x ∧ t.c.v = s.c.v ∧ t.mem = s.mem ∧ (∀ q ∈ sysTable, q.1 ≠ n → q.1 ≠ 0x0A → q.2 t = q.2 s) ∧
      (n = 0x03 → ∀ m e, m < 8 → e < 128 → (readZ1 t m e).stale = true) ∧ (n ≠ 0x03 → t.c.z = s.c.z)) ∧
  (∀ (a : BitVec 5) (s : State), ApReady s →
    (vfmtOk (s.rx a) = true → vfmtBreaksLoop s (s.rx a) = false → ¬lastWord s → ∃ t, exec (.mtsr a 2) s = .next t ∧
      t.c.sys.vfmt = s.rx a &&& 0x0FF7F30F ∧ t.c.sys.ffs = setBit s.c.sys.ffs 47 false ∧ t.c.pc = s.c.pc + 4 ∧ t.c.x = s.c.x ∧ t.c.v = s.c.v ∧
      t.mem = s.mem ∧ ∀ q ∈ sysTable, q.1 ∉ [0x02, 0x06, 0x0A] → q.2 t = q.2 s) ∧
    ((vfmtOk (s.rx a) = false ∨ vfmtBreaksLoop s (s.rx a) = true) → TakesTrap (.mtsr a 2) (s.illegal true) s)) ∧
  (∀ (n : Nat) (a : BitVec 5) (s : State), ApReady s → (n < 0x20 ∨ s.prv = true) →
    (n ∈ sysFixed ∨ (s.prv = false ∧ n ∈ [0x05, 0x0A, 0x0F, 0x10])) →
    ∃ t, exec (.mtsr a (BitVec.ofNat 12 n)) s = .next t ∧ Frame nothing s t ∧ Completed s t)

/-- R84, R166: MTSR of STATUS writes AIE and DETERM at user level, and PFXP and PPRV as well at supervisor level, and PRV and AIN never;
MTSR of FPCTL clears a flag by a 1, writes SALT, SINC and DRM, and keeps DRM where the value asks for a reserved mode. -/
def Obligations.StatusAndFlags : Prop :=
  (∀ (a : BitVec 5) (s : State), ApReady s → ∃ t, exec (.mtsr a 0) s = .next t ∧ Completed s t ∧ t.prv = s.prv ∧ t.ain = s.ain ∧
    t.aie = bit (s.rx a) 3 ∧ t.determ = bit (s.rx a) 5 ∧ t.pprv = (if s.prv then bit (s.rx a) 1 else s.pprv) ∧
    t.pfxp = (if s.prv then bit (s.rx a) 2 else s.pfxp) ∧ (∀ n, 6 ≤ n → bit t.c.sys.status n = bit s.c.sys.status n)) ∧
  (∀ (a : BitVec 5) (s : State), ApReady s → ∃ t, exec (.mtsr a 1) s = .next t ∧ Completed s t ∧
    (∀ n, n < 8 → bit t.c.sys.fpctl n = (bit s.c.sys.fpctl n && !bit (s.rx a) n)) ∧ field t.c.sys.fpctl 24 24 = field (s.rx a) 24 24 ∧
    bit t.c.sys.fpctl 12 = bit (s.rx a) 12 ∧
    field t.c.sys.fpctl 9 3 = (if field (s.rx a) 9 3 < 6 then field (s.rx a) 9 3 else field s.c.sys.fpctl 9 3))

/-- R41, R163: XINV drops the cached translations of a page, or all of them, and commits the buffered stores; over the package it waits
with reason 6 until XINV_COMPLETE; at user level it is PRIV. Where none waits here, XINV_COMPLETE is that of another core over the package,
which here drops every cached translation: that it drops them all is the model's choice (log entry 6). -/
def Obligations.InvalidateWords : Prop :=
  (∀ (a : BitVec 5) (k : BitVec 2) (s : State), ApReady s → s.prv = true → k.getLsbD 1 = false →
    ∃ t, exec (.xinv a k) s = .next t ∧ Completed s t ∧ RegistersKept s t ∧ t.mem = (commitStores s).mem ∧
      t.tlb = if k.getLsbD 0 then []
        else s.tlb.filter fun e => !(decide (e.va ≤ (s.rx a).toNat) && decide ((s.rx a).toNat < e.va + e.size))) ∧
  (∀ (a : BitVec 5) (k : BitVec 2) (s : State), ApReady s → s.prv = true → k.getLsbD 1 = true →
    ∃ t, exec (.xinv a k) s = .next t ∧ t.c.wait = 6 ∧ t.c.pc = s.c.pc ∧ RegistersKept s t) ∧
  (∀ (a : BitVec 5) (k : BitVec 2) (s : State), s.cs = .active → s.c.wait = 6 → xinvFields s.ir = some (a, k) →
    ∃ t, exec .xinvComplete s = .next t ∧ Completed s t ∧ RegistersKept s t ∧ t.mem = s.mem ∧
      t.tlb = if k.getLsbD 0 then []
        else s.tlb.filter fun e => !(decide (e.va ≤ (s.rx a).toNat) && decide ((s.rx a).toNat < e.va + e.size))) ∧
  (∀ (s : State), (s.cs ≠ .active ∨ s.c.wait ≠ 6 ∨ xinvFields s.ir = none) → exec .xinvComplete s = .next { s with tlb := [] }) ∧
  (∀ (a : BitVec 5) (k : BitVec 2) (s : State), ApReady s → s.prv = false →
    TakesTrap (.xinv a k) (s.trapInfo true 0x04 (s.ir.zeroExtend 64)) s)

/-- The words that the worked examples of the manual give decode to the instructions they stand for (R61 to R66; files 04, 07 to 19). -/
def Obligations.DecodeWords : Prop :=
  decode 0xA320CA2F = .ok (.vfmul 1 1 4 3 5 15) ∧ decode 0x026A4000 = .ok (.pfx 3 0 1 9) ∧ decode 0x06500003 = .ok (.addi 5 0 3) ∧
  decode 0x0E140500 = .ok (.loop 0 5 5) ∧ decode 0x0493A018 = .ok (.mul 9 7 8) ∧ decode 0x0ABE002D = .ok (.blez 30 45) ∧
  decode 0x10746000 = .ok (.ld 7 4 0) ∧ decode 0x1C419540 = .ok (.cpy 4 3 5 1 0 2) ∧ decode 0x24A40980 = .ok (.vcvt 0 0 20 16 2 6 0 0) ∧
  decode 0xAA098406 = .ok (.vld 1 1 3 0 2 0 6) ∧ decode 0x2E104836 = .ok (.vredsum 0 0 2 1 4 6) ∧ decode 0x30020202 = .ok (.vloop 0 0 8 1) ∧
  decode 0xC0201CE0 = .ok (.mma 1 0 8 0 7 7 0) ∧ decode 0xC20D0043 = .ok (.mldb 1 3 2 2) ∧ decode 0xE010505F = .ok (.zlt 1 2 1 8 1) ∧
  decode 0x00000000 = .error .allZeros ∧ decode 0xFFFFFFFF = .error .allOnes ∧ decode 0x3E000000 = .error .unassignedOpcode ∧
  decode 0x86500003 = .error .convoyBitOnAp

/-- R61 to R66: the word of a well-formed instruction, with every operand at every value its encoding admits, decodes to that instruction. -/
def Obligations.DecodeEncode : Prop :=
  ∀ (i : Instr) (w : BitVec 32), i.wf → encode? i = some w → decode w = .ok i

/-- R61 to R67: a word that decodes gives a well-formed instruction that encodes to that word: no two words are one instruction, no bit of
a word is ignored, and a reserved value never decodes (R63). -/
def Obligations.DecodeUnique : Prop :=
  ∀ (i : Instr) (w : BitVec 32), decode w = .ok i → i.wf ∧ encode? i = some w

/-- R67: where nothing else is due, the word fetched at PC issues: if it decodes to i, no breakpoint matches and no queue trap waits, the
step is exec of i at the state that the fetch leaves, and time passes. The package has power and is READY, and the device has nothing due
(R331, R337, R338). That the parts beside the context take turns is the model's choice (log entry 54). -/
def Obligations.StepRunsWord : Prop :=
  ∀ (i : Instr) (w : BitVec 32) (s u : State), s.dev.power = true → s.dev.d3 = false → s.dev.d3cold = false → s.dev.state = .ready →
    s.agenda = [] → s.cs = .active → interruption s = none → turnBefore s = none → fetch s = .ok w u → decode w = .ok i →
    breakHit u = none → swapTrap u = none →
    step s = timed (exec i u) ∧ u.ir = w ∧ u.c.pc = s.c.pc

/-- R108 to R122, R337: the machine never stops while it has power: whatever is due, and whatever the word at PC is, a step answers a next
state. What is due beside the context's words, its commands' transfers among it, has its turn in time, also beside a context that never
waits (R33): every other step while the context waits, and every sixteenth otherwise, which is the model's choice (log entry 5). -/
def Obligations.StepGoesOn : Prop :=
  (∀ (s : State), s.dev.power = true → ∃ t, step s = .next t) ∧
  (∀ (s : State), s.dev.power = true → s.dev.d3 = false → s.dev.d3cold = false → s.dev.state = .ready → s.agenda = [] → s.cs = .active →
    interruption s = none → turnsDue s ≠ [] → s.tick % (if s.c.wait = 0 then 16 else 2) = 0 →
    ∃ turn ∈ turnsDue s, step s = timed (.next (takeTurn turn s)))

/-- Every step keeps memory and the scratchpad memories of all contexts in their canonical form (model's choice, log entry 1), whatever it
runs. -/
def Obligations.MemoryInvariant : Prop :=
  ∀ (s t : State), MemInv s → step s = .next t → MemInv t

/-- What reset leaves (R4, R84, R123, R129, R166, R181, R284, R314, R331, R336): DSTAT.STATE is RESET, no context runs, every flag, mode
and status bit is 0, no loop is active, memory lists nothing and has its canonical form. The values of log entries 1 and 2 are the model's
choice. -/
def Obligations.ResetState : Prop :=
  let s := State.reset
  s.dev.state = .reset ∧ s.cs = .none ∧ s.c.sys.status = 0 ∧ s.c.sys.fpctl = 0 ∧ s.c.sys.vfmt = 0 ∧ (∀ n, s.rx n = 0) ∧
  (∀ l, descActive (s.rdesc l) = false) ∧ s.c.vloop.active = false ∧ s.c.pfxLive = false ∧ s.fab.fbit = 0 ∧ s.dev.plim = 3200 ∧
  s.dev.twarn = 95 ∧ s.dev.tcrit = 105 ∧ s.disp.dage = 0x00100000 ∧ s.mem = [] ∧ MemInv s

/-- R20 to R22, R67, R74, R91, R188, R192, R195: the vector integer words: what stops one before its effect, the convoy, the transient
results and the holds among it; each element they act on takes the exact integer modulo 2^w, saturated where the word says so; the elements
beyond and the masked ones keep their values; VX words take x[xb] or the oldest entry of a queue, and wait with reason 12 until it has been
written; VBCAST of a NaN in a float format gives the canonical one, with NV (R83). The sign of VSRA and VRSHR is the model's reading (log entry 64). -/
def Obligations.VectorInteger : Prop :=
  (∀ r ∈ laneRows, ∀ (cs t : BitVec 1) (d a b : BitVec 5) (f : BitVec 4) (s : State), (r.1 cs t d a b f).wf →
    let w := plainWidth f
    let y := laneWord t (vreg d w) [vreg a w, vreg b w]
    WordStops (r.1 cs t d a b f) y (·.arith) 2 1 s ∧
    (epReady y s = true → LaneResult (r.1 cs t d a b f) y (vreg d w)
      (fun e => patternOf w (r.2 f (readElem s (vreg a w) e) (readElem s (vreg b w) e))) 0 s)) ∧
  (∀ r ∈ lane1Rows, ∀ (cs t : BitVec 1) (d a : BitVec 5) (f : BitVec 4) (s : State), (r.1 cs t d a f).wf →
    let w := plainWidth f
    let y := laneWord t (vreg d w) [vreg a w]
    WordStops (r.1 cs t d a f) y (·.arith) 2 1 s ∧
    (epReady y s = true →
      LaneResult (r.1 cs t d a f) y (vreg d w) (fun e => patternOf w (r.2 f (readElem s (vreg a w) e))) 0 s)) ∧
  (∀ (cs t : BitVec 1) (d : BitVec 5) (f : BitVec 4) (s : State), (Instr.vid cs t d f).wf →
    let w := plainWidth f
    WordStops (.vid cs t d f) (laneWord t (vreg d w) []) (·.arith) 2 1 s ∧
    (epReady (laneWord t (vreg d w) []) s = true →
    LaneResult (.vid cs t d f) (laneWord t (vreg d w) []) (vreg d w) (fun e => ((sbaseOf s.c.vloop).toNat + e) % 2 ^ w) 0 s)) ∧
  (∀ r ∈ laneXRows, ∀ (cs t : BitVec 1) (d a x : BitVec 5) (q : BitVec 1) (f : BitVec 4) (v : Word) (s u : State),
    (r.1 cs t d a x q f).wf →
    let w := plainWidth f
    let y := laneWord t (vreg d w) [vreg a w]
    ScalarStops (r.1 cs t d a x q f) y x q s ∧
    (epReady y s = true → ScalarOperand x q v s u → LaneScalarResult (r.1 cs t d a x q f) y (vreg d w)
      (fun e => patternOf w (r.2 f (readElem s (vreg a w) e) (v.toNat % 2 ^ w))) 0 s u)) ∧
  (∀ (cs t : BitVec 1) (d x : BitVec 5) (q : BitVec 1) (f : BitVec 4) (v : Word) (s u : State), (Instr.vbcast cs t d x q f).wf →
    let w := plainWidth f
    ScalarStops (.vbcast cs t d x q f) (laneWord t (vreg d w) []) x q s ∧
    (epReady (laneWord t (vreg d w) []) s = true → ScalarOperand x q v s u →
    let nan := decide (0xD ≤ f.toNat) && (floatFmt f).isNan (v.toNat % 2 ^ w)
    LaneScalarResult (.vbcast cs t d x q f) (laneWord t (vreg d w) []) (vreg d w)
      (fun _ => if nan then (floatFmt f).canonNan else v.toNat % 2 ^ w) (unionFlags u fun _ => if nan then flagNV else 0) s u))

/-- R67, R157, R188, R189, R192, R195: the integer multiply-accumulates: vd + va × vb modulo 2^w, and the widening one modulo 2^32; what stops
one before its effect, and the wait of its VX form for a queue. -/
def Obligations.VectorMultiplyAdd : Prop :=
  (∀ (cs t : BitVec 1) (d a b : BitVec 5) (f : BitVec 4) (s : State), (Instr.vmacc cs t d a b f).wf →
    let w := plainWidth f
    let y := laneWord t (vreg d w) [vreg a w, vreg b w, vreg d w]
    WordStops (.vmacc cs t d a b f) y (·.arith) 2 1 s ∧
    (epReady y s = true → LaneResult (.vmacc cs t d a b f) y (vreg d w) (fun e => patternOf w
      (intOf f (readElem s (vreg d w) e) + intOf f (readElem s (vreg a w) e) * intOf f (readElem s (vreg b w) e))) 0 s)) ∧
  (∀ (cs t : BitVec 1) (d a b : BitVec 5) (f : BitVec 4) (s : State), (Instr.vwmacc cs t d a b f).wf →
    let w := plainWidth f
    let y := laneWord t (vreg d 32) [vreg a w, vreg b w, vreg d 32]
    WordStops (.vwmacc cs t d a b f) y (·.arith) 2 1 s ∧
    (epReady y s = true → LaneResult (.vwmacc cs t d a b f) y (vreg d 32) (fun e => patternOf 32
      (readElem s (vreg d 32) e + intOf f (readElem s (vreg a w) e) * intOf f (readElem s (vreg b w) e))) 0 s)) ∧
  (∀ (cs t : BitVec 1) (d a x : BitVec 5) (q : BitVec 1) (f : BitVec 4) (v : Word) (s u : State), (Instr.vxVmacc cs t d a x q f).wf →
    let w := plainWidth f
    let y := laneWord t (vreg d w) [vreg a w, vreg d w]
    ScalarStops (.vxVmacc cs t d a x q f) y x q s ∧
    (epReady y s = true → ScalarOperand x q v s u → LaneScalarResult (.vxVmacc cs t d a x q f) y (vreg d w) (fun e => patternOf w
      (intOf f (readElem s (vreg d w) e) + intOf f (readElem s (vreg a w) e) * intOf f (v.toNat % 2 ^ w))) 0 s u)) ∧
  (∀ (cs t : BitVec 1) (d a x : BitVec 5) (q : BitVec 1) (f : BitVec 4) (v : Word) (s u : State), (Instr.vxVwmacc cs t d a x q f).wf →
    let w := plainWidth f
    let y := laneWord t (vreg d 32) [vreg a w, vreg d 32]
    ScalarStops (.vxVwmacc cs t d a x q f) y x q s ∧
    (epReady y s = true → ScalarOperand x q v s u → LaneScalarResult (.vxVwmacc cs t d a x q f) y (vreg d 32) (fun e => patternOf 32
      (readElem s (vreg d 32) e + intOf f (readElem s (vreg a w) e) * intOf f (v.toNat % 2 ^ w))) 0 s u))

/-- R188, R193 to R195: the vector float words: each element they act on takes the result of one operation on the operands' elements, and
the flags are the union of those that these elements set; what stops one before its effect, and the wait of a VX form for a queue (R67, R157,
R189). -/
def Obligations.VectorFloat : Prop :=
  (∀ r ∈ floatRows, ∀ (cs t : BitVec 1) (d a b : BitVec 5) (f : BitVec 4) (s : State), (r.1 cs t d a b f).wf →
    let w := plainWidth f
    let y := laneWord t (vreg d w) [vreg a w, vreg b w]
    let g (e : Nat) := r.2 (floatFmt f) (readElem s (vreg a w) e) (readElem s (vreg b w) e)
    WordStops (r.1 cs t d a b f) y (·.arith) 2 1 s ∧
    (epReady y s = true → LaneResult (r.1 cs t d a b f) y (vreg d w) (fun e => (g e).1) (unionFlags s fun e => (g e).2) s)) ∧
  (∀ (cs t : BitVec 1) (d a : BitVec 5) (f : BitVec 4) (s : State), (Instr.vfabs cs t d a f).wf →
    let w := plainWidth f
    let y := laneWord t (vreg d w) [vreg a w]
    let x (e : Nat) := readElem s (vreg a w) e
    WordStops (.vfabs cs t d a f) y (·.arith) 2 1 s ∧ WordStops (.vfneg cs t d a f) y (·.arith) 2 1 s ∧
    (epReady y s = true →
    LaneResult (.vfabs cs t d a f) y (vreg d w) (fun e => (fAbs (floatFmt f) (x e)).1) (unionFlags s fun e => (fAbs (floatFmt f) (x e)).2) s ∧
    LaneResult (.vfneg cs t d a f) y (vreg d w) (fun e => (fNeg (floatFmt f) (x e)).1) (unionFlags s fun e => (fNeg (floatFmt f) (x e)).2) s)) ∧
  (∀ (cs t : BitVec 1) (d a b : BitVec 5) (f : BitVec 4) (s : State), (Instr.vfmacc cs t d a b f).wf →
    let w := plainWidth f
    let y := laneWord t (vreg d w) [vreg a w, vreg b w, vreg d w]
    let g (n : Bool) (e : Nat) := fFma (floatFmt f) n (readElem s (vreg a w) e) (readElem s (vreg b w) e) (readElem s (vreg d w) e)
    WordStops (.vfmacc cs t d a b f) y (·.arith) 2 1 s ∧ WordStops (.vfnmacc cs t d a b f) y (·.arith) 2 1 s ∧
    (epReady y s = true →
    LaneResult (.vfmacc cs t d a b f) y (vreg d w) (fun e => (g false e).1) (unionFlags s fun e => (g false e).2) s ∧
    LaneResult (.vfnmacc cs t d a b f) y (vreg d w) (fun e => (g true e).1) (unionFlags s fun e => (g true e).2) s)) ∧
  (∀ (cs t : BitVec 1) (d a b : BitVec 5) (f : BitVec 4) (s : State), (Instr.vfwmacc cs t d a b f).wf →
    let w := plainWidth f
    let y := laneWord t (vreg d 32) [vreg a w, vreg b w, vreg d 32]
    let g (e : Nat) := fWmacc (floatFmt f) (readElem s (vreg a w) e) (readElem s (vreg b w) e) (readElem s (vreg d 32) e)
    WordStops (.vfwmacc cs t d a b f) y (·.arith) 2 1 s ∧
    (epReady y s = true → LaneResult (.vfwmacc cs t d a b f) y (vreg d 32) (fun e => (g e).1) (unionFlags s fun e => (g e).2) s)) ∧
  (∀ r ∈ floatXRows, ∀ (cs t : BitVec 1) (d a x : BitVec 5) (q : BitVec 1) (f : BitVec 4) (v : Word) (s u : State),
    (r.1 cs t d a x q f).wf →
    let w := plainWidth f
    let y := laneWord t (vreg d w) [vreg a w]
    let g (e : Nat) := r.2 (floatFmt f) (readElem s (vreg a w) e) (v.toNat % 2 ^ w)
    ScalarStops (r.1 cs t d a x q f) y x q s ∧
    (epReady y s = true → ScalarOperand x q v s u →
    LaneScalarResult (r.1 cs t d a x q f) y (vreg d w) (fun e => (g e).1) (unionFlags s fun e => (g e).2) s u)) ∧
  (∀ (cs t : BitVec 1) (d a x : BitVec 5) (q : BitVec 1) (f : BitVec 4) (v : Word) (s u : State), (Instr.vxVfmacc cs t d a x q f).wf →
    let w := plainWidth f
    let y := laneWord t (vreg d w) [vreg a w, vreg d w]
    let g (n : Bool) (e : Nat) := fFma (floatFmt f) n (readElem s (vreg a w) e) (v.toNat % 2 ^ w) (readElem s (vreg d w) e)
    ScalarStops (.vxVfmacc cs t d a x q f) y x q s ∧ ScalarStops (.vxVfnmacc cs t d a x q f) y x q s ∧
    (epReady y s = true → ScalarOperand x q v s u →
    LaneScalarResult (.vxVfmacc cs t d a x q f) y (vreg d w) (fun e => (g false e).1) (unionFlags s fun e => (g false e).2) s u ∧
    LaneScalarResult (.vxVfnmacc cs t d a x q f) y (vreg d w) (fun e => (g true e).1) (unionFlags s fun e => (g true e).2) s u))

/-- R83, R88, R89, R193: the float operations round the exact result once, to the nearest value and ties to even, with NX where that is
not exact, UF where it is then also tiny after rounding, and OF and an infinity beyond the range. -/
def Obligations.FloatArithmetic : Prop :=
  (∀ f ∈ laneFloats, ∀ (neg : Bool) (m : Nat) (e : Int), m ≠ 0 → RoundedTo f (ratOf (.fin neg m e)) (f.rne (.fin neg m e, 0))) ∧
  (∀ f ∈ laneFloats, ∀ (a b c : Nat), finite (f.decode a) = true → finite (f.decode b) = true → finite (f.decode c) = true →
    let x := ratOf (f.decode a)
    let y := ratOf (f.decode b)
    let z := ratOf (f.decode c)
    (x + y ≠ 0 → RoundedTo f (x + y) (fAdd f a b)) ∧ (x - y ≠ 0 → RoundedTo f (x - y) (fSub f a b)) ∧
    (x * y ≠ 0 → RoundedTo f (x * y) (fMul f a b)) ∧ (x ≠ 0 → y ≠ 0 → RoundedTo f (x / y) (fDiv f a b)) ∧
    (x * y + z ≠ 0 → RoundedTo f (x * y + z) (fFma f false a b c)) ∧ (z - x * y ≠ 0 → RoundedTo f (z - x * y) (fFma f true a b c))) ∧
  (∀ f ∈ laneFloats, ∀ (a b c : Nat), finite (f.decode a) = true → finite (f.decode b) = true → finite (fmtF32.decode c) = true →
    let v := ratOf (f.decode a) * ratOf (f.decode b) + ratOf (fmtF32.decode c)
    v ≠ 0 → RoundedTo fmtF32 v (fWmacc f a b c))

/-- R83, R193, R194: the special cases of the float operations: NaN operands and invalid operations; infinities; division by zero; the sign of
an exact zero; the fused forms, the widening one among them; and the minimum and the maximum, which order −0 below +0. -/
def Obligations.FloatSpecialCases : Prop :=
  ∀ f ∈ laneFloats, ∀ (a b c : Nat),
    let nan (x : Nat) := f.decode x = .nan
    let invalid : Nat × Flags := (f.canonNan, flagNV)
    let nought (p : Bool) : Nat × Flags := (if p then f.sign else 0, 0)
    let x := valueOf f a
    let y := valueOf f b
    (nan a ∨ nan b → fAdd f a b = invalid ∧ fSub f a b = invalid ∧ fMul f a b = invalid ∧ fDiv f a b = invalid) ∧
    (nan a → fAbs f a = invalid ∧ fNeg f a = invalid) ∧
    (¬nan a → fAbs f a = (a % f.sign, 0) ∧ fNeg f a = ((a + f.sign) % (2 * f.sign), 0)) ∧
    (∀ p q, f.decode a = .inf p → f.decode b = .inf q →
      fAdd f a b = (if p = q then (f.infBits p, 0) else invalid) ∧ fSub f a b = (if p = q then invalid else (f.infBits p, 0)) ∧
      fMul f a b = (f.infBits (p != q), 0) ∧ fDiv f a b = invalid) ∧
    (∀ p q m e, f.decode a = .inf p → f.decode b = .fin q m e →
      fAdd f a b = (f.infBits p, 0) ∧ fAdd f b a = (f.infBits p, 0) ∧ fSub f a b = (f.infBits p, 0) ∧ fSub f b a = (f.infBits (!p), 0) ∧
      fMul f a b = (if m = 0 then invalid else (f.infBits (p != q), 0)) ∧
      fMul f b a = (if m = 0 then invalid else (f.infBits (p != q), 0)) ∧
      fDiv f a b = (f.infBits (p != q), 0) ∧ fDiv f b a = nought (p != q)) ∧
    (∀ p q m e d, f.decode a = .fin p m e → f.decode b = .fin q 0 d →
      fDiv f a b = (if m = 0 then invalid else (f.infBits (p != q), flagDZ))) ∧
    (finite (f.decode a) = true → finite (f.decode b) = true →
      (x + y = 0 → fAdd f a b = nought (minus f a && minus f b)) ∧ (x - y = 0 → fSub f a b = nought (minus f a && !minus f b)) ∧
      (x * y = 0 → fMul f a b = nought (minus f a != minus f b)) ∧ (x = 0 → y ≠ 0 → fDiv f a b = nought (minus f a != minus f b))) ∧
    FusedSpecials f f false (fFma f false) a b c ∧ FusedSpecials f f true (fFma f true) a b c ∧
    FusedSpecials f fmtF32 false (fWmacc f) a b c ∧
    (∀ g, nan a → ¬nan b → fPick f g a b = (b, flagNV) ∧ fPick f g b a = (b, flagNV)) ∧
    (∀ g, nan a → nan b → fPick f g a b = invalid) ∧ (∀ g, ¬nan a → fPick f g a a = (a, 0)) ∧
    (¬nan a → ¬nan b → (orderOf (f.decode a) < orderOf (f.decode b) ∨ (x = 0 ∧ y = 0 ∧ finite (f.decode a) = true ∧ finite (f.decode b) = true ∧
        minus f a = true ∧ minus f b = false)) →
      fPick f false a b = (a, 0) ∧ fPick f false b a = (a, 0) ∧ fPick f true a b = (b, 0) ∧ fPick f true b a = (b, 0))

/-- R187, R196, R197: the compares and the predicate words: each element they act on gives its bit; every other bit keeps its value. An
integer compare is of exact integers; a float compare of exact values, −0 equal to +0, with NaN as the rule says. -/
def Obligations.CompareWords : Prop :=
  (∀ r ∈ compareRows, ∀ (cs : BitVec 1) (d a b : BitVec 5) (f : BitVec 4) (s : State), (r.1 cs d a b f).wf → fmtInt f = true →
    let w := plainWidth f
    epReady (predicateWord [vreg a w, vreg b w]) s = true →
    PredicateResult (r.1 cs d a b f) d
      (fun e => r.2.1 (intOf f (readElem s (vreg a w) e) : Rat) (intOf f (readElem s (vreg b w) e) : Rat)) 0 s) ∧
  (∀ r ∈ compareRows, ∀ (cs : BitVec 1) (d a b : BitVec 5) (f : BitVec 4) (s : State), (r.1 cs d a b f).wf → fmtFloat f = true →
    let w := plainWidth f
    let x (e : Nat) := (floatFmt f).decode (readElem s (vreg a w) e)
    let y (e : Nat) := (floatFmt f).decode (readElem s (vreg b w) e)
    let nan (e : Nat) : Bool := x e == .nan || y e == .nan
    epReady (predicateWord [vreg a w, vreg b w]) s = true →
    PredicateResult (r.1 cs d a b f) d (fun e => if nan e then r.2.2.1 else r.2.1 (orderOf (x e)) (orderOf (y e)))
      (unionFlags s fun e => if nan e && r.2.2.2 then flagNV else 0) s) ∧
  (∀ r ∈ predRows, ∀ (cs : BitVec 1) (d a b : BitVec 5) (s : State), (r.1 cs d a b).wf → epReady (predicateWord []) s = true →
    PredicateResult (r.1 cs d a b) d (fun e => r.2 ((readP s a.toNat).getLsbD e) ((readP s b.toNat).getLsbD e)) 0 s)

/-- R88, R90 to R92: what rounding does: in each mode the count of quanta is one of the two neighbours of the exact magnitude, the one the
mode names; an integer destination saturates or traps; a float destination keeps every value that it has, takes the adjacent value that the
mode picks, with NX and UF, and meets an overflow, a NaN and an infinity as its policy says. The directed and stochastic roundings beyond the
range are the model's reading (log entries 15 and 16). -/
def Obligations.ConversionRounding : Prop :=
  (∀ (mode : Nat) (neg : Bool) (r24 m : Nat) (e q : Int),
    let y := ratOf (.fin false m (e - q))
    let z := roundQuanta mode neg r24 m e q
    let k : Rat := z.1
    y - 1 < k ∧ k < y + 1 ∧ (z.2 = true ↔ k = y) ∧
    (mode = 0 → absRat (k - y) ≤ 1 / 2 ∧ (absRat (k - y) = 1 / 2 → z.1 % 2 = 0)) ∧ (mode = 1 → k ≤ y) ∧
    (mode = 2 → if neg then y ≤ k else k ≤ y) ∧ (mode = 3 → if neg then k ≤ y else y ≤ k) ∧
    (mode = 4 → (y < k ↔ (r24 % 2 ^ 24 : Nat) + 1 ≤ (y - y.floor) * 2 ^ 24)) ∧
    (mode = 5 → absRat (k - y) ≤ 1 / 2 ∧ (absRat (k - y) = 1 / 2 → y ≤ k))) ∧
  (∀ (c : BitVec 4) (w : Nat) (signed : Bool) (mode ovf r24 : Nat), plainFmt c = .int w signed →
    let g := plainFmt c
    (∀ (neg : Bool) (m : Nat) (e : Int),
      let z := roundQuanta mode neg r24 m e 0
      let v : Int := if neg then -(z.1 : Int) else z.1
      g.round mode ovf r24 (.fin neg m e) =
        if intBottom c ≤ v ∧ v ≤ intTop c then some (patternOf w v, if z.2 then 0 else flagNX)
        else if ovf = 3 then none else some (patternOf w (clampTo c v), flagSAT ||| flagNV ||| flagNX)) ∧
    g.round mode ovf r24 .nan = (if ovf = 3 then none else some (0, flagNV)) ∧
    (∀ neg, g.round mode ovf r24 (.inf neg) =
      if ovf = 3 then none else some (patternOf w (if neg then intBottom c else intTop c), flagSAT ||| flagNV))) ∧
  (∀ (c : BitVec 4) (f : FFmt) (mode ovf r24 : Nat), plainFmt c = .flt f →
    (∀ b, b < 2 ^ f.bits → finite (f.decode b) = true → f.round mode ovf r24 (f.decode b) = some (b, 0)) ∧
    (mode < 6 → ∀ (neg : Bool) (m : Nat) (e : Int), FloatRounds c f mode ovf r24 neg m e) ∧
    (f.top ≠ .normal → f.round mode ovf r24 .nan = some (f.canonNan, flagNV)) ∧
    (f.top = .normal → (ovf = 0 → f.round mode ovf r24 .nan = some (0, flagNV)) ∧ (ovf = 3 → f.round mode ovf r24 .nan = none)) ∧
    (∀ neg, (f.top = .special → f.round mode ovf r24 (.inf neg) = some (f.infBits neg, 0)) ∧
      (f.top ≠ .special → OverflowGives c f ovf neg 0 (f.round mode ovf r24 (.inf neg)))))

/-- R106, R198 to R200: the conversions: each element acted on takes the rounding of its exact value in the destination's format; the
lowest one that traps ends the word with FP_TRAP, the elements below it converted; a block form reads or writes the block's scales, and
traps where the scales supplied are not the number it needs. The salt and the trapping element of a block are the model's reading (log
entries 17 and 18). -/
def Obligations.VectorConvert : Prop :=
  (∀ (cs t : BitVec 1) (d a : BitVec 5) (g h : BitVec 4) (o : BitVec 2) (r : BitVec 3) (s : State), (Instr.vcvt cs t d a g h o r).wf →
    let dst := vreg d (plainWidth g)
    let src := vreg a (plainWidth h)
    let y := laneWord t dst [src]
    let mode := if r = 6 then field s.c.sys.fpctl 9 3 else r.toNat
    let conv (e : Nat) := (plainFmt g).round mode o.toNat (randomBits s mode e) ((plainFmt h).decode (readElem s src e))
    epReady y s = true →
    ((∀ e, acts s e = true → conv e ≠ none) → ∃ u, exec (.vcvt cs t d a g h o r) s = .next u ∧
      VectorResult vectors y dst (fun e => ((conv e).getD (0, 0)).1) (unionFlags s fun e => ((conv e).getD (0, 0)).2)
        (afterBroadcast mode s) u) ∧
    (∀ e, acts s e = true → conv e = none → (∀ k, k < e → acts s k = true → conv k ≠ none) →
      ∃ u, exec (.vcvt cs t d a g h o r) s = .next u ∧
        ElementTrap 0x0C e (BitVec.ofNat 64 (readElem s src e % 2 ^ (plainFmt h).size)) s u ∧ u.mem = (finishIssues s).mem ∧ u.c.x = s.c.x ∧
        (t = 0 → ∀ k, k < vlmaxNow s → dst.reg + k / (4096 / dst.width) < 32 → fileElem u dst (vlmaxNow s) (rotNow s) k =
          if acts s k = true ∧ k < e then ((conv k).getD (0, 0)).1 % 2 ^ dst.width else fileElem s dst (vlmaxNow s) (rotNow s) k))) ∧
  (∀ (cs t : BitVec 1) (d a : BitVec 5) (g h : BitVec 4) (o : BitVec 2) (r : BitVec 3) (s : State),
    (Instr.vcvtBlock cs t d a g h o r).wf → fmtFloat g = true →
    let b := h.toNat
    let dst := vreg d (plainWidth g)
    let src := vreg a (blockWidth b)
    let y : EpWord := { laneWord t dst [src] with bad := field s.c.sys.vfmt 12 4 != b + 1 }
    let mode := if r = 6 then field s.c.sys.fpctl 9 3 else r.toNat
    let val (e : Nat) := scaledValue b (s.rk (kregNow s)) (blocksFor b (vlmaxNow s)) e (readElem s src e)
    let conv (e : Nat) := ((plainFmt g).round mode o.toNat (randomBits s mode e) (val e).1).map fun z => (z.1, z.2 ||| (val e).2)
    epReady y s = true → suppliedCount s (blocksFor b (vlNow s)) = blocksFor b (vlNow s) →
    (∀ e, acts s e = true → conv e ≠ none) → ∃ u, exec (.vcvtBlock cs t d a g h o r) s = .next u ∧
      VectorResult vectors y dst (fun e => ((conv e).getD (0, 0)).1) (unionFlags s fun e => ((conv e).getD (0, 0)).2)
        (afterBroadcast mode s) u) ∧
  (∀ (cs t : BitVec 1) (d a : BitVec 5) (g h : BitVec 4) (o : BitVec 2) (r : BitVec 3) (s : State),
    (Instr.vcvtBlock cs t d a g h o r).wf → fmtFloat g = false →
    let b := g.toNat
    let dst := vreg d (blockWidth b)
    let src := vreg a (plainWidth h)
    let y : EpWord := { laneWord t dst [src] with bad := field s.c.sys.vfmt 12 4 != b + 1 }
    let mode := if r = 6 then field s.c.sys.fpctl 9 3 else r.toNat
    let enc (j : Nat) := encodedBlock s (epEnv s) b mode (convSalt s) o.toNat (fun e => (plainFmt h).decode (readElem s src e)) j
    let code (e : Nat) := (enc (e / blockLen b)).codes.getD (e % blockLen b) .trap
    let bitsOf (e : Nat) : Nat × Flags := match code e with | .bits v fl => (v, fl) | _ => (0, 0)
    let first := (epEnv s).first / blockLen b
    let blocks := (List.range (blocksFor b (vlNow s))).filter (first ≤ ·)
    epReady y s = true → suppliedCount s (blocksFor b (vlNow s)) = blocksFor b (vlNow s) →
    (∀ e, acts s e = true → ∃ v fl, code e = .bits v fl) → ∃ u, exec (.vcvtBlock cs t d a g h o r) s = .next u ∧
      VectorResult (fun c => vectors { c with k := Vector.replicate 8 0 }) y dst (fun e => (bitsOf e).1)
        ((unionFlags s fun e => (bitsOf e).2) ||| blocks.foldl (fun acc j => acc ||| (enc j).flags) 0) (afterBroadcast mode s) u ∧
      (∀ j, j < blocksFor b (vlmaxNow s) → scaleSlot (u.rk (kregNow s)) j =
        if j ∈ blocks then (enc j).slot % 2 ^ 16 else scaleSlot (s.rk (kregNow s)) j) ∧
      (∀ k, k ≠ kregNow s → u.rk k = s.rk k)) ∧
  (∀ (cs t : BitVec 1) (d a : BitVec 5) (g h : BitVec 4) (o : BitVec 2) (r : BitVec 3) (s : State),
    let b := (if fmtFloat g then h else g).toNat
    let dst := vreg d (if fmtFloat g then plainWidth g else blockWidth b)
    let src := vreg a (if fmtFloat g then blockWidth b else plainWidth h)
    let y : EpWord := { laneWord t dst [src] with bad := field s.c.sys.vfmt 12 4 != b + 1 }
    let n := blocksFor b (vlNow s)
    epReady y s = true → suppliedCount s n ≠ n → ∃ u, exec (.vcvtBlock cs t d a g h o r) s = .next u ∧ ElementTrap 0x0B 0 s.c.pc s u ∧
      u.c.sys.taux0 = BitVec.ofNat 64 (n % 65536 * 65536 + suppliedCount s n % 65536) ∧ u.c.v = s.c.v ∧ u.c.k = s.c.k ∧ u.mem = (finishIssues s).mem)

/-- R22, R60, R106, R127, R128, R210 to R215, R218: the vector loads: what stops one before its elements, rows 1 and 2 of R213 with it; what
each element's checks answer, rows 3 to 8 in order; each element acted on takes the bits read at its
address, in the state that the elements below it leave; a fault ends the word at its element, or, in a first-fault load after a live element,
trims it; the addresses of a strip and of a sweep are those of R211, and an element beyond a sweep's product raises LIMIT. -/
def Obligations.VectorLoads : Prop :=
  (∀ (cs : BitVec 1) (d : BitVec 5) (a : BitVec 4) (m w : BitVec 3) (r : BitVec 1) (f : BitVec 4) (s : State),
    (Instr.vld cs d a m w r f).wf → WordStops (.vld cs d a m w r f) (vldForm s cs d a m w r f).y (·.vmem) 1 2 s ∧
    WordStops (.vldff cs d a m w r f) (vldForm s cs d a m w r f).y (·.vmem) 1 2 s ∧
    (epReady (vldForm s cs d a m w r f).y s = true → StripStops (vldForm s cs d a m w r f) s ∧
      StripStops { vldForm s cs d a m w r f with i := .vldff cs d a m w r f } s) ∧
    (epReady (vldForm s cs d a m w r f).y s = true → wordChecks s (s.ra a.toNat) (r == 1#1) m (plainWidth f) = none →
      LoadCompletes (vldForm s cs d a m w r f) s ∧ LoadTraps (vldForm s cs d a m w r f) s)) ∧
  (∀ (cs : BitVec 1) (d : BitVec 5) (a : BitVec 4) (i : BitVec 5) (r : BitVec 1) (f : BitVec 4) (s : State),
    (Instr.vgath cs d a i r f).wf → WordStops (.vgath cs d a i r f) (vgathForm s cs d a i r f).y (·.vmem) 1 2 s ∧
    (epReady (vgathForm s cs d a i r f).y s = true → StripStops (vgathForm s cs d a i r f) s ∧
      (wordChecks s (s.ra a.toNat) (r == 1#1) 0 (plainWidth f) = none →
        LoadCompletes (vgathForm s cs d a i r f) s ∧ LoadTraps (vgathForm s cs d a i r f) s))) ∧
  (∀ (r : AReg) (w : Nat) (rlx : Bool) (addr : ElemAddr) (e : Nat) (u : State),
    ElementChecks r { l := true } w rlx addr e u ∧ ElementChecks r { s := true } w rlx addr e u) ∧
  (∀ (cs : BitVec 1) (d : BitVec 5) (a : BitVec 4) (m w : BitVec 3) (r : BitVec 1) (f : BitVec 4) (s u : State) (got : List (Nat × Nat))
      (stop : Option Stop), (Instr.vldff cs d a m w r f).wf →
    let x := vldForm s cs d a m w r f
    epReady x.y s = true → wordChecks s (s.ra a.toNat) (r == 1#1) m (plainWidth f) = none →
    loadLoop s (s.ra a.toNat) x.d.width r x.addr = (got, u, stop) →
    let ends (fe : Nat) (trim : Bool) (cause : BitVec 8) : Prop := ∃ t, exec (.vldff cs d a m w r f) s = .next t ∧
      VectorResult banked x.y x.d (gotElem got u x.y x.d) 0 (setFfs fe trim cause (stripMoved a m x.d.width s u)) t ∧
      field t.c.sys.ffs 0 11 = fe % 2048 ∧ bit t.c.sys.ffs 16 = trim ∧ field t.c.sys.ffs 24 8 = cause.toNat
    (stop = none → ends (vlNow s) false 0) ∧ (∀ n, stop = some (.wait n) → StripWaits { x with i := .vldff cs d a m w r f } n s u) ∧
    (∀ e i, stop = some (.trap e i) → i.cause ∈ [0x05, 0x06, 0x07, 0x08, 0x09] → (∃ k, k < e ∧ (epEnv s).live k = true) →
      ends e true i.cause) ∧
    (∀ e i, stop = some (.trap e i) → ¬(i.cause ∈ [0x05, 0x06, 0x07, 0x08, 0x09] ∧ ∃ k, k < e ∧ (epEnv s).live k = true) →
      ∃ t, exec (.vldff cs d a m w r f) s = .next t ∧ ElementTrap i.cause.toNat e i.tval s t)) ∧
  (∀ (s : State) (r : AReg) (w : Nat) (rlx : BitVec 1) (addr : ElemAddr) (got : List (Nat × Nat)) (u : State) (stop : Option Stop),
    loadLoop s r w rlx addr = (got, u, stop) →
    (∀ e v, (e, v) ∈ got → acts s e = true ∧ ∃ p x loc s1 s2 below, addr e = some (p, x) ∧
      bit r.perm 0 = true ∧ (r.base.toNat : Int) ≤ p ∧ p + elemBytes w ≤ r.limit.toNat ∧
      memLoop (loadElem r w (rlx == 1#1) addr) ((epEnv s).todo.filter (· < e)) s = (below, s1, none) ∧
      elemAccess r { l := true } w (rlx == 1#1) addr e s1 = .ok loc s2 ∧ v = elemLoad s2 w e loc) ∧
    (stop = none → ∀ e, acts s e = true → ∃ v, (e, v) ∈ got) ∧
    (∀ e i, stop = some (.trap e i) → acts s e = true ∧ ∀ k, (∃ v, (k, v) ∈ got) ↔ acts s k = true ∧ k < e)) ∧
  (∀ (s : State) (w e loc : Nat), ctrlOff loc = none →
    elemLoad s w e loc = if w = 4 then coreRead s loc 1 / 16 ^ (e % 2) % 16 else coreRead s loc (w / 8)) ∧
  (∀ (s : State) (v : EpEnv) (r : AReg) (w e : Nat), stripAddr s v r 0 w e = some ((r.ptr.toNat : Int) + (e * w / 8 : Nat), 0)) ∧
  (∀ (s u : State) (v : EpEnv) (r : AReg) (w e : Nat) (h : BitVec 3), 1 ≤ h.toNat → h.toNat ≤ 6 →
    let b := if h.toNat ≤ 3 then 0 else 3
    let dims := h.toNat - b
    let len (k : Nat) : Nat := if k < dims then (s.rd (b + k)).len.toNat else 1
    let step (k : Nat) : Int := if k < dims then (s.rd (b + k)).stride.toInt else 0
    let j := v.sbase.toNat + e
    (∀ i0 i1 i2, i0 < len 0 → i1 < len 1 → i2 < len 2 → j = i0 + len 0 * (i1 + len 1 * i2) →
      stripAddr s v r h w e = some (r.ptr.toNat + i0 * step 0 + i1 * step 1 + i2 * step 2,
        BitVec.ofNat 64 (i0 % 65536 + i1 % 65536 * 2 ^ 16 + i2 % 65536 * 2 ^ 32))) ∧
    (len 0 * len 1 * len 2 ≤ j → stripAddr s v r h w e = none ∧ ∀ need rlx, elemAccess r need w rlx (stripAddr s v r h w) e u =
      .trap { u.trapInfo false 0x06 r.ptr with telem := e, estart := e, inLane := true } u))

/-- R43, R60, R106, R112, R128, R207 to R213, R218: the vector stores go to the store buffers: what stops one before its elements; the context
reads back what each element stored, the later over the earlier, and a fault ends the word at its element. SCOMMIT asks for a commit of what
is buffered then; COMMIT, where a commit takes effect, makes the bytes asked for visible, the newest of each, leaves the younger ones
buffered, and moves the containment point to that commit.
Half bytes and control space are the model's reading (log entries 19 and 20). -/
def Obligations.VectorStores : Prop :=
  (∀ (cs : BitVec 1) (d : BitVec 5) (a : BitVec 4) (m w : BitVec 3) (r : BitVec 1) (f : BitVec 4) (s : State),
    (Instr.vst cs d a m w r f).wf → WordStops (.vst cs d a m w r f) (vstForm s cs d a m w r f).y (·.vmem) 1 2 s ∧
    (epReady (vstForm s cs d a m w r f).y s = true → StripStops (vstForm s cs d a m w r f) s) ∧
    (epReady (vstForm s cs d a m w r f).y s = true → wordChecks s (s.ra a.toNat) (r == 1#1) m (plainWidth f) = none →
      StoreCompletes (vstForm s cs d a m w r f) s ∧ StoreTraps (vstForm s cs d a m w r f) s)) ∧
  (∀ (cs : BitVec 1) (d : BitVec 5) (a : BitVec 4) (i : BitVec 5) (r : BitVec 1) (f : BitVec 4) (s : State),
    (Instr.vscat cs d a i r f).wf → WordStops (.vscat cs d a i r f) (vscatForm s cs d a i r f).y (·.vmem) 1 2 s ∧
    (epReady (vscatForm s cs d a i r f).y s = true → StripStops (vscatForm s cs d a i r f) s ∧
      (wordChecks s (s.ra a.toNat) (r == 1#1) 0 (plainWidth f) = none →
        StoreCompletes (vscatForm s cs d a i r f) s ∧ StoreTraps (vscatForm s cs d a i r f) s))) ∧
  (∀ (s : State), s.cs ≠ .active → exec .commit s = .next s) ∧
  (∀ (s : State), s.cs = .active → MemoriesOk s → BufferOk s → ∃ t, exec .commit s = .next t ∧
    t.c.sbuf = s.c.sbuf.filter (fun e => !e.due) ∧ t.c.older = [] ∧ t.c.dirty = s.c.dirty ∧
    (∀ l, locByte t l = (bufByte l (s.c.sbuf.filter (·.due))).getD (locByte s l)) ∧
    (∀ old new, s.c.sbuf = old ++ new → (∀ e ∈ old, e.due = true) → (∀ e ∈ new, e.due = false) →
      t.c.sbuf = new ∧ ∀ l, coreByte t l = coreByte s l) ∧ Frame nothing (storedOut s) (storedOut t)) ∧
  (∀ (cs : BitVec 1) (s : State), epReady (vkWord false) s = true → MemoriesOk s → BufferOk s → ∃ t, exec (.scommit cs) s = .next t ∧
    t.c.sbuf = s.c.sbuf.map (fun e => { e with due := true }) ∧ t.mem = s.mem ∧ t.c.scratch = s.c.scratch ∧
    (∀ l, coreByte t l = coreByte s l) ∧ t.c.dirty = [] ∧ (∀ r, r ∈ s.c.dirty ∨ r ∈ s.c.older → r ∈ t.c.older) ∧
    (∀ r, r ∈ t.c.older → r ∈ s.c.dirty ∨ r ∈ s.c.older ∨ r = .sys 6) ∧ Frame epEnd (storedOut s) (storedOut t) ∧ Completed s t ∧
    (s.cs = .active → ∃ v, exec .commit t = .next v ∧ v.c.sbuf = [] ∧ v.c.older = [] ∧ ∀ l, locByte v l = coreByte s l))

/-- R221 to R225: permutes, plans, broadcasts and scans: where each element of the result comes from; a plan names the source it was made
from. The chamber's act, with every lane at one word, changes nothing by itself (R24). VLMAX1, and the 0 that a plan's source
beyond the register group gives, are the model's reading (log entries 23 and 72). -/
def Obligations.ChamberPermutes : Prop :=
  (∀ (cs t : BitVec 1) (d a b : BitVec 5) (f : BitVec 4) (s : State), (Instr.vperm cs t d a b f).wf →
    let w := plainWidth f
    let y := classWord .chamber t (vreg d w) [vreg a w, vreg b 16]
    let from_ (j : Nat) := if j < vlmaxNow s then readElem s (vreg a w) j else 0
    WordStops (.vperm cs t d a b f) y (·.chamber) 1 3 s ∧ WordStops (.vpermp cs t d a b f) y (·.chamber) 1 3 s ∧
    (epReady y s = true →
      LaneResult (.vperm cs t d a b f) y (vreg d w) (fun e => from_ (readElem s (vreg b 16) e)) 0 s ∧
      LaneResult (.vbrd cs t d a b f) y (vreg d w) (fun _ => from_ (readElem s (vreg b 16) 0)) 0 s ∧
      LaneResult (.vpermp cs t d a b f) y (vreg d w) (fun e =>
        match planSource (vlmax1Now s) (regCount (vlmaxNow s) w) (rotNow s) e (readElem s (vreg b 16) e) with
        | none => 0
        | some j => readElem s (vreg a w) j) 0 s)) ∧
  (∀ (cs t : BitVec 1) (d a : BitVec 5) (s : State),
    let y := classWord .chamber t (vreg d 16) [vreg a 16]
    epReady y s = true → LaneResult (.pplan cs t d a) y (vreg d 16)
      (fun e => planEntry (vlmaxNow s) (vlmax1Now s) e (readElem s (vreg a 16) e)) 0 s) ∧
  (∀ (g i j : Nat) (w : Nat) (strip : Word), w ∈ [4, 8, 16, 32] → 2 ^ g * (4096 / w) ≤ 1024 → i < 2 ^ g * (4096 / w) →
    planSource (4096 / w) (2 ^ g) (rotOf strip) i (planEntry (2 ^ g * (4096 / w)) (4096 / w) i j)
      = if j < 2 ^ g * (4096 / w) then some j else none) ∧
  (∀ (cs t : BitVec 1) (d a : BitVec 5) (f : BitVec 4) (s : State), (Instr.vscan cs t d a f).wf → fmtInt f = true →
    let w := plainWidth f
    let y := classWord .chamber t (vreg d w) [vreg a w]
    epReady y s = true → LaneResult (.vscan cs t d a f) y (vreg d w) (fun e =>
      patternOf w (sumInt (((epEnv s).lives.filter (· ≤ e)).map fun k => intOf f (readElem s (vreg a w) k)))) 0 s) ∧
  (∀ (cs t : BitVec 1) (d a : BitVec 5) (f : BitVec 4) (s : State), (Instr.vscan cs t d a f).wf → fmtFloat f = true →
    let w := plainWidth f
    let y := classWord .chamber t (vreg d w) [vreg a w]
    let g (e : Nat) := sumFloat (floatFmt f) (((epEnv s).lives.filter (· ≤ e)).map fun k => readElem s (vreg a w) k)
    epReady y s = true →
    LaneResult (.vscan cs t d a f) y (vreg d w) (fun e => (g e).1) (unionFlags s fun e => (g e).2) s) ∧
  (∀ (s : State), exec .chamberAct s = .next s)

/-- R98, R224: the reductions fold the live elements, whatever ESTART is, into every element they act on and, where the word names one,
into a queue, waiting with reason 5 while it is full; a float sum is rounded once. That ESTART is ignored is the model's reading (log
entry 44). -/
def Obligations.Reductions : Prop :=
  (∀ r ∈ reduceRows, ∀ (cs t : BitVec 1) (d a q : BitVec 5) (f : BitVec 4) (s : State), (r.1 cs t d a q f).wf → fmtInt f = true →
    let w := plainWidth f
    let y := classWord .chamber t (vreg d w) [vreg a w]
    let v := patternOf w (r.2 f (liveElems s (vreg a w)))
    epReady y s = true → (q = 0 ∨ (s.rq q.toNat).length < 64) →
    Reduced (r.1 cs t d a q f) y (vreg d w) v 0 q (BitVec.ofInt 64 (intOf f v)) s) ∧
  (∀ (cs t : BitVec 1) (d a q : BitVec 5) (f : BitVec 4) (s : State), (Instr.vredsum cs t d a q f).wf → fmtFloat f = true →
    let w := plainWidth f
    let y := classWord .chamber t (vreg d w) [vreg a w]
    let sum := sumFloat (floatFmt f) (liveElems s (vreg a w))
    let least := foldPick f false (liveElems s (vreg a w))
    let greatest := foldPick f true (liveElems s (vreg a w))
    epReady y s = true → (q = 0 ∨ (s.rq q.toNat).length < 64) →
    Reduced (.vredsum cs t d a q f) y (vreg d w) sum.1 sum.2 q (BitVec.ofNat 64 sum.1) s ∧
    Reduced (.vredmin cs t d a q f) y (vreg d w) least.1 least.2 q (BitVec.ofNat 64 least.1) s ∧
    Reduced (.vredmax cs t d a q f) y (vreg d w) greatest.1 greatest.2 q (BitVec.ofNat 64 greatest.1) s) ∧
  (∀ r ∈ reduceRows, ∀ (cs t : BitVec 1) (d a q : BitVec 5) (f : BitVec 4) (s : State), (r.1 cs t d a q f).wf → q ≠ 0 →
    epReady (classWord .chamber t (vreg d (plainWidth f)) [vreg a (plainWidth f)]) s = true → 64 ≤ (s.rq q.toNat).length →
    Waits (r.1 cs t d a q f) 5 s) ∧
  (∀ f ∈ laneFloats, ∀ (l : List Nat), (∀ x ∈ l, finite (f.decode x) = true) →
    let v := l.foldr (fun x (acc : Rat) => ratOf (f.decode x) + acc) 0
    v ≠ 0 → RoundedTo f v (sumFloat f l))

/-- R16, R180, R181, R184, R204 to R206, R216, R217: VL of a strip, trimmed while TACT is set; VFMT sets the format; VLOOP enters its body
with strip 0, or skips it where the count is 0, and is ILLEGAL_INSN where it nests badly; VPART writes the predicate of the elements below
FFS.FE; VTRIM trims VL to FFS.FE. -/
def Obligations.VectorControl : Prop :=
  (∀ (s : State),
    let v := s.c.vloop
    let full := if v.active then min v.vlmax (v.n.toNat - v.strip.toNat * v.vlmax) else vlmaxNow s
    vlNow s = (if bit s.c.sys.ffs 47 then min (field s.c.sys.ffs 32 11) full else full)) ∧
  (∀ (cs : BitVec 1) (e k : BitVec 5) (r : BitVec 3) (g : BitVec 2) (s : State), (Instr.vfmt cs e k r g).wf →
    let v := BitVec.ofNat 64 (e.toNat + g.toNat * 2 ^ 8 + k.toNat * 2 ^ 12 + r.toNat * 2 ^ 16)
    (s.c.vloop.active = true → vlmaxOf v = s.c.vloop.vlmax) → epReady (vkWord false) s = true →
    ∃ t, exec (.vfmt cs e k r g) s = .next t ∧ t.c.sys.vfmt = v ∧
      Frame (fun c => epEnd { c with sys := { c.sys with vfmt := 0 } }) s t ∧
      Completed (s.withSys { s.c.sys with ffs := setBit s.c.sys.ffs 47 false }) t) ∧
  (∀ (cs : BitVec 1) (e k : BitVec 5) (r : BitVec 3) (g : BitVec 2) (s : State),
    s.c.vloop.active = true → vlmaxOf (vfmtValue e k r g) ≠ s.c.vloop.vlmax → TakesTrap (.vfmt cs e k r g) (s.illegal false) s) ∧
  (∀ (cs : BitVec 1) (h a j : BitVec 5) (s : State), epReady (vkWord false) s = true →
    let last := s.c.pc + BitVec.ofNat 64 (4 * (h.toNat * 32 + j.toNat + 1))
    let bad := s.c.vloop.active = true ∨ ∃ l, l < 3 ∧ inBody (s.rdesc l) s.c.pc = true ∧ descLast (s.rdesc l) ≤ last
    (bad → TakesTrap (.vloop cs h a j) (s.illegal false) s) ∧
    (¬bad → ∃ t, exec (.vloop cs h a j) s = .next t ∧ Frame epEnd s t ∧ t.c.sys.retired = s.c.sys.retired + 1 ∧ t.c.lc = s.c.lc ∧
      t.c.desc = s.c.desc ∧ bit t.c.sys.ffs 47 = false ∧
      if s.rx a = 0 then t.c.pc = last + 4 ∧ t.c.vloop = s.c.vloop
      else t.c.pc = s.c.pc + 4 ∧
        t.c.vloop = { active := true, n := s.rx a, strip := 0, vlmax := vlmaxNow s, first := s.c.pc + 4, last := last })) ∧
  (∀ (cs : BitVec 1) (d : BitVec 5) (s : State), (Instr.vpart cs d).wf → epReady { cls := .control } s = true →
    (s.c.mat.issues ≠ [] → Waits (.vpart cs d) 14 s) ∧
    (s.c.mat.issues = [] → PredicateResult (.vpart cs d) d (fun e => decide (e < field s.c.sys.ffs 0 11)) 0 s)) ∧
  (∀ (cs : BitVec 1) (s : State), epReady (vkWord false) s = true → s.c.mat.issues ≠ [] → Waits (.vtrim cs) 14 s) ∧
  (∀ (cs : BitVec 1) (s : State), epReady (vkWord false) s = true → s.c.mat.issues = [] → ∃ t, exec (.vtrim cs) s = .next t ∧
    let u := s.withSys { s.c.sys with ffs := setBit (setField s.c.sys.ffs 32 11 (min (field s.c.sys.ffs 0 11) (vlNow s))) 47 true }
    Frame epEnd u t ∧ Completed u t ∧ (¬lastWord s → vlNow t = min (field s.c.sys.ffs 0 11) (vlNow s)))

/-- R83, R96, R97, R201, R202: the special functions take their operation's result on each element; the exact cases of their table; in f32
the algorithms of R97 step by step, on its tables; in f16 and bf16 the nearest value of 1 ÷ x, of 1 ÷ √x, of √x where it is exact, and the
exact values of exp2, log2, sinpi and cospi; VRAND gives each element its bits of the Sluice generator. -/
def Obligations.SpecialFunctions : Prop :=
  (∀ r ∈ specialRows, ∀ (cs t : BitVec 1) (d a : BitVec 5) (f : BitVec 4) (s : State), (r.1 cs t d a f).wf →
    let w := plainWidth f
    let y := classWord .special t (vreg d w) [vreg a w]
    let g (e : Nat) := r.2 (floatFmt f) (readElem s (vreg a w) e)
    WordStops (r.1 cs t d a f) y (·.special) 1 4 s ∧
    (epReady y s = true → LaneResult (r.1 cs t d a f) y (vreg d w) (fun e => (g e).1) (unionFlags s fun e => (g e).2) s)) ∧
  (∀ (cs t : BitVec 1) (d h j : BitVec 5) (f : BitVec 4) (s : State), (Instr.vrand cs t d h j f).wf →
    let w := plainWidth f
    epReady (classWord .special t (vreg d w) []) s = true →
    LaneResult (.vrand cs t d h j f) (classWord .special t (vreg d w) []) (vreg d w) (fun e =>
      (sluice s.c.sys.seed 2 (h.toNat * 32 + j.toNat) (sbaseOf s.c.vloop + BitVec.ofNat 64 e) 0).toNat % 2 ^ w) 0 s) ∧
  (∀ f ∈ laneFloats, ∀ (a : Nat), f.decode a = .nan → ∀ r ∈ specialRows, r.2 f a = (f.canonNan, flagNV)) ∧
  (∀ f ∈ laneFloats, ∀ (a : Nat) (neg : Bool) (e : Int), f.decode a = .fin neg 0 e →
    let nought := if neg then f.sign else 0
    let one := f.pack false (2 ^ f.mb) (-(f.mb : Int))
    fRcp f a = (f.infBits neg, flagDZ) ∧ fRsq f a = (f.infBits neg, flagDZ) ∧ fSqrt f a = (nought, 0) ∧ fExp2 f a = (one, 0) ∧
    fLog2 f a = (f.infBits true, flagDZ) ∧ fSinpi f a = (nought, 0) ∧ fCospi f a = (one, 0) ∧ fTanh f a = (nought, 0)) ∧
  (∀ f ∈ laneFloats, ∀ (a : Nat) (neg : Bool), f.decode a = .inf neg →
    let one := f.pack neg (2 ^ f.mb) (-(f.mb : Int))
    let invalid : Nat × Flags := (f.canonNan, flagNV)
    fRcp f a = (if neg then f.sign else 0, 0) ∧ fRsq f a = (if neg then invalid else (0, 0)) ∧
    fSqrt f a = (if neg then invalid else (f.infBits false, 0)) ∧ fExp2 f a = (if neg then 0 else f.infBits false, 0) ∧
    fLog2 f a = (if neg then invalid else (f.infBits false, 0)) ∧ fSinpi f a = invalid ∧ fCospi f a = invalid ∧ fTanh f a = (one, 0)) ∧
  (∀ f ∈ laneFloats, ∀ (a : Nat) (m : Nat) (e : Int), f.decode a = .fin true m e → m ≠ 0 →
    fRsq f a = (f.canonNan, flagNV) ∧ fSqrt f a = (f.canonNan, flagNV) ∧ fLog2 f a = (f.canonNan, flagNV)) ∧
  (∀ f ∈ laneFloats, ∀ (a : Nat), finite (f.decode a) = true → ratOf (f.decode a) ≠ 0 → RoundedTo f (1 / ratOf (f.decode a)) (fRcp f a)) ∧
  (∀ f ∈ laneFloats, ∀ (a b : Nat), finite (f.decode a) = true → b < f.sign → finite (f.decode b) = true →
    ratOf (f.decode b) ≠ 0 → ratOf (f.decode a) = ratOf (f.decode b) * ratOf (f.decode b) → fSqrt f a = (b, 0)) ∧
  (∀ (a : Nat), finite (fmtF32.decode a) = true →
    let x := valueOf fmtF32 a
    let one := 0x3F800000
    (128 ≤ x → fExp2 fmtF32 a = (fmtF32.infBits false, flagOF)) ∧ (x ≤ -160 → fExp2 fmtF32 a = (0, flagUF)) ∧
    (-160 < x → x < 128 → Exp2By x (fExp2 fmtF32 a)) ∧
    (∀ (m : Rat) (n : Int), 1 ≤ m → m < 2 → x = m * 2 ^ n → Log2By m n (fLog2 fmtF32 a)) ∧
    (∀ (m : Rat) (n : Int), 1 ≤ m → m < 4 → x = m * 4 ^ n → RsqBy m n (fRsq fmtF32 a)) ∧
    (2 ^ 24 ≤ absRat x → fSinpi fmtF32 a = (if minus fmtF32 a then fmtF32.sign else 0, 0) ∧ fCospi fmtF32 a = (one, 0)) ∧
    (absRat x < 2 ^ 24 → TrigBy false (minus fmtF32 a) x (fSinpi fmtF32 a) ∧ TrigBy true (minus fmtF32 a) x (fCospi fmtF32 a)) ∧
    (let sign := if minus fmtF32 a then fmtF32.sign else 0
     (9 ≤ absRat x → fTanh fmtF32 a = (sign + one, 0)) ∧ (absRat x < 1 / 2 ^ 12 → fTanh fmtF32 a = (a % 2 ^ 32, 0)) ∧
     (1 / 2 ^ 12 ≤ absRat x → absRat x < 9 → ∃ r, r < fmtF32.sign ∧ TanhBy (absRat x) r ∧ fTanh fmtF32 a = (sign + r, 0)))) ∧
  (∀ f ∈ [fmtF16, fmtBf16], ∀ (a : Nat), finite (f.decode a) = true → 0 < valueOf f a →
    NearestRoot f (valueOf f a) (fRsq f a).1 ∧
    (fRsq f a).2 = if valueOf f (fRsq f a).1 * valueOf f (fRsq f a).1 * valueOf f a = 1 then 0 else flagNX) ∧
  (∀ f ∈ [fmtF16, fmtBf16], ∀ (a b : Nat) (n : Int), finite (f.decode a) = true → finite (f.decode b) = true →
    (b < f.sign → valueOf f a = n → valueOf f b = 2 ^ n → fExp2 f a = (b, 0)) ∧
    (b < 2 ^ f.bits → b ≠ f.sign → valueOf f a = 2 ^ n → valueOf f b = n → fLog2 f a = (b, 0))) ∧
  (∀ f ∈ laneFloats, ∀ (a : Nat) (k : Int), finite (f.decode a) = true → 2 * valueOf f a = k →
    let one (neg : Bool) : Nat × Flags := (f.pack neg (2 ^ f.mb) (-(f.mb : Int)), 0)
    fSinpi f a = (if k % 4 = 1 then one false else if k % 4 = 3 then one true else (if minus f a then f.sign else 0, 0)) ∧
    fCospi f a = (if k % 4 = 0 then one false else if k % 4 = 2 then one true else (0, 0)))

/-- R127, R167 to R171, R173, R176, R177: CPY and GTH wait for their channel, make their checks in order and put their command into it;
what their box check finds; CST reads a channel's state word; CABT frees a stopped channel; an engine fault becomes a trap whose return
point is the word at PC, and the faults of the other channels that have stopped by then wait for the next user-level word. A word that finds
its channel busy shows the reason of the channel's current access (R29). That CABT leaves ARV and OFF 0 as well, that the checks come after
the wait for the channel, and which byte TVAL names are the model's choices (log entries 86, 96 and 97). -/
def Obligations.CopyCommands : Prop :=
  (∀ (d a b : BitVec 5) (h : BitVec 2) (v : BitVec 1) (n : BitVec 2) (s : State), ApReady s →
    let x := dimOf (decide (2 ≤ n.toNat)) (s.rd 1) (s.rd 4)
    let y := dimOf (decide (3 ≤ n.toNat)) (s.rd 2) (s.rd 5)
    let run := (s.rd 0).len.toNat
    let total := run * x.1 * y.1
    let i := Instr.cpy d a b h v n
    let src := boxCheck (s.ra a.toNat) { l := true, e := true } run x.1 x.2.1 y.1 y.2.1
    let dst := boxCheck (s.ra d.toNat) { s := true, e := true } run x.1 x.2.2 y.1 y.2.2
    ((chanAt s h.toNat).act = true → Waits i (chanAt s h.toNat).wait s) ∧
    ((chanAt s h.toNat).act = false →
      (∀ cause w, counterChecks (s.ra b.toNat) = some (cause, w) → TakesTrap i (s.trapInfo true cause w) s) ∧
      (counterChecks (s.ra b.toNat) = none →
        (2 ^ 40 ≤ total → TakesTrap i (s.trapInfo true 0x06 (BitVec.ofNat 64 total)) s) ∧
        (0 < total → total < 2 ^ 40 → ∀ p, src = some p → TakesTrap i (s.trapInfo true 0x07 (BitVec.ofInt 64 p)) s) ∧
        (0 < total → total < 2 ^ 40 → src = none → ∀ p, dst = some p → TakesTrap i (s.trapInfo true 0x07 (BitVec.ofInt 64 p)) s) ∧
        (total = 0 ∨ (total < 2 ^ 40 ∧ src = none ∧ dst = none) → Issues i h (CpyHeld s d a b v n) s)))) ∧
  (∀ (d t j : BitVec 5) (h : BitVec 2) (v z : BitVec 1) (k : BitVec 4) (s : State), ApReady s →
    let n := (s.rd 0).len.toNat
    let total := n * (s.rd 1).len.toNat
    let isz := if z = 1#1 then 8 else 4
    let i := Instr.gth d t j h v z k
    let list := boxCheck (s.ra j.toNat) { l := true, e := true } (n * isz) 1 0 1 0
    let dst := boxCheck (s.ra d.toNat) { s := true, e := true } total 1 0 1 0
    ((chanAt s h.toNat).act = true → Waits i (chanAt s h.toNat).wait s) ∧
    ((chanAt s h.toNat).act = false →
      (∀ cause w, counterChecks (s.ra k.toNat) = some (cause, w) → TakesTrap i (s.trapInfo true cause w) s) ∧
      (counterChecks (s.ra k.toNat) = none →
        (2 ^ 40 ≤ total → TakesTrap i (s.trapInfo true 0x06 (BitVec.ofNat 64 total)) s) ∧
        (0 < total → total < 2 ^ 40 → ∀ p, list = some p → TakesTrap i (s.trapInfo true 0x07 (BitVec.ofInt 64 p)) s) ∧
        (0 < total → total < 2 ^ 40 → list = none → (s.ra j.toNat).ptr.toNat % isz ≠ 0 →
          TakesTrap i (s.trapInfo true 0x05 (s.ra j.toNat).ptr) s) ∧
        (0 < total → total < 2 ^ 40 → list = none → (s.ra j.toNat).ptr.toNat % isz = 0 → ∀ p, dst = some p →
          TakesTrap i (s.trapInfo true 0x07 (BitVec.ofInt 64 p)) s) ∧
        (total = 0 ∨ (total < 2 ^ 40 ∧ list = none ∧ (s.ra j.toNat).ptr.toNat % isz = 0 ∧ dst = none) →
          Issues i h (GthHeld s d t j v z k) s)))) ∧
  (∀ (r : AReg) (need : Need) (p s1 s2 : Int) (run n1 n2 : Nat), 0 < run → 0 < n1 → 0 < n2 →
    (boxCheckAt r need p run n1 s1 n2 s2 = none ↔ ∀ q, touched p run n1 s1 n2 s2 q → ¬failsAt r need q) ∧
    (∀ q, boxCheckAt r need p run n1 s1 n2 s2 = some q →
      touched p run n1 s1 n2 s2 q ∧ failsAt r need q ∧ ∀ q', touched p run n1 s1 n2 s2 q' → q' < q → ¬failsAt r need q')) ∧
  (∀ (r : AReg), counterChecks r =
    if bit r.perm 2 = true ∧ bit r.perm 3 = true ∧ r.base ≤ r.ptr ∧ r.ptr.toNat + 8 ≤ r.limit.toNat then
      (if r.ptr.toNat % 8 = 0 then none else some (0x05, r.ptr)) else some (0x07, r.ptr)) ∧
  (∀ (d : BitVec 5) (h : BitVec 2) (s : State), ApReady s →
    let c := chanAt s h.toNat
    (s.prv = true → ScalarResult (.cst d h) d
      (BitVec.ofNat 64 (c.off % 2 ^ 40 + c.flt.toNat * 2 ^ 61 + c.arv.toNat * 2 ^ 62 + c.act.toNat * 2 ^ 63)) s) ∧
    (s.prv = true → c.act = true → c.flt = true → ∃ t, exec (.cabt h) s = .next t ∧ chanAt t h.toNat = Channel.free ∧
      (∀ k, k ≠ h.toNat → chanAt t k = chanAt s k) ∧ Completed s t ∧
      t.c.moved = s.c.moved.filter (·.who ≠ .channel h.toNat) ∧
      Frame (fun c => { channels c with lastFlt := none, order := c.order, moved := [] }) (withoutTransfers (.channel h.toNat) s) t) ∧
    (s.prv = true → ¬(c.act = true ∧ c.flt = true) → TakesTrap (.cabt h) (s.illegal true) s) ∧
    (s.prv = false → TakesTrap (.cst d h) (s.privTrap true) s ∧ TakesTrap (.cabt h) (s.privTrap true) s)) ∧
  (∀ (h : BitVec 2) (r : TrapInfo) (s : State), s.cs = .active → (chanAt s h.toNat).flt = true → (chanAt s h.toNat).cause = some r →
    ∃ t, exec (.engineFaultTrap h) s = .next t ∧ TrapTaken r s t ∧ t.c.sys.tidx = r.tidx &&& 0xFFFFFFFFFFFF ∧
      chanAt t h.toNat = { chanAt s h.toNat with told := true, ret := s.c.pc } ∧
      (∀ k, k ≠ h.toNat → chanAt t k = { chanAt s k with told := (chanAt s k).told || ((chanAt s k).act && (chanAt s k).flt) }) ∧
      t.c.lastFlt = some h.toNat)

/-- R29, R52, R169, R170, R172, R173, R175, R178: COPY_CHUNK and GATHER_BURST move one chunk, every read before any write, from where the
command's rule has the source to where it has the destination; the index of a gathered row is read in the state that the checks of the rows
before it leave; a fault leaves the chunk unwritten, and an access that waits keeps its stall reason; after the last chunk the counter word is
incremented, the channel is free, and an arrival becomes pending where the command asked for one. That a chunk's accesses follow one another
in the channel's happens-before sets, that chunks follow one another, that a channel shows 7 while it moves data in this package, and that a
free channel reads ARV 0 and OFF 0 are the model's choices (log entries 30, 31, 32 and 86). -/
def Obligations.CopyTransfers : Prop :=
  (∀ (h : BitVec 2) (s : State),
    let c := chanAt s h.toNat
    let ps := mergePieces 256 (piecesFrom (cpyAddr c.src c.run c.n1 c.ss1 c.ss2) c.run false 128 c.off (chunkEnd c))
      (piecesFrom (cpyAddr c.dst c.run c.n1 c.ds1 c.ds2) c.run true 128 c.off (chunkEnd c))
    c.act = true → c.flt = false → c.gth = false → c.off < chanTotal c →
    (∀ l u, checkPieces h.toNat c ps s = .ok l u → PiecesPlain l → MemoriesOk u →
      ChunkMoves (.copyChunk h) h.toNat c l s u ∧
      (∀ o, c.off ≤ o → o < chunkEnd c → (pieceLoc l false o).isSome = true ∧ (pieceLoc l true o).isSome = true) ∧
      (∀ p ∈ l, ∀ k, k < p.1.len →
        let o := p.1.off + k
        let i1 := o / c.run % c.n1
        let i2 := o / c.run / c.n1
        c.off ≤ o ∧ o < chunkEnd c ∧
        p.1.va + k = if p.1.write then c.dst.toNat + i2 * c.ds2 + i1 * c.ds1 + (o % c.run : Nat)
          else c.src.toNat + i2 * c.ss2 + i1 * c.ss1 + (o % c.run : Nat))) ∧
    (∀ r u, checkPieces h.toNat c ps s = .trap r u → ChannelStops (.copyChunk h) h.toNat c.off r s u) ∧
    (∀ n u, checkPieces h.toNat c ps s = .wait n u → exec (.copyChunk h) s = .next (withChan u h.toNat { c with wait := n }))) ∧
  (∀ (h : BitVec 2) (s : State),
    let c := chanAt s h.toNat
    let rows := (List.range ((chunkEnd c - 1) / c.run - c.off / c.run + 1)).map fun n => c.off / c.run + n
    c.act = true → c.flt = false → c.gth = true → c.off < chanTotal c →
    (∀ l ids u, gatherCheck h.toNat c (chunkEnd c) rows s = .ok (l, ids) u → PiecesPlain l → MemoriesOk u →
      ChunkMoves (.gatherBurst h) h.toNat c l s u ∧ exec (.copyChunk h) s = exec (.gatherBurst h) s ∧
      (∀ o, c.off ≤ o → o < chunkEnd c → (pieceLoc l false o).isSome = true ∧ (pieceLoc l true o).isSome = true) ∧
      (∀ p ∈ l,
        let k := p.1.off / c.run
        c.off ≤ p.1.off ∧ p.1.off + p.1.len ≤ chunkEnd c ∧ (p.1.off + p.1.len - 1) / c.run = k ∧
        if p.1.write then p.1.va = c.dst.toNat + p.1.off
        else ∃ l0 made v x w,
            gatherCheck h.toNat c (chunkEnd c) ((List.range (k - c.off / c.run)).map fun n => c.off / c.run + n) s = .ok (l0, made) v ∧
            engineCheck (.channel h.toNat) v (c.prior ++ (made ++ c.ids)) (BitVec.ofInt 64 (c.idx.toNat + (k * c.isz : Nat))) c.isz
              .read c.user (faultInfo h.toNat c (chanTidx c (max (k * c.run) c.off))) = .ok x w ∧
            let start : Int := c.src.toNat + (leNat (busBytes w x.loc c.isz) : Nat) * c.ss1
            p.1.va = start + (p.1.off % c.run : Nat) ∧ aCheck c.tbl { l := true, e := true } start c.run = true)) ∧
    (∀ r u, gatherCheck h.toNat c (chunkEnd c) rows s = .trap r u → ChannelStops (.gatherBurst h) h.toNat c.off r s u ∧
      ∀ t, exec (.gatherBurst h) s = .next t → t.recs = s.recs) ∧
    (∀ n u, gatherCheck h.toNat c (chunkEnd c) rows s = .wait n u →
      exec (.gatherBurst h) s = .next (withChan { u with recs := s.recs, nextRec := s.nextRec } h.toNat { c with wait := n }))) ∧
  (∀ (h : BitVec 2) (s : State),
    let c := chanAt s h.toNat
    let check := engineCheck (.channel h.toNat) s (c.prior ++ c.ids) c.ctr 8 .syncWrite c.user (faultInfo h.toNat c 0)
    c.act = true → c.flt = false → chanTotal c ≤ c.off → s.dev.trctl = 0 →
    (∀ x u, check = .ok x u → x.loc % 8 = 0 → ctrlOff x.loc = none → MemoriesOk u →
      ∃ t, exec (.copyChunk h) s = .next t ∧ Stored x.loc 8 (min (2 ^ 64 - 1) (counterAt u x.loc + 1)) u t ∧
        chanAt t h.toNat = Channel.free ∧ (∀ k, k ≠ h.toNat → chanAt t k = chanAt u k) ∧
        t.c.arrivals = (if c.arv then min 255 (u.c.arrivals + 1) else u.c.arrivals) ∧
        Frame (fun c => { channels c with arrivals := 0, order := c.order }) (recordsOut (storedOut (withoutTransfers (.channel h.toNat) u)))
          (recordsOut (storedOut t))) ∧
    (∀ r u, check = .trap r u → ChannelStops (.copyChunk h) h.toNat (chanTotal c) r s u) ∧
    (∀ n u, check = .wait n u → exec (.copyChunk h) s = .next (withChan u h.toNat { c with off := chanTotal c, wait := n }))) ∧
  (∀ (h : BitVec 2) (s : State), ((chanAt s h.toNat).act = false ∨ (chanAt s h.toNat).flt = true) → exec (.copyChunk h) s = .next s)

/-- R232, R233, R245, R246, R249, R250: MATT takes as many of its blocks as are free and MATT.FULL waits with reason 14 until all are;
attached, both are ILLEGAL_INSN; MATT_FULL_GRANT says what the quad's other cores hold; MDET waits for the issues, releases the tile and
detaches. A tile released is counted in the matrix counter. Which blocks MATT takes is the model's reading (log entry 39). -/
def Obligations.MatrixAttachment : Prop :=
  (∀ (cs : BitVec 1) (n : BitVec 2) (s : State), MatReady [] none s → s.c.sys.grant = 0 →
    let got := (quadFree s).take (n.toNat + 1)
    (got ≠ [] → Attaches (.matt cs n) got s) ∧
    (got = [] → ∃ t, exec (.matt cs n) s = .next t ∧ Frame epEnd s t ∧ Completed s t) ∧
    (n.toNat < (quadFree s).length → Attaches (.mattFull cs n) got s) ∧
    ((quadFree s).length ≤ n.toNat → Waits (.mattFull cs n) 14 s) ∧
    (∃ t, exec (.mdet cs) s = .next t ∧ Frame epEnd s t ∧ Completed s t)) ∧
  (∀ (cs : BitVec 1) (n : BitVec 2) (s : State), MatReady [] none s → attached s = true →
    TakesTrap (.matt cs n) (s.illegal false) s ∧ TakesTrap (.mattFull cs n) (s.illegal false) s ∧
    (s.c.mat.issues ≠ [] → Waits (.mdet cs) 14 s) ∧
    (s.c.mat.issues = [] → ∀ ctr u, releaseCheck s (matInfo s) = .ok ctr u →
      ∃ t, exec (.mdet cs) s = .next t ∧ t.c.mat = MatrixState.detached ∧ t.c.sys.grant = 0 ∧ t.mem = (releaseTile ctr u).mem ∧
        Frame matrixOut (recordsOut (storedOut (releaseTile ctr u))) (recordsOut (storedOut t)) ∧ Completed u t)) ∧
  (∀ (held : BitVec 4) (s : State), exec (.mattFullGrant held) s
    = .next { s with quadHeld := held &&& ~~~ (s.c.sys.grant.extractLsb' 8 4) }) ∧
  (∀ (cs : BitVec 1) (n : BitVec 2) (s : State), epReady { cls := .matrix } s = true → (s.c.vloop.active = true ∨ s.c.pfxLive = true) →
    TakesTrap (.matt cs n) (s.illegal false) s ∧ TakesTrap (.mattFull cs n) (s.illegal false) s ∧ TakesTrap (.mdet cs) (s.illegal false) s) ∧
  (∀ (ctr : Option Counter) (s : State), MemoriesOk s →
    let t := releaseTile ctr s
    (s.c.mat.tile = none → t = s) ∧ t.c.mat.tile = none ∧
    (∀ x, s.c.mat.tile = some x → ctr = none → t = s.withMat { s.c.mat with tile := none }) ∧
    (∀ x l ids, s.c.mat.tile = some x → ctr = some (l, ids) → l % 8 = 0 → ctrlOff l = none →
      Stored l 8 (min (2 ^ 64 - 1) (counterAt s l + 1)) s t ∧ t.c.mat = { s.c.mat with tile := none }))

/-- R22, R44, R234, R236, R238, R240, R243, R245, R246, R251, R252, R256, R259 to R261: MLDB and MLDB.SP check the shape and the bounds,
check each column in order, sector by sector, and the counter that a release adds to, commit the buffered stores, let the older issues
complete, release the tile and load the 128 columns; MSWAP exchanges the banks; MMOV reads a row into a vector register; MST checks its rows
likewise and has rows of the visible bank written when the issue completes; MCTR records, and MGTAB does once K and the scale count pass;
with four issues open they wait with reason 14; unattached they are NOT_ATTACHED. Which words stay pending is the model's reading (log entry
27). What an issue does to a block of control space is not said (log entry 57). -/
def Obligations.MatrixTiles : Prop :=
  (∀ (sp : Bool) (cs : BitVec 1) (a : BitVec 5) (k : BitVec 3) (h : BitVec 5) (s : State), MatReady [] none s → attached s = true →
    s.c.mat.issues.length < 4 →
    let i := if sp then Instr.mldbSp cs a k h else Instr.mldb cs a k h
    let r := s.ra a.toNat
    let d := s.rd k.toNat
    let K := d.len.toNat % 65536
    let badK := if sp then K % 4 ≠ 0 ∨ kMax h < K / 2 else K = 0 ∨ kMax h < K
    let box := boxCheckAt r { l := true, e := true } r.ptr.toNat (columnSize h K sp) 128 d.stride.toInt 1 0
    (badK → TakesTrap i (s.trapInfo false 0x06 (BitVec.ofNat 64 d.len.toNat)) s) ∧
    (¬badK → scalesNeeded h K ≠ d.len.toNat / 65536 % 256 →
      TakesTrap i (scaleCountTrap s (scalesNeeded h K) (d.len.toNat / 65536 % 256)) s) ∧
    (¬badK → scalesNeeded h K = d.len.toNat / 65536 % 256 →
      (∀ p, box = some p → TakesTrap i (s.trapInfo false 0x07 (BitVec.ofInt 64 p)) s) ∧
      let checked := checkSpans s (hSet s .matrix) (columnSize h K sp) .read
        (fun c => { s.trapInfo false 0 0 with telem := c, estart := c }) (columnsAt r.ptr.toNat d.stride.toInt) s
      (box = none → StopsWith i checked s) ∧
      (box = none → ∀ cols u, checked = .ok cols u → StopsWith i (releaseCheck u (matInfo s)) s) ∧
      (box = none → ∀ cols u ctr v, checked = .ok cols u → releaseCheck u (matInfo s) = .ok ctr v →
        let y := releaseTile ctr (finishIssues (commitStores v))
        ∃ t x, exec i s = .next t ∧ t.c.mat.tile = some x ∧ TileHolds y x r.ptr.toNat d h sp cols ∧ cols.length = 128 ∧
          { t.c.mat with tile := none } = y.c.mat ∧ y.c.mat.issues = [] ∧ t.mem = y.mem ∧ t.c.sbuf = [] ∧ MatrixFrame y t))) ∧
  (∀ (s u : State) (h : List Nat) (p : Int) (n : Nat) (k : AccKind) (r : TrapInfo) (ps : List SpanPart), n ≤ 512 →
    checkSpan s h p n k r = .ok ps u → (spanLocs ps).length = n) ∧
  (∀ (who : Agent) (s : State) (h : List Nat) (va : Word) (n : Nat) (k : AccKind) (user : Bool) (r : TrapInfo),
    EngineAccess who h va n k user r s) ∧
  (∀ (s : State) (h : List Nat) (p : Int) (n : Nat) (k : AccKind) (r : TrapInfo), SpanChecks h p n k r s) ∧
  (∀ (s u : State) (h : List Nat) (n : Nat) (k : AccKind) (r : Nat → TrapInfo) (x : Nat × Int) (xs : List (Nat × Int)),
    checkSpans s h n k r [] u = .ok [] u ∧ SpansInOrder h n k r x xs s u) ∧
  (∀ (s : State), (s.c.mat.tile = none → releaseCheck s (matInfo s) = .ok none s) ∧
    (s.c.mat.tile.isSome = true → releaseCheck s (matInfo s) = matrixCounter s (matInfo s)) ∧
    (s.c.mat.ctr = none → matrixCounter s (matInfo s) = .ok none s) ∧
    ∀ va, s.c.mat.ctr = some va →
      let got := engineCheck .matrix s (hSet s .matrix) va 8 .syncWrite (!s.prv) (matInfo s)
      (∀ q u, got = .trap q u → matrixCounter s (matInfo s) = .trap q u) ∧ (∀ n u, got = .wait n u → matrixCounter s (matInfo s) = .wait n u) ∧
      (∀ x u, got = .ok x u → ∃ ids v, matrixCounter s (matInfo s) = .ok (some (x.loc, ids)) v ∧ recordsOut v = recordsOut u)) ∧
  (∀ (cs : BitVec 1) (m : BitVec 2) (s : State), WordStops (.mswap cs m) { cls := .matrix } (·.matrix) 1 5 s) ∧
  (∀ (cs : BitVec 1) (m : BitVec 2) (a g h : BitVec 5) (k : BitVec 3) (s : State), MatReady [] none s → attached s = true →
    4 ≤ s.c.mat.issues.length →
    ∀ i ∈ [Instr.mldb cs a k h, .mldbSp cs a k h, .mctr cs a, .mswap cs m, .mst cs m a k, .mgtab cs a k g h], Waits i 14 s) ∧
  (∀ (cs : BitVec 1) (m : BitVec 2) (s : State), MatReady [] none s → attached s = true → s.c.mat.issues.length < 4 →
    ∃ t, exec (.mswap cs m) s = .next t ∧
    accAt t m.toNat = { W := (accAt s m.toNat).V, V := (accAt s m.toNat).W } ∧ (∀ n, n ≠ m.toNat → accAt t n = accAt s n) ∧
    bankOnly s.c.mat t.c.mat ∧ Frame (fun c => epEnd { c with mat := MatrixState.detached }) s t ∧ Completed s t) ∧
  (∀ (cs : BitVec 1) (a : BitVec 5) (s : State), MatReady [] none s → attached s = true → s.c.mat.issues.length < 4 →
    (∀ cause w, counterChecks (s.ra a.toNat) = some (cause, w) → TakesTrap (.mctr cs a) (s.trapInfo false cause w) s) ∧
    (counterChecks (s.ra a.toNat) = none → ∃ t, exec (.mctr cs a) s = .next t ∧
      t.c.mat = { s.c.mat with ctr := some (s.ra a.toNat).ptr } ∧ Frame (fun c => epEnd { c with mat := s.c.mat }) s t ∧ Completed s t)) ∧
  (∀ (cs : BitVec 1) (a : BitVec 5) (k : BitVec 3) (g h : BitVec 5) (s : State), MatReady [] none s → attached s = true →
    s.c.mat.issues.length < 4 →
    let d := s.rd k.toNat
    let K := d.len.toNat % 65536
    let badK := K = 0 ∨ kMax h < K
    (badK → TakesTrap (.mgtab cs a k g h) (s.trapInfo false 0x06 (BitVec.ofNat 64 d.len.toNat)) s) ∧
    (¬badK → scalesNeeded h K ≠ d.len.toNat / 65536 % 256 →
      TakesTrap (.mgtab cs a k g h) (scaleCountTrap s (scalesNeeded h K) (d.len.toNat / 65536 % 256)) s) ∧
    (¬badK → scalesNeeded h K = d.len.toNat / 65536 % 256 → ∃ t, exec (.mgtab cs a k g h) s = .next t ∧
      t.c.mat = { s.c.mat with group := some { tab := s.ra a.toNat, b := s.ra g.toNat, shape := d, fb := h } } ∧
      Frame (fun c => epEnd { c with mat := s.c.mat }) s t ∧ Completed s t)) ∧
  (∀ (cs : BitVec 1) (m : BitVec 2) (d r j : BitVec 5) (s : State),
    let w : EpWord := { cls := .matrix, dst := some (oneReg d.toNat) }
    let row := r.toNat + 32 * j.toNat
    (EpPasses w s →
      (s.c.vloop.active = true → TakesTrap (.mmov cs m d r j) (s.illegal false) s) ∧
      (s.c.vloop.active = false → attached s = false → TakesTrap (.mmov cs m d r j) (s.trapInfo false 0x15 s.c.pc) s) ∧
      (s.c.vloop.active = false → attached s = true → s.c.mat.mr ≤ row → TakesTrap (.mmov cs m d r j) (s.illegal false) s)) ∧
    (epReady w s = true → s.c.vloop.active = false → attached s = true → row < s.c.mat.mr → 4 ≤ s.c.mat.issues.length →
      Waits (.mmov cs m d r j) 14 s) ∧
    (epReady w s = true → s.c.vloop.active = false → attached s = true → row < s.c.mat.mr → s.c.mat.issues.length < 4 →
      ∃ t, exec (.mmov cs m d r j) s = .next t ∧
      (∀ c, c < 128 → elemAt [nth t.c.v d.toNat 0] 32 0 c =
        if (lentMask s).getLsbD c then accElem ((accAt s m.toNat).V.getD row 0) c else elemAt [nth s.c.v d.toNat 0] 32 0 c) ∧
      nth t.c.vtag d.toNat .uniform = .general ∧
      (∀ y, payload s = some y → y.cpe = true → nth t.c.v y.cpv 0 = nth t.c.v d.toNat 0) ∧
      (∀ n, n ≠ d.toNat → (∀ y, payload s = some y → y.cpe = true → n ≠ y.cpv) →
        nth t.c.v n 0 = nth s.c.v n 0 ∧ nth t.c.vtag n .general = nth s.c.vtag n .general) ∧
      Frame vectors s t ∧ Completed s t)) ∧
  (∀ (cs : BitVec 1) (m : BitVec 2) (a : BitVec 5) (k : BitVec 3) (s : State), MatReady [] none s → attached s = true →
    s.c.mat.issues.length < 4 →
    let r := s.ra a.toNat
    let d := s.rd k.toNat
    let cnt := d.len.toNat % 65536
    let fr := d.len.toNat / 65536
    let i := Instr.mst cs m a k
    let box := boxCheck r { s := true, e := true } 512 cnt d.stride.toInt 1 0
    let rows := (List.range cnt).map fun n => (fr + n, (r.ptr.toNat : Int) + (n : Int) * d.stride.toInt)
    ((cnt = 0 ∨ s.c.mat.mr < fr + cnt) → TakesTrap i (s.trapInfo false 0x06 (BitVec.ofNat 64 d.len.toNat)) s) ∧
    (0 < cnt → fr + cnt ≤ s.c.mat.mr →
      (∀ p, box = some p → TakesTrap i (s.trapInfo false 0x07 (BitVec.ofInt 64 p)) s) ∧
      (box = none → (r.ptr.toNat % 4 ≠ 0 ∨ d.stride.toInt % 4 ≠ 0) → TakesTrap i (s.trapInfo false 0x05 r.ptr) s) ∧
      let checked := checkSpans s (hSet s .matrix) 512 .write (fun c => { s.trapInfo false 0 0 with telem := c, estart := c }) rows s
      (box = none → r.ptr.toNat % 4 = 0 → d.stride.toInt % 4 = 0 → StopsWith i checked s ∧
        ∀ ps u, checked = .ok ps u → StopsWith i (matrixCounter u (matInfo s)) s) ∧
      (box = none → r.ptr.toNat % 4 = 0 → d.stride.toInt % 4 = 0 → ∀ ps u ctr v,
        checked = .ok ps u → matrixCounter u (matInfo s) = .ok ctr v →
        ∃ t y, exec i s = .next t ∧ t.c.mat = { v.c.mat with issues := v.c.mat.issues ++ [y] } ∧ y.ctr = ctr.map (·.1) ∧
          y.writes = ((List.range cnt).flatMap fun n => (spanLocs (ps.getD n [])).zip ((List.range 512).map fun b =>
            BitVec.ofNat 8 (((accAt s m.toNat).V.getD (fr + n) 0).toNat / 256 ^ b))) ∧
          t.mem = (commitStores v).mem ∧ t.c.scratch = (commitStores v).c.scratch ∧ t.c.sbuf = [] ∧ MatrixFrame v t))) ∧
  (∀ (s : State) (y : MIssue) (rest : List MIssue), s.c.mat.issues = y :: rest → MemoriesOk s →
    (∀ b ∈ y.writes, ctrlOff b.1 = none) → (∀ l, y.ctr = some l → l % 8 = 0 ∧ ctrlOff l = none) →
    ∃ w t, exec .matrixIssueComplete s = .next t ∧ t.c.mat = { s.c.mat with issues := rest } ∧ RegistersKept s t ∧ t.c.pc = s.c.pc ∧
      (∀ l, locByte w l = ((y.writes.reverse.find? fun b => b.1 == l).map (·.2)).getD (locByte s l)) ∧
      (y.ctr = none → t = w) ∧ (∀ l, y.ctr = some l → Stored l 8 (min (2 ^ 64 - 1) (counterAt w l + 1)) w t)) ∧
  (∀ (s : State), s.c.mat.issues = [] → exec .matrixIssueComplete s = .next s) ∧
  (∀ (cs : BitVec 1) (m : BitVec 2) (a h : BitVec 5) (k : BitVec 3) (s : State), MatReady [] none s → attached s = false →
    let r := s.trapInfo false 0x15 s.c.pc
    TakesTrap (.mldb cs a k h) r s ∧ TakesTrap (.mldbSp cs a k h) r s ∧ TakesTrap (.mctr cs a) r s ∧ TakesTrap (.mswap cs m) r s ∧
    TakesTrap (.mst cs m a k) r s ∧ TakesTrap (.mgtab cs a k a h) r s ∧ TakesTrap (.mseq cs a k a h) r s ∧
    TakesTrap (.mmac cs m a a h 0) r s)

/-- R98, R235 to R241, R245, R253 to R258: the issues: every element of the rows granted is a dot product added to what the accumulator
held; the table of a grouped issue and the list of the sequencer say which tiles; what a dot product is in integers and in floats. What
stops an issue comes before any of its waits (R245); a further issue waits with reason 14 while four are open. Which words stay pending,
sparse zeros, the reading of a table, the place of the checks of MSEQ and its wait for a full queue, and where a recorded K is checked are the
model's reading (log entries 26 to 28, 101 and 102). -/
def Obligations.MatrixMultiply : Prop :=
  (∀ (cs : BitVec 1) (m : BitVec 2) (a : BitVec 5) (k : BitVec 3) (g h : BitVec 5) (z : BitVec 1) (s : State),
    ∀ p ∈ [(Instr.mma cs m a k g h z, regsA g a.toNat (tileK s) false), (.mmasp cs m a g h z, regsA g a.toNat (tileK s) true),
      (.mmac cs m a g h z, []), (.mmag cs m a k g h z, regsA g a.toNat (groupK s) false),
      (.mmaSeq cs m a k g h z, regsA g a.toNat (seqK s) false)],
      EpPasses { cls := .matrix, reads := p.2 } s →
      ((s.c.vloop.active = true ∨ s.c.pfxLive = true) → TakesTrap p.1 (s.illegal false) s) ∧
      (MatPasses p.2 s → attached s = false → TakesTrap p.1 (s.trapInfo false 0x15 s.c.pc) s)) ∧
  (∀ (cs : BitVec 1) (m : BitVec 2) (a : BitVec 5) (k : BitVec 3) (g h : BitVec 5) (z : BitVec 1) (s : State),
    let reads := regsA g a.toNat (tileK s) false
    let i := Instr.mma cs m a k g h z
    MatPasses reads s → attached s = true →
    (tileFor s h false = none → TakesTrap i (s.illegal false) s) ∧
    (∀ x, tileFor s h false = some x →
      (operandAOk g a.toNat k.toNat s.c.mat.mr x.nsa x.K false = false → TakesTrap i (s.illegal false) s) ∧
      (operandAOk g a.toNat k.toNat s.c.mat.mr x.nsa x.K false = true →
        (scalesNeeded g x.K ≠ x.nsa → TakesTrap i (scaleCountTrap s (scalesNeeded g x.K) x.nsa) s) ∧
        (scalesNeeded g x.K = x.nsa → MatReady reads none s →
          (4 ≤ s.c.mat.issues.length → Waits i 14 s) ∧
          (s.c.mat.issues.length < 4 → Multiplies i m g z x (rowsA s g a.toNat k.toNat x.nsa x.K) s s bankOnly))))) ∧
  (∀ (cs : BitVec 1) (m : BitVec 2) (a g h : BitVec 5) (z : BitVec 1) (s : State),
    let reads := regsA g a.toNat (tileK s) true
    let i := Instr.mmasp cs m a g h z
    MatPasses reads s → attached s = true →
    (tileFor s h true = none → TakesTrap i (s.illegal false) s) ∧
    (∀ x, tileFor s h true = some x →
      (operandAOk g a.toNat 0 s.c.mat.mr x.nsa x.K true = false → TakesTrap i (s.illegal false) s) ∧
      (operandAOk g a.toNat 0 s.c.mat.mr x.nsa x.K true = true →
        (x.nsa ≠ 0 → TakesTrap i (scaleCountTrap s 0 x.nsa) s) ∧
        (x.nsa = 0 → MatReady reads none s →
          (4 ≤ s.c.mat.issues.length → Waits i 14 s) ∧
          (s.c.mat.issues.length < 4 → Multiplies i m g z x (rowsSparse s g a.toNat x.K) s s bankOnly))))) ∧
  (∀ (cs : BitVec 1) (m : BitVec 2) (a g h : BitVec 5) (z : BitVec 1) (s : State), MatReady [] none s → attached s = true →
    let i := Instr.mmac cs m a g h z
    (tileFor s h false = none → TakesTrap i (s.illegal false) s) ∧
    (∀ x, tileFor s h false = some x →
      ((kMax g < x.K ∨ 128 < x.K) → TakesTrap i (s.illegal false) s) ∧
      (x.K ≤ kMax g → x.K ≤ 128 →
        (scalesNeeded g x.K ≠ x.nsa → TakesTrap i (scaleCountTrap s (scalesNeeded g x.K) x.nsa) s) ∧
        (scalesNeeded g x.K = x.nsa →
          (4 ≤ s.c.mat.issues.length → Waits i 14 s) ∧
          (s.c.mat.issues.length < 4 → Multiplies i m g z x (fun r => bankRow g x.K ((accAt s a.toNat).V.getD r 0)) s s bankOnly))))) ∧
  (∀ (cs : BitVec 1) (m : BitVec 2) (a : BitVec 5) (k : BitVec 3) (g h : BitVec 5) (z : BitVec 1) (s : State), attached s = true →
    let seq := Instr.mmaSeq cs m a k g h z
    let grouped := Instr.mmag cs m a k g h z
    (MatPasses (regsA g a.toNat (seqK s) false) s →
      (s.c.mat.seq = none → TakesTrap seq (s.illegal false) s) ∧
      (∀ q, s.c.mat.seq = some q →
        let fits := q.fb = h ∧ badK h (shapeK q.shape) false = false ∧
          operandAOk g a.toNat k.toNat s.c.mat.mr (shapeNsa q.shape) (shapeK q.shape) false = true
        (¬fits → TakesTrap seq (s.illegal false) s) ∧
        (fits → scalesNeeded g (shapeK q.shape) ≠ shapeNsa q.shape →
          TakesTrap seq (scaleCountTrap s (scalesNeeded g (shapeK q.shape)) (shapeNsa q.shape)) s))) ∧
    (MatPasses (regsA g a.toNat (groupK s) false) s →
      (s.c.mat.group = none → TakesTrap grouped (s.illegal false) s) ∧
      (∀ q, s.c.mat.group = some q →
        let fits := q.fb = h ∧ operandAOk g a.toNat k.toNat s.c.mat.mr (shapeNsa q.shape) (shapeK q.shape) false = true
        (¬fits → TakesTrap grouped (s.illegal false) s) ∧
        (fits → scalesNeeded g (shapeK q.shape) ≠ shapeNsa q.shape →
          TakesTrap grouped (scaleCountTrap s (scalesNeeded g (shapeK q.shape)) (shapeNsa q.shape)) s)))) ∧
  (∀ (cs : BitVec 1) (m : BitVec 2) (a : BitVec 5) (k : BitVec 3) (g h : BitVec 5) (z : BitVec 1) (s : State) (q : Sequencer),
    MatReady (regsA g a.toNat (seqK s) false) none s → attached s = true → s.c.mat.seq = some q → q.fb = h →
    let K := shapeK q.shape
    let nsa := shapeNsa q.shape
    badK h K false = false → operandAOk g a.toNat k.toNat s.c.mat.mr nsa K false = true → scalesNeeded g K = nsa →
    let i := Instr.mmaSeq cs m a k g h z
    (4 ≤ s.c.mat.issues.length → Waits i 14 s) ∧
    (s.c.mat.issues.length < 4 → q.list[q.pos]? = none → ∀ ctr u, matrixCounter s (matInfo s) = .ok ctr u →
      ∃ t, exec i s = .next t ∧ IssueQueued ctr u.c.mat t.c.mat ∧ { t.c.mat with issues := [] } = { u.c.mat with issues := [] } ∧
        t.mem = (commitStores u).mem ∧ t.c.sbuf = [] ∧ MatrixFrame u t) ∧
    (s.c.mat.issues.length < 4 → ∀ b, q.list[q.pos]? = some b →
      let p : Int := q.a.ptr.toNat + q.off + b * q.str
      let box := tileBounds q.a p h K (shapePitch q.shape) false
      (∀ y, box = some y → TakesTrap i (s.trapInfo false 0x07 (BitVec.ofInt 64 y)) s) ∧
      (box = none → ∀ cols u ctr v,
        checkSpans s (hSet s .matrix) (columnSize h K false) .read (matTrap s 0 0) (columnsAt p (shapePitch q.shape)) s = .ok cols u →
        matrixCounter u (matInfo s) = .ok ctr v →
        let y := releaseTile ctr (finishIssues (commitStores v))
        ∃ x, TileHolds y x p q.shape h false cols ∧
          Multiplies i m g z x (rowsA s g a.toNat k.toNat nsa K) y s (fun old new =>
            new.tile = none ∧ new.seq = some { q with pos := q.pos + 1 } ∧ new.group = old.group ∧ new.ctr = old.ctr ∧
            IssueQueued ctr old new)))) ∧
  (∀ (cs : BitVec 1) (m : BitVec 2) (a : BitVec 5) (k : BitVec 3) (g h : BitVec 5) (z : BitVec 1) (s : State) (sh : GroupShape)
      (tab : List Group × List Nat) (gs : List (Group × List (List SpanPart))) (ctr : Option Counter) (u v w : State),
    MatReady (regsA g a.toNat (groupK s) false) none s → attached s = true → s.c.mat.group = some sh → sh.fb = h →
    let K := shapeK sh.shape
    let nsa := shapeNsa sh.shape
    operandAOk g a.toNat k.toNat s.c.mat.mr nsa K false = true → scalesNeeded g K = nsa →
    let i := Instr.mmag cs m a k g h z
    (4 ≤ s.c.mat.issues.length → Waits i 14 s) ∧
    (s.c.mat.issues.length < 4 → ∀ r x, readTable (finishIssues (commitStores s)) sh (hSet s .matrix) = .trap r x →
      exec i s = .next (takeTrap r { x with recs := s.recs, nextRec := s.nextRec })) ∧
    (s.c.mat.issues.length < 4 → readTable (finishIssues (commitStores s)) sh (hSet s .matrix) = .ok tab u →
      checkGroups s.c.mat.mr sh (hSet s .matrix) (tab.1.zipIdx.map fun x => (x.2, x.1)) u = .ok gs v →
      matrixCounter v (matInfo s) = .ok ctr w →
      let y := releaseTile ctr w
      ∃ t fl, exec i s = .next t ∧ t.c.sys.fpctl = s.c.sys.fpctl ||| (BitVec.zeroExtend 64 (fl : Flags)) ∧
        (∀ r c, r < (accAt y m.toNat).W.length → c < 128 → accElem ((accAt t m.toNat).W.getD r 0) c
          = groupCell (matInt g) z sh (rowsA s g a.toNat k.toNat nsa K) y r c gs (accElem ((accAt y m.toNat).W.getD r 0) c)) ∧
        (accAt t m.toNat).V = (accAt y m.toNat).V ∧ (∀ n, n ≠ m.toNat → accAt t n = accAt y n) ∧ t.c.mat.tile = none ∧
        IssueQueued ctr y.c.mat t.c.mat ∧
        MatrixFrame { y with c := { y.c with sys := { y.c.sys with fpctl := 0 } } } { t with c := { t.c with sys := { t.c.sys with fpctl := 0 } } })) ∧
  (∀ (cs : BitVec 1) (a : BitVec 5) (k : BitVec 3) (q h : BitVec 5) (s : State), MatReady [] none s → attached s = true →
    let d := s.rd k.toNat
    (scalesNeeded h (shapeK d) ≠ shapeNsb d → TakesTrap (.mseq cs a k q h) (scaleCountTrap s (scalesNeeded h (shapeK d)) (shapeNsb d)) s) ∧
    (scalesNeeded h (shapeK d) = shapeNsb d → 4 ≤ s.c.mat.issues.length → Waits (.mseq cs a k q h) 14 s)) ∧
  (∀ (cs : BitVec 1) (a : BitVec 5) (k : BitVec 3) (q h : BitVec 5) (s : State), MatReady [] none s → attached s = true →
    s.c.mat.issues.length < 4 →
    let r := s.ra a.toNat
    let d := s.rd k.toNat
    let at_ (b : List Byte) (o len : Nat) : Nat := leNat ((b.drop o).take len)
    let i := Instr.mseq cs a k q h
    let box := boxCheck r { l := true, e := true } 64 1 0 1 0
    scalesNeeded h (shapeK d) = shapeNsb d →
    (∀ p, box = some p → TakesTrap i (s.trapInfo false 0x07 (BitVec.ofInt 64 p)) s) ∧
    (box = none → q ≠ 0 → 64 ≤ (s.rq q.toNat).length → Waits i 14 s) ∧
    (box = none → q.toNat < 8 → (q = 0 ∨ (s.rq q.toNat).length < 64) → ∀ ps u ctr v,
      checkSpan s (hSet s .matrix) r.ptr.toNat 64 .read (matInfo s) = .ok ps u → matrixCounter u (matInfo s) = .ok ctr v →
      let y := finishIssues (commitStores v)
      let b := spanBytes y ps
      ∃ t x, exec i s = .next t ∧ t.c.mat.seq = some x ∧ x.list = keptBlocks b ∧ x.pos = 0 ∧ x.a = r ∧ x.shape = d ∧ x.fb = h ∧
        x.off = (BitVec.ofNat 64 (at_ b 0 8)).toInt ∧ x.str = (BitVec.ofNat 64 (at_ b 8 8)).toInt ∧
        IssueQueued ctr y.c.mat t.c.mat ∧ t.c.mat.acc = y.c.mat.acc ∧ t.c.mat.tile = y.c.mat.tile ∧ t.mem = y.mem ∧
        (if q = 0 then t.c.q = y.c.q
          else QueueWritten q.toNat (y.rq q.toNat ++ [{ val := BitVec.ofNat 64 (keptBlocks b).length, filled := true }]) y t) ∧
        Frame (fun c => epEnd (queues { c with mat := MatrixState.detached })) (recordsOut (storedOut y)) (recordsOut (storedOut t)) ∧
        Completed y t)) ∧
  (∀ (b : List Byte), (keptBlocks b).Pairwise (· < ·) ∧ ∀ x, x ∈ keptBlocks b ↔ keeps b x) ∧
  (∀ (acc : Nat) (a b : List MElem), acc < 2 ^ 32 → a.length = b.length → (∀ x ∈ a ++ b, ∃ neg m, x.1 = .fin neg m 0) →
    (dotElem true acc a.length a b).1
      = patternOf 32 ((BitVec.ofNat 32 acc).toInt + sumInt ((a.zip b).map fun p => elemInt p.1 * elemInt p.2))) ∧
  (∀ (acc : Nat) (a b : List MElem), a.length = b.length → 0 < a.length → a.length ≤ 32 → finite (fmtF32.decode acc) = true →
    (∀ x ∈ a ++ b, finite x.1 = true ∧ x.2 = true) →
    let v := (a.zip b).foldr (fun p (sum : Rat) => elemRat p.1 * elemRat p.2 + sum) (ratOf (fmtF32.decode acc))
    v ≠ 0 → RoundedTo fmtF32 v (dotElem false acc a.length a b))

/-- R94, R263 to R280: the LZ words: making and moving reals; decisions, which examine the least number of digits that settles them and
never change a real; comparing, where two positions always differ within 256 digits because Sluice is a bijection (R94), so that the 512
of R275 always suffice; converting, reading and counting; LAZY_STALE, ILLEGAL_INSN under another VFMT, and what stops one before its effect
(R20 to R22). The digits of a draw are the generator's, whatever calls are made (R270). How a z register's elements lie in it, and that ZCNT
acts on every live element whatever ESTART is, are the model's reading (log entries 43 and 44). -/
def Obligations.LazyReals : Prop :=
  (∀ (cs : BitVec 1) (d a b : BitVec 5) (s : State), d.toNat < 8 → a.toNat < 8 →
    (lazyVfmt s → WordStops (.zmov cs d a) (lazyForm 0 none []) (·.lazy) 1 6 s) ∧
    (LazyReady (lazyForm 0 none []) s →
      MakesReals (.znew cs d a) d (fun e => freshReal (s.rx a + sbaseOf s.c.vloop + BitVec.ofNat 64 e)) s ∧
      (¬staleIn s a.toNat →
        MakesReals (.zfork cs d a b) d (fun e =>
          freshReal ((sluice s.c.sys.seed 3 0 (readZ1 s a.toNat e).pos ((s.rx b).truncate 32)).truncate 64)) s ∧
        MakesReals (.zmov cs d a) d (fun e => { readZ1 s a.toNat e with stale := false }) s) ∧
      (staleIn s a.toNat → TakesTrap (.zfork cs d a b) (staleInfo s a) s ∧ TakesTrap (.zmov cs d a) (staleInfo s a) s)) ∧
    (LazyReady (lazyForm 0 none [vreg a 64, vreg b 32]) s →
      MakesReals (.zpin cs d a b) d (fun e =>
        let n := min (readElem s (vreg b 32) e) 64
        { pos := (readZ1 s d.toNat e).pos, len := n, stale := false
          held := BitVec.ofNat 64 (readElem s (vreg a 64) e / 2 ^ (64 - n) * 2 ^ (64 - n)) }) s) ∧
    (LazyReady (lazyForm 0 none [vreg a 32, vreg b 32]) s →
      MakesReals (.zset cs d a b) d (fun e =>
        freshReal (BitVec.ofNat 64 (readElem s (vreg a 32) e + readElem s (vreg b 32) e * 2 ^ 32))) s)) ∧
  (∀ (cs : BitVec 1) (d a b : BitVec 5) (f : BitVec 1) (s : State), d.toNat < 8 → a.toNat < 8 →
    let o := vreg b (thresholdFmt f).bits
    let r (e : Nat) := decided s (readZ1 s a.toNat e) f (readElem s o e)
    LazyReady (lazyForm 0 none [o]) s →
    (¬staleIn s a.toNat → ∃ t, exec (.zlt cs d a b f) s = .next t ∧ exec (.zle cs d a b f) s = .next t ∧
      PredicateWritten d.toNat (fun e => (r e).1) s t ∧
      RealsWritten (· = a.toNat) (fun n e => (readZ1 s n e).extend s.c.sys.seed (r e).2.1) s t ∧
      t.c.sys.fpctl = s.c.sys.fpctl ||| (unionFlags s fun e => (r e).2.2).zeroExtend 64 ∧
      Frame (fun c => lazyOut (preds c)) s t ∧ Completed s t) ∧
    (staleIn s a.toNat → TakesTrap (.zlt cs d a b f) (staleInfo s a) s ∧ TakesTrap (.zle cs d a b f) (staleInfo s a) s)) ∧
  (∀ f ∈ [fmtBf16, fmtF32], ∀ (seed : Word) (z : ZElem) (bits : Nat),
    let r := decideLt seed z (f.decode bits)
    let c := ratOf (f.decode bits)
    (f.decode bits = .nan → r = (false, 0, flagNV)) ∧ (f.decode bits = .inf false → r = (true, 0, 0)) ∧
    (f.decode bits = .inf true → r = (false, 0, 0)) ∧
    (finite (f.decode bits) = true →
      (c ≤ 0 → r = (false, 0, 0)) ∧ (1 ≤ c → r = (true, 0, 0)) ∧
      (0 < c → c < 1 → 1 ≤ r.2.1 ∧ r.2.1 ≤ 149 ∧ r.2.2 = 0 ∧ ¬between seed z r.2.1 c ∧ (∀ k, 1 ≤ k → k < r.2.1 → between seed z k c) ∧
        (r.1 = true ↔ prefixOf seed z r.2.1 + 1 / 2 ^ r.2.1 ≤ c)))) ∧
  (∀ (seed : Word) (z : ZElem) (k : Nat),
    (z.extend seed k).len = max z.len k ∧ (z.extend seed k).pos = z.pos ∧
    ∀ n, 1 ≤ n → (z.extend seed k).digit seed n = z.digit seed n) ∧
  (∀ (seed : Word) (x y : ZElem),
    (x.pos = y.pos → compareZ seed x y = some (false, 0)) ∧
    (x.pos ≠ y.pos →
      ∃ b k, compareZ seed x y = some (b, k) ∧ 1 ≤ k ∧ k ≤ 256 ∧ x.digit seed k ≠ y.digit seed k ∧
        (∀ n, 1 ≤ n → n < k → x.digit seed n = y.digit seed n) ∧ b = !x.digit seed k)) ∧
  (∀ (cs : BitVec 1) (d a b : BitVec 5) (s : State), d.toNat < 8 → a.toNat < 8 → b.toNat < 8 → LazyReady (lazyForm 0 none []) s →
    let g (e : Nat) := compareZ s.c.sys.seed (readZ1 s a.toNat e) (readZ1 s b.toNat e)
    let bitOf (e : Nat) := ((g e).map (·.1)).getD false
    let k (e : Nat) := ((g e).map (·.2)).getD 0
    (staleIn s a.toNat → TakesTrap (.zcmp cs d a b) (staleInfo s a) s) ∧
    (¬staleIn s a.toNat → staleIn s b.toNat → TakesTrap (.zcmp cs d a b) (staleInfo s b) s) ∧
    (¬staleIn s a.toNat → ¬staleIn s b.toNat →
      ∃ t, exec (.zcmp cs d a b) s = .next t ∧ PredicateWritten d.toNat bitOf s t ∧
        RealsWritten (fun n => n = a.toNat ∨ n = b.toNat) (fun n e => (readZ1 s n e).extend s.c.sys.seed (k e)) s t ∧
        Frame (fun c => lazyOut (preds c)) s t ∧ Completed s t)) ∧
  (∀ (cs t : BitVec 1) (d a : BitVec 5) (s : State), a.toNat < 8 →
    let o := vreg d 32
    let w := lazyForm t (some o) []
    LazyReady w s →
    let z (e : Nat) := readZ1 s a.toNat e
    let r (e : Nat) := convertFrom s.c.sys.seed (z e) 150 1 0
    (staleIn s a.toNat → TakesTrap (.zcvt cs t d a) (staleInfo s a) s ∧ TakesTrap (.zlen cs t d a) (staleInfo s a) s ∧
      TakesTrap (.zposl cs t d a) (staleInfo s a) s ∧ TakesTrap (.zposh cs t d a) (staleInfo s a) s) ∧
    (¬staleIn s a.toNat →
      (∃ u, exec (.zcvt cs t d a) s = .next u ∧ VectorResult (fun c => lazyOut (vectors c)) w o (fun e => (r e).1) 0 s u ∧
        RealsWritten (· = a.toNat) (fun n e => (readZ1 s n e).extend s.c.sys.seed (r e).2) s u) ∧
      LaneResult (.zlen cs t d a) w o (fun e => (z e).len) 0 s ∧
      LaneResult (.zposl cs t d a) w o (fun e => (z e).pos.toNat % 2 ^ 32) 0 s ∧
      LaneResult (.zposh cs t d a) w o (fun e => (z e).pos.toNat / 2 ^ 32) 0 s)) ∧
  (∀ (seed : Word) (z : ZElem),
    let r := convertFrom seed z 150 1 0
    1 ≤ r.2 ∧ r.2 ≤ 150 ∧ (∀ x, between seed z r.2 x → NearestEven fmtF32 x r.1) ∧
    ∀ k, 1 ≤ k → k < r.2 → ¬∃ v, ∀ x, between seed z k x → NearestEven fmtF32 x v) ∧
  (∀ (cs t : BitVec 1) (d a b : BitVec 5) (j : BitVec 3) (f : BitVec 1) (s : State), a.toNat < 8 →
    let o := vreg d 32
    let src := vreg b (thresholdFmt f).bits
    let w := lazyForm t (some o) [src]
    LazyReady w s →
    let r (m e : Nat) := decided s (readZ1 s a.toNat m) f (readElem s src e)
    let count (m : Nat) := ((segment s j m).filter fun e => !(r m e).1 && (r m e).2.2 == 0).length
    let most (m : Nat) := (segment s j m).foldr (fun e k => max (r m e).2.1 k) 0
    let hit (m : Nat) := m < segmentCount s j
    ((∃ m, hit m ∧ (readZ1 s a.toNat m).stale = true) → TakesTrap (.zcnt cs t d a b j f) (staleInfo s a) s) ∧
    ((∀ m, hit m → (readZ1 s a.toNat m).stale = false) → ∃ u, exec (.zcnt cs t d a b j f) s = .next u ∧
      (∀ m, m < 128 → d.toNat + m / 128 < 32 → resultElem s u w o m = if hit m then count m else startElem s w o m) ∧
      (∀ c, copyOf s o = some c → ∀ m, m < 128 → fileElem u c (vlmaxNow s) (rotNow s) m = if hit m then count m else startElem s w o m) ∧
      (∀ n, n ∉ fileRegs s w o → nth u.c.v n 0 = nth s.c.v n 0 ∧ nth u.c.vtag n .general = nth s.c.vtag n .general) ∧
      (∀ n m, n < 8 → m < 128 → realAfter s u n m
        = if n = a.toNat ∧ hit m then (readZ1 s n m).extend s.c.sys.seed (most m) else readZ1 s n m) ∧
      (∃ fl : Flags, u.c.sys.fpctl = s.c.sys.fpctl ||| fl.zeroExtend 64 ∧
        ∀ k, fl.getLsbD k = true ↔ ∃ m e, hit m ∧ e ∈ segment s j m ∧ (r m e).2.2.getLsbD k = true) ∧
      Frame (fun c => lazyOut (vectors c)) s u ∧ Completed s u)) ∧
  (∀ (cs t : BitVec 1) (d a b : BitVec 5) (j : BitVec 3) (f : BitVec 1) (s : State), ¬lazyVfmt s →
    ∀ i ∈ [Instr.znew cs d a, .zfork cs d a b, .zmov cs d a, .zpin cs d a b, .zset cs d a b, .zlt cs d a b f, .zle cs d a b f,
      .zcmp cs d a b, .zcvt cs t d a, .zlen cs t d a, .zposl cs t d a, .zposh cs t d a, .zcnt cs t d a b j f],
      TakesTrap i (s.illegal false) s) ∧
  (∀ (p : Word) (n : Nat) (s : State), exec (.sluiceCall p n) s = .next s)

/-- R44, R60, R107, R127, R292 to R296, R301 to R303: RADD.v, RMCST and VPOST make their checks in order and put a command into the port,
with the lines or the indices of their register that are sent; RMCST reads its table, whose members are checked in order with their index in
TELEM, and then the window; a replicated command's lines leave for the window; a word that traps leaves no race record (R106); one that
waits for its table while its register is held shows the higher reason (R29); HOLD adds to a register's hold count, or raises LIMIT. How a
replicated command waits, and that a replication window in this package leaves its transfers away, are the model's choices (log entries 45
and 92); so is the address that a fault of a table's second page names (log entry 107). -/
def Obligations.RemoteCommands : Prop :=
  (∀ (d a b : BitVec 5) (n l : BitVec 2) (f t : BitVec 1) (s : State), PortReady a false s →
    let i := Instr.raddV d a b n l f t
    let r := s.ra d.toNat
    let box := boxCheck r { s := true, e := true } (128 * (n.toNat + 1)) 1 0 1 0
    let w := if f = 1#1 then 32 else 16
    let lines := translateLines (fun k => { s.trapInfo true 0 0 with telem := k }) (lineList l n r.ptr) s
    (s.determ = true → TakesTrap i (s.trapInfo true 0x14 s.c.pc) s) ∧
    (s.determ = false →
      (∀ cause v, blockFails (s.ra b.toNat) = some (cause, v) → TakesTrap i (s.trapInfo true cause v) s) ∧
      (blockFails (s.ra b.toNat) = none →
        (∀ p, box = some p → TakesTrap i (s.trapInfo true 0x07 (BitVec.ofInt 64 p)) s) ∧
        (box = none → r.ptr.toNat % 128 ≠ 0 → TakesTrap i (s.trapInfo true 0x05 r.ptr) s) ∧
        (box = none → r.ptr.toNat % 128 = 0 →
          (∀ e u, lines = .trap e u → exec i s = .next (takeTrap e u)) ∧
          (∀ ls u, lines = .ok ls u → nth s.c.hold a.toNat 0 ≠ 0 → WaitsWith i 11 s) ∧
          (∀ ls u, lines = .ok ls u → nth s.c.hold a.toNat 0 = 0 →
            CommandIssued i .radd b t (LinesSent ls (fun k x => HoldsLine s a w k x ∧ x.f32 = (f == 1#1) ∧
              ∀ j, j < 1024 / w → x.mask.getLsbD j = sentIndex s (1024 / w * k + j)) false) s u))))) ∧
  (∀ (d a b : BitVec 5) (n l : BitVec 2) (t : BitVec 1) (s : State), PortReady a true s →
    let i := Instr.rmcst d a b n l t
    let r := s.ra d.toNat
    let need : Need := { l := true, s := true, e := true }
    let c := commitStores s
    let w := vfmtWidth s
    (∀ cause v, blockFails (s.ra b.toNat) = some (cause, v) → TakesTrap i (s.trapInfo true cause v) s) ∧
    (blockFails (s.ra b.toNat) = none →
      (∀ p, boxCheck r need 0x80 1 0 1 0 = some p → TakesTrap i (s.trapInfo true 0x07 (BitVec.ofInt 64 p)) s) ∧
      let stops {α : Type} (x : Res α) : Prop := (∀ e u, x = .trap e u → TrapsWith i e s) ∧
        ∀ k u, x = .wait k u → WaitsWith i (if nth s.c.hold a.toNat 0 = 0 then k else max k 11) s
      (boxCheck r need 0x80 1 0 1 0 = none → stops (tableRead c r.ptr 8 (s.trapInfo true 0 0)) ∧
        ∀ head u, tableRead c r.ptr 8 (s.trapInfo true 0 0) = .ok head u → stops (tableRead u (r.ptr + 8) 8 (s.trapInfo true 0 0))) ∧
      (boxCheck r need 0x80 1 0 1 0 = none → ∀ (head win : Nat × List Nat) (s1 s2 : State),
        tableRead c r.ptr 8 (s.trapInfo true 0 0) = .ok head s1 → tableRead s1 (r.ptr + 8) 8 (s.trapInfo true 0 0) = .ok win s2 →
        let m := head.1 % 1024
        let legal := head.1 / 1024 % 64 = 0 ∧ head.1 / 2 ^ 17 = 0 ∧ 1 ≤ m ∧ m ≤ 512
        let rep := head.1 / 65536 % 2 = 1
        (¬legal → TrapsWith i (s.trapInfo true 0x06 (BitVec.ofNat 64 head.1)) s) ∧
        (legal → (∀ p, boxCheck r need (0x80 + 8 * m) 1 0 1 0 = some p → TrapsWith i (s.trapInfo true 0x07 (BitVec.ofInt 64 p)) s) ∧
          (boxCheck r need (0x80 + 8 * m) 1 0 1 0 = none → stops (readMembers r.ptr l n (List.range m) s2) ∧
            ∀ ms s3, readMembers r.ptr l n (List.range m) s2 = .ok ms s3 → stops (checkWindow (decide rep) (BitVec.ofNat 64 win.1) s3)) ∧
          (boxCheck r need (0x80 + 8 * m) 1 0 1 0 = none → ∀ ms s3, readMembers r.ptr l n (List.range m) s2 = .ok ms s3 →
            ms.1.map (·.1) = ((List.range m).flatMap fun j => (List.range (n.toNat + 1)).map fun k => 4 * j + (l.toNat + k)) ∧
            ∀ x s4, checkWindow (decide rep) (BitVec.ofNat 64 win.1) s3 = .ok x s4 →
              (w = 4 → vlNow s % 2 = 1 → TrapsWith i (s.trapInfo true 0x06 (BitVec.ofNat 64 (vlNow s))) s) ∧
              (¬(w = 4 ∧ vlNow s % 2 = 1) → nth s.c.hold a.toNat 0 ≠ 0 → WaitsWith i 11 s) ∧
              (¬(w = 4 ∧ vlNow s % 2 = 1) → nth s.c.hold a.toNat 0 = 0 →
                let away := rep ∧ ∀ y, x = some y → pkgOf y.loc = s.fab.pkg.toNat ∨ (routePort s4 (pkgOf y.loc)).isSome = true
                ∃ (dec : Bool), (dec = true ↔ away) ∧
                  let sends (k : Nat) (x : LinePacket) : Prop :=
                    HoldsLine s a w (k % 4) x ∧ ∀ j, j < 128 → x.mask.getLsbD j = sentIndex s ((1024 * (k % 4) + 8 * j) / w)
                  CommandIssued i .rmcst b t (LinesSent ms.1 sends dec) s s4 ∧
                  (dec = true → ∀ y, x = some y → pkgOf y.loc ≠ s.fab.pkg.toNat → ∃ u ls, exec i s = .next u ∧
                    u.fab.sent = s4.fab.sent ++ ls ∧ ls.length = n.toNat + 1 ∧
                    ∀ k, k ≤ n.toNat → ∃ p, ls[k]? = some (.packet (pkgOf y.loc) false p m) ∧ sends (l.toNat + k) p))))))) ∧
  (∀ (f : Nat → TrapInfo) (k : Nat) (va : Word) (r : List (Nat × Word)) (s : State),
    let x := translate s va 128 { write := true, fetch := false, user := !s.prv }
    let got := translateLines f ((k, va) :: r) s
    translateLines f [] s = .ok [] s ∧ (∀ cause, x.1 = .error cause → got = .trap { f k with cause := cause, tval := va } x.2) ∧
    (∀ y, x.1 = .ok y →
      (∀ e u, translateLines f r x.2 = .trap e u → got = .trap e u) ∧ (∀ l u, translateLines f r x.2 = .ok l u → got = .ok ((k, va, y) :: l) u))) ∧
  (∀ (table : Word) (l n : BitVec 2) (j : Nat) (r : List Nat) (s : State),
    let t := { s.trapInfo true 0 0 with telem := j }
    let entry := tableRead s (table + BitVec.ofNat 64 (0x80 + 8 * j)) 8 t
    let got := readMembers table l n (j :: r) s
    readMembers table l n [] s = .ok ([], []) s ∧ (∀ e u, entry = .trap e u → got = .trap e u) ∧ (∀ k u, entry = .wait k u → got = .wait k u) ∧
    (∀ e u, entry = .ok e u →
      let va := BitVec.ofNat 64 e.1
      let lines := translateLines (fun _ => t) (lineList l n va) u
      (e.1 % 128 ≠ 0 → got = .trap { t with cause := 0x05, tval := va } u) ∧
      (e.1 % 128 = 0 →
        (∀ q v, lines = .trap q v → got = .trap q v) ∧
        (∀ ls v, lines = .ok ls v →
          (∀ q w, readMembers table l n r v = .trap q w → got = .trap q w) ∧ (∀ k w, readMembers table l n r v = .wait k w → got = .wait k w) ∧
          (∀ ms w, readMembers table l n r v = .ok ms w →
            got = .ok ((ls.map fun q => (4 * j + q.1, q.2.1, q.2.2)) ++ ms.1, e.2 ++ ms.2) w))))) ∧
  (∀ (rwin : Word) (s : State),
    let x := translate s rwin 128 { write := true, fetch := false, user := !s.prv }
    checkWindow false rwin s = .ok none s ∧
    (∀ cause, x.1 = .error cause → checkWindow true rwin s = .trap (s.trapInfo true cause rwin) x.2) ∧
    (∀ y, x.1 = .ok y → checkWindow true rwin s = .ok (some y) x.2)) ∧
  (∀ (va : Word) (n : Nat) (t : TrapInfo) (s : State), n ≤ 64 →
    let m := min n (65536 - va.toNat % 65536)
    let first := engineCheck .table s (hSet s .remote) va m .read (!s.prv) t
    let got := tableRead s va n t
    (∀ e u, first = .trap e u → got = .trap e u) ∧ (∀ k u, first = .wait k u → got = .wait k u) ∧
    (∀ x u, first = .ok x u → ∃ v, recordsOut v = recordsOut u ∧
      let next := engineCheck .table v (hSet v .remote) (va + BitVec.ofNat 64 m) (n - m) .read (!v.prv) t
      (m = n → ∃ ids, got = .ok (leNat (busBytes u x.loc n), ids) v) ∧
      (m < n → (∀ e w, next = .trap e w → got = .trap e w) ∧ (∀ k w, next = .wait k w → got = .wait k w) ∧
        ∀ y w, next = .ok y w → ∃ ids z, recordsOut z = recordsOut w ∧
          got = .ok (leNat (busBytes u x.loc m ++ busBytes w y.loc (n - m)), ids) z))) ∧
  (∀ (d a b : BitVec 5) (t : BitVec 1) (s : State), PortReady a true s →
    let i := Instr.vpost d a b t
    let desc := s.rx d
    let w := vfmtWidth s
    let cnt := field desc 50 11
    let first := field desc 40 10
    let bad := field desc 61 3 ≠ 0 ∨ bit desc 39 = true ∨ cnt = 0 ∨ 4096 / w < first + cnt ∨ (w = 4 ∧ (first % 2 = 1 ∨ cnt % 2 = 1))
    (∀ cause v, blockFails (s.ra b.toNat) = some (cause, v) → TakesTrap i (s.trapInfo true cause v) s) ∧
    (blockFails (s.ra b.toNat) = none →
      (bad → TakesTrap i (s.trapInfo true 0x06 desc) s) ∧
      (¬bad → w = 4 → vlNow s % 2 = 1 → TakesTrap i (s.trapInfo true 0x06 (BitVec.ofNat 64 (vlNow s))) s) ∧
      (¬bad → ¬(w = 4 ∧ vlNow s % 2 = 1) → nth s.c.hold a.toNat 0 ≠ 0 → Waits i 11 s) ∧
      (¬bad → ¬(w = 4 ∧ vlNow s % 2 = 1) → nth s.c.hold a.toNat 0 = 0 →
        CommandIssued i .vpost b t (fun xs => ∃ x p, xs = [x] ∧ x.ix = 0 ∧ x.post = some p ∧ x.line = none ∧ x.acked = false ∧ x.away = false ∧
          p.desc = desc ∧ p.name = desc.truncate 32 ∧ p.width = w ∧ p.fwd = false ∧ p.local_ = true ∧ p.id = s.fab.nextId ∧
          p.src = s.fab.pkg.toNat ∧
          (∀ j, j < 4096 / w → p.data.toNat / 2 ^ (w * j) % 2 ^ w = elemAt [(readV s a.toNat).1] w 0 j) ∧
          ∀ j, j < 1024 → p.mask.getLsbD j = (decide (first ≤ j) && decide (j < first + cnt) && sentIndex s j)) s s))) ∧
  (∀ (d a : BitVec 5) (s : State), ApReady s →
    let h := nth s.c.hold d.toNat 0
    (65535 < h.toNat + (s.rx a).toNat → TakesTrap (.hold d a) (s.trapInfo true 0x06 (s.rx a)) s) ∧
    (h.toNat + (s.rx a).toNat ≤ 65535 → ∃ t, exec (.hold d a) s = .next t ∧ (nth t.c.hold d.toNat 0).toNat = h.toNat + (s.rx a).toNat ∧
      (∀ n, n ≠ d.toNat → nth t.c.hold n 0 = nth s.c.hold n 0) ∧ Frame (fun c => { c with hold := Vector.replicate 32 0 }) s t ∧
      Completed s t)) ∧
  (∀ (d a b : BitVec 5) (n l : BitVec 2) (f t : BitVec 1) (s : State), payloadOk s { cls := .control } = false →
    TakesTrap (.raddV d a b n l f t) (s.illegal true) s ∧ TakesTrap (.rmcst d a b n l t) (s.illegal true) s ∧
    TakesTrap (.vpost d a b t) (s.illegal true) s)

/-- R46, R47, R286 to R288, R291, R292, R295 to R297, R304 to R306: what arrives at the port: lines, which are refused, moved, made to wait
for the line's holders, or applied to the elements or bytes sent; acknowledgements, which a command gathers until it makes its three
completion writes; the reports of a command, taken as a trap; and posts, which are sent under the cached name, those to one name, member and
register in issue order, refused, forwarded once, made to wait, or applied to a live register or to a save area; the answer of one of this
package goes to its command, with the hint to the berth cache. That a line waits for its holders, or is refused where one of them cannot be
reached, is the model's reading (log entry 51); so are log entries 45 to 50, 65, 99 and 108. -/
def Obligations.RemoteEvents : Prop :=
  (∀ (l : LinePacket) (s : State), MemoriesOk s → l.off % 128 = 0 → offOf l.off < ctrlBase →
    let pa := s.fab.pkg.toNat * 2 ^ 42 + offOf l.off
    let line := pa / 128
    ∀ p ∈ [(Instr.remoteAtomicLine l, true, addedBytes s pa l), (.multicastCopy l, false, copiedBytes s pa l)],
      (∀ k, lineCheck s l = .refused k → Answers p.1 (.lineResp (l.berth.toNat / 2 ^ 22) l.off (.nack k)) s (sameBytes s)) ∧
      (lineCheck s l = .moved → Answers p.1 (.lineResp (l.berth.toNat / 2 ^ 22) l.off .moved) s (sameBytes s)) ∧
      (lineCheck s l = .ok → holdersOf s line true ≠ [] →
        (canRecall s line true = false → Answers p.1 (.lineResp (l.berth.toNat / 2 ^ 22) l.off (.nack 3)) s (sameBytes s)) ∧
        (canRecall s line true = true → Deferred p.1 (.line p.2.1 l) line s)) ∧
      (lineCheck s l = .ok → holdersOf s line true = [] →
        (∀ q, lineRace s pa p.2.1 l = some q → Answers p.1 (.lineResp (l.berth.toNat / 2 ^ 22) l.off (.race q)) s (sameBytes s)) ∧
        (lineRace s pa p.2.1 l = none → Answers p.1 (.lineResp (l.berth.toNat / 2 ^ 22) l.off .ok) s p.2.2))) ∧
  (∀ (id ix : Nat) (r : AckResult) (hint : Option (BitVec 32)) (s : State) (c : RemoteCmd) (x : Transfer),
    commandOf s id = some c → (c.xfers.find? fun y => y.ix == ix && !y.acked) = some x →
    (r ≠ .moved → ∃ u c', exec (.remoteAck id ix r hint) s = .next (finishCommand id u) ∧ commandOf u id = some c' ∧ Gathered c x r c' ∧
      c'.xfers = c.xfers.map (fun y => if y.ix = ix then { y with acked := true } else y) ∧ commandsOut u = commandsOut s ∧
      CacheLearns x hint s u) ∧
    ∃ t, exec (.remoteAck id ix .moved hint) s = .next t ∧ TransferMoved id x c s t) ∧
  (∀ (id : Nat) (bm : BitVec 512) (s : State) (c : RemoteCmd), commandOf s id = some c → c.kind = .rmcst →
    (∀ x ∈ c.xfers, x.acked = false ∧ x.post = none ∧ x.ix < 2048) → (c.xfers.map (·.ix)).Nodup →
    let member (j : Nat) : Bool := bm.getLsbD j && c.xfers.any fun x => x.ix / 4 == j
    ∃ u c', exec (.aggregatedAck id bm) s = .next (finishCommand id u) ∧ commandOf u id = some c' ∧
      (∀ x ∈ c'.xfers, x.acked = true) ∧ (∀ j, j < 512 → c'.bitmap.getLsbD j = (c.bitmap.getLsbD j || member j)) ∧
      c'.refused = c.refused + ((List.range 512).filter member).length ∧ c'.nk = (c.nk || (List.range 512).any member) ∧
      c'.bg = c.bg ∧ c'.hu = c.hu ∧ c'.rc = c.rc ∧ commandsOut u = commandsOut s) ∧
  (∀ (id : Nat) (s : State) (c : RemoteCmd), commandOf s id = some c → finishDue c = false → finishCommand id s = s) ∧
  (∀ (id : Nat) (s u : State) (c : RemoteCmd) (map : List (Xlat × Nat)) (st n : Xlat × Nat), commandOf s id = some c → finishDue c = true →
    c.block.toNat % 16 = 0 → checkWrites c (completionWrites c) s = .ok (map ++ [st, n]) u → MemoriesOk u → PartsPlain map →
    st.1.loc % 8 = 0 → n.1.loc % 8 = 0 → ctrlOff st.1.loc = none → ctrlOff n.1.loc = none →
    (c.kind ≠ .rmcst → map = []) ∧ ∃ v w, StoredParts map c.bitmap.toNat u v ∧
      Stored st.1.loc 8 ((leNat (locBytes v st.1.loc 8) ||| (c.nk.toNat + 2 * c.bg.toNat + 4 * c.hu.toNat + 8 * c.rc.toNat)) % 16) v w ∧
      Stored n.1.loc 8 (min (2 ^ 64 - 1) (counterAt w n.1.loc + 1)) w (finishCommand id s)) ∧
  (∀ (c : RemoteCmd), completionWrites c =
    (if c.kind = .rmcst then accessParts (c.table + 0x40) 64 else []) ++ accessParts (c.block + 8) 8 ++ accessParts c.block 8) ∧
  (∀ (va : Word) (n : Nat), n ≤ 64 →
    ((accessParts va n).flatMap fun p => (List.range p.len).map fun i => p.va + BitVec.ofNat 64 i)
      = (List.range n).map (fun i => va + BitVec.ofNat 64 i) ∧
    ∀ p ∈ accessParts va n, p.of = va ∧ p.va.toNat % 65536 + p.len ≤ 65536) ∧
  (∀ (id : Nat) (s u : State) (c : RemoteCmd) (r : TrapInfo), commandOf s id = some c → finishDue c = true →
    checkWrites c (completionWrites c) s = .trap r u → ∃ c', commandOf (finishCommand id s) id = some c' ∧ c'.wfail = some r ∧
      c'.written = false ∧ (finishCommand id s).mem = u.mem) ∧
  (∀ (id k : Nat) (s u : State) (c : RemoteCmd), commandOf s id = some c → finishDue c = true →
    checkWrites c (completionWrites c) s = .wait k u → finishCommand id s = u) ∧
  (∀ (id : Nat) (s : State) (c : RemoteCmd) (r : TrapInfo), s.cs = .active → commandOf s id = some c → reporting c = true →
    (c.wfail = some r ∨ (c.wfail = none ∧ ∃ q rest, c.reports = q :: rest ∧
      r = if q.cause = 0x11 then { q with taux0 := q.taux0 + BitVec.ofNat 64 (c.refused % 65536) } else q)) →
    ∃ t, exec (.remoteReportTrap id) s = .next t ∧ TrapTaken r s t ∧ t.c.lastRep = some id ∧
      commandOf t id = some { c with deferred := true, taken := true, ret := s.c.pc } ∧
      ∀ j, j ≠ id → commandOf t j = (commandOf s j).map fun q => if q.pends = true then { q with deferred := true } else q) ∧
  (∀ (p : Post) (s : State), p.local_ = false → p.name.toNat / 2 ^ 22 = s.fab.pkg.toNat → s.dev.trctl = 0 →
    let e := readWord s.mem (postEntry s p)
    let m := field p.desc 32 2
    let r := field p.desc 34 5
    let loc := readWord s.mem (postEntry s p + 8 + 8 * m)
    let hint := if p.fwd then some p.name else none
    let unexpected : Prop := ∃ t, exec (.postDelivery p) s = .next t ∧ t.c = s.c ∧ t.saved = s.saved ∧
      t.fab.sent = s.fab.sent ++ leaving s (.postResp p.src p.id .hold hint) ∧
      (MemoriesOk s → ∀ a, readByte t.mem a =
        let count := postEntry s p + 0x28 + 4 * m
        if count ≤ a ∧ a < count + 4 then BitVec.ofNat 8 (min (leNat (readBytes s.mem count 4) + 1) (2 ^ 32 - 1) / 256 ^ (a - count))
        else readByte s.mem a)
    let newest (ws : List Window) : Prop := ∀ w ∈ ws, ∀ q ∈ w.regs, q.1 ≠ r
    (¬entryLives s p → PostAnswered p .gone s) ∧
    (entryLives s p → bit e 62 = true →
      (p.fwd = true → PostAnswered p (.nack 4) s) ∧
      (p.fwd = false → ∀ q : Post, q = { p with name := e.truncate 32, fwd := true } → q.name.toNat / 2 ^ 22 ≠ s.fab.pkg.toNat →
        (reachable s (q.name.toNat / 2 ^ 22) = true → Answers (.postDelivery p) (.post (q.name.toNat / 2 ^ 22) q) s (sameBytes s)) ∧
        (reachable s (q.name.toNat / 2 ^ 22) = false → PostAnswered p (.nack 3) s))) ∧
    (entryLives s p → bit e 62 = false → field e 56 2 < m → PostAnswered p .gone s) ∧
    (entryLives s p → bit e 62 = false → m ≤ field e 56 2 →
      (bit loc 62 = true → exec (.postDelivery p) s = .next { s with fab := { s.fab with posts := s.fab.posts ++ [p] } }) ∧
      (bit loc 62 = false → bit loc 63 = false → field loc 0 10 = s.coreNum → s.cs ≠ .none → isReceiver p s.c = true →
        let h := nth s.c.hold r 0
        let w := nth s.c.written r 0
        ((h = 0 ∨ w &&& p.mask ≠ 0) → unexpected) ∧
        (h ≠ 0 → w &&& p.mask = 0 → p.width ∈ [4, 8, 16, 32] → ∃ t, exec (.postDelivery p) s = .next t ∧
          t.fab.sent = s.fab.sent ++ leaving s (.postResp p.src p.id .ok hint) ∧ t.mem = s.mem ∧
          (∀ j, j < 4096 / p.width → elemAt [nth t.c.v r 0] p.width 0 j =
            if p.mask.getLsbD j then p.data.toNat / 2 ^ (p.width * j) % 2 ^ p.width else elemAt [nth s.c.v r 0] p.width 0 j) ∧
          newest t.c.windows ∧ (∀ l ∈ t.c.levels, newest l.windows) ∧
          nth t.c.vtag r .uniform = .general ∧ nth t.c.hold r 0 = h - 1 ∧ nth t.c.written r 0 = (if h = 1 then 0 else w ||| p.mask) ∧
          (∀ n, n ≠ r → nth t.c.v n 0 = nth s.c.v n 0 ∧ nth t.c.vtag n .general = nth s.c.vtag n .general ∧
            nth t.c.hold n 0 = nth s.c.hold n 0 ∧ nth t.c.written n 0 = nth s.c.written n 0) ∧
          t.c.x = s.c.x ∧ t.c.a = s.c.a ∧ t.c.p = s.c.p ∧ t.c.pc = s.c.pc ∧ t.c.sys = s.c.sys)) ∧
      (bit loc 62 = false → bit loc 63 = true →
        let area := s.fab.pkg.toNat * 2 ^ 42 + field loc 12 36 * 4096
        let d := saveWord s.mem area (0xAC00 + 8 * r)
        let h := saveNat s.mem area (0x8A40 + 2 * r) 2
        let w := nth (replayOf s area).written r 0
        let rows := field (saveWord s.mem area 0) 16 8
        (imageLen (field d 8 8) (field d 0 8) ≠ some (field d 16 16) → PostAnswered p (.nack 5) s) ∧
        (imageLen (field d 8 8) (field d 0 8) = some (field d 16 16) → (h = 0 ∨ w &&& p.mask ≠ 0) → unexpected) ∧
        (imageLen (field d 8 8) (field d 0 8) = some (field d 16 16) → h ≠ 0 → w &&& p.mask = 0 → p.width ∈ [4, 8, 16, 32] →
          MemoriesOk s → ∃ t img, exec (.postDelivery p) s = .next t ∧ t.fab.sent = s.fab.sent ++ leaving s (.postResp p.src p.id .ok hint) ∧
            newest (replayOf t area).windows ∧ (∀ l ∈ (replayOf t area).levels, newest l.windows) ∧
            saveNat t.mem area (0x8A40 + 2 * r) 2 = h - 1 ∧ field (saveWord t.mem area (0xAC00 + 8 * r)) 0 32 = 2 * 256 + 512 * 65536 ∧
            saveNat t.mem area (voff rows + 512 * r) 512 = BitVec.toNat (img : VReg) ∧
            ∀ j, j < 4096 / p.width → elemAt [img] p.width 0 j =
              if p.mask.getLsbD j then p.data.toNat / 2 ^ (p.width * j) % 2 ^ p.width
              else elemAt [(readVec s.mem area rows (rotOf (saveWord s.mem area 0x4C8)) r).1] p.width 0 j)))) ∧
  (∀ (p : Post) (s : State), p ∈ s.fab.posts →
    exec (.postApply p) s = exec (.postDelivery p) { s with fab := { s.fab with posts := s.fab.posts.filter (· ≠ p) } }) ∧
  (∀ (p : Post) (s v : State) (r : AckResult) (hint : Option (BitVec 32)),
    deliverPost 1 (if p.fwd then some p.name else none) p s = (.ack r hint, v) →
    (p.local_ = false → exec (.postDelivery p) s = .next { v with fab := { v.fab with
      sent := v.fab.sent ++ leaving v (.postResp p.src p.id r hint) } }) ∧
    (p.local_ = true → ∀ c x, commandOf v p.id = some c → (c.xfers.find? fun y => y.ix == 0 && !y.acked) = some x →
      ∃ u c', exec (.postDelivery p) s = .next (finishCommand p.id u) ∧ commandOf u p.id = some c' ∧ Gathered c x r c' ∧
        c'.xfers = c.xfers.map (fun y => if y.ix = 0 then { y with acked := true } else y) ∧ commandsOut u = commandsOut v ∧
        CacheLearns x hint v u)) ∧
  (∀ (p : Post) (n : Nat) (hint : Option (BitVec 32)) (s : State), p.name.toNat / 2 ^ 22 = s.fab.pkg.toNat →
    (¬entryLives s p ∨ bit (readWord s.mem (postEntry s p)) 62 = false) →
    deliverPost n hint { p with local_ := true } s = deliverPost n hint { p with local_ := false } s) ∧
  (∀ (s : State) (c : RemoteCmd) (x : Transfer) (p : Post), commandOf s c.id = some c →
    (c.xfers.find? fun y => y.ix == x.ix && !y.acked) = some x → x.post = some p →
    let q : Post := { p with name := servedAs s (p.desc.truncate 32) }
    let home := q.name.toNat / 2 ^ 22
    (home ≠ s.fab.pkg.toNat → reachable s home = false → ∃ c', commandOf (sendTransfer c x s) c.id = some c' ∧ Gathered c x (.nack 3) c' ∧
      c'.xfers = c.xfers.map (fun y => if y.ix = x.ix then { y with acked := true } else y) ∧
      commandsOut (sendTransfer c x s) = commandsOut s) ∧
    (home ≠ s.fab.pkg.toNat → reachable s home = true → (sendPost p s).1 ≠ .busy →
      ∃ ms, (sendTransfer c x s).fab.sent = s.fab.sent ++ .post home q :: ms) ∧
    (home = s.fab.pkg.toNat → p.local_ = true → p.fwd = false → p.id = c.id → x.ix = 0 → (∃ r hint, (sendPost p s).1 = .ack r hint) →
      exec (.postDelivery q) s = .next (finishCommand c.id (sendTransfer c x s)))) ∧
  (∀ (s : State) (c : RemoteCmd) (x : Transfer), nextTransfer s = some (c, x) →
    c ∈ s.c.remote ∧ x ∈ c.xfers ∧ x.acked = false ∧ x.away = false ∧
    (∀ p, x.post = some p → ∀ e ∈ s.c.remote, e.id < c.id → ∀ y ∈ e.xfers, y.acked = false → ∀ q, y.post = some q →
      ¬(field q.desc 0 32 = field p.desc 0 32 ∧ field q.desc 32 2 = field p.desc 32 2 ∧ field q.desc 34 5 = field p.desc 34 5)) ∧
    ((∀ d ∈ s.c.remote, finishDue d = false) → remoteTurn s = finishCommand c.id (sendTransfer c x s)))

/-- R37, R46, R112, R113, R175, R283 to R290: links; a home's directory, which grants a line only after every INV is acknowledged; requests
from other packages, which are refused, answered "moved" or with the race they meet, made to wait for the line's holders, or served; data
that comes back, with the race records of its line; "moved" answers, replays, and the bound, at which the access that has waited longest
ends; fatal events; and the walker's A and D bits. What a request does about the holders of its line, and the race as an answer, are the
model's readings (log entries 51 and 52); so are the identifiers and the free values (log entries 8, 53, 58 and 94) and what stays at the
strip handler's entry (log entry 85). -/
def Obligations.FabricEvents : Prop :=
  (∀ (p : BitVec 4) (s : State),
    let same (t : State) : Prop := { t with fab := { t.fab with links := 0 } } = { s with fab := { s.fab with links := 0 } }
    (∃ t, exec (.linkDown p) s = .next t ∧ same t ∧ ∀ k, t.fab.links.getLsbD k = (s.fab.links.getLsbD k && k != p.toNat)) ∧
    ∃ t, exec (.linkUp p) s = .next t ∧ same t ∧ ∀ k, t.fab.links.getLsbD k = (s.fab.links.getLsbD k || k == p.toNat)) ∧
  (∀ (i : Instr) (own : Bool) (src line first n : Nat) (who : Sender) (s : State),
    (i, own) ∈ [(.rds src ⟨line, first, n, who⟩, false), (.rdx src ⟨line, first, n, who⟩, true)] →
    pkgOf (128 * line) = s.fab.pkg.toNat → reachable s src = true →
    let d := dirAt s line
    let pa := 128 * line + first
    let check := inboundCheck s s.fab.fbit pa own
    let race := farRace s (sectorsOf s pa n) who
    let told (r : AckResult) : Prop := Answers i (.data src line noNews r) s (sameBytes s)
    (∀ r, check = .refused r → told (.nack r)) ∧ (check = .moved → told .moved) ∧
    (check = .ok → (∃ h ∈ holdersFor d src own, reachable s h = false) → told (.nack 3)) ∧
    (check = .ok → (∀ h ∈ holdersFor d src own, reachable s h = true) →
      (∀ q, race = some q → told (.race q)) ∧
      (race = none →
        (d.pending ≠ [] → Directory i { d with reqs := d.reqs ++ [(src, own)] } [] (sameBytes s) s) ∧
        (d.pending = [] → d.reqs = [] → Served i d src own (sameBytes s) s)))) ∧
  (∀ (line : Nat) (s : State), ∃ t d, exec (.inv line) s = .next t ∧ t.fab.held = s.fab.held.filter (·.line ≠ line) ∧
    t.fab.sent = s.fab.sent ++ (if reachable s (pkgOf (128 * line)) = true then [.iack (pkgOf (128 * line)) line d] else []) ∧
    (if (∃ h ∈ s.fab.held, h.line = line ∧ h.modified = true) then ∃ b, d.bits = some b ∧ isLine s line b else d.bits = none) ∧
    TellsRecords line d s ∧ { t with fab := { t.fab with held := [], sent := [] } } = { s with fab := { s.fab with held := [], sent := [] } }) ∧
  (∀ (src line : Nat) (news : LineNews) (s : State), s.mem.wf = true →
    let d := without (dirAt s line) src
    let left := d.pending.filter (· ≠ src)
    let bytes := match news.bits with | some b => withLine s line b | none => sameBytes s
    (left ≠ [] ∨ d.reqs = [] → Directory (.iack src line news) { d with pending := left } [] bytes s) ∧
    (∀ q own, left = [] → d.reqs = [(q, own)] → Served (.iack src line news) { d with pending := [], reqs := [] } q own bytes s) ∧
    Directory (.wb src line news) d [] bytes s ∧
    ∀ i ∈ [Instr.iack src line news, .wb src line news], ∃ t, exec i s = .next t ∧ Learns line news s t) ∧
  (∀ (line : Nat) (news : LineNews) (r : AckResult) (s : State), s.mem.wf = true →
    ∃ t, exec (.data line news r) s = .next t ∧ linesOut t = linesOut s ∧ LineCame line news s t ∧
      ((∀ w ∈ s.fab.wanted, w.key.line ≠ line) →
        t.fab.wanted = s.fab.wanted ∧ t.fab.inbox = s.fab.inbox ∧ t.fab.answers = s.fab.answers ∧ t.fab.held = s.fab.held) ∧
      ∀ w, (s.fab.wanted.find? fun w => w.key.line == line) = some w →
        let asked := s.fab.wanted.filter fun v => v.key == w.key
        t.fab.wanted = (s.fab.wanted.filter fun v => v.key != w.key) ∧
        (news.bits.isSome = true → TransfersCame w.key asked s t ∧ t.fab.answers = s.fab.answers) ∧
        (news.bits.isSome = false → t.fab.inbox = s.fab.inbox ∧ t.fab.held = s.fab.held ∧ t.fab.answers = s.fab.answers ++ asked.map fun v => (v.who, v.key, r))) ∧
  (∀ (place : Nat) (news : LineNews) (s : State), s.mem.wf = true →
    (s.fab.wanted[place]? = none → exec (.loadDataReturn ⟨place, news⟩) s = .next s) ∧
    ∀ w, s.fab.wanted[place]? = some w →
      ∃ t, exec (.loadDataReturn ⟨place, news⟩) s = .next t ∧ linesOut t = linesOut s ∧ LineCame w.key.line news s t ∧
        t.fab.answers = s.fab.answers ∧ t.fab.wanted = s.fab.wanted.filter (· ≠ w) ∧
        TransfersCame w.key (s.fab.wanted.filter (· = w)) s t) ∧
  (∀ (src off n : Nat) (who : Sender) (s : State), reachable s src = true →
    let pa := s.fab.pkg.toNat * 2 ^ 42 + offOf off
    let line := pa / 128
    let i := Instr.readRequest src off ⟨n, who⟩
    let check := inboundCheck s s.fab.fbit pa false
    let race := farRace s (sectorsOf s pa n) who
    let told (r : AckResult) : Prop := Answers i (.readResp src off r [] noNews) s (sameBytes s)
    (∀ r, check = .refused r → told (.nack r)) ∧ (check = .moved → told .moved) ∧
    (check = .ok → canRecall s line false = false → told (.nack 3)) ∧
    (check = .ok → canRecall s line false = true →
      (∀ q, race = some q → told (.race q)) ∧
      (race = none →
        (holdersOf s line false = [] → ∃ news : LineNews, news.bits = none ∧ TellsRecords line news s ∧
          (∀ h ∈ s.ctrs, h.addr / 128 = line → h ∈ news.ctrs) ∧ (∀ w ∈ s.rlxw, w.1 / 128 = line → w ∈ news.notes) ∧
          Answers i (.readResp src off .ok ((List.range n).map fun k => readByte s.mem (pa + k)) news) s (sameBytes s)) ∧
        (holdersOf s line false ≠ [] → Deferred i (.read src off n who) line s)))) ∧
  (∀ (src off : Nat) (bs : List Byte) (effect : FarEffect) (who : Sender) (s : State), MemoriesOk s → reachable s src = true →
    let pa := s.fab.pkg.toNat * 2 ^ 42 + offOf off
    let line := pa / 128
    let i := Instr.writeRequest src off ⟨bs, effect, who⟩
    let check := inboundCheck s s.fab.fbit pa true
    let race := farRace s (sectorsOf s pa (match effect with | .store _ => bs.length | .count .. => 8)) who
    let told (r : AckResult) : Prop := Answers i (.writeResp src off r) s (sameBytes s)
    (∀ r, check = .refused r → told (.nack r)) ∧ (check = .moved → told .moved) ∧
    (check = .ok → canRecall s line true = false → told (.nack 3)) ∧
    (check = .ok → canRecall s line true = true →
      (∀ q, race = some q → told (.race q)) ∧
      (race = none →
        (holdersOf s line true = [] →
          (∀ note, effect = .store note → Answers i (.writeResp src off .ok) s
            fun a => if pa ≤ a ∧ a < pa + bs.length then bs.getD (a - pa) 0 else readByte s.mem a) ∧
          (∀ amount sets, effect = .count amount sets → pa % 8 = 0 → ctrlOff pa = none → pa < coreLoc →
            let v := min (2 ^ 64 - 1) (counterAt s pa + amount)
            Answers i (.writeResp src off .ok) s fun a => if pa ≤ a ∧ a < pa + 8 then BitVec.ofNat 8 (v / 256 ^ (a - pa)) else readByte s.mem a)) ∧
        (holdersOf s line true ≠ [] → Deferred i (.write src off ⟨bs, effect, who⟩) line s)))) ∧
  (∀ (id : Nat) (s : State) (c : RemoteCmd) (x : Transfer), commandOf s id = some c → (c.xfers.find? fun y => !y.acked) = some x →
    (id ≠ 0 → ∃ t, exec (.movedResponse id) s = .next t ∧ TransferMoved id x c s t) ∧
    (x.replays < 3 → ∃ t, exec (.transferReplay (.command id)) s = .next t ∧
      TransferChanged id x.ix (fun y => { y with replays := y.replays + 1 }) c s t ∧ commandsOut t = commandsOut s) ∧
    ((c.xfers.find? fun y => y.ix == x.ix && !y.acked) = some x → 3 ≤ x.replays →
      TransferRefused (.transferReplay (.command id)) id c x 3 s)) ∧
  (∀ (s : State) (w : Want) (rest : List Want), s.fab.wanted = w :: rest →
    ∃ t, exec (.movedResponse 0) s = .next t ∧ linesOut t = linesOut s ∧ sameMemory s t ∧ t.fab.inbox = s.fab.inbox ∧ t.fab.held = s.fab.held ∧
      t.fab.wanted = s.fab.wanted.filter (· ≠ w) ∧ t.fab.answers = s.fab.answers ++ [(w.who, w.key, .moved)]) ∧
  (∀ (place : Nat) (s : State) (w : Want), s.fab.wanted[place]? = some w →
    ∃ t, exec (.transferReplay (.access place)) s = .next t ∧ linesOut t = linesOut s ∧ sameMemory s t ∧ t.fab.inbox = s.fab.inbox ∧
      t.fab.held = s.fab.held ∧
      (w.replays < 3 → t.fab.wanted = s.fab.wanted.set place { w with replays := w.replays + 1 } ∧ t.fab.answers = s.fab.answers) ∧
      (3 ≤ w.replays → t.fab.wanted = s.fab.wanted.filter (· ≠ w) ∧ t.fab.answers = s.fab.answers ++ [(w.who, w.key, .nack 3)])) ∧
  (∀ (id : Nat) (s : State) (c : RemoteCmd) (before after : List Transfer) (x : Transfer), id ≠ 0 → commandOf s id = some c →
    let open_ (y : Transfer) : Bool := y.moved && !y.acked
    let waited (y : Transfer) : Nat := (s.cycle - y.since).toNat
    c.xfers = before ++ x :: after → open_ x = true → (∀ y ∈ before, open_ y = true → waited y < waited x) →
    (∀ y ∈ after, open_ y = true → waited y ≤ waited x) → (c.xfers.find? fun y => y.ix == x.ix && !y.acked) = some x →
    TransferRefused (.unfreezeBoundExpiry id) id c x 2 s) ∧
  (∀ (s : State) (before after : List Moved) (m : Moved), s.cs = .active →
    let waited (y : Moved) : Nat := (s.cycle - y.since).toNat
    s.c.moved = before ++ m :: after → m.ended = false → (∀ y ∈ before, y.ended = false → waited y < waited m) →
    (∀ y ∈ after, y.ended = false → waited y ≤ waited m) →
    let u : State := { s with c := { s.c with moved := s.c.moved.filter (· ≠ m) } }
    ((∀ n, m.who ≠ .channel n ∧ m.who ≠ .port n) → exec (.unfreezeBoundExpiry 0) s
      = .next { s with c := { s.c with moved := s.c.moved.map fun q => if q = m then { q with ended := true } else q } }) ∧
    (∀ n, m.who = .channel n → n < 4 → (chanAt s n).act = true → (chanAt s n).flt = false →
      ChannelStops (.unfreezeBoundExpiry 0) n (chanAt s n).off m.info s u) ∧
    (∀ n c, m.who = .port n → commandOf s n = some c → finishDue c = true →
      ∃ t, exec (.unfreezeBoundExpiry 0) s = .next t ∧ commandOf t n = some { c with wfail := some m.info } ∧ sameMemory s t)) ∧
  (∀ (who : Agent) (s : State) (va : Word) (x : Xlat) (n : Nat) (wr : Bool) (info : TrapInfo),
    (∃ m ∈ s.c.moved, m.ended = true ∧ m.who = who ∧ m.info.tval = va) →
    remoteGate who s va x n wr info = .trap { info with cause := 0x11, tval := va, taux0 := BitVec.ofNat 64 (2 * 65536 + 1) } s) ∧
  (∀ (k : BitVec 2) (pa src : Word) (s : State),
    let line := pa.toNat / 128
    let lands := k ≠ 2#2 ∨ releasedEarly s pa.toNat = true
    let i := Instr.fatalEvent k pa src
    (¬lands → exec i s = .next s) ∧
    (k = 2#2 → lands → ∃ t, exec i s = .next t ∧ (∀ h ∈ t.fab.held, h.line ≠ line) ∧ ∀ q ∈ t.fab.inbox, q.2.line ≠ line) ∧
    (src = 1 → lands → ∃ t, exec i s = .next t ∧ (∀ n, bit t.slot.event n = (bit s.slot.event n || n == 3)) ∧
      (∀ c, s.spill = some c → t.disp.lost = s.disp.lost ++ [c.save]) ∧
      (s.spill = none → ∀ c, s.sh = some c → s.shReady = false → t.disp.lost = s.disp.lost ++ [c.save]) ∧
      (s.spill = none → (s.sh = none ∨ s.shReady = true) → t.disp.lost = s.disp.lost) ∧
      { t with slot := { t.slot with event := 0 }, disp := { t.disp with lost := [] }, fab := s.fab }
        = { s with slot := { s.slot with event := 0 }, disp := { s.disp with lost := [] } }) ∧
    (∀ ch n, ch < 4 → n < 128 → src = BitVec.ofNat 64 (2 + ch + 8 * n) → lands → s.cs = .active → (chanAt s ch).act = true →
      (chanAt s ch).flt = false →
      let c := chanAt s ch
      ChannelStops i ch c.off { s.trapInfo true 0x10 pa with
        tpc := c.pc, telem := ch, tidx := if chanTotal c ≤ c.off + n then 0 else chanTidx c (c.off + n) } s s) ∧
    ((src = 0 ∨ (2 ≤ src.toNat ∧ 4 ≤ (src.toNat - 2) % 8)) → lands → s.cs = .active →
      (bit s.c.sys.shvec 0 = true → ∃ u t, exec i s = .next t ∧ stillDefined s u ∧
        t.c.x = u.c.x ∧ t.c.a = u.c.a ∧ t.c.v = u.c.v ∧ t.c.p = u.c.p ∧ t.c.k = u.c.k ∧ t.c.z = u.c.z ∧ t.c.mat = u.c.mat ∧ t.c.sbuf = [] ∧
        t.c.windows = u.c.windows ∧ t.c.levels = u.c.levels ∧ t.c.dirty = [] ∧ t.c.older = [] ∧
        t.mem = u.mem ∧ t.slot = u.slot ∧ t.c.pc = s.c.sys.shvec &&& ~~~3 ∧ t.c.sys.shpc = s.c.pc ∧ t.c.sys.shinfo = k.zeroExtend 64 ∧
        t.prv = false ∧ t.c.replay = none ∧ t.c.sys.estart = 0) ∧
      (bit s.c.sys.shvec 0 = false → ∃ u t, exec i s = .next t ∧ stillDefined s u ∧ t.c.sbuf = [] ∧ t.c.replay = none ∧
        TrapTaken { s.trapInfo (apAtPc s) 0x10 pa with taux0 := k.zeroExtend 64, strip := true } u t))) ∧
  (∀ (va : Word) (acc : Access) (s : State), s.mem.wf = true →
    ∃ t, exec (.translationWalk va acc) s = .next t ∧ { t with mem := [], tlb := [] } = { s with mem := [], tlb := [] } ∧
      (∀ e size entry, va.toNat < 2 ^ 48 → findLeaf s va.toNat = .leaf e size entry → permitted e acc = true →
        (bit e 4 = false ∨ (acc.write = true ∧ bit e 5 = false)) →
        ∀ n, n < 64 → bit (readWord t.mem entry) n = (bit (readWord s.mem entry) n || n == 4 || (acc.write && n == 5))) ∧
      (2 ^ 48 ≤ va.toNat ∨ findLeaf s va.toNat = .miss ∨ findLeaf s va.toNat = .malformed → t = s))

/-- R116 to R122, R309 to R328, R337: the launch window; the acceptance of a record, with the checks of R313 in order and the argument
values; the exits of contexts and the end of a launch, with its completion counter; bind records, which are held, refused with a reason or
carried out; fills, swaps and spills; and the firmware's choice of the next context. That an EVICT waits for a running spill, when a context
is Runnable, which ends of contexts the firmware is told of, what a parked fill's record holds, and when it writes which record are the
model's readings (log entries 11, 37, 68, 79 and 91); so are the reason 7 that DXIT's wait shows and its check of the open windows of every
level after the counter's (log entries 32 and 62), the end of a launch in one step (log entry 90) and after LOST (log entry 95), the stores
that stay buffered at a swap-out (log entry 105), the end that a partition of size 0 shows (log entry 110), and the reason for records that
R313's table does not list (log entry 104). -/
def Obligations.DispatchEvents : Prop :=
  (∀ (v : Word) (s : State),
    let a := v &&& 0x000FFFFFFFFFFFC0
    (s.dev.state ≠ .ready → exec (.lwin v) s = .next s) ∧
    (s.dev.state = .ready → s.disp.lwin.length < 256 →
      exec (.lwin v) s = .next { s with disp := { s.disp with lwin := s.disp.lwin ++ [a] } }) ∧
    (s.dev.state = .ready → 256 ≤ s.disp.lwin.length → s.mem.wf = true → StatusSays (.lwin v) a.toNat 2 5 s)) ∧
  (∀ (pl : Placing) (s : State) (a : Word) (rest : List Word), s.disp.lwin = a :: rest → s.mem.wf = true →
    let s0 : State := { s with disp := { s.disp with lwin := rest } }
    let r := readLaunch s.mem a.toNat
    let why := rejectReason s0 pl.refused r
    RejectsAs s0 pl.refused r why ∧
    (s.dev.state ≠ .ready → exec (.launchAccept pl) s = .next s) ∧
    (s.dev.state = .ready → why ≠ 0 → ∃ t, exec (.launchAccept pl) s = .next t ∧ readWord t.mem (a.toNat + 8) = BitVec.ofNat 64 (2 + 256 * why) ∧
        OutsideKept [(a.toNat + 8, 8)] s t ∧ { t with mem := [] } = { s0 with mem := [] }) ∧
    (s.dev.state = .ready → why = 0 → ∃ t l, exec (.launchAccept pl) s = .next t ∧ readWord t.mem (a.toNat + 8) = 1 ∧ t.cs = s.cs ∧ t.c = s.c ∧
      t.sh = s.sh ∧ t.disp = { s0.disp with launches := s.disp.launches ++ [l], nextLaunch := s.disp.nextLaunch + 1 } ∧
      l.id = s.disp.nextLaunch ∧ l.rec_ = a.toNat ∧ l.root = r.root.toNat ∧ l.ctr = r.ctr ∧ l.pre = bit r.head 23 ∧ l.prio = field r.head 20 3 ∧
      (r.place = 0 → l.ctxs.length = field r.head 24 2 + 1 ∧ l.others = 0 ∧ ∀ c ∈ l.ctxs, c.die = 15) ∧
      ∀ c ∈ l.ctxs, c.state = .runnable ∧ c.waited = 0 ∧ c.since = s.cycle ∧ ∃ q ∈ t.saved, q.save = c.save ∧ q.launch = l.id ∧ q.pc = r.pc ∧
        q.sys.tvec = r.tvec ∧ q.sys.seed = r.seed ∧ q.fresh = true ∧ q.sys.status = r.status ∧ q.root = r.root.toNat ∧ nth q.x 0 0 = 0) ∧
    (s.dev.state = .ready → why = 0 → ∀ ps args, PlacementsAre s0 r ps → ReadsThrough s0 r.root r.args (2 * r.narg) args →
      ∃ t l, exec (.launchAccept pl) s = .next t ∧ t.disp.launches = s.disp.launches ++ [l] ∧
        ∀ g w, ps[g]? = some w → field w 0 10 = s.fab.pkg.toNat → ∀ m, m ≤ r.nmem → ∃ c ∈ l.ctxs, c.member.toNat = m ∧ c.die = field w 16 4 ∧
          ∃ q ∈ t.saved, q.save = c.save ∧ ∀ n, n < 32 → ArgGives args r.narg g m n (nth q.x n 0))) ∧
  (∀ (s : State) (root va p : Nat), readPhys s root va = some p ↔ walkPhys s root va false = some p ∧
    (pkgOf p = s.fab.pkg.toNat ∨ (reachable s (pkgOf p) = true ∧ inboundCheck s (homeFbit s (pkgOf p)) p false = .ok))) ∧
  (∀ (s : State) (root va p : Nat) (wr : Bool), walkPhys s root va wr = some p ↔ va < 2 ^ 48 ∧ ∃ e size entry,
    walkFrom s va 3 root = .leaf e size entry ∧ field e 62 2 ≠ 2 ∧ (wr = true → bit e 1 = true) ∧ p = field e 16 36 * 65536 + va % size) ∧
  (∀ (s : State), s.cs = .active →
    (∀ r u, counterCheck s = .trap r u → exec .dxit s = .next (takeTrap r u)) ∧
    (∀ n u, counterCheck s = .wait n u → exec .dxit s = .next { u with c := { u.c with wait := n } }) ∧
    (∀ ctr u, counterCheck s = .ok ctr u →
      (∀ w, openWindow s = some w →
        exec .dxit s = .next (takeTrap (s.trapInfo true 0x03 w.addr) { u with recs := s.recs, nextRec := s.nextRec })) ∧
      (openWindow s = none → commandsPending s = true →
        exec .dxit s = .next { u with c := { u.c with exiting := true, wait := 7 }, recs := s.recs, nextRec := s.nextRec }) ∧
      ((∀ x, ctr = some x → ctrlOff x.1 = none) → commandsPending s = false →
        (openWindow s = none → Exits .dxit s) ∧ (s.c.exiting = true → s.disp.exits = [] → Exits .contextExit s)))) ∧
  (∀ (id : Nat) (l : Launch) (rest : List ExitEvent) (s : State), (s.disp.launches.find? fun k => k.id == id) = some l →
    s.disp.exits = .elsewhere id :: rest →
    let done := l.others ≤ 1 ∧ ∀ q ∈ l.ctxs, q.state = .exited
    (¬done → exec .contextExit s = .next { s with disp := { s.disp with
      exits := rest, launches := s.disp.launches.map fun k => if k.id = id then { k with others := k.others - 1 } else k } }) ∧
    (done → l.ctr = 0 → s.mem.wf = true → ∃ t, exec .contextExit s = .next t ∧ readWord t.mem (l.rec_ + 8) = 3 ∧
      OutsideKept [(l.rec_ + 8, 8)] s t ∧
      t.disp = { s.disp with exits := rest, launches := s.disp.launches.filter (·.id ≠ id) } ∧ t.c = s.c) ∧
    (done → l.ctr ≠ 0 → s.mem.wf = true →
      let u := writeStatus s l.rec_ 3 0
      let place := walkPhys u l.root l.ctr.toNat true
      let away (p : Nat) : Prop := reachable u (pkgOf p) = true ∧ inboundCheck u (homeFbit u (pkgOf p)) p true = .ok
      (place = none → ∃ t, exec .contextExit s = .next t ∧ t.mem = u.mem) ∧
      (∀ p, place = some p → pkgOf p = s.fab.pkg.toNat → holdersOf u (p / 128) true = [] → p % 8 = 0 → ctrlOff p = none → p < coreLoc →
        ∃ t, exec .contextExit s = .next t ∧ ∀ a, readByte t.mem a = counted u p a) ∧
      (∀ p, place = some p → pkgOf p ≠ s.fab.pkg.toNat → away p → p % 8 = 0 → ctrlOff p = none → p < coreLoc →
        ∃ t, exec .contextExit s = .next t ∧ (∀ a, readByte t.mem a = counted u p a) ∧
          t.fab.sent = s.fab.sent ++ [.writeReq (pkgOf p) (offOf p) 8]) ∧
      (∀ p, place = some p → pkgOf p ≠ s.fab.pkg.toNat → ¬away p → ∃ t, exec .contextExit s = .next t ∧ t.mem = u.mem ∧ t.fab = s.fab))) ∧
  (∀ (save : Nat) (rest : List ExitEvent) (s : State), s.disp.exits = .here save :: rest →
    let resident : Prop := (s.cs ≠ .none ∧ s.c.save = save) ∨ (∃ c, (s.sh = some c ∨ s.spill = some c) ∧ c.save = save)
    (resident → exec .contextExit s = .next { s with disp := { s.disp with exits := rest } }) ∧
    (¬resident → ∃ t, exec .contextExit s = .next t ∧ t.saved = s.saved.filter (·.save ≠ save) ∧ t.disp.exits = rest ∧ t.c = s.c ∧ t.cs = s.cs ∧
      t.sh = s.sh ∧ t.spill = s.spill ∧ (∀ k ∈ t.disp.launches, ∀ q ∈ k.ctxs, q.save = save → q.state = .exited) ∧
      ∀ l, launchOf s save = some l →
        let done : Prop := l.others = 0 ∧ ∀ q ∈ l.ctxs, q.save ≠ save → q.state = .exited
        (done → (∀ k ∈ t.disp.launches, k.id ≠ l.id) ∧ (l.ctr = 0 → s.mem.wf = true → readWord t.mem (l.rec_ + 8) = 3)) ∧
        (¬done → t.disp.launches.map (·.id) = s.disp.launches.map (·.id)))) ∧
  (∀ (save : Nat) (l : Launch) (d : CtxInfo) (rest : List ExitEvent) (s : State), s.disp.exits = .failed save :: rest →
    launchOf s save = some l → (l.ctxs.find? fun q => q.save == save) = some d → s.cs = .none → s.sh = none → s.spill = none →
    LaunchFails l d.berth d.member (saveWord s.mem save 0x450) (saveWord s.mem save 0x448) s) ∧
  (∀ (id : Nat) (name : BitVec 32) (member : BitVec 2) (tcause tpc : Word) (l : Launch) (rest : List ExitEvent) (s : State),
    s.disp.exits = .failedElsewhere id name member tcause tpc :: rest → (s.disp.launches.find? fun k => k.id == id) = some l →
    s.cs = .none → s.sh = none → s.spill = none → LaunchFails l name member tcause tpc s) ∧
  (∀ (w : Word) (i : Instr) (op : Nat) (s : State), (i, op) ∈ [(.preload w, 1), (.swap w, 2), (.evict w, 3), (.drop w, 4)] →
    (op = 1 → 0 < s.dev.holdoff → exec i s = .next s) ∧
    ((op = 1 → s.dev.holdoff = 0) →
      (((s.sh.isSome = true ∧ s.shReady = false) ∨ s.pendSwap = true) →
        exec i s = .next { s with slot := { s.slot with op := bindOf w op, held := s.slot.held ++ [recordAt s (bindOf w op)] } }) ∧
      (bindFree s → ¬bindFieldsZero w → BindRefused i (bindOf w op) 1 s))) ∧
  (∀ (w : Word) (s : State), bindFree s → bindFieldsZero w →
    (s.sh = none → BindRefused (.swap w) (bindOf w 2) 1 s ∧ BindRefused (.drop w) (bindOf w 4) 1 s) ∧
    (s.cs = .none → BindRefused (.evict w) (bindOf w 3) 1 s) ∧
    (s.dev.holdoff = 0 →
      (notLoadable s → BindRefused (.preload w) (bindOf w 1) 1 s) ∧
      (¬notLoadable s → noPartition w s → BindRefused (.preload w) (bindOf w 1) 2 s) ∧
      (¬notLoadable s → ¬noPartition w s → noBlocks w s → BindRefused (.preload w) (bindOf w 1) 3 s) ∧
      (¬notLoadable s → ¬noPartition w s → ¬noBlocks w s → s.mem.wf = true → ∃ t c, exec (.preload w) s = .next t ∧ t.sh = some c ∧
        t.shReady = false ∧ c.save = namedSave s ∧ c.scratchA = s.slot.scratch.toNat ∧ c.root = s.slot.root.toNat ∧ c.scr = field w 8 6 ∧
        c.l1m = field w 16 6 ∧ c.member.toNat = namedMember s ∧ c.sys.berth = BitVec.ofNat 64 (namedBerth s) ∧
        field c.sys.grant 8 4 = field w 24 4 ∧
        t.parts = s.parts ++ [⟨namedSave s, s.parts.any fun p => !p.high && decide (0 < p.scr), field w 8 6, field w 16 6⟩] ∧
        t.cs = s.cs ∧ t.c = s.c ∧ t.spill = s.spill ∧ t.slot = { s.slot with op := bindOf w 1 } ∧ Noted (namedSave s) .shadow s t ∧
        (∀ q ∈ t.saved, q.save ≠ namedSave s) ∧ LocationSays true true (namedBerth s) (namedMember s) t ∧
        (apart (namedSave s) 8 (locationAddr s (namedBerth s) (namedMember s)) 8 → bit (readWord t.mem (namedSave s)) 25 = true) ∧
        OutsideKept [(namedSave s, 8), (locationAddr s (namedBerth s) (namedMember s), 8)] s t)) ∧
    (s.sh.isSome = true → exec (.swap w) s = .next { s with pendSwap := true, slot := { s.slot with op := bindOf w 2 } }) ∧
    (s.cs ≠ .none → s.spill = none → ∃ t, exec (.evict w) s = .next t ∧ t.cs = .none ∧ t.c = Context.reset ∧ SwappedOut s t ∧
      t.sh = s.sh ∧ t.parts = s.parts ∧ Noted s.c.save (if s.cs = .parked then .parked else .saved) (finishIssues s) t ∧
      (s.mem.wf = true → LocationSays true true (field s.c.sys.berth 0 32) s.c.member.toNat t)) ∧
    (s.cs ≠ .none → s.spill.isSome = true →
      exec (.evict w) s = .next { s with slot := { s.slot with op := bindOf w 3, held := [recordAt s (bindOf w 3)] } }) ∧
    (∀ c, s.sh = some c → s.mem.wf = true →
      let loc := locationAddr s (field c.sys.berth 0 32) c.member.toNat
      ∃ t, exec (.drop w) s = .next t ∧ t.sh = none ∧ t.shReady = false ∧ t.parts = s.parts.filter (·.owner ≠ c.save) ∧ t.cs = s.cs ∧ t.c = s.c ∧
        Noted c.save .runnable s t ∧ c ∈ t.saved ∧ LocationSays true false (field c.sys.berth 0 32) c.member.toNat t ∧
        (apart c.save 0x4F000 loc 8 → grantRows c.sys.grant ≤ 64 → SaveHolds.VectorsHeld t.mem c (rotOf (if c.vloop.active then c.vloop.strip else 0))))) ∧
  (∀ (s : State) (c : Context), s.sh = some c → s.shReady = false → s.slot.held = [] → s.mem.wf = true →
    let m := setHeaderBit s.mem c.save 25 false
    let rows := 16 * ((List.range 4).filter fun n => bit c.sys.grant (8 + n)).length
    let name := field c.sys.berth 0 32
    (∀ off, badField m c.save rows = some off → ∃ t, exec .fillComplete s = .next t ∧ t.sh = none ∧ t.shReady = false ∧ EventSet 2 s t ∧
      t.parts = s.parts.filter (·.owner ≠ c.save) ∧ Noted c.save .parked s t ∧ LocationSays true false name c.member.toNat t ∧
      t.mrecs = s.mrecs ++ [⟨0x0F, s.coreNum, BitVec.ofNat 32 name, c.member, BitVec.ofNat 64 off, 0, 0⟩] ∧ t.c = s.c ∧ t.cs = s.cs) ∧
    (badField m c.save rows = none → ∃ t q, exec .fillComplete s = .next t ∧ t.sh = some q ∧ t.shReady = true ∧ EventSet 6 s t ∧
      t.c = s.c ∧ t.cs = s.cs ∧ t.parts = s.parts ∧ LocationSays false false name c.member.toNat t ∧
      field (readWord t.mem (locationAddr t name c.member.toNat)) 0 10 = s.coreNum % 1024 ∧
      q.save = c.save ∧ q.pc = saveWord s.mem c.save 0x10 ∧ q.sys.status = saveWord s.mem c.save 8 &&& 0x3F ∧
      (∀ n, n < 32 → nth q.x n 0 = saveWord s.mem c.save (0x40 + 8 * n)) ∧
      (∀ n, n < 32 → (nth q.v n 0, nth q.vtag n .general) =
        readVec s.mem c.save (field (saveWord s.mem c.save 0) 16 8) (rotOf (saveWord s.mem c.save 0x4C8)) n) ∧
      (∀ n, n < 32 → (nth q.hold n 0).toNat = saveNat s.mem c.save (0x8A40 + 2 * n) 2))) ∧
  (∀ (s : State) (c : Context), s.sh = some c → s.shReady = true → s.pendSwap = true → s.spill = none → s.slot.held = [] →
    s.c.mat.issues = [] →
    ∃ t, exec .swapActivation s = .next t ∧ t.cs = .active ∧ t.sh = none ∧ t.shReady = false ∧ t.pendSwap = false ∧ t.slot.used = 0 ∧
      t.slot.ovr = false ∧ t.parts = s.parts ∧ t.c.save = c.save ∧ t.c.pc = c.pc ∧ t.c.x = c.x ∧ t.c.a = c.a ∧ t.c.d = c.d ∧ t.c.v = c.v ∧ t.c.p = c.p ∧
      t.c.k = c.k ∧ t.c.z = c.z ∧ t.c.q = c.q ∧ t.c.hold = c.hold ∧ t.c.chan = c.chan ∧
      (c.fresh = false → t.c.sys = c.sys) ∧
      (c.fresh = true → s.cs = .none → ∀ l, launchOf s c.save = some l →
        t.c.fresh = false ∧ t.c.sys = { c.sys with seed := readWord s.mem (l.rec_ + 0x30) }) ∧
      (∀ l ∈ t.disp.launches, ∀ q ∈ l.ctxs, q.save = c.save → q.state = .active) ∧
      (s.cs = .none → t.spill = none) ∧ (s.cs ≠ .none → SwappedOut s t)) ∧
  (∀ (s : State) (c : Context), s.spill = some c → s.slot.held = [] → s.mem.wf = true → c.scratch.wf = true →
    BanksFit c →
    let loc := locationAddr s (field c.sys.berth 0 32) c.member.toNat
    let n := c.scr * 8192
    ∃ t, exec .spillComplete s = .next t ∧ t.spill = none ∧ EventSet 5 s t ∧ t.parts = s.parts.filter (·.owner ≠ c.save) ∧ c ∈ t.saved ∧
      t.c = s.c ∧ t.cs = s.cs ∧ t.sh = s.sh ∧ LocationSays true false (field c.sys.berth 0 32) c.member.toNat t ∧
      (isParked s c.save = false → Noted c.save .runnable s t) ∧ (isParked s c.save = true → t.disp = s.disp) ∧
      OutsideKept [(c.save, 0x4F000), (c.scratchA, n), (loc, 8)] s t ∧
      (apart c.save 0x4F000 loc 8 → apart c.save 0x4F000 c.scratchA n → apart c.scratchA n loc 8 →
        SaveHolds t.mem c ∧ bit (readWord t.mem c.save) 24 = false ∧
        ∀ a, a < n → readByte t.mem (c.scratchA + a) = readByte c.scratch a)) ∧
  (∀ (v : VReg) (g : Tag) (rot : Nat), tagOk g →
    let e := encodeVec v g rot
    (decodeVec e.1 e.2.1 e.2.2 rot).1 = v ∧ imageLen e.1 e.2.1 = some e.2.2.length) ∧
  (∀ (s : State),
    let overrun : Prop := s.cs = .active ∧ (budgetOf s s.coreNum).toNat ≤ s.slot.used.toNat ∧ s.slot.ovr = false
    (overrun → ∃ t, exec .sliceBudgetExpiry s = .next t ∧ EventSet 1 s t ∧ t.slot.ovr = true ∧
      { t with slot := { t.slot with event := 0, ovr := false } } = { s with slot := { s.slot with event := 0, ovr := false } }) ∧
    (¬overrun → exec .sliceBudgetExpiry s = .next s) ∧
    (s.dev.state ≠ .ready → exec .agingInterval s = .next s) ∧
    (∀ save rest, s.dev.state = .ready → s.disp.lost = save :: rest → exec .agingInterval s =
      exec .contextExit { s with disp := { s.disp with lost := rest, exits := .failed save :: s.disp.exits } }) ∧
    (s.disp.lost = [] →
      (s.slot.held ≠ [] ∨ ¬bindFree s ∨ (s.cs ≠ .none ∧ s.cs ≠ .active) ∨ (s.cs = .active ∧ s.c.preempt = false) →
        exec .agingInterval s = .next s) ∧
      (s.sh = none → (0 < s.dev.holdoff ∨ waiting s = []) → exec .agingInterval s = .next s) ∧
      (s.dev.state = .ready → bindFree s →
        (s.sh.isSome = true → s.spill = none → Yields s 0 → exec .agingInterval s = exec (.swap 0) s) ∧
        (∀ c l d, s.sh = some c → s.spill = none → launchOf s c.save = some l → (l.ctxs.find? fun q => q.save == c.save) = some d →
          d.state ≠ .runnable → Yields s (min 7 (l.prio + d.waited.toNat / max 1 (s.disp.dage.toNat % 2 ^ 32))) →
          exec .agingInterval s = exec (.swap 0) s) ∧
        (∀ q, chosen s = some q → s.sh = none → s.dev.holdoff = 0 →
          (¬Yields s (agedPriority s q.1 q.2) → exec .agingInterval s = .next s) ∧
          (Yields s (agedPriority s q.1 q.2) →
            (Fits s q.1 q.2 → q.1.scr < 64 → q.1.l1m < 64 →
              ∃ w : Word, field w 0 4 = 1 ∧ field w 8 6 = q.1.scr ∧ field w 16 6 = q.1.l1m ∧ field w 24 4 &&& blocksTaken s = 0 ∧
                ((List.range 4).filter fun n => bit w (24 + n)).length = field (readWord s.mem q.2.save) 16 8 / 16 ∧
                exec .agingInterval s = exec (.preload w) { s with slot := { s.slot with
                  save := BitVec.ofNat 64 q.2.save, scratch := BitVec.ofNat 64 q.2.scratch, root := BitVec.ofNat 64 q.1.root
                  berth := BitVec.ofNat 64 (q.2.berth.toNat + q.2.member.toNat * 2 ^ 32) } }) ∧
            (¬Fits s q.1 q.2 →
              let helps : Prop := s.cs = .active ∧ s.spill = none ∧ Fits (withoutActive s) q.1 q.2
              (helps → exec .agingInterval s = exec (.evict 0) s) ∧ (¬helps → exec .agingInterval s = .next s)))))) ∧
    (∀ q, chosen s = some q → q ∈ waiting s ∧ ∀ p ∈ waiting s, agedPriority s p.1 p.2 ≤ agedPriority s q.1 q.2 ∧
      (agedPriority s p.1 p.2 = agedPriority s q.1 q.2 → (s.cycle - p.2.since).toNat ≤ (s.cycle - q.2.since).toNat)) ∧
    ∀ p, p ∈ waiting s ↔ p.1 ∈ s.disp.launches ∧ p.2 ∈ p.1.ctxs ∧ p.2.state = .runnable ∧ (p.2.die = 15 ∨ p.2.die = s.coreNum / 128))

/-- R4, R284, R314, R320, R329 to R342: who may write which register and what it then reads; package reset, the boot step by step, the ROM's
checks, RECOVERY and reload; attestation; power readings, the thermal trip, D3hot and D3cold; samples and their trace records; and the host's
accesses to HBM. The reasons that a lane can show, the free digests and signatures, the stored ranges, the steps of the boot, the histories of
counters in control space, short images, D3cold, the count of drops and a holder that cannot be reached are the model's readings (log entries
5, 9, 38, 40, 41, 57, 80, 81, 82 and 93); so are the host access that waits for a line's holders (log entry 51) and the write of RLCTL in READY
without ENTER, which changes nothing (log entry 98). -/
def Obligations.DeviceEvents : Prop :=
  (∀ s, exec .fbitInv s = .next { s with fab := { s.fab with inCache := [] } }) ∧
  (∀ (w : Writer) (off : Nat) (v : Word) (s : State), off % 8 = 0 → s.coreNum < 1024 →
    let z := clearCounters s (ctrlLoc s off) 8
    (w ∉ writers off → exec (.registerWrite w off v) s = .next s) ∧
    (w ∈ writers off → off ∈ fixedRegs → exec (.registerWrite w off v) s = .next z) ∧
    (w ∈ writers off → ∀ m, (off, m) ∈ plainRows ++ indexedRows → RegisterTakes w off v (v &&& m) s) ∧
    (w ∈ writers off → off = 0x40008 → RegisterTakes w off v (BitVec.ofNat 64 (min (v.toNat % 2 ^ 27) (2 ^ 26))) s) ∧
    (w ∈ writers off → off = 0x100010 → RegisterTakes w off v (BitVec.ofNat 64 (max (v.toNat % 2 ^ 32) 1024)) s) ∧
    (w ∈ writers off → off = 0x110050 + 0x80 * s.coreNum → RegisterTakes w off v (s.slot.event &&& ~~~(v &&& 0xFF)) s) ∧
    (w ∈ writers off → off = 0x110000 + 0x80 * s.coreNum →
      (field v 0 4 = 0 → bindFieldsZero v → exec (.registerWrite w off v) s = .next { z with slot := { s.slot with op := v } }) ∧
      (field v 0 4 ≠ 0 ∨ ¬bindFieldsZero v →
        exec (.registerWrite w off v) s = .next { z with slot := { s.slot with op := v, held := s.slot.held ++ [recordAt s v] } })) ∧
    (w ∈ writers off → off = 0x100000 → exec (.registerWrite w off v) s = exec (.lwin v) z) ∧
    (w ∈ writers off → off = 0x120 → exec (.registerWrite w off v) s = if v = 1 then exec .attestationRequest z else .next z) ∧
    (w ∈ writers off → off = 0x18 →
      let u : State := { z with dev := { s.dev with rlctl := v &&& 7 } }
      (s.dev.state = .ready → exec (.registerWrite w off v) s = if bit v 2 then exec .enter u else .next z) ∧
      (s.dev.state = .recovery → exec (.registerWrite w off v) s = if bit v 0 then exec .go u else .next u) ∧
      (s.dev.state ≠ .ready → s.dev.state ≠ .recovery → exec (.registerWrite w off v) s = .next z))) ∧
  (∀ (trained : Bool) (s : State), exec (.packageReset trained) s = .next { State.reset with
    dev := { Device.reset with flash := s.dev.flash, rollback := s.dev.rollback, tripLog := s.dev.tripLog, trained := some trained }
    coreNum := s.coreNum, tick := s.tick }) ∧
  (∀ (s : State), s.agenda = [] → s.cs = .none → s.dev.power = true → s.dev.d3 = false → s.dev.d3cold = false →
    (s.dev.state = .reset → Boots s fun d =>
      d = { s.dev with state := .rom, flash := if s.dev.flash = [] then Config.flashImage else s.dev.flash }) ∧
    (s.dev.state = .rom → s.dev.trained = some false → Boots s fun d => d = { s.dev with state := .recovery, err := 5 }) ∧
    (s.dev.state = .rom → s.dev.trained = some true → ∃ e, RomAnswers s.dev.flash s.dev.rollback e ∧ Boots s fun d =>
      Started s.dev.flash e s.dev d ∧ d.flash = s.dev.flash ∧ d.msize = 48 * 2 ^ 30 ∧ d.mbase.toNat % 65536 = 0 ∧ d.mbase.toNat < hbmBytes) ∧
    (s.dev.state = .firmware → Boots s fun d => d = { s.dev with state := .ready })) ∧
  (∀ (s : State),
    (s.dev.state = .ready → ∃ u, LaunchesEnded s u ∧ deviceKept s u ∧
      exec .enter s = .next { u with dev := { u.dev with state := .recovery, err := 6 } }) ∧
    (s.dev.state ≠ .ready → exec .enter s = .next s) ∧
    (s.dev.state = .recovery → ∃ t img e, exec .go s = .next t ∧ img.length = s.dev.rllen.toNat ∧
      (∀ n, n < img.length → img[n]? = some (readByte s.mem (s.fab.pkg.toNat * 2 ^ 42 + s.dev.rladdr.toNat + n))) ∧
      RomAnswers img s.dev.rollback e ∧ Started img e s.dev t.dev ∧
      t.dev.flash = (if e = 0 ∧ bit s.dev.rlctl 1 = true then img else s.dev.flash) ∧ { t with dev := s.dev } = s) ∧
    (s.dev.state ≠ .recovery → exec .go s = .next s)) ∧
  (∀ (s : State),
    (s.dev.state ≠ .firmware → s.dev.state ≠ .ready → exec .attestationRequest s = .next s) ∧
    (s.dev.state = .firmware ∨ s.dev.state = .ready → s.mem.wf = true →
      let img := s.dev.image
      let digest := Config.sha3 (img.take 0x20 ++ (img.drop 0x2000).take (imageNat img 0x10 8))
      let body := leBytes 32 s.dev.nonce.toNat ++ leBytes 64 digest.toNat ++ leBytes 8 s.dev.svn.toNat ++
        leBytes 64 (Config.sha3 Config.identityKey).toNat
      let at_ := s.fab.pkg.toNat * 2 ^ 42 + s.dev.attOff.toNat
      ∃ t, exec .attestationRequest s = .next t ∧ readBytes t.mem at_ 168 = body ∧
        readBytes t.mem (at_ + 168) 4627 = leBytes 4627 (Config.identitySign (Config.sha3 body)).toNat ∧ OutsideKept [(at_, 4795)] s t ∧
        { t with mem := [] } = { s with mem := [], dev := { s.dev with attDone := true } })) ∧
  (∀ (pn tn : Word) (s : State),
    let above : Prop := s.dev.plim.toNat < pn.toNat ∨ s.dev.twarn.toNat ≤ tn.toNat
    let below : Prop := pn.toNat < s.dev.plim.toNat ∧ tn.toNat < s.dev.twarn.toNat
    let runs : Prop := s.dev.state = .firmware ∨ s.dev.state = .ready
    (¬runs → exec (.powerReading pn tn) s = .next { s with dev := { s.dev with pnow := pn, tnow := tn } }) ∧
    (runs → ∃ t u, exec (.powerReading pn tn) s = .next t ∧ u.dev.pnow = pn ∧ u.dev.tnow = tn ∧
      (above → u.dev.reports = s.dev.reports + 1 ∧ u.dev.holdoff = 10) ∧
      (¬above → u.dev.reports = s.dev.reports ∧
        u.dev.holdoff = if below then s.dev.holdoff - 1 else if s.dev.holdoff = 0 then 0 else 10) ∧
      { u with dev := { u.dev with pnow := 0, tnow := 0, reports := 0, holdoff := 0 } } =
        { s with dev := { s.dev with pnow := 0, tnow := 0, reports := 0, holdoff := 0 } } ∧
      (tn.toNat < s.dev.tcrit.toNat → t = u) ∧
      (s.dev.tcrit.toNat ≤ tn.toNat → ∃ w, LaunchesEnded u w ∧ deviceKept u w ∧
        (coreEmpty w → t = { w with dev := { w.dev with d3 := true } }) ∧ (¬coreEmpty w → t = w)))) ∧
  (∀ (s : State),
    exec .thermalTrip s = .next { s with dev := { s.dev with power := false, tripLog := true } } ∧
    (s.dev.d3 = false → (coreEmpty s → exec .d3hotEntry s = .next { s with dev := { s.dev with d3 := true } }) ∧
      (¬coreEmpty s → exec .d3hotEntry s = .next s)) ∧
    (s.dev.d3 = true → exec .d3hotEntry s = .next { s with dev := { s.dev with d3cold := true } }) ∧
    (s.dev.d3 = true → s.dev.d3cold = false → exec .d3hotExit s = .next { s with dev := { s.dev with d3 := false, state := .ready } }) ∧
    (s.dev.d3 = false ∨ s.dev.d3cold = true → exec .d3hotExit s = .next s)) ∧
  (∀ (s : State),
    let d := nth s.c.dbg 13 0
    let due : Prop := s.cs = .active ∧ field d 8 24 ≠ 0 ∧ filterPasses s (bit d 0) = true ∧ s.cycle.toNat % (field d 8 24 * 256) = 0
    (¬due → exec .sample s = .next s) ∧
    (due → s.c.wait < 16 → ∃ t reason, exec .sample s = .next t ∧ reason < 16 ∧ (s.c.wait ≠ 0 → reason = s.c.wait) ∧
      (s.c.wait = 0 → reason ≠ 9 ∧ reason ≠ 10 ∧ reason ≠ 13 ∧ (reason = 4 → 0 < s.c.convoy.vmem) ∧ (reason = 8 → s.fab.wanted ≠ []) ∧
        (reason = 11 → ∃ h ∈ s.c.hold.toList, h ≠ 0) ∧ (reason = 12 → ∃ n, n < 4 ∧ s.rq n = []) ∧ (reason = 14 → s.c.mat.issues ≠ []) ∧
        (reason = 15 → 0 < s.c.convoy.lazy)) ∧ t.c = s.c ∧
      (bit s.dev.trctl 11 = false → t = s) ∧
      (bit s.dev.trctl 11 = true → bit s.dev.trctl 18 = false → s.dev.ringPend = 0 → s.dev.portPend = 0 → s.coreNum < 1024 →
        s.mem.wf = true → ∃ r noRing noPort, traceRecord 11 s (BitVec.ofNat 64 reason) s.c.pc r ∧ Traced s t r noRing noPort ∧
          (noRing = true → bit s.dev.trctl 16 = true) ∧ (noPort = true → bit s.dev.trctl 17 = true)))) ∧
  (∀ (off : Nat) (v : Word) (s : State),
    let line := (s.fab.pkg.toNat * 2 ^ 42 + off) / 128
    exec (.cxlMemAccess 1 false off v) s = .next { s with dev := { s.dev with hostRead := some 0 } } ∧
    exec (.cxlMemAccess 1 true off v) s = (if off = 0 then exec (.lwin v) s else .next s) ∧
    (∀ wr, hbmBytes < off + 8 → exec (.cxlMemAccess 0 wr off v) s = .next s) ∧
    (off + 8 ≤ hbmBytes →
      (holdersOf s line false = [] → exec (.cxlMemAccess 0 false off v) s =
        .next { s with dev := { s.dev with hostRead := some (readWord s.mem (s.fab.pkg.toNat * 2 ^ 42 + off)) } }) ∧
      (holdersOf s line true = [] → MemoriesOk s → ∃ t, exec (.cxlMemAccess 0 true off v) s = .next t ∧
        Stored (s.fab.pkg.toNat * 2 ^ 42 + off) 8 v.toNat s t ∧ Frame nothing (storedOut s) (storedOut t)) ∧
      (holdersOf s line false ≠ [] → canRecall s line false = true → Deferred (.cxlMemAccess 0 false off v) (.hostRead off) line s) ∧
      (holdersOf s line true ≠ [] → canRecall s line true = true → Deferred (.cxlMemAccess 0 true off v) (.hostWrite off v) line s) ∧
      (canRecall s line false = false →
        exec (.cxlMemAccess 0 false off v) s = .next { s with dev := { s.dev with hostRead := some 0 } }) ∧
      (canRecall s line true = false → exec (.cxlMemAccess 0 true off v) s = .next s)))
end

