-- ==== Sys2Proof/Laws/State.lean ====
section
/-!
SUPPORT. What each named update of the state leaves in each field: one lemma per field per update, so that no proof unfolds a
record update.
-/

namespace Sys2Proof.Machine

/-! `State.withSys`. -/

@[simp] theorem State.withSys_cs (s : State) (y : SysRegs) : (s.withSys y).cs = s.cs := rfl
@[simp] theorem State.withSys_coreNum (s : State) (y : SysRegs) : (s.withSys y).coreNum = s.coreNum := rfl
@[simp] theorem State.withSys_sh (s : State) (y : SysRegs) : (s.withSys y).sh = s.sh := rfl
@[simp] theorem State.withSys_shReady (s : State) (y : SysRegs) : (s.withSys y).shReady = s.shReady := rfl
@[simp] theorem State.withSys_spill (s : State) (y : SysRegs) : (s.withSys y).spill = s.spill := rfl
@[simp] theorem State.withSys_pendSwap (s : State) (y : SysRegs) : (s.withSys y).pendSwap = s.pendSwap := rfl
@[simp] theorem State.withSys_parts (s : State) (y : SysRegs) : (s.withSys y).parts = s.parts := rfl
@[simp] theorem State.withSys_quadHeld (s : State) (y : SysRegs) : (s.withSys y).quadHeld = s.quadHeld := rfl
@[simp] theorem State.withSys_slot (s : State) (y : SysRegs) : (s.withSys y).slot = s.slot := rfl
@[simp] theorem State.withSys_disp (s : State) (y : SysRegs) : (s.withSys y).disp = s.disp := rfl
@[simp] theorem State.withSys_dev (s : State) (y : SysRegs) : (s.withSys y).dev = s.dev := rfl
@[simp] theorem State.withSys_fab (s : State) (y : SysRegs) : (s.withSys y).fab = s.fab := rfl
@[simp] theorem State.withSys_mem (s : State) (y : SysRegs) : (s.withSys y).mem = s.mem := rfl
@[simp] theorem State.withSys_tlb (s : State) (y : SysRegs) : (s.withSys y).tlb = s.tlb := rfl
@[simp] theorem State.withSys_icache (s : State) (y : SysRegs) : (s.withSys y).icache = s.icache := rfl
@[simp] theorem State.withSys_lbuf (s : State) (y : SysRegs) : (s.withSys y).lbuf = s.lbuf := rfl
@[simp] theorem State.withSys_recs (s : State) (y : SysRegs) : (s.withSys y).recs = s.recs := rfl
@[simp] theorem State.withSys_nextRec (s : State) (y : SysRegs) : (s.withSys y).nextRec = s.nextRec := rfl
@[simp] theorem State.withSys_ctrs (s : State) (y : SysRegs) : (s.withSys y).ctrs = s.ctrs := rfl
@[simp] theorem State.withSys_rlxw (s : State) (y : SysRegs) : (s.withSys y).rlxw = s.rlxw := rfl
@[simp] theorem State.withSys_saved (s : State) (y : SysRegs) : (s.withSys y).saved = s.saved := rfl
@[simp] theorem State.withSys_mrecs (s : State) (y : SysRegs) : (s.withSys y).mrecs = s.mrecs := rfl
@[simp] theorem State.withSys_ctrl (s : State) (y : SysRegs) : (s.withSys y).ctrl = s.ctrl := rfl
@[simp] theorem State.withSys_cycle (s : State) (y : SysRegs) : (s.withSys y).cycle = s.cycle := rfl
@[simp] theorem State.withSys_ir (s : State) (y : SysRegs) : (s.withSys y).ir = s.ir := rfl
@[simp] theorem State.withSys_agenda (s : State) (y : SysRegs) : (s.withSys y).agenda = s.agenda := rfl
@[simp] theorem State.withSys_tick (s : State) (y : SysRegs) : (s.withSys y).tick = s.tick := rfl
@[simp] theorem State.withSys_c_x (s : State) (y : SysRegs) : (s.withSys y).c.x = s.c.x := rfl
@[simp] theorem State.withSys_c_xArr (s : State) (y : SysRegs) : (s.withSys y).c.xArr = s.c.xArr := rfl
@[simp] theorem State.withSys_c_a (s : State) (y : SysRegs) : (s.withSys y).c.a = s.c.a := rfl
@[simp] theorem State.withSys_c_d (s : State) (y : SysRegs) : (s.withSys y).c.d = s.c.d := rfl
@[simp] theorem State.withSys_c_lc (s : State) (y : SysRegs) : (s.withSys y).c.lc = s.c.lc := rfl
@[simp] theorem State.withSys_c_desc (s : State) (y : SysRegs) : (s.withSys y).c.desc = s.c.desc := rfl
@[simp] theorem State.withSys_c_pc (s : State) (y : SysRegs) : (s.withSys y).c.pc = s.c.pc := rfl
@[simp] theorem State.withSys_c_tcp (s : State) (y : SysRegs) : (s.withSys y).c.tcp = s.c.tcp := rfl
@[simp] theorem State.withSys_c_dbg (s : State) (y : SysRegs) : (s.withSys y).c.dbg = s.c.dbg := rfl
@[simp] theorem State.withSys_c_q (s : State) (y : SysRegs) : (s.withSys y).c.q = s.c.q := rfl
@[simp] theorem State.withSys_c_v (s : State) (y : SysRegs) : (s.withSys y).c.v = s.c.v := rfl
@[simp] theorem State.withSys_c_vtag (s : State) (y : SysRegs) : (s.withSys y).c.vtag = s.c.vtag := rfl
@[simp] theorem State.withSys_c_p (s : State) (y : SysRegs) : (s.withSys y).c.p = s.c.p := rfl
@[simp] theorem State.withSys_c_k (s : State) (y : SysRegs) : (s.withSys y).c.k = s.c.k := rfl
@[simp] theorem State.withSys_c_z (s : State) (y : SysRegs) : (s.withSys y).c.z = s.c.z := rfl
@[simp] theorem State.withSys_c_hold (s : State) (y : SysRegs) : (s.withSys y).c.hold = s.c.hold := rfl
@[simp] theorem State.withSys_c_postH (s : State) (y : SysRegs) : (s.withSys y).c.postH = s.c.postH := rfl
@[simp] theorem State.withSys_c_postR (s : State) (y : SysRegs) : (s.withSys y).c.postR = s.c.postR := rfl
@[simp] theorem State.withSys_c_written (s : State) (y : SysRegs) : (s.withSys y).c.written = s.c.written := rfl
@[simp] theorem State.withSys_c_vloop (s : State) (y : SysRegs) : (s.withSys y).c.vloop = s.c.vloop := rfl
@[simp] theorem State.withSys_c_convoy (s : State) (y : SysRegs) : (s.withSys y).c.convoy = s.c.convoy := rfl
@[simp] theorem State.withSys_c_levels (s : State) (y : SysRegs) : (s.withSys y).c.levels = s.c.levels := rfl
@[simp] theorem State.withSys_c_windows (s : State) (y : SysRegs) : (s.withSys y).c.windows = s.c.windows := rfl
@[simp] theorem State.withSys_c_pfxLive (s : State) (y : SysRegs) : (s.withSys y).c.pfxLive = s.c.pfxLive := rfl
@[simp] theorem State.withSys_c_pfxRet (s : State) (y : SysRegs) : (s.withSys y).c.pfxRet = s.c.pfxRet := rfl
@[simp] theorem State.withSys_c_replay (s : State) (y : SysRegs) : (s.withSys y).c.replay = s.c.replay := rfl
@[simp] theorem State.withSys_c_bypass (s : State) (y : SysRegs) : (s.withSys y).c.bypass = s.c.bypass := rfl
@[simp] theorem State.withSys_c_replaySalt (s : State) (y : SysRegs) : (s.withSys y).c.replaySalt = s.c.replaySalt := rfl
@[simp] theorem State.withSys_c_chan (s : State) (y : SysRegs) : (s.withSys y).c.chan = s.c.chan := rfl
@[simp] theorem State.withSys_c_lastFlt (s : State) (y : SysRegs) : (s.withSys y).c.lastFlt = s.c.lastFlt := rfl
@[simp] theorem State.withSys_c_lastRep (s : State) (y : SysRegs) : (s.withSys y).c.lastRep = s.c.lastRep := rfl
@[simp] theorem State.withSys_c_remote (s : State) (y : SysRegs) : (s.withSys y).c.remote = s.c.remote := rfl
@[simp] theorem State.withSys_c_mat (s : State) (y : SysRegs) : (s.withSys y).c.mat = s.c.mat := rfl
@[simp] theorem State.withSys_c_barrier (s : State) (y : SysRegs) : (s.withSys y).c.barrier = s.c.barrier := rfl
@[simp] theorem State.withSys_c_arrivals (s : State) (y : SysRegs) : (s.withSys y).c.arrivals = s.c.arrivals := rfl
@[simp] theorem State.withSys_c_loads (s : State) (y : SysRegs) : (s.withSys y).c.loads = s.c.loads := rfl
@[simp] theorem State.withSys_c_sbuf (s : State) (y : SysRegs) : (s.withSys y).c.sbuf = s.c.sbuf := rfl
@[simp] theorem State.withSys_c_dirty (s : State) (y : SysRegs) : (s.withSys y).c.dirty = s.c.dirty := rfl
@[simp] theorem State.withSys_c_older (s : State) (y : SysRegs) : (s.withSys y).c.older = s.c.older := rfl
@[simp] theorem State.withSys_c_hb (s : State) (y : SysRegs) : (s.withSys y).c.hb = s.c.hb := rfl
@[simp] theorem State.withSys_c_rel (s : State) (y : SysRegs) : (s.withSys y).c.rel = s.c.rel := rfl
@[simp] theorem State.withSys_c_seen (s : State) (y : SysRegs) : (s.withSys y).c.seen = s.c.seen := rfl
@[simp] theorem State.withSys_c_order (s : State) (y : SysRegs) : (s.withSys y).c.order = s.c.order := rfl
@[simp] theorem State.withSys_c_wait (s : State) (y : SysRegs) : (s.withSys y).c.wait = s.c.wait := rfl
@[simp] theorem State.withSys_c_exempt (s : State) (y : SysRegs) : (s.withSys y).c.exempt = s.c.exempt := rfl
@[simp] theorem State.withSys_c_atTvec (s : State) (y : SysRegs) : (s.withSys y).c.atTvec = s.c.atTvec := rfl
@[simp] theorem State.withSys_c_exiting (s : State) (y : SysRegs) : (s.withSys y).c.exiting = s.c.exiting := rfl
@[simp] theorem State.withSys_c_qtrap (s : State) (y : SysRegs) : (s.withSys y).c.qtrap = s.c.qtrap := rfl
@[simp] theorem State.withSys_c_moved (s : State) (y : SysRegs) : (s.withSys y).c.moved = s.c.moved := rfl
@[simp] theorem State.withSys_c_member (s : State) (y : SysRegs) : (s.withSys y).c.member = s.c.member := rfl
@[simp] theorem State.withSys_c_root (s : State) (y : SysRegs) : (s.withSys y).c.root = s.c.root := rfl
@[simp] theorem State.withSys_c_save (s : State) (y : SysRegs) : (s.withSys y).c.save = s.c.save := rfl
@[simp] theorem State.withSys_c_die (s : State) (y : SysRegs) : (s.withSys y).c.die = s.c.die := rfl
@[simp] theorem State.withSys_c_scratchA (s : State) (y : SysRegs) : (s.withSys y).c.scratchA = s.c.scratchA := rfl
@[simp] theorem State.withSys_c_scratch (s : State) (y : SysRegs) : (s.withSys y).c.scratch = s.c.scratch := rfl
@[simp] theorem State.withSys_c_scr (s : State) (y : SysRegs) : (s.withSys y).c.scr = s.c.scr := rfl
@[simp] theorem State.withSys_c_l1m (s : State) (y : SysRegs) : (s.withSys y).c.l1m = s.c.l1m := rfl
@[simp] theorem State.withSys_c_launch (s : State) (y : SysRegs) : (s.withSys y).c.launch = s.c.launch := rfl
@[simp] theorem State.withSys_c_preempt (s : State) (y : SysRegs) : (s.withSys y).c.preempt = s.c.preempt := rfl
@[simp] theorem State.withSys_c_fresh (s : State) (y : SysRegs) : (s.withSys y).c.fresh = s.c.fresh := rfl

/-! `State.withStatus`. -/

@[simp] theorem State.withStatus_cs (s : State) (w : Word) : (s.withStatus w).cs = s.cs := rfl
@[simp] theorem State.withStatus_coreNum (s : State) (w : Word) : (s.withStatus w).coreNum = s.coreNum := rfl
@[simp] theorem State.withStatus_sh (s : State) (w : Word) : (s.withStatus w).sh = s.sh := rfl
@[simp] theorem State.withStatus_shReady (s : State) (w : Word) : (s.withStatus w).shReady = s.shReady := rfl
@[simp] theorem State.withStatus_spill (s : State) (w : Word) : (s.withStatus w).spill = s.spill := rfl
@[simp] theorem State.withStatus_pendSwap (s : State) (w : Word) : (s.withStatus w).pendSwap = s.pendSwap := rfl
@[simp] theorem State.withStatus_parts (s : State) (w : Word) : (s.withStatus w).parts = s.parts := rfl
@[simp] theorem State.withStatus_quadHeld (s : State) (w : Word) : (s.withStatus w).quadHeld = s.quadHeld := rfl
@[simp] theorem State.withStatus_slot (s : State) (w : Word) : (s.withStatus w).slot = s.slot := rfl
@[simp] theorem State.withStatus_disp (s : State) (w : Word) : (s.withStatus w).disp = s.disp := rfl
@[simp] theorem State.withStatus_dev (s : State) (w : Word) : (s.withStatus w).dev = s.dev := rfl
@[simp] theorem State.withStatus_fab (s : State) (w : Word) : (s.withStatus w).fab = s.fab := rfl
@[simp] theorem State.withStatus_mem (s : State) (w : Word) : (s.withStatus w).mem = s.mem := rfl
@[simp] theorem State.withStatus_tlb (s : State) (w : Word) : (s.withStatus w).tlb = s.tlb := rfl
@[simp] theorem State.withStatus_icache (s : State) (w : Word) : (s.withStatus w).icache = s.icache := rfl
@[simp] theorem State.withStatus_lbuf (s : State) (w : Word) : (s.withStatus w).lbuf = s.lbuf := rfl
@[simp] theorem State.withStatus_recs (s : State) (w : Word) : (s.withStatus w).recs = s.recs := rfl
@[simp] theorem State.withStatus_nextRec (s : State) (w : Word) : (s.withStatus w).nextRec = s.nextRec := rfl
@[simp] theorem State.withStatus_ctrs (s : State) (w : Word) : (s.withStatus w).ctrs = s.ctrs := rfl
@[simp] theorem State.withStatus_rlxw (s : State) (w : Word) : (s.withStatus w).rlxw = s.rlxw := rfl
@[simp] theorem State.withStatus_saved (s : State) (w : Word) : (s.withStatus w).saved = s.saved := rfl
@[simp] theorem State.withStatus_mrecs (s : State) (w : Word) : (s.withStatus w).mrecs = s.mrecs := rfl
@[simp] theorem State.withStatus_ctrl (s : State) (w : Word) : (s.withStatus w).ctrl = s.ctrl := rfl
@[simp] theorem State.withStatus_cycle (s : State) (w : Word) : (s.withStatus w).cycle = s.cycle := rfl
@[simp] theorem State.withStatus_ir (s : State) (w : Word) : (s.withStatus w).ir = s.ir := rfl
@[simp] theorem State.withStatus_agenda (s : State) (w : Word) : (s.withStatus w).agenda = s.agenda := rfl
@[simp] theorem State.withStatus_tick (s : State) (w : Word) : (s.withStatus w).tick = s.tick := rfl
@[simp] theorem State.withStatus_c_x (s : State) (w : Word) : (s.withStatus w).c.x = s.c.x := rfl
@[simp] theorem State.withStatus_c_xArr (s : State) (w : Word) : (s.withStatus w).c.xArr = s.c.xArr := rfl
@[simp] theorem State.withStatus_c_a (s : State) (w : Word) : (s.withStatus w).c.a = s.c.a := rfl
@[simp] theorem State.withStatus_c_d (s : State) (w : Word) : (s.withStatus w).c.d = s.c.d := rfl
@[simp] theorem State.withStatus_c_lc (s : State) (w : Word) : (s.withStatus w).c.lc = s.c.lc := rfl
@[simp] theorem State.withStatus_c_desc (s : State) (w : Word) : (s.withStatus w).c.desc = s.c.desc := rfl
@[simp] theorem State.withStatus_c_pc (s : State) (w : Word) : (s.withStatus w).c.pc = s.c.pc := rfl
@[simp] theorem State.withStatus_c_tcp (s : State) (w : Word) : (s.withStatus w).c.tcp = s.c.tcp := rfl
@[simp] theorem State.withStatus_c_dbg (s : State) (w : Word) : (s.withStatus w).c.dbg = s.c.dbg := rfl
@[simp] theorem State.withStatus_c_q (s : State) (w : Word) : (s.withStatus w).c.q = s.c.q := rfl
@[simp] theorem State.withStatus_c_v (s : State) (w : Word) : (s.withStatus w).c.v = s.c.v := rfl
@[simp] theorem State.withStatus_c_vtag (s : State) (w : Word) : (s.withStatus w).c.vtag = s.c.vtag := rfl
@[simp] theorem State.withStatus_c_p (s : State) (w : Word) : (s.withStatus w).c.p = s.c.p := rfl
@[simp] theorem State.withStatus_c_k (s : State) (w : Word) : (s.withStatus w).c.k = s.c.k := rfl
@[simp] theorem State.withStatus_c_z (s : State) (w : Word) : (s.withStatus w).c.z = s.c.z := rfl
@[simp] theorem State.withStatus_c_hold (s : State) (w : Word) : (s.withStatus w).c.hold = s.c.hold := rfl
@[simp] theorem State.withStatus_c_postH (s : State) (w : Word) : (s.withStatus w).c.postH = s.c.postH := rfl
@[simp] theorem State.withStatus_c_postR (s : State) (w : Word) : (s.withStatus w).c.postR = s.c.postR := rfl
@[simp] theorem State.withStatus_c_written (s : State) (w : Word) : (s.withStatus w).c.written = s.c.written := rfl
@[simp] theorem State.withStatus_c_vloop (s : State) (w : Word) : (s.withStatus w).c.vloop = s.c.vloop := rfl
@[simp] theorem State.withStatus_c_convoy (s : State) (w : Word) : (s.withStatus w).c.convoy = s.c.convoy := rfl
@[simp] theorem State.withStatus_c_levels (s : State) (w : Word) : (s.withStatus w).c.levels = s.c.levels := rfl
@[simp] theorem State.withStatus_c_windows (s : State) (w : Word) : (s.withStatus w).c.windows = s.c.windows := rfl
@[simp] theorem State.withStatus_c_pfxLive (s : State) (w : Word) : (s.withStatus w).c.pfxLive = s.c.pfxLive := rfl
@[simp] theorem State.withStatus_c_pfxRet (s : State) (w : Word) : (s.withStatus w).c.pfxRet = s.c.pfxRet := rfl
@[simp] theorem State.withStatus_c_replay (s : State) (w : Word) : (s.withStatus w).c.replay = s.c.replay := rfl
@[simp] theorem State.withStatus_c_bypass (s : State) (w : Word) : (s.withStatus w).c.bypass = s.c.bypass := rfl
@[simp] theorem State.withStatus_c_replaySalt (s : State) (w : Word) : (s.withStatus w).c.replaySalt = s.c.replaySalt := rfl
@[simp] theorem State.withStatus_c_chan (s : State) (w : Word) : (s.withStatus w).c.chan = s.c.chan := rfl
@[simp] theorem State.withStatus_c_lastFlt (s : State) (w : Word) : (s.withStatus w).c.lastFlt = s.c.lastFlt := rfl
@[simp] theorem State.withStatus_c_lastRep (s : State) (w : Word) : (s.withStatus w).c.lastRep = s.c.lastRep := rfl
@[simp] theorem State.withStatus_c_remote (s : State) (w : Word) : (s.withStatus w).c.remote = s.c.remote := rfl
@[simp] theorem State.withStatus_c_mat (s : State) (w : Word) : (s.withStatus w).c.mat = s.c.mat := rfl
@[simp] theorem State.withStatus_c_barrier (s : State) (w : Word) : (s.withStatus w).c.barrier = s.c.barrier := rfl
@[simp] theorem State.withStatus_c_arrivals (s : State) (w : Word) : (s.withStatus w).c.arrivals = s.c.arrivals := rfl
@[simp] theorem State.withStatus_c_loads (s : State) (w : Word) : (s.withStatus w).c.loads = s.c.loads := rfl
@[simp] theorem State.withStatus_c_sbuf (s : State) (w : Word) : (s.withStatus w).c.sbuf = s.c.sbuf := rfl
@[simp] theorem State.withStatus_c_dirty (s : State) (w : Word) : (s.withStatus w).c.dirty = s.c.dirty := rfl
@[simp] theorem State.withStatus_c_older (s : State) (w : Word) : (s.withStatus w).c.older = s.c.older := rfl
@[simp] theorem State.withStatus_c_hb (s : State) (w : Word) : (s.withStatus w).c.hb = s.c.hb := rfl
@[simp] theorem State.withStatus_c_rel (s : State) (w : Word) : (s.withStatus w).c.rel = s.c.rel := rfl
@[simp] theorem State.withStatus_c_seen (s : State) (w : Word) : (s.withStatus w).c.seen = s.c.seen := rfl
@[simp] theorem State.withStatus_c_order (s : State) (w : Word) : (s.withStatus w).c.order = s.c.order := rfl
@[simp] theorem State.withStatus_c_wait (s : State) (w : Word) : (s.withStatus w).c.wait = s.c.wait := rfl
@[simp] theorem State.withStatus_c_exempt (s : State) (w : Word) : (s.withStatus w).c.exempt = s.c.exempt := rfl
@[simp] theorem State.withStatus_c_atTvec (s : State) (w : Word) : (s.withStatus w).c.atTvec = s.c.atTvec := rfl
@[simp] theorem State.withStatus_c_exiting (s : State) (w : Word) : (s.withStatus w).c.exiting = s.c.exiting := rfl
@[simp] theorem State.withStatus_c_qtrap (s : State) (w : Word) : (s.withStatus w).c.qtrap = s.c.qtrap := rfl
@[simp] theorem State.withStatus_c_moved (s : State) (w : Word) : (s.withStatus w).c.moved = s.c.moved := rfl
@[simp] theorem State.withStatus_c_member (s : State) (w : Word) : (s.withStatus w).c.member = s.c.member := rfl
@[simp] theorem State.withStatus_c_root (s : State) (w : Word) : (s.withStatus w).c.root = s.c.root := rfl
@[simp] theorem State.withStatus_c_save (s : State) (w : Word) : (s.withStatus w).c.save = s.c.save := rfl
@[simp] theorem State.withStatus_c_die (s : State) (w : Word) : (s.withStatus w).c.die = s.c.die := rfl
@[simp] theorem State.withStatus_c_scratchA (s : State) (w : Word) : (s.withStatus w).c.scratchA = s.c.scratchA := rfl
@[simp] theorem State.withStatus_c_scratch (s : State) (w : Word) : (s.withStatus w).c.scratch = s.c.scratch := rfl
@[simp] theorem State.withStatus_c_scr (s : State) (w : Word) : (s.withStatus w).c.scr = s.c.scr := rfl
@[simp] theorem State.withStatus_c_l1m (s : State) (w : Word) : (s.withStatus w).c.l1m = s.c.l1m := rfl
@[simp] theorem State.withStatus_c_launch (s : State) (w : Word) : (s.withStatus w).c.launch = s.c.launch := rfl
@[simp] theorem State.withStatus_c_preempt (s : State) (w : Word) : (s.withStatus w).c.preempt = s.c.preempt := rfl
@[simp] theorem State.withStatus_c_fresh (s : State) (w : Word) : (s.withStatus w).c.fresh = s.c.fresh := rfl

/-! `State.withPc`. -/

@[simp] theorem State.withPc_cs (s : State) (p : Word) : (s.withPc p).cs = s.cs := rfl
@[simp] theorem State.withPc_coreNum (s : State) (p : Word) : (s.withPc p).coreNum = s.coreNum := rfl
@[simp] theorem State.withPc_sh (s : State) (p : Word) : (s.withPc p).sh = s.sh := rfl
@[simp] theorem State.withPc_shReady (s : State) (p : Word) : (s.withPc p).shReady = s.shReady := rfl
@[simp] theorem State.withPc_spill (s : State) (p : Word) : (s.withPc p).spill = s.spill := rfl
@[simp] theorem State.withPc_pendSwap (s : State) (p : Word) : (s.withPc p).pendSwap = s.pendSwap := rfl
@[simp] theorem State.withPc_parts (s : State) (p : Word) : (s.withPc p).parts = s.parts := rfl
@[simp] theorem State.withPc_quadHeld (s : State) (p : Word) : (s.withPc p).quadHeld = s.quadHeld := rfl
@[simp] theorem State.withPc_slot (s : State) (p : Word) : (s.withPc p).slot = s.slot := rfl
@[simp] theorem State.withPc_disp (s : State) (p : Word) : (s.withPc p).disp = s.disp := rfl
@[simp] theorem State.withPc_dev (s : State) (p : Word) : (s.withPc p).dev = s.dev := rfl
@[simp] theorem State.withPc_fab (s : State) (p : Word) : (s.withPc p).fab = s.fab := rfl
@[simp] theorem State.withPc_mem (s : State) (p : Word) : (s.withPc p).mem = s.mem := rfl
@[simp] theorem State.withPc_tlb (s : State) (p : Word) : (s.withPc p).tlb = s.tlb := rfl
@[simp] theorem State.withPc_icache (s : State) (p : Word) : (s.withPc p).icache = s.icache := rfl
@[simp] theorem State.withPc_lbuf (s : State) (p : Word) : (s.withPc p).lbuf = s.lbuf := rfl
@[simp] theorem State.withPc_recs (s : State) (p : Word) : (s.withPc p).recs = s.recs := rfl
@[simp] theorem State.withPc_nextRec (s : State) (p : Word) : (s.withPc p).nextRec = s.nextRec := rfl
@[simp] theorem State.withPc_ctrs (s : State) (p : Word) : (s.withPc p).ctrs = s.ctrs := rfl
@[simp] theorem State.withPc_rlxw (s : State) (p : Word) : (s.withPc p).rlxw = s.rlxw := rfl
@[simp] theorem State.withPc_saved (s : State) (p : Word) : (s.withPc p).saved = s.saved := rfl
@[simp] theorem State.withPc_mrecs (s : State) (p : Word) : (s.withPc p).mrecs = s.mrecs := rfl
@[simp] theorem State.withPc_ctrl (s : State) (p : Word) : (s.withPc p).ctrl = s.ctrl := rfl
@[simp] theorem State.withPc_cycle (s : State) (p : Word) : (s.withPc p).cycle = s.cycle := rfl
@[simp] theorem State.withPc_ir (s : State) (p : Word) : (s.withPc p).ir = s.ir := rfl
@[simp] theorem State.withPc_agenda (s : State) (p : Word) : (s.withPc p).agenda = s.agenda := rfl
@[simp] theorem State.withPc_tick (s : State) (p : Word) : (s.withPc p).tick = s.tick := rfl
@[simp] theorem State.withPc_c_x (s : State) (p : Word) : (s.withPc p).c.x = s.c.x := rfl
@[simp] theorem State.withPc_c_xArr (s : State) (p : Word) : (s.withPc p).c.xArr = s.c.xArr := rfl
@[simp] theorem State.withPc_c_a (s : State) (p : Word) : (s.withPc p).c.a = s.c.a := rfl
@[simp] theorem State.withPc_c_d (s : State) (p : Word) : (s.withPc p).c.d = s.c.d := rfl
@[simp] theorem State.withPc_c_lc (s : State) (p : Word) : (s.withPc p).c.lc = s.c.lc := rfl
@[simp] theorem State.withPc_c_desc (s : State) (p : Word) : (s.withPc p).c.desc = s.c.desc := rfl
@[simp] theorem State.withPc_c_sys (s : State) (p : Word) : (s.withPc p).c.sys = s.c.sys := rfl
@[simp] theorem State.withPc_c_tcp (s : State) (p : Word) : (s.withPc p).c.tcp = s.c.tcp := rfl
@[simp] theorem State.withPc_c_dbg (s : State) (p : Word) : (s.withPc p).c.dbg = s.c.dbg := rfl
@[simp] theorem State.withPc_c_q (s : State) (p : Word) : (s.withPc p).c.q = s.c.q := rfl
@[simp] theorem State.withPc_c_v (s : State) (p : Word) : (s.withPc p).c.v = s.c.v := rfl
@[simp] theorem State.withPc_c_vtag (s : State) (p : Word) : (s.withPc p).c.vtag = s.c.vtag := rfl
@[simp] theorem State.withPc_c_p (s : State) (p : Word) : (s.withPc p).c.p = s.c.p := rfl
@[simp] theorem State.withPc_c_k (s : State) (p : Word) : (s.withPc p).c.k = s.c.k := rfl
@[simp] theorem State.withPc_c_z (s : State) (p : Word) : (s.withPc p).c.z = s.c.z := rfl
@[simp] theorem State.withPc_c_hold (s : State) (p : Word) : (s.withPc p).c.hold = s.c.hold := rfl
@[simp] theorem State.withPc_c_postH (s : State) (p : Word) : (s.withPc p).c.postH = s.c.postH := rfl
@[simp] theorem State.withPc_c_postR (s : State) (p : Word) : (s.withPc p).c.postR = s.c.postR := rfl
@[simp] theorem State.withPc_c_written (s : State) (p : Word) : (s.withPc p).c.written = s.c.written := rfl
@[simp] theorem State.withPc_c_vloop (s : State) (p : Word) : (s.withPc p).c.vloop = s.c.vloop := rfl
@[simp] theorem State.withPc_c_convoy (s : State) (p : Word) : (s.withPc p).c.convoy = s.c.convoy := rfl
@[simp] theorem State.withPc_c_levels (s : State) (p : Word) : (s.withPc p).c.levels = s.c.levels := rfl
@[simp] theorem State.withPc_c_windows (s : State) (p : Word) : (s.withPc p).c.windows = s.c.windows := rfl
@[simp] theorem State.withPc_c_pfxLive (s : State) (p : Word) : (s.withPc p).c.pfxLive = s.c.pfxLive := rfl
@[simp] theorem State.withPc_c_pfxRet (s : State) (p : Word) : (s.withPc p).c.pfxRet = s.c.pfxRet := rfl
@[simp] theorem State.withPc_c_replay (s : State) (p : Word) : (s.withPc p).c.replay = s.c.replay := rfl
@[simp] theorem State.withPc_c_bypass (s : State) (p : Word) : (s.withPc p).c.bypass = s.c.bypass := rfl
@[simp] theorem State.withPc_c_replaySalt (s : State) (p : Word) : (s.withPc p).c.replaySalt = s.c.replaySalt := rfl
@[simp] theorem State.withPc_c_chan (s : State) (p : Word) : (s.withPc p).c.chan = s.c.chan := rfl
@[simp] theorem State.withPc_c_lastFlt (s : State) (p : Word) : (s.withPc p).c.lastFlt = s.c.lastFlt := rfl
@[simp] theorem State.withPc_c_lastRep (s : State) (p : Word) : (s.withPc p).c.lastRep = s.c.lastRep := rfl
@[simp] theorem State.withPc_c_remote (s : State) (p : Word) : (s.withPc p).c.remote = s.c.remote := rfl
@[simp] theorem State.withPc_c_mat (s : State) (p : Word) : (s.withPc p).c.mat = s.c.mat := rfl
@[simp] theorem State.withPc_c_barrier (s : State) (p : Word) : (s.withPc p).c.barrier = s.c.barrier := rfl
@[simp] theorem State.withPc_c_arrivals (s : State) (p : Word) : (s.withPc p).c.arrivals = s.c.arrivals := rfl
@[simp] theorem State.withPc_c_loads (s : State) (p : Word) : (s.withPc p).c.loads = s.c.loads := rfl
@[simp] theorem State.withPc_c_sbuf (s : State) (p : Word) : (s.withPc p).c.sbuf = s.c.sbuf := rfl
@[simp] theorem State.withPc_c_dirty (s : State) (p : Word) : (s.withPc p).c.dirty = s.c.dirty := rfl
@[simp] theorem State.withPc_c_older (s : State) (p : Word) : (s.withPc p).c.older = s.c.older := rfl
@[simp] theorem State.withPc_c_hb (s : State) (p : Word) : (s.withPc p).c.hb = s.c.hb := rfl
@[simp] theorem State.withPc_c_rel (s : State) (p : Word) : (s.withPc p).c.rel = s.c.rel := rfl
@[simp] theorem State.withPc_c_seen (s : State) (p : Word) : (s.withPc p).c.seen = s.c.seen := rfl
@[simp] theorem State.withPc_c_order (s : State) (p : Word) : (s.withPc p).c.order = s.c.order := rfl
@[simp] theorem State.withPc_c_wait (s : State) (p : Word) : (s.withPc p).c.wait = s.c.wait := rfl
@[simp] theorem State.withPc_c_exempt (s : State) (p : Word) : (s.withPc p).c.exempt = s.c.exempt := rfl
@[simp] theorem State.withPc_c_atTvec (s : State) (p : Word) : (s.withPc p).c.atTvec = s.c.atTvec := rfl
@[simp] theorem State.withPc_c_exiting (s : State) (p : Word) : (s.withPc p).c.exiting = s.c.exiting := rfl
@[simp] theorem State.withPc_c_qtrap (s : State) (p : Word) : (s.withPc p).c.qtrap = s.c.qtrap := rfl
@[simp] theorem State.withPc_c_moved (s : State) (p : Word) : (s.withPc p).c.moved = s.c.moved := rfl
@[simp] theorem State.withPc_c_member (s : State) (p : Word) : (s.withPc p).c.member = s.c.member := rfl
@[simp] theorem State.withPc_c_root (s : State) (p : Word) : (s.withPc p).c.root = s.c.root := rfl
@[simp] theorem State.withPc_c_save (s : State) (p : Word) : (s.withPc p).c.save = s.c.save := rfl
@[simp] theorem State.withPc_c_die (s : State) (p : Word) : (s.withPc p).c.die = s.c.die := rfl
@[simp] theorem State.withPc_c_scratchA (s : State) (p : Word) : (s.withPc p).c.scratchA = s.c.scratchA := rfl
@[simp] theorem State.withPc_c_scratch (s : State) (p : Word) : (s.withPc p).c.scratch = s.c.scratch := rfl
@[simp] theorem State.withPc_c_scr (s : State) (p : Word) : (s.withPc p).c.scr = s.c.scr := rfl
@[simp] theorem State.withPc_c_l1m (s : State) (p : Word) : (s.withPc p).c.l1m = s.c.l1m := rfl
@[simp] theorem State.withPc_c_launch (s : State) (p : Word) : (s.withPc p).c.launch = s.c.launch := rfl
@[simp] theorem State.withPc_c_preempt (s : State) (p : Word) : (s.withPc p).c.preempt = s.c.preempt := rfl
@[simp] theorem State.withPc_c_fresh (s : State) (p : Word) : (s.withPc p).c.fresh = s.c.fresh := rfl

/-! `State.mark`. -/

@[simp] theorem State.mark_cs (s : State) (r : RegName) : (s.mark r).cs = s.cs := rfl
@[simp] theorem State.mark_coreNum (s : State) (r : RegName) : (s.mark r).coreNum = s.coreNum := rfl
@[simp] theorem State.mark_sh (s : State) (r : RegName) : (s.mark r).sh = s.sh := rfl
@[simp] theorem State.mark_shReady (s : State) (r : RegName) : (s.mark r).shReady = s.shReady := rfl
@[simp] theorem State.mark_spill (s : State) (r : RegName) : (s.mark r).spill = s.spill := rfl
@[simp] theorem State.mark_pendSwap (s : State) (r : RegName) : (s.mark r).pendSwap = s.pendSwap := rfl
@[simp] theorem State.mark_parts (s : State) (r : RegName) : (s.mark r).parts = s.parts := rfl
@[simp] theorem State.mark_quadHeld (s : State) (r : RegName) : (s.mark r).quadHeld = s.quadHeld := rfl
@[simp] theorem State.mark_slot (s : State) (r : RegName) : (s.mark r).slot = s.slot := rfl
@[simp] theorem State.mark_disp (s : State) (r : RegName) : (s.mark r).disp = s.disp := rfl
@[simp] theorem State.mark_dev (s : State) (r : RegName) : (s.mark r).dev = s.dev := rfl
@[simp] theorem State.mark_fab (s : State) (r : RegName) : (s.mark r).fab = s.fab := rfl
@[simp] theorem State.mark_mem (s : State) (r : RegName) : (s.mark r).mem = s.mem := rfl
@[simp] theorem State.mark_tlb (s : State) (r : RegName) : (s.mark r).tlb = s.tlb := rfl
@[simp] theorem State.mark_icache (s : State) (r : RegName) : (s.mark r).icache = s.icache := rfl
@[simp] theorem State.mark_lbuf (s : State) (r : RegName) : (s.mark r).lbuf = s.lbuf := rfl
@[simp] theorem State.mark_recs (s : State) (r : RegName) : (s.mark r).recs = s.recs := rfl
@[simp] theorem State.mark_nextRec (s : State) (r : RegName) : (s.mark r).nextRec = s.nextRec := rfl
@[simp] theorem State.mark_ctrs (s : State) (r : RegName) : (s.mark r).ctrs = s.ctrs := rfl
@[simp] theorem State.mark_rlxw (s : State) (r : RegName) : (s.mark r).rlxw = s.rlxw := rfl
@[simp] theorem State.mark_saved (s : State) (r : RegName) : (s.mark r).saved = s.saved := rfl
@[simp] theorem State.mark_mrecs (s : State) (r : RegName) : (s.mark r).mrecs = s.mrecs := rfl
@[simp] theorem State.mark_ctrl (s : State) (r : RegName) : (s.mark r).ctrl = s.ctrl := rfl
@[simp] theorem State.mark_cycle (s : State) (r : RegName) : (s.mark r).cycle = s.cycle := rfl
@[simp] theorem State.mark_ir (s : State) (r : RegName) : (s.mark r).ir = s.ir := rfl
@[simp] theorem State.mark_agenda (s : State) (r : RegName) : (s.mark r).agenda = s.agenda := rfl
@[simp] theorem State.mark_tick (s : State) (r : RegName) : (s.mark r).tick = s.tick := rfl
@[simp] theorem State.mark_c_x (s : State) (r : RegName) : (s.mark r).c.x = s.c.x := rfl
@[simp] theorem State.mark_c_xArr (s : State) (r : RegName) : (s.mark r).c.xArr = s.c.xArr := rfl
@[simp] theorem State.mark_c_a (s : State) (r : RegName) : (s.mark r).c.a = s.c.a := rfl
@[simp] theorem State.mark_c_d (s : State) (r : RegName) : (s.mark r).c.d = s.c.d := rfl
@[simp] theorem State.mark_c_lc (s : State) (r : RegName) : (s.mark r).c.lc = s.c.lc := rfl
@[simp] theorem State.mark_c_desc (s : State) (r : RegName) : (s.mark r).c.desc = s.c.desc := rfl
@[simp] theorem State.mark_c_pc (s : State) (r : RegName) : (s.mark r).c.pc = s.c.pc := rfl
@[simp] theorem State.mark_c_sys (s : State) (r : RegName) : (s.mark r).c.sys = s.c.sys := rfl
@[simp] theorem State.mark_c_tcp (s : State) (r : RegName) : (s.mark r).c.tcp = s.c.tcp := rfl
@[simp] theorem State.mark_c_dbg (s : State) (r : RegName) : (s.mark r).c.dbg = s.c.dbg := rfl
@[simp] theorem State.mark_c_q (s : State) (r : RegName) : (s.mark r).c.q = s.c.q := rfl
@[simp] theorem State.mark_c_v (s : State) (r : RegName) : (s.mark r).c.v = s.c.v := rfl
@[simp] theorem State.mark_c_vtag (s : State) (r : RegName) : (s.mark r).c.vtag = s.c.vtag := rfl
@[simp] theorem State.mark_c_p (s : State) (r : RegName) : (s.mark r).c.p = s.c.p := rfl
@[simp] theorem State.mark_c_k (s : State) (r : RegName) : (s.mark r).c.k = s.c.k := rfl
@[simp] theorem State.mark_c_z (s : State) (r : RegName) : (s.mark r).c.z = s.c.z := rfl
@[simp] theorem State.mark_c_hold (s : State) (r : RegName) : (s.mark r).c.hold = s.c.hold := rfl
@[simp] theorem State.mark_c_postH (s : State) (r : RegName) : (s.mark r).c.postH = s.c.postH := rfl
@[simp] theorem State.mark_c_postR (s : State) (r : RegName) : (s.mark r).c.postR = s.c.postR := rfl
@[simp] theorem State.mark_c_written (s : State) (r : RegName) : (s.mark r).c.written = s.c.written := rfl
@[simp] theorem State.mark_c_vloop (s : State) (r : RegName) : (s.mark r).c.vloop = s.c.vloop := rfl
@[simp] theorem State.mark_c_convoy (s : State) (r : RegName) : (s.mark r).c.convoy = s.c.convoy := rfl
@[simp] theorem State.mark_c_levels (s : State) (r : RegName) : (s.mark r).c.levels = s.c.levels := rfl
@[simp] theorem State.mark_c_windows (s : State) (r : RegName) : (s.mark r).c.windows = s.c.windows := rfl
@[simp] theorem State.mark_c_pfxLive (s : State) (r : RegName) : (s.mark r).c.pfxLive = s.c.pfxLive := rfl
@[simp] theorem State.mark_c_pfxRet (s : State) (r : RegName) : (s.mark r).c.pfxRet = s.c.pfxRet := rfl
@[simp] theorem State.mark_c_replay (s : State) (r : RegName) : (s.mark r).c.replay = s.c.replay := rfl
@[simp] theorem State.mark_c_bypass (s : State) (r : RegName) : (s.mark r).c.bypass = s.c.bypass := rfl
@[simp] theorem State.mark_c_replaySalt (s : State) (r : RegName) : (s.mark r).c.replaySalt = s.c.replaySalt := rfl
@[simp] theorem State.mark_c_chan (s : State) (r : RegName) : (s.mark r).c.chan = s.c.chan := rfl
@[simp] theorem State.mark_c_lastFlt (s : State) (r : RegName) : (s.mark r).c.lastFlt = s.c.lastFlt := rfl
@[simp] theorem State.mark_c_lastRep (s : State) (r : RegName) : (s.mark r).c.lastRep = s.c.lastRep := rfl
@[simp] theorem State.mark_c_remote (s : State) (r : RegName) : (s.mark r).c.remote = s.c.remote := rfl
@[simp] theorem State.mark_c_mat (s : State) (r : RegName) : (s.mark r).c.mat = s.c.mat := rfl
@[simp] theorem State.mark_c_barrier (s : State) (r : RegName) : (s.mark r).c.barrier = s.c.barrier := rfl
@[simp] theorem State.mark_c_arrivals (s : State) (r : RegName) : (s.mark r).c.arrivals = s.c.arrivals := rfl
@[simp] theorem State.mark_c_loads (s : State) (r : RegName) : (s.mark r).c.loads = s.c.loads := rfl
@[simp] theorem State.mark_c_sbuf (s : State) (r : RegName) : (s.mark r).c.sbuf = s.c.sbuf := rfl
@[simp] theorem State.mark_c_older (s : State) (r : RegName) : (s.mark r).c.older = s.c.older := rfl
@[simp] theorem State.mark_c_hb (s : State) (r : RegName) : (s.mark r).c.hb = s.c.hb := rfl
@[simp] theorem State.mark_c_rel (s : State) (r : RegName) : (s.mark r).c.rel = s.c.rel := rfl
@[simp] theorem State.mark_c_seen (s : State) (r : RegName) : (s.mark r).c.seen = s.c.seen := rfl
@[simp] theorem State.mark_c_order (s : State) (r : RegName) : (s.mark r).c.order = s.c.order := rfl
@[simp] theorem State.mark_c_wait (s : State) (r : RegName) : (s.mark r).c.wait = s.c.wait := rfl
@[simp] theorem State.mark_c_exempt (s : State) (r : RegName) : (s.mark r).c.exempt = s.c.exempt := rfl
@[simp] theorem State.mark_c_atTvec (s : State) (r : RegName) : (s.mark r).c.atTvec = s.c.atTvec := rfl
@[simp] theorem State.mark_c_exiting (s : State) (r : RegName) : (s.mark r).c.exiting = s.c.exiting := rfl
@[simp] theorem State.mark_c_qtrap (s : State) (r : RegName) : (s.mark r).c.qtrap = s.c.qtrap := rfl
@[simp] theorem State.mark_c_moved (s : State) (r : RegName) : (s.mark r).c.moved = s.c.moved := rfl
@[simp] theorem State.mark_c_member (s : State) (r : RegName) : (s.mark r).c.member = s.c.member := rfl
@[simp] theorem State.mark_c_root (s : State) (r : RegName) : (s.mark r).c.root = s.c.root := rfl
@[simp] theorem State.mark_c_save (s : State) (r : RegName) : (s.mark r).c.save = s.c.save := rfl
@[simp] theorem State.mark_c_die (s : State) (r : RegName) : (s.mark r).c.die = s.c.die := rfl
@[simp] theorem State.mark_c_scratchA (s : State) (r : RegName) : (s.mark r).c.scratchA = s.c.scratchA := rfl
@[simp] theorem State.mark_c_scratch (s : State) (r : RegName) : (s.mark r).c.scratch = s.c.scratch := rfl
@[simp] theorem State.mark_c_scr (s : State) (r : RegName) : (s.mark r).c.scr = s.c.scr := rfl
@[simp] theorem State.mark_c_l1m (s : State) (r : RegName) : (s.mark r).c.l1m = s.c.l1m := rfl
@[simp] theorem State.mark_c_launch (s : State) (r : RegName) : (s.mark r).c.launch = s.c.launch := rfl
@[simp] theorem State.mark_c_preempt (s : State) (r : RegName) : (s.mark r).c.preempt = s.c.preempt := rfl
@[simp] theorem State.mark_c_fresh (s : State) (r : RegName) : (s.mark r).c.fresh = s.c.fresh := rfl

/-! `State.wx`. -/

@[simp] theorem State.wx_cs (s : State) (n : BitVec 5) (v : Word) : (s.wx n v).cs = s.cs := by unfold State.wx; (repeat' split) <;> rfl
@[simp] theorem State.wx_coreNum (s : State) (n : BitVec 5) (v : Word) : (s.wx n v).coreNum = s.coreNum := by unfold State.wx; (repeat' split) <;> rfl
@[simp] theorem State.wx_sh (s : State) (n : BitVec 5) (v : Word) : (s.wx n v).sh = s.sh := by unfold State.wx; (repeat' split) <;> rfl
@[simp] theorem State.wx_shReady (s : State) (n : BitVec 5) (v : Word) : (s.wx n v).shReady = s.shReady := by unfold State.wx; (repeat' split) <;> rfl
@[simp] theorem State.wx_spill (s : State) (n : BitVec 5) (v : Word) : (s.wx n v).spill = s.spill := by unfold State.wx; (repeat' split) <;> rfl
@[simp] theorem State.wx_pendSwap (s : State) (n : BitVec 5) (v : Word) : (s.wx n v).pendSwap = s.pendSwap := by unfold State.wx; (repeat' split) <;> rfl
@[simp] theorem State.wx_parts (s : State) (n : BitVec 5) (v : Word) : (s.wx n v).parts = s.parts := by unfold State.wx; (repeat' split) <;> rfl
@[simp] theorem State.wx_quadHeld (s : State) (n : BitVec 5) (v : Word) : (s.wx n v).quadHeld = s.quadHeld := by unfold State.wx; (repeat' split) <;> rfl
@[simp] theorem State.wx_slot (s : State) (n : BitVec 5) (v : Word) : (s.wx n v).slot = s.slot := by unfold State.wx; (repeat' split) <;> rfl
@[simp] theorem State.wx_disp (s : State) (n : BitVec 5) (v : Word) : (s.wx n v).disp = s.disp := by unfold State.wx; (repeat' split) <;> rfl
@[simp] theorem State.wx_dev (s : State) (n : BitVec 5) (v : Word) : (s.wx n v).dev = s.dev := by unfold State.wx; (repeat' split) <;> rfl
@[simp] theorem State.wx_fab (s : State) (n : BitVec 5) (v : Word) : (s.wx n v).fab = s.fab := by unfold State.wx; (repeat' split) <;> rfl
@[simp] theorem State.wx_mem (s : State) (n : BitVec 5) (v : Word) : (s.wx n v).mem = s.mem := by unfold State.wx; (repeat' split) <;> rfl
@[simp] theorem State.wx_tlb (s : State) (n : BitVec 5) (v : Word) : (s.wx n v).tlb = s.tlb := by unfold State.wx; (repeat' split) <;> rfl
@[simp] theorem State.wx_icache (s : State) (n : BitVec 5) (v : Word) : (s.wx n v).icache = s.icache := by unfold State.wx; (repeat' split) <;> rfl
@[simp] theorem State.wx_lbuf (s : State) (n : BitVec 5) (v : Word) : (s.wx n v).lbuf = s.lbuf := by unfold State.wx; (repeat' split) <;> rfl
@[simp] theorem State.wx_recs (s : State) (n : BitVec 5) (v : Word) : (s.wx n v).recs = s.recs := by unfold State.wx; (repeat' split) <;> rfl
@[simp] theorem State.wx_nextRec (s : State) (n : BitVec 5) (v : Word) : (s.wx n v).nextRec = s.nextRec := by unfold State.wx; (repeat' split) <;> rfl
@[simp] theorem State.wx_ctrs (s : State) (n : BitVec 5) (v : Word) : (s.wx n v).ctrs = s.ctrs := by unfold State.wx; (repeat' split) <;> rfl
@[simp] theorem State.wx_rlxw (s : State) (n : BitVec 5) (v : Word) : (s.wx n v).rlxw = s.rlxw := by unfold State.wx; (repeat' split) <;> rfl
@[simp] theorem State.wx_saved (s : State) (n : BitVec 5) (v : Word) : (s.wx n v).saved = s.saved := by unfold State.wx; (repeat' split) <;> rfl
@[simp] theorem State.wx_mrecs (s : State) (n : BitVec 5) (v : Word) : (s.wx n v).mrecs = s.mrecs := by unfold State.wx; (repeat' split) <;> rfl
@[simp] theorem State.wx_ctrl (s : State) (n : BitVec 5) (v : Word) : (s.wx n v).ctrl = s.ctrl := by unfold State.wx; (repeat' split) <;> rfl
@[simp] theorem State.wx_cycle (s : State) (n : BitVec 5) (v : Word) : (s.wx n v).cycle = s.cycle := by unfold State.wx; (repeat' split) <;> rfl
@[simp] theorem State.wx_ir (s : State) (n : BitVec 5) (v : Word) : (s.wx n v).ir = s.ir := by unfold State.wx; (repeat' split) <;> rfl
@[simp] theorem State.wx_agenda (s : State) (n : BitVec 5) (v : Word) : (s.wx n v).agenda = s.agenda := by unfold State.wx; (repeat' split) <;> rfl
@[simp] theorem State.wx_tick (s : State) (n : BitVec 5) (v : Word) : (s.wx n v).tick = s.tick := by unfold State.wx; (repeat' split) <;> rfl
@[simp] theorem State.wx_c_a (s : State) (n : BitVec 5) (v : Word) : (s.wx n v).c.a = s.c.a := by unfold State.wx; (repeat' split) <;> rfl
@[simp] theorem State.wx_c_d (s : State) (n : BitVec 5) (v : Word) : (s.wx n v).c.d = s.c.d := by unfold State.wx; (repeat' split) <;> rfl
@[simp] theorem State.wx_c_lc (s : State) (n : BitVec 5) (v : Word) : (s.wx n v).c.lc = s.c.lc := by unfold State.wx; (repeat' split) <;> rfl
@[simp] theorem State.wx_c_desc (s : State) (n : BitVec 5) (v : Word) : (s.wx n v).c.desc = s.c.desc := by unfold State.wx; (repeat' split) <;> rfl
@[simp] theorem State.wx_c_pc (s : State) (n : BitVec 5) (v : Word) : (s.wx n v).c.pc = s.c.pc := by unfold State.wx; (repeat' split) <;> rfl
@[simp] theorem State.wx_c_sys (s : State) (n : BitVec 5) (v : Word) : (s.wx n v).c.sys = s.c.sys := by unfold State.wx; (repeat' split) <;> rfl
@[simp] theorem State.wx_c_tcp (s : State) (n : BitVec 5) (v : Word) : (s.wx n v).c.tcp = s.c.tcp := by unfold State.wx; (repeat' split) <;> rfl
@[simp] theorem State.wx_c_dbg (s : State) (n : BitVec 5) (v : Word) : (s.wx n v).c.dbg = s.c.dbg := by unfold State.wx; (repeat' split) <;> rfl
@[simp] theorem State.wx_c_q (s : State) (n : BitVec 5) (v : Word) : (s.wx n v).c.q = s.c.q := by unfold State.wx; (repeat' split) <;> rfl
@[simp] theorem State.wx_c_v (s : State) (n : BitVec 5) (v : Word) : (s.wx n v).c.v = s.c.v := by unfold State.wx; (repeat' split) <;> rfl
@[simp] theorem State.wx_c_vtag (s : State) (n : BitVec 5) (v : Word) : (s.wx n v).c.vtag = s.c.vtag := by unfold State.wx; (repeat' split) <;> rfl
@[simp] theorem State.wx_c_p (s : State) (n : BitVec 5) (v : Word) : (s.wx n v).c.p = s.c.p := by unfold State.wx; (repeat' split) <;> rfl
@[simp] theorem State.wx_c_k (s : State) (n : BitVec 5) (v : Word) : (s.wx n v).c.k = s.c.k := by unfold State.wx; (repeat' split) <;> rfl
@[simp] theorem State.wx_c_z (s : State) (n : BitVec 5) (v : Word) : (s.wx n v).c.z = s.c.z := by unfold State.wx; (repeat' split) <;> rfl
@[simp] theorem State.wx_c_hold (s : State) (n : BitVec 5) (v : Word) : (s.wx n v).c.hold = s.c.hold := by unfold State.wx; (repeat' split) <;> rfl
@[simp] theorem State.wx_c_postH (s : State) (n : BitVec 5) (v : Word) : (s.wx n v).c.postH = s.c.postH := by unfold State.wx; (repeat' split) <;> rfl
@[simp] theorem State.wx_c_postR (s : State) (n : BitVec 5) (v : Word) : (s.wx n v).c.postR = s.c.postR := by unfold State.wx; (repeat' split) <;> rfl
@[simp] theorem State.wx_c_written (s : State) (n : BitVec 5) (v : Word) : (s.wx n v).c.written = s.c.written := by unfold State.wx; (repeat' split) <;> rfl
@[simp] theorem State.wx_c_vloop (s : State) (n : BitVec 5) (v : Word) : (s.wx n v).c.vloop = s.c.vloop := by unfold State.wx; (repeat' split) <;> rfl
@[simp] theorem State.wx_c_convoy (s : State) (n : BitVec 5) (v : Word) : (s.wx n v).c.convoy = s.c.convoy := by unfold State.wx; (repeat' split) <;> rfl
@[simp] theorem State.wx_c_levels (s : State) (n : BitVec 5) (v : Word) : (s.wx n v).c.levels = s.c.levels := by unfold State.wx; (repeat' split) <;> rfl
@[simp] theorem State.wx_c_windows (s : State) (n : BitVec 5) (v : Word) : (s.wx n v).c.windows = s.c.windows := by unfold State.wx; (repeat' split) <;> rfl
@[simp] theorem State.wx_c_pfxLive (s : State) (n : BitVec 5) (v : Word) : (s.wx n v).c.pfxLive = s.c.pfxLive := by unfold State.wx; (repeat' split) <;> rfl
@[simp] theorem State.wx_c_pfxRet (s : State) (n : BitVec 5) (v : Word) : (s.wx n v).c.pfxRet = s.c.pfxRet := by unfold State.wx; (repeat' split) <;> rfl
@[simp] theorem State.wx_c_replay (s : State) (n : BitVec 5) (v : Word) : (s.wx n v).c.replay = s.c.replay := by unfold State.wx; (repeat' split) <;> rfl
@[simp] theorem State.wx_c_bypass (s : State) (n : BitVec 5) (v : Word) : (s.wx n v).c.bypass = s.c.bypass := by unfold State.wx; (repeat' split) <;> rfl
@[simp] theorem State.wx_c_replaySalt (s : State) (n : BitVec 5) (v : Word) : (s.wx n v).c.replaySalt = s.c.replaySalt := by unfold State.wx; (repeat' split) <;> rfl
@[simp] theorem State.wx_c_chan (s : State) (n : BitVec 5) (v : Word) : (s.wx n v).c.chan = s.c.chan := by unfold State.wx; (repeat' split) <;> rfl
@[simp] theorem State.wx_c_lastFlt (s : State) (n : BitVec 5) (v : Word) : (s.wx n v).c.lastFlt = s.c.lastFlt := by unfold State.wx; (repeat' split) <;> rfl
@[simp] theorem State.wx_c_lastRep (s : State) (n : BitVec 5) (v : Word) : (s.wx n v).c.lastRep = s.c.lastRep := by unfold State.wx; (repeat' split) <;> rfl
@[simp] theorem State.wx_c_remote (s : State) (n : BitVec 5) (v : Word) : (s.wx n v).c.remote = s.c.remote := by unfold State.wx; (repeat' split) <;> rfl
@[simp] theorem State.wx_c_mat (s : State) (n : BitVec 5) (v : Word) : (s.wx n v).c.mat = s.c.mat := by unfold State.wx; (repeat' split) <;> rfl
@[simp] theorem State.wx_c_barrier (s : State) (n : BitVec 5) (v : Word) : (s.wx n v).c.barrier = s.c.barrier := by unfold State.wx; (repeat' split) <;> rfl
@[simp] theorem State.wx_c_arrivals (s : State) (n : BitVec 5) (v : Word) : (s.wx n v).c.arrivals = s.c.arrivals := by unfold State.wx; (repeat' split) <;> rfl
@[simp] theorem State.wx_c_sbuf (s : State) (n : BitVec 5) (v : Word) : (s.wx n v).c.sbuf = s.c.sbuf := by unfold State.wx; (repeat' split) <;> rfl
@[simp] theorem State.wx_c_older (s : State) (n : BitVec 5) (v : Word) : (s.wx n v).c.older = s.c.older := by unfold State.wx; (repeat' split) <;> rfl
@[simp] theorem State.wx_c_hb (s : State) (n : BitVec 5) (v : Word) : (s.wx n v).c.hb = s.c.hb := by unfold State.wx; (repeat' split) <;> rfl
@[simp] theorem State.wx_c_rel (s : State) (n : BitVec 5) (v : Word) : (s.wx n v).c.rel = s.c.rel := by unfold State.wx; (repeat' split) <;> rfl
@[simp] theorem State.wx_c_seen (s : State) (n : BitVec 5) (v : Word) : (s.wx n v).c.seen = s.c.seen := by unfold State.wx; (repeat' split) <;> rfl
@[simp] theorem State.wx_c_order (s : State) (n : BitVec 5) (v : Word) : (s.wx n v).c.order = s.c.order := by unfold State.wx; (repeat' split) <;> rfl
@[simp] theorem State.wx_c_wait (s : State) (n : BitVec 5) (v : Word) : (s.wx n v).c.wait = s.c.wait := by unfold State.wx; (repeat' split) <;> rfl
@[simp] theorem State.wx_c_exempt (s : State) (n : BitVec 5) (v : Word) : (s.wx n v).c.exempt = s.c.exempt := by unfold State.wx; (repeat' split) <;> rfl
@[simp] theorem State.wx_c_atTvec (s : State) (n : BitVec 5) (v : Word) : (s.wx n v).c.atTvec = s.c.atTvec := by unfold State.wx; (repeat' split) <;> rfl
@[simp] theorem State.wx_c_exiting (s : State) (n : BitVec 5) (v : Word) : (s.wx n v).c.exiting = s.c.exiting := by unfold State.wx; (repeat' split) <;> rfl
@[simp] theorem State.wx_c_qtrap (s : State) (n : BitVec 5) (v : Word) : (s.wx n v).c.qtrap = s.c.qtrap := by unfold State.wx; (repeat' split) <;> rfl
@[simp] theorem State.wx_c_moved (s : State) (n : BitVec 5) (v : Word) : (s.wx n v).c.moved = s.c.moved := by unfold State.wx; (repeat' split) <;> rfl
@[simp] theorem State.wx_c_member (s : State) (n : BitVec 5) (v : Word) : (s.wx n v).c.member = s.c.member := by unfold State.wx; (repeat' split) <;> rfl
@[simp] theorem State.wx_c_root (s : State) (n : BitVec 5) (v : Word) : (s.wx n v).c.root = s.c.root := by unfold State.wx; (repeat' split) <;> rfl
@[simp] theorem State.wx_c_save (s : State) (n : BitVec 5) (v : Word) : (s.wx n v).c.save = s.c.save := by unfold State.wx; (repeat' split) <;> rfl
@[simp] theorem State.wx_c_die (s : State) (n : BitVec 5) (v : Word) : (s.wx n v).c.die = s.c.die := by unfold State.wx; (repeat' split) <;> rfl
@[simp] theorem State.wx_c_scratchA (s : State) (n : BitVec 5) (v : Word) : (s.wx n v).c.scratchA = s.c.scratchA := by unfold State.wx; (repeat' split) <;> rfl
@[simp] theorem State.wx_c_scratch (s : State) (n : BitVec 5) (v : Word) : (s.wx n v).c.scratch = s.c.scratch := by unfold State.wx; (repeat' split) <;> rfl
@[simp] theorem State.wx_c_scr (s : State) (n : BitVec 5) (v : Word) : (s.wx n v).c.scr = s.c.scr := by unfold State.wx; (repeat' split) <;> rfl
@[simp] theorem State.wx_c_l1m (s : State) (n : BitVec 5) (v : Word) : (s.wx n v).c.l1m = s.c.l1m := by unfold State.wx; (repeat' split) <;> rfl
@[simp] theorem State.wx_c_launch (s : State) (n : BitVec 5) (v : Word) : (s.wx n v).c.launch = s.c.launch := by unfold State.wx; (repeat' split) <;> rfl
@[simp] theorem State.wx_c_preempt (s : State) (n : BitVec 5) (v : Word) : (s.wx n v).c.preempt = s.c.preempt := by unfold State.wx; (repeat' split) <;> rfl
@[simp] theorem State.wx_c_fresh (s : State) (n : BitVec 5) (v : Word) : (s.wx n v).c.fresh = s.c.fresh := by unfold State.wx; (repeat' split) <;> rfl

/-! `State.wa`. -/

@[simp] theorem State.wa_cs (s : State) (n : Nat) (v : AReg) : (s.wa n v).cs = s.cs := rfl
@[simp] theorem State.wa_coreNum (s : State) (n : Nat) (v : AReg) : (s.wa n v).coreNum = s.coreNum := rfl
@[simp] theorem State.wa_sh (s : State) (n : Nat) (v : AReg) : (s.wa n v).sh = s.sh := rfl
@[simp] theorem State.wa_shReady (s : State) (n : Nat) (v : AReg) : (s.wa n v).shReady = s.shReady := rfl
@[simp] theorem State.wa_spill (s : State) (n : Nat) (v : AReg) : (s.wa n v).spill = s.spill := rfl
@[simp] theorem State.wa_pendSwap (s : State) (n : Nat) (v : AReg) : (s.wa n v).pendSwap = s.pendSwap := rfl
@[simp] theorem State.wa_parts (s : State) (n : Nat) (v : AReg) : (s.wa n v).parts = s.parts := rfl
@[simp] theorem State.wa_quadHeld (s : State) (n : Nat) (v : AReg) : (s.wa n v).quadHeld = s.quadHeld := rfl
@[simp] theorem State.wa_slot (s : State) (n : Nat) (v : AReg) : (s.wa n v).slot = s.slot := rfl
@[simp] theorem State.wa_disp (s : State) (n : Nat) (v : AReg) : (s.wa n v).disp = s.disp := rfl
@[simp] theorem State.wa_dev (s : State) (n : Nat) (v : AReg) : (s.wa n v).dev = s.dev := rfl
@[simp] theorem State.wa_fab (s : State) (n : Nat) (v : AReg) : (s.wa n v).fab = s.fab := rfl
@[simp] theorem State.wa_mem (s : State) (n : Nat) (v : AReg) : (s.wa n v).mem = s.mem := rfl
@[simp] theorem State.wa_tlb (s : State) (n : Nat) (v : AReg) : (s.wa n v).tlb = s.tlb := rfl
@[simp] theorem State.wa_icache (s : State) (n : Nat) (v : AReg) : (s.wa n v).icache = s.icache := rfl
@[simp] theorem State.wa_lbuf (s : State) (n : Nat) (v : AReg) : (s.wa n v).lbuf = s.lbuf := rfl
@[simp] theorem State.wa_recs (s : State) (n : Nat) (v : AReg) : (s.wa n v).recs = s.recs := rfl
@[simp] theorem State.wa_nextRec (s : State) (n : Nat) (v : AReg) : (s.wa n v).nextRec = s.nextRec := rfl
@[simp] theorem State.wa_ctrs (s : State) (n : Nat) (v : AReg) : (s.wa n v).ctrs = s.ctrs := rfl
@[simp] theorem State.wa_rlxw (s : State) (n : Nat) (v : AReg) : (s.wa n v).rlxw = s.rlxw := rfl
@[simp] theorem State.wa_saved (s : State) (n : Nat) (v : AReg) : (s.wa n v).saved = s.saved := rfl
@[simp] theorem State.wa_mrecs (s : State) (n : Nat) (v : AReg) : (s.wa n v).mrecs = s.mrecs := rfl
@[simp] theorem State.wa_ctrl (s : State) (n : Nat) (v : AReg) : (s.wa n v).ctrl = s.ctrl := rfl
@[simp] theorem State.wa_cycle (s : State) (n : Nat) (v : AReg) : (s.wa n v).cycle = s.cycle := rfl
@[simp] theorem State.wa_ir (s : State) (n : Nat) (v : AReg) : (s.wa n v).ir = s.ir := rfl
@[simp] theorem State.wa_agenda (s : State) (n : Nat) (v : AReg) : (s.wa n v).agenda = s.agenda := rfl
@[simp] theorem State.wa_tick (s : State) (n : Nat) (v : AReg) : (s.wa n v).tick = s.tick := rfl
@[simp] theorem State.wa_c_x (s : State) (n : Nat) (v : AReg) : (s.wa n v).c.x = s.c.x := rfl
@[simp] theorem State.wa_c_xArr (s : State) (n : Nat) (v : AReg) : (s.wa n v).c.xArr = s.c.xArr := rfl
@[simp] theorem State.wa_c_d (s : State) (n : Nat) (v : AReg) : (s.wa n v).c.d = s.c.d := rfl
@[simp] theorem State.wa_c_lc (s : State) (n : Nat) (v : AReg) : (s.wa n v).c.lc = s.c.lc := rfl
@[simp] theorem State.wa_c_desc (s : State) (n : Nat) (v : AReg) : (s.wa n v).c.desc = s.c.desc := rfl
@[simp] theorem State.wa_c_pc (s : State) (n : Nat) (v : AReg) : (s.wa n v).c.pc = s.c.pc := rfl
@[simp] theorem State.wa_c_sys (s : State) (n : Nat) (v : AReg) : (s.wa n v).c.sys = s.c.sys := rfl
@[simp] theorem State.wa_c_tcp (s : State) (n : Nat) (v : AReg) : (s.wa n v).c.tcp = s.c.tcp := rfl
@[simp] theorem State.wa_c_dbg (s : State) (n : Nat) (v : AReg) : (s.wa n v).c.dbg = s.c.dbg := rfl
@[simp] theorem State.wa_c_q (s : State) (n : Nat) (v : AReg) : (s.wa n v).c.q = s.c.q := rfl
@[simp] theorem State.wa_c_v (s : State) (n : Nat) (v : AReg) : (s.wa n v).c.v = s.c.v := rfl
@[simp] theorem State.wa_c_vtag (s : State) (n : Nat) (v : AReg) : (s.wa n v).c.vtag = s.c.vtag := rfl
@[simp] theorem State.wa_c_p (s : State) (n : Nat) (v : AReg) : (s.wa n v).c.p = s.c.p := rfl
@[simp] theorem State.wa_c_k (s : State) (n : Nat) (v : AReg) : (s.wa n v).c.k = s.c.k := rfl
@[simp] theorem State.wa_c_z (s : State) (n : Nat) (v : AReg) : (s.wa n v).c.z = s.c.z := rfl
@[simp] theorem State.wa_c_hold (s : State) (n : Nat) (v : AReg) : (s.wa n v).c.hold = s.c.hold := rfl
@[simp] theorem State.wa_c_postH (s : State) (n : Nat) (v : AReg) : (s.wa n v).c.postH = s.c.postH := rfl
@[simp] theorem State.wa_c_postR (s : State) (n : Nat) (v : AReg) : (s.wa n v).c.postR = s.c.postR := rfl
@[simp] theorem State.wa_c_written (s : State) (n : Nat) (v : AReg) : (s.wa n v).c.written = s.c.written := rfl
@[simp] theorem State.wa_c_vloop (s : State) (n : Nat) (v : AReg) : (s.wa n v).c.vloop = s.c.vloop := rfl
@[simp] theorem State.wa_c_convoy (s : State) (n : Nat) (v : AReg) : (s.wa n v).c.convoy = s.c.convoy := rfl
@[simp] theorem State.wa_c_levels (s : State) (n : Nat) (v : AReg) : (s.wa n v).c.levels = s.c.levels := rfl
@[simp] theorem State.wa_c_windows (s : State) (n : Nat) (v : AReg) : (s.wa n v).c.windows = s.c.windows := rfl
@[simp] theorem State.wa_c_pfxLive (s : State) (n : Nat) (v : AReg) : (s.wa n v).c.pfxLive = s.c.pfxLive := rfl
@[simp] theorem State.wa_c_pfxRet (s : State) (n : Nat) (v : AReg) : (s.wa n v).c.pfxRet = s.c.pfxRet := rfl
@[simp] theorem State.wa_c_replay (s : State) (n : Nat) (v : AReg) : (s.wa n v).c.replay = s.c.replay := rfl
@[simp] theorem State.wa_c_bypass (s : State) (n : Nat) (v : AReg) : (s.wa n v).c.bypass = s.c.bypass := rfl
@[simp] theorem State.wa_c_replaySalt (s : State) (n : Nat) (v : AReg) : (s.wa n v).c.replaySalt = s.c.replaySalt := rfl
@[simp] theorem State.wa_c_chan (s : State) (n : Nat) (v : AReg) : (s.wa n v).c.chan = s.c.chan := rfl
@[simp] theorem State.wa_c_lastFlt (s : State) (n : Nat) (v : AReg) : (s.wa n v).c.lastFlt = s.c.lastFlt := rfl
@[simp] theorem State.wa_c_lastRep (s : State) (n : Nat) (v : AReg) : (s.wa n v).c.lastRep = s.c.lastRep := rfl
@[simp] theorem State.wa_c_remote (s : State) (n : Nat) (v : AReg) : (s.wa n v).c.remote = s.c.remote := rfl
@[simp] theorem State.wa_c_mat (s : State) (n : Nat) (v : AReg) : (s.wa n v).c.mat = s.c.mat := rfl
@[simp] theorem State.wa_c_barrier (s : State) (n : Nat) (v : AReg) : (s.wa n v).c.barrier = s.c.barrier := rfl
@[simp] theorem State.wa_c_arrivals (s : State) (n : Nat) (v : AReg) : (s.wa n v).c.arrivals = s.c.arrivals := rfl
@[simp] theorem State.wa_c_loads (s : State) (n : Nat) (v : AReg) : (s.wa n v).c.loads = s.c.loads := rfl
@[simp] theorem State.wa_c_sbuf (s : State) (n : Nat) (v : AReg) : (s.wa n v).c.sbuf = s.c.sbuf := rfl
@[simp] theorem State.wa_c_older (s : State) (n : Nat) (v : AReg) : (s.wa n v).c.older = s.c.older := rfl
@[simp] theorem State.wa_c_hb (s : State) (n : Nat) (v : AReg) : (s.wa n v).c.hb = s.c.hb := rfl
@[simp] theorem State.wa_c_rel (s : State) (n : Nat) (v : AReg) : (s.wa n v).c.rel = s.c.rel := rfl
@[simp] theorem State.wa_c_seen (s : State) (n : Nat) (v : AReg) : (s.wa n v).c.seen = s.c.seen := rfl
@[simp] theorem State.wa_c_order (s : State) (n : Nat) (v : AReg) : (s.wa n v).c.order = s.c.order := rfl
@[simp] theorem State.wa_c_wait (s : State) (n : Nat) (v : AReg) : (s.wa n v).c.wait = s.c.wait := rfl
@[simp] theorem State.wa_c_exempt (s : State) (n : Nat) (v : AReg) : (s.wa n v).c.exempt = s.c.exempt := rfl
@[simp] theorem State.wa_c_atTvec (s : State) (n : Nat) (v : AReg) : (s.wa n v).c.atTvec = s.c.atTvec := rfl
@[simp] theorem State.wa_c_exiting (s : State) (n : Nat) (v : AReg) : (s.wa n v).c.exiting = s.c.exiting := rfl
@[simp] theorem State.wa_c_qtrap (s : State) (n : Nat) (v : AReg) : (s.wa n v).c.qtrap = s.c.qtrap := rfl
@[simp] theorem State.wa_c_moved (s : State) (n : Nat) (v : AReg) : (s.wa n v).c.moved = s.c.moved := rfl
@[simp] theorem State.wa_c_member (s : State) (n : Nat) (v : AReg) : (s.wa n v).c.member = s.c.member := rfl
@[simp] theorem State.wa_c_root (s : State) (n : Nat) (v : AReg) : (s.wa n v).c.root = s.c.root := rfl
@[simp] theorem State.wa_c_save (s : State) (n : Nat) (v : AReg) : (s.wa n v).c.save = s.c.save := rfl
@[simp] theorem State.wa_c_die (s : State) (n : Nat) (v : AReg) : (s.wa n v).c.die = s.c.die := rfl
@[simp] theorem State.wa_c_scratchA (s : State) (n : Nat) (v : AReg) : (s.wa n v).c.scratchA = s.c.scratchA := rfl
@[simp] theorem State.wa_c_scratch (s : State) (n : Nat) (v : AReg) : (s.wa n v).c.scratch = s.c.scratch := rfl
@[simp] theorem State.wa_c_scr (s : State) (n : Nat) (v : AReg) : (s.wa n v).c.scr = s.c.scr := rfl
@[simp] theorem State.wa_c_l1m (s : State) (n : Nat) (v : AReg) : (s.wa n v).c.l1m = s.c.l1m := rfl
@[simp] theorem State.wa_c_launch (s : State) (n : Nat) (v : AReg) : (s.wa n v).c.launch = s.c.launch := rfl
@[simp] theorem State.wa_c_preempt (s : State) (n : Nat) (v : AReg) : (s.wa n v).c.preempt = s.c.preempt := rfl
@[simp] theorem State.wa_c_fresh (s : State) (n : Nat) (v : AReg) : (s.wa n v).c.fresh = s.c.fresh := rfl

/-! `State.wd`. -/

@[simp] theorem State.wd_cs (s : State) (n : Nat) (v : DReg) : (s.wd n v).cs = s.cs := rfl
@[simp] theorem State.wd_coreNum (s : State) (n : Nat) (v : DReg) : (s.wd n v).coreNum = s.coreNum := rfl
@[simp] theorem State.wd_sh (s : State) (n : Nat) (v : DReg) : (s.wd n v).sh = s.sh := rfl
@[simp] theorem State.wd_shReady (s : State) (n : Nat) (v : DReg) : (s.wd n v).shReady = s.shReady := rfl
@[simp] theorem State.wd_spill (s : State) (n : Nat) (v : DReg) : (s.wd n v).spill = s.spill := rfl
@[simp] theorem State.wd_pendSwap (s : State) (n : Nat) (v : DReg) : (s.wd n v).pendSwap = s.pendSwap := rfl
@[simp] theorem State.wd_parts (s : State) (n : Nat) (v : DReg) : (s.wd n v).parts = s.parts := rfl
@[simp] theorem State.wd_quadHeld (s : State) (n : Nat) (v : DReg) : (s.wd n v).quadHeld = s.quadHeld := rfl
@[simp] theorem State.wd_slot (s : State) (n : Nat) (v : DReg) : (s.wd n v).slot = s.slot := rfl
@[simp] theorem State.wd_disp (s : State) (n : Nat) (v : DReg) : (s.wd n v).disp = s.disp := rfl
@[simp] theorem State.wd_dev (s : State) (n : Nat) (v : DReg) : (s.wd n v).dev = s.dev := rfl
@[simp] theorem State.wd_fab (s : State) (n : Nat) (v : DReg) : (s.wd n v).fab = s.fab := rfl
@[simp] theorem State.wd_mem (s : State) (n : Nat) (v : DReg) : (s.wd n v).mem = s.mem := rfl
@[simp] theorem State.wd_tlb (s : State) (n : Nat) (v : DReg) : (s.wd n v).tlb = s.tlb := rfl
@[simp] theorem State.wd_icache (s : State) (n : Nat) (v : DReg) : (s.wd n v).icache = s.icache := rfl
@[simp] theorem State.wd_lbuf (s : State) (n : Nat) (v : DReg) : (s.wd n v).lbuf = s.lbuf := rfl
@[simp] theorem State.wd_recs (s : State) (n : Nat) (v : DReg) : (s.wd n v).recs = s.recs := rfl
@[simp] theorem State.wd_nextRec (s : State) (n : Nat) (v : DReg) : (s.wd n v).nextRec = s.nextRec := rfl
@[simp] theorem State.wd_ctrs (s : State) (n : Nat) (v : DReg) : (s.wd n v).ctrs = s.ctrs := rfl
@[simp] theorem State.wd_rlxw (s : State) (n : Nat) (v : DReg) : (s.wd n v).rlxw = s.rlxw := rfl
@[simp] theorem State.wd_saved (s : State) (n : Nat) (v : DReg) : (s.wd n v).saved = s.saved := rfl
@[simp] theorem State.wd_mrecs (s : State) (n : Nat) (v : DReg) : (s.wd n v).mrecs = s.mrecs := rfl
@[simp] theorem State.wd_ctrl (s : State) (n : Nat) (v : DReg) : (s.wd n v).ctrl = s.ctrl := rfl
@[simp] theorem State.wd_cycle (s : State) (n : Nat) (v : DReg) : (s.wd n v).cycle = s.cycle := rfl
@[simp] theorem State.wd_ir (s : State) (n : Nat) (v : DReg) : (s.wd n v).ir = s.ir := rfl
@[simp] theorem State.wd_agenda (s : State) (n : Nat) (v : DReg) : (s.wd n v).agenda = s.agenda := rfl
@[simp] theorem State.wd_tick (s : State) (n : Nat) (v : DReg) : (s.wd n v).tick = s.tick := rfl
@[simp] theorem State.wd_c_x (s : State) (n : Nat) (v : DReg) : (s.wd n v).c.x = s.c.x := rfl
@[simp] theorem State.wd_c_xArr (s : State) (n : Nat) (v : DReg) : (s.wd n v).c.xArr = s.c.xArr := rfl
@[simp] theorem State.wd_c_a (s : State) (n : Nat) (v : DReg) : (s.wd n v).c.a = s.c.a := rfl
@[simp] theorem State.wd_c_lc (s : State) (n : Nat) (v : DReg) : (s.wd n v).c.lc = s.c.lc := rfl
@[simp] theorem State.wd_c_desc (s : State) (n : Nat) (v : DReg) : (s.wd n v).c.desc = s.c.desc := rfl
@[simp] theorem State.wd_c_pc (s : State) (n : Nat) (v : DReg) : (s.wd n v).c.pc = s.c.pc := rfl
@[simp] theorem State.wd_c_sys (s : State) (n : Nat) (v : DReg) : (s.wd n v).c.sys = s.c.sys := rfl
@[simp] theorem State.wd_c_tcp (s : State) (n : Nat) (v : DReg) : (s.wd n v).c.tcp = s.c.tcp := rfl
@[simp] theorem State.wd_c_dbg (s : State) (n : Nat) (v : DReg) : (s.wd n v).c.dbg = s.c.dbg := rfl
@[simp] theorem State.wd_c_q (s : State) (n : Nat) (v : DReg) : (s.wd n v).c.q = s.c.q := rfl
@[simp] theorem State.wd_c_v (s : State) (n : Nat) (v : DReg) : (s.wd n v).c.v = s.c.v := rfl
@[simp] theorem State.wd_c_vtag (s : State) (n : Nat) (v : DReg) : (s.wd n v).c.vtag = s.c.vtag := rfl
@[simp] theorem State.wd_c_p (s : State) (n : Nat) (v : DReg) : (s.wd n v).c.p = s.c.p := rfl
@[simp] theorem State.wd_c_k (s : State) (n : Nat) (v : DReg) : (s.wd n v).c.k = s.c.k := rfl
@[simp] theorem State.wd_c_z (s : State) (n : Nat) (v : DReg) : (s.wd n v).c.z = s.c.z := rfl
@[simp] theorem State.wd_c_hold (s : State) (n : Nat) (v : DReg) : (s.wd n v).c.hold = s.c.hold := rfl
@[simp] theorem State.wd_c_postH (s : State) (n : Nat) (v : DReg) : (s.wd n v).c.postH = s.c.postH := rfl
@[simp] theorem State.wd_c_postR (s : State) (n : Nat) (v : DReg) : (s.wd n v).c.postR = s.c.postR := rfl
@[simp] theorem State.wd_c_written (s : State) (n : Nat) (v : DReg) : (s.wd n v).c.written = s.c.written := rfl
@[simp] theorem State.wd_c_vloop (s : State) (n : Nat) (v : DReg) : (s.wd n v).c.vloop = s.c.vloop := rfl
@[simp] theorem State.wd_c_convoy (s : State) (n : Nat) (v : DReg) : (s.wd n v).c.convoy = s.c.convoy := rfl
@[simp] theorem State.wd_c_levels (s : State) (n : Nat) (v : DReg) : (s.wd n v).c.levels = s.c.levels := rfl
@[simp] theorem State.wd_c_windows (s : State) (n : Nat) (v : DReg) : (s.wd n v).c.windows = s.c.windows := rfl
@[simp] theorem State.wd_c_pfxLive (s : State) (n : Nat) (v : DReg) : (s.wd n v).c.pfxLive = s.c.pfxLive := rfl
@[simp] theorem State.wd_c_pfxRet (s : State) (n : Nat) (v : DReg) : (s.wd n v).c.pfxRet = s.c.pfxRet := rfl
@[simp] theorem State.wd_c_replay (s : State) (n : Nat) (v : DReg) : (s.wd n v).c.replay = s.c.replay := rfl
@[simp] theorem State.wd_c_bypass (s : State) (n : Nat) (v : DReg) : (s.wd n v).c.bypass = s.c.bypass := rfl
@[simp] theorem State.wd_c_replaySalt (s : State) (n : Nat) (v : DReg) : (s.wd n v).c.replaySalt = s.c.replaySalt := rfl
@[simp] theorem State.wd_c_chan (s : State) (n : Nat) (v : DReg) : (s.wd n v).c.chan = s.c.chan := rfl
@[simp] theorem State.wd_c_lastFlt (s : State) (n : Nat) (v : DReg) : (s.wd n v).c.lastFlt = s.c.lastFlt := rfl
@[simp] theorem State.wd_c_lastRep (s : State) (n : Nat) (v : DReg) : (s.wd n v).c.lastRep = s.c.lastRep := rfl
@[simp] theorem State.wd_c_remote (s : State) (n : Nat) (v : DReg) : (s.wd n v).c.remote = s.c.remote := rfl
@[simp] theorem State.wd_c_mat (s : State) (n : Nat) (v : DReg) : (s.wd n v).c.mat = s.c.mat := rfl
@[simp] theorem State.wd_c_barrier (s : State) (n : Nat) (v : DReg) : (s.wd n v).c.barrier = s.c.barrier := rfl
@[simp] theorem State.wd_c_arrivals (s : State) (n : Nat) (v : DReg) : (s.wd n v).c.arrivals = s.c.arrivals := rfl
@[simp] theorem State.wd_c_loads (s : State) (n : Nat) (v : DReg) : (s.wd n v).c.loads = s.c.loads := rfl
@[simp] theorem State.wd_c_sbuf (s : State) (n : Nat) (v : DReg) : (s.wd n v).c.sbuf = s.c.sbuf := rfl
@[simp] theorem State.wd_c_older (s : State) (n : Nat) (v : DReg) : (s.wd n v).c.older = s.c.older := rfl
@[simp] theorem State.wd_c_hb (s : State) (n : Nat) (v : DReg) : (s.wd n v).c.hb = s.c.hb := rfl
@[simp] theorem State.wd_c_rel (s : State) (n : Nat) (v : DReg) : (s.wd n v).c.rel = s.c.rel := rfl
@[simp] theorem State.wd_c_seen (s : State) (n : Nat) (v : DReg) : (s.wd n v).c.seen = s.c.seen := rfl
@[simp] theorem State.wd_c_order (s : State) (n : Nat) (v : DReg) : (s.wd n v).c.order = s.c.order := rfl
@[simp] theorem State.wd_c_wait (s : State) (n : Nat) (v : DReg) : (s.wd n v).c.wait = s.c.wait := rfl
@[simp] theorem State.wd_c_exempt (s : State) (n : Nat) (v : DReg) : (s.wd n v).c.exempt = s.c.exempt := rfl
@[simp] theorem State.wd_c_atTvec (s : State) (n : Nat) (v : DReg) : (s.wd n v).c.atTvec = s.c.atTvec := rfl
@[simp] theorem State.wd_c_exiting (s : State) (n : Nat) (v : DReg) : (s.wd n v).c.exiting = s.c.exiting := rfl
@[simp] theorem State.wd_c_qtrap (s : State) (n : Nat) (v : DReg) : (s.wd n v).c.qtrap = s.c.qtrap := rfl
@[simp] theorem State.wd_c_moved (s : State) (n : Nat) (v : DReg) : (s.wd n v).c.moved = s.c.moved := rfl
@[simp] theorem State.wd_c_member (s : State) (n : Nat) (v : DReg) : (s.wd n v).c.member = s.c.member := rfl
@[simp] theorem State.wd_c_root (s : State) (n : Nat) (v : DReg) : (s.wd n v).c.root = s.c.root := rfl
@[simp] theorem State.wd_c_save (s : State) (n : Nat) (v : DReg) : (s.wd n v).c.save = s.c.save := rfl
@[simp] theorem State.wd_c_die (s : State) (n : Nat) (v : DReg) : (s.wd n v).c.die = s.c.die := rfl
@[simp] theorem State.wd_c_scratchA (s : State) (n : Nat) (v : DReg) : (s.wd n v).c.scratchA = s.c.scratchA := rfl
@[simp] theorem State.wd_c_scratch (s : State) (n : Nat) (v : DReg) : (s.wd n v).c.scratch = s.c.scratch := rfl
@[simp] theorem State.wd_c_scr (s : State) (n : Nat) (v : DReg) : (s.wd n v).c.scr = s.c.scr := rfl
@[simp] theorem State.wd_c_l1m (s : State) (n : Nat) (v : DReg) : (s.wd n v).c.l1m = s.c.l1m := rfl
@[simp] theorem State.wd_c_launch (s : State) (n : Nat) (v : DReg) : (s.wd n v).c.launch = s.c.launch := rfl
@[simp] theorem State.wd_c_preempt (s : State) (n : Nat) (v : DReg) : (s.wd n v).c.preempt = s.c.preempt := rfl
@[simp] theorem State.wd_c_fresh (s : State) (n : Nat) (v : DReg) : (s.wd n v).c.fresh = s.c.fresh := rfl

/-! `State.wlc`. -/

@[simp] theorem State.wlc_cs (s : State) (n : Nat) (v : Word) : (s.wlc n v).cs = s.cs := rfl
@[simp] theorem State.wlc_coreNum (s : State) (n : Nat) (v : Word) : (s.wlc n v).coreNum = s.coreNum := rfl
@[simp] theorem State.wlc_sh (s : State) (n : Nat) (v : Word) : (s.wlc n v).sh = s.sh := rfl
@[simp] theorem State.wlc_shReady (s : State) (n : Nat) (v : Word) : (s.wlc n v).shReady = s.shReady := rfl
@[simp] theorem State.wlc_spill (s : State) (n : Nat) (v : Word) : (s.wlc n v).spill = s.spill := rfl
@[simp] theorem State.wlc_pendSwap (s : State) (n : Nat) (v : Word) : (s.wlc n v).pendSwap = s.pendSwap := rfl
@[simp] theorem State.wlc_parts (s : State) (n : Nat) (v : Word) : (s.wlc n v).parts = s.parts := rfl
@[simp] theorem State.wlc_quadHeld (s : State) (n : Nat) (v : Word) : (s.wlc n v).quadHeld = s.quadHeld := rfl
@[simp] theorem State.wlc_slot (s : State) (n : Nat) (v : Word) : (s.wlc n v).slot = s.slot := rfl
@[simp] theorem State.wlc_disp (s : State) (n : Nat) (v : Word) : (s.wlc n v).disp = s.disp := rfl
@[simp] theorem State.wlc_dev (s : State) (n : Nat) (v : Word) : (s.wlc n v).dev = s.dev := rfl
@[simp] theorem State.wlc_fab (s : State) (n : Nat) (v : Word) : (s.wlc n v).fab = s.fab := rfl
@[simp] theorem State.wlc_mem (s : State) (n : Nat) (v : Word) : (s.wlc n v).mem = s.mem := rfl
@[simp] theorem State.wlc_tlb (s : State) (n : Nat) (v : Word) : (s.wlc n v).tlb = s.tlb := rfl
@[simp] theorem State.wlc_icache (s : State) (n : Nat) (v : Word) : (s.wlc n v).icache = s.icache := rfl
@[simp] theorem State.wlc_lbuf (s : State) (n : Nat) (v : Word) : (s.wlc n v).lbuf = s.lbuf := rfl
@[simp] theorem State.wlc_recs (s : State) (n : Nat) (v : Word) : (s.wlc n v).recs = s.recs := rfl
@[simp] theorem State.wlc_nextRec (s : State) (n : Nat) (v : Word) : (s.wlc n v).nextRec = s.nextRec := rfl
@[simp] theorem State.wlc_ctrs (s : State) (n : Nat) (v : Word) : (s.wlc n v).ctrs = s.ctrs := rfl
@[simp] theorem State.wlc_rlxw (s : State) (n : Nat) (v : Word) : (s.wlc n v).rlxw = s.rlxw := rfl
@[simp] theorem State.wlc_saved (s : State) (n : Nat) (v : Word) : (s.wlc n v).saved = s.saved := rfl
@[simp] theorem State.wlc_mrecs (s : State) (n : Nat) (v : Word) : (s.wlc n v).mrecs = s.mrecs := rfl
@[simp] theorem State.wlc_ctrl (s : State) (n : Nat) (v : Word) : (s.wlc n v).ctrl = s.ctrl := rfl
@[simp] theorem State.wlc_cycle (s : State) (n : Nat) (v : Word) : (s.wlc n v).cycle = s.cycle := rfl
@[simp] theorem State.wlc_ir (s : State) (n : Nat) (v : Word) : (s.wlc n v).ir = s.ir := rfl
@[simp] theorem State.wlc_agenda (s : State) (n : Nat) (v : Word) : (s.wlc n v).agenda = s.agenda := rfl
@[simp] theorem State.wlc_tick (s : State) (n : Nat) (v : Word) : (s.wlc n v).tick = s.tick := rfl
@[simp] theorem State.wlc_c_x (s : State) (n : Nat) (v : Word) : (s.wlc n v).c.x = s.c.x := rfl
@[simp] theorem State.wlc_c_xArr (s : State) (n : Nat) (v : Word) : (s.wlc n v).c.xArr = s.c.xArr := rfl
@[simp] theorem State.wlc_c_a (s : State) (n : Nat) (v : Word) : (s.wlc n v).c.a = s.c.a := rfl
@[simp] theorem State.wlc_c_d (s : State) (n : Nat) (v : Word) : (s.wlc n v).c.d = s.c.d := rfl
@[simp] theorem State.wlc_c_desc (s : State) (n : Nat) (v : Word) : (s.wlc n v).c.desc = s.c.desc := rfl
@[simp] theorem State.wlc_c_pc (s : State) (n : Nat) (v : Word) : (s.wlc n v).c.pc = s.c.pc := rfl
@[simp] theorem State.wlc_c_sys (s : State) (n : Nat) (v : Word) : (s.wlc n v).c.sys = s.c.sys := rfl
@[simp] theorem State.wlc_c_tcp (s : State) (n : Nat) (v : Word) : (s.wlc n v).c.tcp = s.c.tcp := rfl
@[simp] theorem State.wlc_c_dbg (s : State) (n : Nat) (v : Word) : (s.wlc n v).c.dbg = s.c.dbg := rfl
@[simp] theorem State.wlc_c_q (s : State) (n : Nat) (v : Word) : (s.wlc n v).c.q = s.c.q := rfl
@[simp] theorem State.wlc_c_v (s : State) (n : Nat) (v : Word) : (s.wlc n v).c.v = s.c.v := rfl
@[simp] theorem State.wlc_c_vtag (s : State) (n : Nat) (v : Word) : (s.wlc n v).c.vtag = s.c.vtag := rfl
@[simp] theorem State.wlc_c_p (s : State) (n : Nat) (v : Word) : (s.wlc n v).c.p = s.c.p := rfl
@[simp] theorem State.wlc_c_k (s : State) (n : Nat) (v : Word) : (s.wlc n v).c.k = s.c.k := rfl
@[simp] theorem State.wlc_c_z (s : State) (n : Nat) (v : Word) : (s.wlc n v).c.z = s.c.z := rfl
@[simp] theorem State.wlc_c_hold (s : State) (n : Nat) (v : Word) : (s.wlc n v).c.hold = s.c.hold := rfl
@[simp] theorem State.wlc_c_postH (s : State) (n : Nat) (v : Word) : (s.wlc n v).c.postH = s.c.postH := rfl
@[simp] theorem State.wlc_c_postR (s : State) (n : Nat) (v : Word) : (s.wlc n v).c.postR = s.c.postR := rfl
@[simp] theorem State.wlc_c_written (s : State) (n : Nat) (v : Word) : (s.wlc n v).c.written = s.c.written := rfl
@[simp] theorem State.wlc_c_vloop (s : State) (n : Nat) (v : Word) : (s.wlc n v).c.vloop = s.c.vloop := rfl
@[simp] theorem State.wlc_c_convoy (s : State) (n : Nat) (v : Word) : (s.wlc n v).c.convoy = s.c.convoy := rfl
@[simp] theorem State.wlc_c_levels (s : State) (n : Nat) (v : Word) : (s.wlc n v).c.levels = s.c.levels := rfl
@[simp] theorem State.wlc_c_windows (s : State) (n : Nat) (v : Word) : (s.wlc n v).c.windows = s.c.windows := rfl
@[simp] theorem State.wlc_c_pfxLive (s : State) (n : Nat) (v : Word) : (s.wlc n v).c.pfxLive = s.c.pfxLive := rfl
@[simp] theorem State.wlc_c_pfxRet (s : State) (n : Nat) (v : Word) : (s.wlc n v).c.pfxRet = s.c.pfxRet := rfl
@[simp] theorem State.wlc_c_replay (s : State) (n : Nat) (v : Word) : (s.wlc n v).c.replay = s.c.replay := rfl
@[simp] theorem State.wlc_c_bypass (s : State) (n : Nat) (v : Word) : (s.wlc n v).c.bypass = s.c.bypass := rfl
@[simp] theorem State.wlc_c_replaySalt (s : State) (n : Nat) (v : Word) : (s.wlc n v).c.replaySalt = s.c.replaySalt := rfl
@[simp] theorem State.wlc_c_chan (s : State) (n : Nat) (v : Word) : (s.wlc n v).c.chan = s.c.chan := rfl
@[simp] theorem State.wlc_c_lastFlt (s : State) (n : Nat) (v : Word) : (s.wlc n v).c.lastFlt = s.c.lastFlt := rfl
@[simp] theorem State.wlc_c_lastRep (s : State) (n : Nat) (v : Word) : (s.wlc n v).c.lastRep = s.c.lastRep := rfl
@[simp] theorem State.wlc_c_remote (s : State) (n : Nat) (v : Word) : (s.wlc n v).c.remote = s.c.remote := rfl
@[simp] theorem State.wlc_c_mat (s : State) (n : Nat) (v : Word) : (s.wlc n v).c.mat = s.c.mat := rfl
@[simp] theorem State.wlc_c_barrier (s : State) (n : Nat) (v : Word) : (s.wlc n v).c.barrier = s.c.barrier := rfl
@[simp] theorem State.wlc_c_arrivals (s : State) (n : Nat) (v : Word) : (s.wlc n v).c.arrivals = s.c.arrivals := rfl
@[simp] theorem State.wlc_c_loads (s : State) (n : Nat) (v : Word) : (s.wlc n v).c.loads = s.c.loads := rfl
@[simp] theorem State.wlc_c_sbuf (s : State) (n : Nat) (v : Word) : (s.wlc n v).c.sbuf = s.c.sbuf := rfl
@[simp] theorem State.wlc_c_older (s : State) (n : Nat) (v : Word) : (s.wlc n v).c.older = s.c.older := rfl
@[simp] theorem State.wlc_c_hb (s : State) (n : Nat) (v : Word) : (s.wlc n v).c.hb = s.c.hb := rfl
@[simp] theorem State.wlc_c_rel (s : State) (n : Nat) (v : Word) : (s.wlc n v).c.rel = s.c.rel := rfl
@[simp] theorem State.wlc_c_seen (s : State) (n : Nat) (v : Word) : (s.wlc n v).c.seen = s.c.seen := rfl
@[simp] theorem State.wlc_c_order (s : State) (n : Nat) (v : Word) : (s.wlc n v).c.order = s.c.order := rfl
@[simp] theorem State.wlc_c_wait (s : State) (n : Nat) (v : Word) : (s.wlc n v).c.wait = s.c.wait := rfl
@[simp] theorem State.wlc_c_exempt (s : State) (n : Nat) (v : Word) : (s.wlc n v).c.exempt = s.c.exempt := rfl
@[simp] theorem State.wlc_c_atTvec (s : State) (n : Nat) (v : Word) : (s.wlc n v).c.atTvec = s.c.atTvec := rfl
@[simp] theorem State.wlc_c_exiting (s : State) (n : Nat) (v : Word) : (s.wlc n v).c.exiting = s.c.exiting := rfl
@[simp] theorem State.wlc_c_qtrap (s : State) (n : Nat) (v : Word) : (s.wlc n v).c.qtrap = s.c.qtrap := rfl
@[simp] theorem State.wlc_c_moved (s : State) (n : Nat) (v : Word) : (s.wlc n v).c.moved = s.c.moved := rfl
@[simp] theorem State.wlc_c_member (s : State) (n : Nat) (v : Word) : (s.wlc n v).c.member = s.c.member := rfl
@[simp] theorem State.wlc_c_root (s : State) (n : Nat) (v : Word) : (s.wlc n v).c.root = s.c.root := rfl
@[simp] theorem State.wlc_c_save (s : State) (n : Nat) (v : Word) : (s.wlc n v).c.save = s.c.save := rfl
@[simp] theorem State.wlc_c_die (s : State) (n : Nat) (v : Word) : (s.wlc n v).c.die = s.c.die := rfl
@[simp] theorem State.wlc_c_scratchA (s : State) (n : Nat) (v : Word) : (s.wlc n v).c.scratchA = s.c.scratchA := rfl
@[simp] theorem State.wlc_c_scratch (s : State) (n : Nat) (v : Word) : (s.wlc n v).c.scratch = s.c.scratch := rfl
@[simp] theorem State.wlc_c_scr (s : State) (n : Nat) (v : Word) : (s.wlc n v).c.scr = s.c.scr := rfl
@[simp] theorem State.wlc_c_l1m (s : State) (n : Nat) (v : Word) : (s.wlc n v).c.l1m = s.c.l1m := rfl
@[simp] theorem State.wlc_c_launch (s : State) (n : Nat) (v : Word) : (s.wlc n v).c.launch = s.c.launch := rfl
@[simp] theorem State.wlc_c_preempt (s : State) (n : Nat) (v : Word) : (s.wlc n v).c.preempt = s.c.preempt := rfl
@[simp] theorem State.wlc_c_fresh (s : State) (n : Nat) (v : Word) : (s.wlc n v).c.fresh = s.c.fresh := rfl

/-! `State.wdesc`. -/

@[simp] theorem State.wdesc_cs (s : State) (n : Nat) (v : Word) : (s.wdesc n v).cs = s.cs := rfl
@[simp] theorem State.wdesc_coreNum (s : State) (n : Nat) (v : Word) : (s.wdesc n v).coreNum = s.coreNum := rfl
@[simp] theorem State.wdesc_sh (s : State) (n : Nat) (v : Word) : (s.wdesc n v).sh = s.sh := rfl
@[simp] theorem State.wdesc_shReady (s : State) (n : Nat) (v : Word) : (s.wdesc n v).shReady = s.shReady := rfl
@[simp] theorem State.wdesc_spill (s : State) (n : Nat) (v : Word) : (s.wdesc n v).spill = s.spill := rfl
@[simp] theorem State.wdesc_pendSwap (s : State) (n : Nat) (v : Word) : (s.wdesc n v).pendSwap = s.pendSwap := rfl
@[simp] theorem State.wdesc_parts (s : State) (n : Nat) (v : Word) : (s.wdesc n v).parts = s.parts := rfl
@[simp] theorem State.wdesc_quadHeld (s : State) (n : Nat) (v : Word) : (s.wdesc n v).quadHeld = s.quadHeld := rfl
@[simp] theorem State.wdesc_slot (s : State) (n : Nat) (v : Word) : (s.wdesc n v).slot = s.slot := rfl
@[simp] theorem State.wdesc_disp (s : State) (n : Nat) (v : Word) : (s.wdesc n v).disp = s.disp := rfl
@[simp] theorem State.wdesc_dev (s : State) (n : Nat) (v : Word) : (s.wdesc n v).dev = s.dev := rfl
@[simp] theorem State.wdesc_fab (s : State) (n : Nat) (v : Word) : (s.wdesc n v).fab = s.fab := rfl
@[simp] theorem State.wdesc_mem (s : State) (n : Nat) (v : Word) : (s.wdesc n v).mem = s.mem := rfl
@[simp] theorem State.wdesc_tlb (s : State) (n : Nat) (v : Word) : (s.wdesc n v).tlb = s.tlb := rfl
@[simp] theorem State.wdesc_icache (s : State) (n : Nat) (v : Word) : (s.wdesc n v).icache = s.icache := rfl
@[simp] theorem State.wdesc_lbuf (s : State) (n : Nat) (v : Word) : (s.wdesc n v).lbuf = s.lbuf := rfl
@[simp] theorem State.wdesc_recs (s : State) (n : Nat) (v : Word) : (s.wdesc n v).recs = s.recs := rfl
@[simp] theorem State.wdesc_nextRec (s : State) (n : Nat) (v : Word) : (s.wdesc n v).nextRec = s.nextRec := rfl
@[simp] theorem State.wdesc_ctrs (s : State) (n : Nat) (v : Word) : (s.wdesc n v).ctrs = s.ctrs := rfl
@[simp] theorem State.wdesc_rlxw (s : State) (n : Nat) (v : Word) : (s.wdesc n v).rlxw = s.rlxw := rfl
@[simp] theorem State.wdesc_saved (s : State) (n : Nat) (v : Word) : (s.wdesc n v).saved = s.saved := rfl
@[simp] theorem State.wdesc_mrecs (s : State) (n : Nat) (v : Word) : (s.wdesc n v).mrecs = s.mrecs := rfl
@[simp] theorem State.wdesc_ctrl (s : State) (n : Nat) (v : Word) : (s.wdesc n v).ctrl = s.ctrl := rfl
@[simp] theorem State.wdesc_cycle (s : State) (n : Nat) (v : Word) : (s.wdesc n v).cycle = s.cycle := rfl
@[simp] theorem State.wdesc_ir (s : State) (n : Nat) (v : Word) : (s.wdesc n v).ir = s.ir := rfl
@[simp] theorem State.wdesc_agenda (s : State) (n : Nat) (v : Word) : (s.wdesc n v).agenda = s.agenda := rfl
@[simp] theorem State.wdesc_tick (s : State) (n : Nat) (v : Word) : (s.wdesc n v).tick = s.tick := rfl
@[simp] theorem State.wdesc_c_x (s : State) (n : Nat) (v : Word) : (s.wdesc n v).c.x = s.c.x := rfl
@[simp] theorem State.wdesc_c_xArr (s : State) (n : Nat) (v : Word) : (s.wdesc n v).c.xArr = s.c.xArr := rfl
@[simp] theorem State.wdesc_c_a (s : State) (n : Nat) (v : Word) : (s.wdesc n v).c.a = s.c.a := rfl
@[simp] theorem State.wdesc_c_d (s : State) (n : Nat) (v : Word) : (s.wdesc n v).c.d = s.c.d := rfl
@[simp] theorem State.wdesc_c_lc (s : State) (n : Nat) (v : Word) : (s.wdesc n v).c.lc = s.c.lc := rfl
@[simp] theorem State.wdesc_c_pc (s : State) (n : Nat) (v : Word) : (s.wdesc n v).c.pc = s.c.pc := rfl
@[simp] theorem State.wdesc_c_sys (s : State) (n : Nat) (v : Word) : (s.wdesc n v).c.sys = s.c.sys := rfl
@[simp] theorem State.wdesc_c_tcp (s : State) (n : Nat) (v : Word) : (s.wdesc n v).c.tcp = s.c.tcp := rfl
@[simp] theorem State.wdesc_c_dbg (s : State) (n : Nat) (v : Word) : (s.wdesc n v).c.dbg = s.c.dbg := rfl
@[simp] theorem State.wdesc_c_q (s : State) (n : Nat) (v : Word) : (s.wdesc n v).c.q = s.c.q := rfl
@[simp] theorem State.wdesc_c_v (s : State) (n : Nat) (v : Word) : (s.wdesc n v).c.v = s.c.v := rfl
@[simp] theorem State.wdesc_c_vtag (s : State) (n : Nat) (v : Word) : (s.wdesc n v).c.vtag = s.c.vtag := rfl
@[simp] theorem State.wdesc_c_p (s : State) (n : Nat) (v : Word) : (s.wdesc n v).c.p = s.c.p := rfl
@[simp] theorem State.wdesc_c_k (s : State) (n : Nat) (v : Word) : (s.wdesc n v).c.k = s.c.k := rfl
@[simp] theorem State.wdesc_c_z (s : State) (n : Nat) (v : Word) : (s.wdesc n v).c.z = s.c.z := rfl
@[simp] theorem State.wdesc_c_hold (s : State) (n : Nat) (v : Word) : (s.wdesc n v).c.hold = s.c.hold := rfl
@[simp] theorem State.wdesc_c_postH (s : State) (n : Nat) (v : Word) : (s.wdesc n v).c.postH = s.c.postH := rfl
@[simp] theorem State.wdesc_c_postR (s : State) (n : Nat) (v : Word) : (s.wdesc n v).c.postR = s.c.postR := rfl
@[simp] theorem State.wdesc_c_written (s : State) (n : Nat) (v : Word) : (s.wdesc n v).c.written = s.c.written := rfl
@[simp] theorem State.wdesc_c_vloop (s : State) (n : Nat) (v : Word) : (s.wdesc n v).c.vloop = s.c.vloop := rfl
@[simp] theorem State.wdesc_c_convoy (s : State) (n : Nat) (v : Word) : (s.wdesc n v).c.convoy = s.c.convoy := rfl
@[simp] theorem State.wdesc_c_levels (s : State) (n : Nat) (v : Word) : (s.wdesc n v).c.levels = s.c.levels := rfl
@[simp] theorem State.wdesc_c_windows (s : State) (n : Nat) (v : Word) : (s.wdesc n v).c.windows = s.c.windows := rfl
@[simp] theorem State.wdesc_c_pfxLive (s : State) (n : Nat) (v : Word) : (s.wdesc n v).c.pfxLive = s.c.pfxLive := rfl
@[simp] theorem State.wdesc_c_pfxRet (s : State) (n : Nat) (v : Word) : (s.wdesc n v).c.pfxRet = s.c.pfxRet := rfl
@[simp] theorem State.wdesc_c_replay (s : State) (n : Nat) (v : Word) : (s.wdesc n v).c.replay = s.c.replay := rfl
@[simp] theorem State.wdesc_c_bypass (s : State) (n : Nat) (v : Word) : (s.wdesc n v).c.bypass = s.c.bypass := rfl
@[simp] theorem State.wdesc_c_replaySalt (s : State) (n : Nat) (v : Word) : (s.wdesc n v).c.replaySalt = s.c.replaySalt := rfl
@[simp] theorem State.wdesc_c_chan (s : State) (n : Nat) (v : Word) : (s.wdesc n v).c.chan = s.c.chan := rfl
@[simp] theorem State.wdesc_c_lastFlt (s : State) (n : Nat) (v : Word) : (s.wdesc n v).c.lastFlt = s.c.lastFlt := rfl
@[simp] theorem State.wdesc_c_lastRep (s : State) (n : Nat) (v : Word) : (s.wdesc n v).c.lastRep = s.c.lastRep := rfl
@[simp] theorem State.wdesc_c_remote (s : State) (n : Nat) (v : Word) : (s.wdesc n v).c.remote = s.c.remote := rfl
@[simp] theorem State.wdesc_c_mat (s : State) (n : Nat) (v : Word) : (s.wdesc n v).c.mat = s.c.mat := rfl
@[simp] theorem State.wdesc_c_barrier (s : State) (n : Nat) (v : Word) : (s.wdesc n v).c.barrier = s.c.barrier := rfl
@[simp] theorem State.wdesc_c_arrivals (s : State) (n : Nat) (v : Word) : (s.wdesc n v).c.arrivals = s.c.arrivals := rfl
@[simp] theorem State.wdesc_c_loads (s : State) (n : Nat) (v : Word) : (s.wdesc n v).c.loads = s.c.loads := rfl
@[simp] theorem State.wdesc_c_sbuf (s : State) (n : Nat) (v : Word) : (s.wdesc n v).c.sbuf = s.c.sbuf := rfl
@[simp] theorem State.wdesc_c_older (s : State) (n : Nat) (v : Word) : (s.wdesc n v).c.older = s.c.older := rfl
@[simp] theorem State.wdesc_c_hb (s : State) (n : Nat) (v : Word) : (s.wdesc n v).c.hb = s.c.hb := rfl
@[simp] theorem State.wdesc_c_rel (s : State) (n : Nat) (v : Word) : (s.wdesc n v).c.rel = s.c.rel := rfl
@[simp] theorem State.wdesc_c_seen (s : State) (n : Nat) (v : Word) : (s.wdesc n v).c.seen = s.c.seen := rfl
@[simp] theorem State.wdesc_c_order (s : State) (n : Nat) (v : Word) : (s.wdesc n v).c.order = s.c.order := rfl
@[simp] theorem State.wdesc_c_wait (s : State) (n : Nat) (v : Word) : (s.wdesc n v).c.wait = s.c.wait := rfl
@[simp] theorem State.wdesc_c_exempt (s : State) (n : Nat) (v : Word) : (s.wdesc n v).c.exempt = s.c.exempt := rfl
@[simp] theorem State.wdesc_c_atTvec (s : State) (n : Nat) (v : Word) : (s.wdesc n v).c.atTvec = s.c.atTvec := rfl
@[simp] theorem State.wdesc_c_exiting (s : State) (n : Nat) (v : Word) : (s.wdesc n v).c.exiting = s.c.exiting := rfl
@[simp] theorem State.wdesc_c_qtrap (s : State) (n : Nat) (v : Word) : (s.wdesc n v).c.qtrap = s.c.qtrap := rfl
@[simp] theorem State.wdesc_c_moved (s : State) (n : Nat) (v : Word) : (s.wdesc n v).c.moved = s.c.moved := rfl
@[simp] theorem State.wdesc_c_member (s : State) (n : Nat) (v : Word) : (s.wdesc n v).c.member = s.c.member := rfl
@[simp] theorem State.wdesc_c_root (s : State) (n : Nat) (v : Word) : (s.wdesc n v).c.root = s.c.root := rfl
@[simp] theorem State.wdesc_c_save (s : State) (n : Nat) (v : Word) : (s.wdesc n v).c.save = s.c.save := rfl
@[simp] theorem State.wdesc_c_die (s : State) (n : Nat) (v : Word) : (s.wdesc n v).c.die = s.c.die := rfl
@[simp] theorem State.wdesc_c_scratchA (s : State) (n : Nat) (v : Word) : (s.wdesc n v).c.scratchA = s.c.scratchA := rfl
@[simp] theorem State.wdesc_c_scratch (s : State) (n : Nat) (v : Word) : (s.wdesc n v).c.scratch = s.c.scratch := rfl
@[simp] theorem State.wdesc_c_scr (s : State) (n : Nat) (v : Word) : (s.wdesc n v).c.scr = s.c.scr := rfl
@[simp] theorem State.wdesc_c_l1m (s : State) (n : Nat) (v : Word) : (s.wdesc n v).c.l1m = s.c.l1m := rfl
@[simp] theorem State.wdesc_c_launch (s : State) (n : Nat) (v : Word) : (s.wdesc n v).c.launch = s.c.launch := rfl
@[simp] theorem State.wdesc_c_preempt (s : State) (n : Nat) (v : Word) : (s.wdesc n v).c.preempt = s.c.preempt := rfl
@[simp] theorem State.wdesc_c_fresh (s : State) (n : Nat) (v : Word) : (s.wdesc n v).c.fresh = s.c.fresh := rfl

/-! The field that an update writes. -/

@[simp] theorem State.withSys_c_sys (s : State) (y : SysRegs) : (s.withSys y).c.sys = y := rfl
@[simp] theorem State.withPc_c_pc (s : State) (p : Word) : (s.withPc p).c.pc = p := rfl
@[simp] theorem State.wa_c_a (s : State) (n : Nat) (v : AReg) : (s.wa n v).c.a = upd s.c.a n v := rfl
@[simp] theorem State.wd_c_d (s : State) (n : Nat) (v : DReg) : (s.wd n v).c.d = upd s.c.d n v := rfl
@[simp] theorem State.wlc_c_lc (s : State) (n : Nat) (v : Word) : (s.wlc n v).c.lc = upd s.c.lc n v := rfl
@[simp] theorem State.wdesc_c_desc (s : State) (n : Nat) (v : Word) : (s.wdesc n v).c.desc = upd s.c.desc n v := rfl
@[simp] theorem State.withStatus_sys_status (s : State) (w : Word) : (s.withStatus w).c.sys.status = w := rfl
@[simp] theorem State.withStatus_sys_fpctl (s : State) (w : Word) : (s.withStatus w).c.sys.fpctl = s.c.sys.fpctl := rfl
@[simp] theorem State.withStatus_sys_vfmt (s : State) (w : Word) : (s.withStatus w).c.sys.vfmt = s.c.sys.vfmt := rfl
@[simp] theorem State.withStatus_sys_seed (s : State) (w : Word) : (s.withStatus w).c.sys.seed = s.c.sys.seed := rfl
@[simp] theorem State.withStatus_sys_estart (s : State) (w : Word) : (s.withStatus w).c.sys.estart = s.c.sys.estart := rfl
@[simp] theorem State.withStatus_sys_ffs (s : State) (w : Word) : (s.withStatus w).c.sys.ffs = s.c.sys.ffs := rfl
@[simp] theorem State.withStatus_sys_grant (s : State) (w : Word) : (s.withStatus w).c.sys.grant = s.c.sys.grant := rfl
@[simp] theorem State.withStatus_sys_berth (s : State) (w : Word) : (s.withStatus w).c.sys.berth = s.c.sys.berth := rfl
@[simp] theorem State.withStatus_sys_retired (s : State) (w : Word) : (s.withStatus w).c.sys.retired = s.c.sys.retired := rfl
@[simp] theorem State.withStatus_sys_stallbank (s : State) (w : Word) : (s.withStatus w).c.sys.stallbank = s.c.sys.stallbank := rfl
@[simp] theorem State.withStatus_sys_avec (s : State) (w : Word) : (s.withStatus w).c.sys.avec = s.c.sys.avec := rfl
@[simp] theorem State.withStatus_sys_arpc (s : State) (w : Word) : (s.withStatus w).c.sys.arpc = s.c.sys.arpc := rfl
@[simp] theorem State.withStatus_sys_shvec (s : State) (w : Word) : (s.withStatus w).c.sys.shvec = s.c.sys.shvec := rfl
@[simp] theorem State.withStatus_sys_shpc (s : State) (w : Word) : (s.withStatus w).c.sys.shpc = s.c.sys.shpc := rfl
@[simp] theorem State.withStatus_sys_shinfo (s : State) (w : Word) : (s.withStatus w).c.sys.shinfo = s.c.sys.shinfo := rfl
@[simp] theorem State.withStatus_sys_tvec (s : State) (w : Word) : (s.withStatus w).c.sys.tvec = s.c.sys.tvec := rfl
@[simp] theorem State.withStatus_sys_tpc (s : State) (w : Word) : (s.withStatus w).c.sys.tpc = s.c.sys.tpc := rfl
@[simp] theorem State.withStatus_sys_tcause (s : State) (w : Word) : (s.withStatus w).c.sys.tcause = s.c.sys.tcause := rfl
@[simp] theorem State.withStatus_sys_tval (s : State) (w : Word) : (s.withStatus w).c.sys.tval = s.c.sys.tval := rfl
@[simp] theorem State.withStatus_sys_telem (s : State) (w : Word) : (s.withStatus w).c.sys.telem = s.c.sys.telem := rfl
@[simp] theorem State.withStatus_sys_tidx (s : State) (w : Word) : (s.withStatus w).c.sys.tidx = s.c.sys.tidx := rfl
@[simp] theorem State.withStatus_sys_tpfx (s : State) (w : Word) : (s.withStatus w).c.sys.tpfx = s.c.sys.tpfx := rfl
@[simp] theorem State.withStatus_sys_taux0 (s : State) (w : Word) : (s.withStatus w).c.sys.taux0 = s.c.sys.taux0 := rfl
@[simp] theorem State.withStatus_sys_taux1 (s : State) (w : Word) : (s.withStatus w).c.sys.taux1 = s.c.sys.taux1 := rfl

end Sys2Proof.Machine
end

