-- ==== Sys2Proof/Laws/Memory.lean ====
section
/-!
SUPPORT. The laws of memory: what a read sees after a write, and that every memory operation keeps the canonical form.
-/

namespace Sys2Proof.Machine

/-- A memory whose first address lies above `a`. -/
def startsAbove (a : Nat) : Memory → Prop
  | [] => True
  | (k, _) :: _ => a < k

theorem Memory.wf_cons (k : Nat) (v : Byte) (r : Memory) :
    Memory.wf ((k, v) :: r) = true ↔ v ≠ unlisted ∧ startsAbove k r ∧ Memory.wf r = true := by
  cases r with
  | nil => simp [Memory.wf, startsAbove]
  | cons p r => obtain ⟨k', v'⟩ := p; simp [Memory.wf, startsAbove, and_assoc]

theorem readByte_below {m : Memory} {a k : Nat} (h : startsAbove k m) (hak : a ≤ k) : readByte m a = unlisted := by
  cases m with
  | nil => rfl
  | cons p r =>
    obtain ⟨k', v⟩ := p
    simp only [startsAbove] at h
    simp only [readByte]
    rw [if_neg (by omega), if_pos (by omega)]

theorem readByte_writeByte_same (m : Memory) (a : Nat) (b : Byte) (h : m.wf = true) : readByte (writeByte m a b) a = b := by
  induction m with
  | nil => simp only [writeByte]; split <;> simp_all [readByte]
  | cons p r ih =>
    obtain ⟨k, v⟩ := p
    obtain ⟨_, hs, hr⟩ := (Memory.wf_cons k v r).1 h
    simp only [writeByte]
    split
    · rename_i hk; subst hk
      split
      · rename_i hb; rw [hb]; exact readByte_below hs (Nat.le_refl k)
      · simp [readByte]
    · split
      · split
        · rename_i hb; subst hb; simp only [readByte]; rw [if_neg (by omega), if_pos (by omega)]
        · simp [readByte]
      · simp only [readByte]; rw [if_neg (by omega), if_neg (by omega)]; exact ih hr

theorem readByte_writeByte_other (m : Memory) (a c : Nat) (b : Byte) (h : m.wf = true) (hne : c ≠ a) :
    readByte (writeByte m a b) c = readByte m c := by
  induction m with
  | nil =>
    simp only [writeByte]
    split
    · rfl
    · simp only [readByte]; rw [if_neg (by omega)]; split <;> rfl
  | cons p r ih =>
    obtain ⟨k, v⟩ := p
    obtain ⟨_, hs, hr⟩ := (Memory.wf_cons k v r).1 h
    simp only [writeByte]
    split
    · rename_i hk; subst hk
      split
      · simp only [readByte]
        rw [if_neg (by omega)]
        split
        · exact readByte_below hs (by omega)
        · rfl
      · simp only [readByte, if_neg (show ¬k = c by omega)]
    · split
      · split
        · rfl
        · simp only [readByte]
          rw [if_neg (by omega)]
          by_cases h1 : c < a
          · rw [if_pos h1, if_neg (by omega), if_pos (by omega)]
          · rw [if_neg h1]
      · simp only [readByte, ih hr]

theorem startsAbove_writeByte {k a : Nat} (m : Memory) (b : Byte) (h : startsAbove k m) (hw : m.wf = true) (hka : k < a) :
    startsAbove k (writeByte m a b) := by
  cases m with
  | nil => simp only [writeByte]; split <;> simp_all [startsAbove]
  | cons p r =>
    obtain ⟨k', v⟩ := p
    simp only [startsAbove] at h
    obtain ⟨_, hs, _⟩ := (Memory.wf_cons k' v r).1 hw
    simp only [writeByte]
    split
    · split
      · cases r with
        | nil => trivial
        | cons q r => obtain ⟨k'', v''⟩ := q; simp only [startsAbove] at hs ⊢; omega
      · simpa [startsAbove] using hka
    · split
      · split <;> simpa [startsAbove]
      · simpa [startsAbove] using h

/-- A byte written keeps the canonical form. -/
theorem writeByte_wf (m : Memory) (a : Nat) (b : Byte) (h : m.wf = true) : (writeByte m a b).wf = true := by
  induction m with
  | nil => simp only [writeByte]; split <;> simp_all [Memory.wf]
  | cons p r ih =>
    obtain ⟨k, v⟩ := p
    obtain ⟨hv, hs, hr⟩ := (Memory.wf_cons k v r).1 h
    simp only [writeByte]
    split
    · rename_i hk; subst hk
      split
      · exact hr
      · rename_i hb; exact (Memory.wf_cons _ _ _).2 ⟨hb, hs, hr⟩
    · split
      · split
        · exact h
        · rename_i hlt hb; exact (Memory.wf_cons _ _ _).2 ⟨hb, hlt, h⟩
      · rename_i hne hlt
        exact (Memory.wf_cons _ _ _).2 ⟨hv, startsAbove_writeByte r b hs hr (by omega), ih hr⟩

/-- A run of bytes written keeps the canonical form. -/
theorem writeBytes_wf (m : Memory) (a : Nat) (bs : List Byte) (h : m.wf = true) : (writeBytes m a bs).wf = true := by
  induction bs generalizing m a with
  | nil => exact h
  | cons b r ih => exact ih _ _ (writeByte_wf m a b h)

theorem writeWord_wf (m : Memory) (a : Nat) (w : Word) (h : m.wf = true) : (writeWord m a w).wf = true := writeBytes_wf m a _ h

/-- A read outside a written run sees what it saw before. -/
theorem readByte_writeBytes_other (m : Memory) (a c : Nat) (bs : List Byte) (h : m.wf = true)
    (hc : c < a ∨ a + bs.length ≤ c) : readByte (writeBytes m a bs) c = readByte m c := by
  induction bs generalizing m a with
  | nil => rfl
  | cons b r ih =>
    simp only [List.length_cons] at hc
    simp only [writeBytes]
    rw [ih (writeByte m a b) (a + 1) (writeByte_wf m a b h) (by omega)]
    exact readByte_writeByte_other m a c b h (by omega)

/-- A read in a written run sees the byte written there. -/
theorem readByte_writeBytes_in (m : Memory) (a i : Nat) (bs : List Byte) (h : m.wf = true) (hi : i < bs.length) :
    readByte (writeBytes m a bs) (a + i) = bs[i] := by
  induction bs generalizing m a i with
  | nil => simp at hi
  | cons b r ih =>
    simp only [writeBytes]
    cases i with
    | zero =>
      rw [readByte_writeBytes_other _ _ _ _ (writeByte_wf m a b h) (by omega)]
      simpa using readByte_writeByte_same m a b h
    | succ j =>
      have := ih (writeByte m a b) (a + 1) j (writeByte_wf m a b h) (by simpa using hi)
      rw [show a + (j + 1) = a + 1 + j by omega]
      simpa using this

/-- Equal reads everywhere mean equal memories: the canonical form is one form. -/
theorem wf_ext (m n : Memory) (hm : m.wf = true) (hn : n.wf = true) (h : ∀ a, readByte m a = readByte n a) : m = n := by
  induction m generalizing n with
  | nil =>
    cases n with
    | nil => rfl
    | cons p r =>
      obtain ⟨k, v⟩ := p
      exact absurd (by simpa [readByte] using (h k).symm) ((Memory.wf_cons k v r).1 hn).1
  | cons p r ih =>
    obtain ⟨k, v⟩ := p
    obtain ⟨hv, hs, hr⟩ := (Memory.wf_cons k v r).1 hm
    cases n with
    | nil => exact absurd (by simpa [readByte] using h k) hv
    | cons q t =>
      obtain ⟨j, w⟩ := q
      obtain ⟨hw, ht, hn'⟩ := (Memory.wf_cons j w t).1 hn
      have hkj : k = j := by
        rcases Nat.lt_trichotomy k j with h1 | h1 | h1
        · exact absurd (by have := h k; simp only [readByte, if_true] at this; rwa [if_neg (by omega), if_pos h1] at this) hv
        · exact h1
        · exact absurd (by have := (h j).symm; simp only [readByte, if_true] at this; rwa [if_neg (by omega), if_pos h1] at this) hw
      subst hkj
      have hvw : v = w := by simpa [readByte] using h k
      subst hvw
      rw [ih t hr hn' fun a => ?_]
      rcases Nat.lt_trichotomy a k with h1 | h1 | h1
      · rw [readByte_below hs (by omega), readByte_below ht (by omega)]
      · rw [readByte_below hs (by omega), readByte_below ht (by omega)]
      · have := h a
        simp only [readByte] at this
        rwa [if_neg (by omega), if_neg (by omega), if_neg (by omega), if_neg (by omega)] at this

/-! The operations over a state's memory. -/

theorem putBytes_mem_wf (s : State) (loc : Nat) (bs : List Byte) (h : s.mem.wf = true) : (putBytes s loc bs).mem.wf = true := by
  unfold putBytes; split
  · exact writeBytes_wf _ _ _ h
  · exact h

@[simp] theorem clearCounters_mem (s : State) (loc n : Nat) : (clearCounters s loc n).mem = s.mem := rfl
@[simp] theorem overtakeBuffer_mem (s : State) (loc n : Nat) : (overtakeBuffer s loc n).mem = s.mem := rfl

theorem storeBytes_mem_wf (s : State) (loc : Nat) (bs : List Byte) (h : s.mem.wf = true) :
    (storeBytes s loc bs).mem.wf = true := putBytes_mem_wf _ _ _ (by simpa using h)

theorem foldl_mem_wf {α : Type} (f : State → α → State) (hf : ∀ s a, s.mem.wf = true → (f s a).mem.wf = true)
    (l : List α) (s : State) (h : s.mem.wf = true) : (l.foldl f s).mem.wf = true := by
  induction l generalizing s with
  | nil => exact h
  | cons a r ih => exact ih _ (hf s a h)

theorem commitEntry_mem_wf (s : State) (e : StoreEntry) (h : s.mem.wf = true) : (commitEntry s e).mem.wf = true := by
  refine foldl_mem_wf _ (fun s i hs => ?_) _ _ h
  split
  · unfold leaveNote
    split <;> exact putBytes_mem_wf _ _ _ (by simpa using hs)
  · exact hs

theorem commitStores_mem_wf (s : State) (h : s.mem.wf = true) : (commitStores s).mem.wf = true :=
  foldl_mem_wf commitEntry (fun s e => commitEntry_mem_wf s e) _ _ h

theorem opLwin_mem_wf (v : Word) (s : State) (h : s.mem.wf = true) : (opLwin v s).mem.wf = true := by
  unfold opLwin writeStatus
  dsimp only
  (repeat' split) <;> first | exact h | exact writeWord_wf _ _ _ h

theorem writeTrace_mem (o : Nat) (v : Word) (s : State) : (writeTrace o v s).mem = s.mem := by
  unfold writeTrace; dsimp only; split <;> rfl

theorem writeFabric_mem (o : Nat) (v : Word) (s : State) : (writeFabric o v s).mem = s.mem := by
  unfold writeFabric opFbitInv; dsimp only; (repeat' split) <;> rfl

theorem writeSlot_mem (o : Nat) (v : Word) (s : State) : (writeSlot o v s).mem = s.mem := by
  unfold writeSlot writeBind; dsimp only; (repeat' split) <;> rfl

theorem writeDispatch_mem_wf (o : Nat) (v : Word) (s : State) (h : s.mem.wf = true) : (writeDispatch o v s).mem.wf = true := by
  unfold writeDispatch writeOtherSlot
  (repeat' split) <;> first | exact h | exact opLwin_mem_wf _ _ h | (rw [writeSlot_mem]; exact h)

/-- A register write of control space changes memory only where LWIN refuses a record. -/
theorem superWrite_mem_wf (off : Nat) (v : Word) (s : State) (h : s.mem.wf = true) : (superWrite off v s).mem.wf = true := by
  unfold superWrite
  split
  · rw [writeTrace_mem]; exact h
  · rw [writeFabric_mem]; exact h
  · split
    · exact writeDispatch_mem_wf _ _ _ h
    · exact h

theorem ctrlSet_mem_wf (off n v : Nat) (s : State) (h : s.mem.wf = true) : (ctrlSet off n v s).mem.wf = true := by
  unfold ctrlSet
  dsimp only
  split
  · exact superWrite_mem_wf _ _ _ h
  · exact h

theorem ctrlStore_mem_wf (off n v : Nat) (s : State) (h : s.mem.wf = true) : (ctrlStore off n v s).mem.wf = true :=
  ctrlSet_mem_wf _ _ _ _ h

@[simp] theorem dropNotes_mem (s : State) (loc n : Nat) : (dropNotes s loc n).mem = s.mem := rfl

@[simp] theorem noteIncrement_mem (s : State) (loc old reached : Nat) (c : List (Path × List Nat)) :
    (noteIncrement s loc old reached c).mem = s.mem := rfl

theorem counterAdd_mem_wf (s : State) (loc amount : Nat) (c : List (Path × List Nat)) (h : s.mem.wf = true) :
    (counterAdd s loc amount c).mem.wf = true := by
  unfold counterAdd
  dsimp only
  split
  · simpa using ctrlSet_mem_wf _ _ _ _ h
  · exact putBytes_mem_wf _ _ _ h

@[simp] theorem cacheLeaf_mem (s : State) (va : Nat) (e : Word) (size entry : Nat) :
    (cacheLeaf s va e size entry).mem = s.mem := rfl

theorem setAD_mem_wf (s : State) (va : Nat) (e : Word) (size entry : Nat) (acc : Access) (h : s.mem.wf = true) :
    (setAD s va e size entry acc).mem.wf = true := by
  unfold setAD
  generalize (setBit (if acc.write then setBit e 5 true else e) 4 true) = e'
  by_cases he : e' = e
  · simpa [he] using h
  · simpa [he] using writeWord_wf _ _ _ h

/-- A translation changes memory only by the A and D bits it sets. -/
theorem translate_mem_wf (s : State) (va : Word) (n : Nat) (acc : Access) (h : s.mem.wf = true) :
    (translate s va n acc).2.mem.wf = true := by
  unfold translate
  dsimp only
  split
  · exact h
  · split
    · exact h
    · exact h
    · split
      · simpa using h
      · split
        · split <;> exact setAD_mem_wf _ _ _ _ _ _ h
        · exact setAD_mem_wf _ _ _ _ _ _ h

end Sys2Proof.Machine
end

