-- ==== Sys2Proof/Laws/Registers.lean ====
section
/-!
SUPPORT. The laws of the register accessors, of the end of a word, and of what a word leaves alone.
-/

namespace Sys2Proof.Machine

/-! Vectors read and written. -/

theorem nth_upd {α : Type} {n : Nat} (v : Vector α n) (i j : Nat) (a d : α) :
    nth (upd v i a) j d = if i = j ∧ i < n then a else nth v j d := by
  unfold nth upd
  rw [Vector.getElem?_setIfInBounds]
  split
  · rename_i h; subst h
    split
    · rename_i hi; simp [hi]
    · rename_i hi; simp [hi]
  · rename_i h; simp [h]

theorem nth_upd_same {α : Type} {n : Nat} (v : Vector α n) (i : Nat) (a d : α) (h : i < n) : nth (upd v i a) i d = a := by
  rw [nth_upd]; simp [h]

theorem nth_upd_other {α : Type} {n : Nat} (v : Vector α n) (i j : Nat) (a d : α) (h : i ≠ j) :
    nth (upd v i a) j d = nth v j d := by rw [nth_upd]; simp [h]

/-! Scalar registers (R123). -/

@[simp] theorem rx_zero (s : State) : s.rx 0#5 = 0#64 := rfl

theorem wx_zero (s : State) (v : Word) : s.wx 0#5 v = s := rfl

@[simp] theorem ain_wx (s : State) (d : BitVec 5) (v : Word) : (s.wx d v).ain = s.ain := by simp [State.ain]

/-- The scalar registers after a write: the bank in force takes the value. -/
theorem wx_banks (s : State) (d : BitVec 5) (v : Word) (hd : d ≠ 0#5) :
    (s.wx d v).c.x = (if s.ain && decide (24 ≤ d.toNat) then s.c.x else upd s.c.x d.toNat v) ∧
    (s.wx d v).c.xArr = (if s.ain && decide (24 ≤ d.toNat) then upd s.c.xArr (d.toNat - 24) v else s.c.xArr) := by
  unfold State.wx
  rw [if_neg hd]
  split <;> exact ⟨rfl, rfl⟩

theorem rx_eq (s : State) (n : BitVec 5) (hn : n ≠ 0#5) :
    s.rx n = if s.ain && decide (24 ≤ n.toNat) then nth s.c.xArr (n.toNat - 24) 0 else nth s.c.x n.toNat 0 := by
  unfold State.rx
  rw [if_neg hn]

/-- A write of x[d] is what a read of x[d] sees, but for x0; every other register reads as before. -/
theorem rx_wx (s : State) (d n : BitVec 5) (v : Word) :
    (s.wx d v).rx n = if n = 0#5 then 0 else if n = d then v else s.rx n := by
  by_cases hn : n = 0#5
  · subst hn; rfl
  · rw [if_neg hn]
    by_cases hd : d = 0#5
    · subst hd; rw [wx_zero, if_neg hn]
    · have hds := d.isLt
      have hns := n.isLt
      have hne : n ≠ d → d.toNat ≠ n.toNat := fun h h' => h (BitVec.eq_of_toNat_eq h'.symm)
      obtain ⟨hx, hxa⟩ := wx_banks s d v hd
      rw [rx_eq _ _ hn, rx_eq _ _ hn, ain_wx, hx, hxa]
      by_cases e : n = d
      · subst e
        by_cases h : (s.ain && decide (24 ≤ n.toNat)) = true
        · simp only [h, if_true]; exact nth_upd_same _ _ _ _ (by omega)
        · simp only [h, if_true, Bool.false_eq_true, if_false]; exact nth_upd_same _ _ _ _ (by omega)
      · rw [if_neg e]
        have hn' := hne e
        by_cases h : (s.ain && decide (24 ≤ n.toNat)) = true <;> by_cases h' : (s.ain && decide (24 ≤ d.toNat)) = true
        · simp only [h, h', if_true]
          simp only [Bool.and_eq_true, decide_eq_true_eq] at h h'
          exact nth_upd_other _ _ _ _ _ (by omega)
        · simp [h, h']
        · simp [h, h']
        · simp only [h, h', Bool.false_eq_true, if_false]; exact nth_upd_other _ _ _ _ _ hn'

@[simp] theorem hiddenBank_wx (s : State) (d : BitVec 5) (v : Word) : hiddenBank (s.wx d v) = hiddenBank s := by
  by_cases hd : d = 0#5
  · subst hd; rw [wx_zero]
  · obtain ⟨hx, hxa⟩ := wx_banks s d v hd
    unfold hiddenBank
    rw [ain_wx, hx, hxa]
    by_cases ha : s.ain = true
    · simp only [ha, if_true, Bool.true_and]
      refine List.map_congr_left fun i _ => ?_
      by_cases h24 : 24 ≤ d.toNat
      · simp [h24]
      · simp only [h24, decide_false, Bool.false_eq_true, if_false]; exact nth_upd_other _ _ _ _ _ (by omega)
    · simp [ha]

/-! Address registers (R126). -/

theorem ra_wa (s : State) (d n : Nat) (r : AReg) (hd : d < 16) : (s.wa d r).ra n = if n = d then r else s.ra n := by
  simp only [State.ra, State.wa, State.mark, nth_upd]
  by_cases h : n = d
  · simp [h, hd]
  · rw [if_neg (by omega), if_neg h]

end Sys2Proof.Machine
end

