-- ==== Sys2Proof/Laws/EndOfWord.lean ====
section
/-!
SUPPORT. What the end of a word does (R131, R164, R204): `complete` changes nothing that `quiet` keeps, RETIRED counts the word, and
where no loop turns PC moves to the next word.
-/

namespace Sys2Proof.Machine

theorem setBit_setBit (w : Word) (i : Nat) (a b : Bool) : setBit (setBit w i a) i b = setBit w i b := by
  unfold setBit
  apply BitVec.eq_of_getLsbD_eq
  intro j hj
  cases a <;> cases b <;> simp <;> by_cases h : i = j <;> simp [h] <;> simp_all

theorem bit_setBit_false (w : Word) (i : Nat) : bit (setBit w i false) i = false := by
  simp [bit, setBit]

@[simp] theorem quiet_retire (s : State) : quiet (retire s) = quiet s := rfl
@[simp] theorem quiet_withPc (s : State) (p : Word) : quiet (s.withPc p) = quiet s := rfl
@[simp] theorem quiet_wlc (s : State) (n : Nat) (v : Word) : quiet (s.wlc n v) = quiet s := rfl
@[simp] theorem quiet_wdesc (s : State) (n : Nat) (v : Word) : quiet (s.wdesc n v) = quiet s := rfl
@[simp] theorem quiet_mark (s : State) (r : RegName) : quiet (s.mark r) = quiet s := rfl

@[simp] theorem quiet_turnLevel (l : Nat) (p : Word) (s : State) : quiet (turnLevel l p s).1 = quiet s := by
  unfold turnLevel
  dsimp only
  split
  · split <;> simp
  · rfl

@[simp] theorem quiet_turnVloop (s : State) : quiet (turnVloop s) = quiet s := by
  unfold turnVloop
  dsimp only
  split <;> simp [quiet, State.withSys, setBit_setBit]

@[simp] theorem quiet_turnStep (q : Nat → Bool) (p : Word) (l : Nat) (r : State × Bool) :
    quiet (turnStep q p l r).1 = quiet r.1 := by
  unfold turnStep
  split <;> simp

@[simp] theorem quiet_turnAmong (q : Nat → Bool) (p : Word) (s : State) : quiet (turnAmong q p s).1 = quiet s := by simp [turnAmong]

@[simp] theorem quiet_turnLevels (p : Word) (s : State) : quiet (turnLevels p s) = quiet s := by
  unfold turnLevels
  dsimp only
  split <;> simp

@[simp] theorem quiet_advance (p : Word) (s : State) : quiet (advance p s) = quiet s := by
  unfold advance
  dsimp only
  (repeat' split) <;> simp

/-- A word's completion changes only what `quiet` leaves out. -/
@[simp] theorem quiet_complete (s : State) : quiet (complete s) = quiet s := by simp [complete]

/-! What the turns do to the loops, to RETIRED and to FFS. -/

theorem rlc_wlc (s : State) (l m : Nat) (v : Word) (hm : m < 3) : (s.wlc m v).rlc l = if l = m then v else s.rlc l := by
  simp only [State.rlc, State.wlc, State.mark, nth_upd]
  by_cases h : l = m <;> simp [h, hm]
  intro h'; exact absurd h'.symm h

theorem rdesc_wdesc (s : State) (l m : Nat) (v : Word) (hm : m < 3) : (s.wdesc m v).rdesc l = if l = m then v else s.rdesc l := by
  simp only [State.rdesc, State.wdesc, State.mark, nth_upd]
  by_cases h : l = m <;> simp [h, hm]
  intro h'; exact absurd h'.symm h

@[simp] theorem rlc_wdesc (s : State) (l m : Nat) (v : Word) : (s.wdesc m v).rlc l = s.rlc l := rfl
@[simp] theorem rdesc_wlc (s : State) (l m : Nat) (v : Word) : (s.wlc m v).rdesc l = s.rdesc l := rfl
@[simp] theorem rlc_withPc (s : State) (l : Nat) (p : Word) : (s.withPc p).rlc l = s.rlc l := rfl
@[simp] theorem rdesc_withPc (s : State) (l : Nat) (p : Word) : (s.withPc p).rdesc l = s.rdesc l := rfl

/-- The levels touch nothing of the context but themselves, PC and the marks. -/
theorem turnLevel_else (l : Nat) (p : Word) (s : State) :
    ∃ lc desc pc dirty, (turnLevel l p s).1 = { s with c := { s.c with lc := lc, desc := desc, pc := pc, dirty := dirty } } := by
  unfold turnLevel
  dsimp only
  split
  · split
    · exact ⟨_, s.c.desc, _, _, rfl⟩
    · exact ⟨_, _, s.c.pc, _, rfl⟩
  · exact ⟨s.c.lc, s.c.desc, s.c.pc, s.c.dirty, rfl⟩

theorem turnStep_else (q : Nat → Bool) (p : Word) (l : Nat) (r : State × Bool) :
    ∃ lc desc pc dirty, (turnStep q p l r).1 = { r.1 with c := { r.1.c with lc := lc, desc := desc, pc := pc, dirty := dirty } } := by
  unfold turnStep
  split
  · exact turnLevel_else _ _ _
  · exact ⟨r.1.c.lc, r.1.c.desc, r.1.c.pc, r.1.c.dirty, rfl⟩

theorem turnAmong_else (q : Nat → Bool) (p : Word) (s : State) :
    ∃ lc desc pc dirty, (turnAmong q p s).1 = { s with c := { s.c with lc := lc, desc := desc, pc := pc, dirty := dirty } } := by
  obtain ⟨_, _, _, _, h2⟩ := turnStep_else q p 2 (s, false)
  obtain ⟨_, _, _, _, h1⟩ := turnStep_else q p 1 (turnStep q p 2 (s, false))
  obtain ⟨lc, desc, pc, dirty, h0⟩ := turnStep_else q p 0 (turnStep q p 1 (turnStep q p 2 (s, false)))
  exact ⟨lc, desc, pc, dirty, by rw [turnAmong, h0, h1, h2]⟩

/-- A level at the word at PC is not at its last word, or turns, or is at its last pass. -/
theorem level_cases (l : Nat) (s : State) :
    atLast l s = false ∨ (atLast l s = true ∧ 1 < (s.rlc l).toNat) ∨ (atLast l s = true ∧ ¬ 1 < (s.rlc l).toNat) := by
  cases atLast l s <;> simp [Nat.lt_or_ge]

/-- What one level does, where its own registers are still those of `s`. -/
theorem turnLevel_at (l : Nat) (s t : State) (hd : t.rdesc l = s.rdesc l) (hl : t.rlc l = s.rlc l) :
    turnLevel l s.c.pc t =
      if atLast l s then
        if 1 < (s.rlc l).toNat then ((t.wlc l (s.rlc l - 1)).withPc (descFirst (s.rdesc l)), true)
        else ((t.wlc l 0).wdesc l (setBit (s.rdesc l) 63 false), false)
      else (t, false) := by
  unfold turnLevel atLast
  rw [hd, hl]

/-- Level l ends where the levels of `q` turn: it is one of them, and none before it has turned. -/
def overAmong (q : Nat → Bool) (l : Nat) (s : State) : Bool :=
  q l && atLast l s && decide ((s.rlc l).toNat ≤ 1) && (turnerAmong q s).all (decide <| · < l)

theorem turnerAmong_some {q : Nat → Bool} {s : State} {l : Nat} (h : turnerAmong q s = some l) : l < 3 ∧ again l s = true := by
  have h1 := List.mem_of_find?_eq_some h
  have h2 := List.find?_some h
  simp at h1 h2
  exact ⟨by omega, h2.2⟩

theorem notOver {q : Nat → Bool} {s : State} {l : Nat} (h : again l s = true) : overAmong q l s = false := by
  unfold again at h
  unfold overAmong
  simp at h ⊢
  omega

/-- Level by level, from the innermost out: where the context goes, and what becomes of each level (R131). -/
theorem turnAmong_after (q : Nat → Bool) (s : State) :
    (turnAmong q s.c.pc s).2 = (turnerAmong q s).isSome ∧
    (turnAmong q s.c.pc s).1.c.pc = ((turnerAmong q s).elim s.c.pc fun l => descFirst (s.rdesc l)) ∧
    ∀ l < 3,
      (turnAmong q s.c.pc s).1.rlc l = (if turnerAmong q s = some l then s.rlc l - 1 else if overAmong q l s then 0 else s.rlc l) ∧
      (turnAmong q s.c.pc s).1.rdesc l = (if overAmong q l s then setBit (s.rdesc l) 63 false else s.rdesc l) := by
  have three : ∀ {l : Nat}, l < 3 → l = 0 ∨ l = 1 ∨ l = 2 := by omega
  have part : ∀ l, q l = false ∨ (q l = true ∧ atLast l s = false) ∨ (q l = true ∧ atLast l s = true ∧ 1 < (s.rlc l).toNat) ∨
      (q l = true ∧ atLast l s = true ∧ ¬ 1 < (s.rlc l).toNat) := fun l => by
    cases q l <;> cases atLast l s <;> simp [Nat.lt_or_ge]
  rcases part 2 with q2 | ⟨q2, h2⟩ | ⟨q2, h2, c2⟩ | ⟨q2, h2, c2⟩ <;> rcases part 1 with q1 | ⟨q1, h1⟩ | ⟨q1, h1, c1⟩ | ⟨q1, h1, c1⟩ <;>
    rcases part 0 with q0 | ⟨q0, h0⟩ | ⟨q0, h0, c0⟩ | ⟨q0, h0, c0⟩ <;>
    (refine ⟨?_, ?_, fun l hl => ?_⟩
     · simp [turnAmong, turnStep, turnLevel_at, rdesc_wdesc, rlc_wlc, turnerAmong, again, *]
     · simp [turnAmong, turnStep, turnLevel_at, rdesc_wdesc, rlc_wlc, turnerAmong, again, *]
     · rcases three hl with rfl | rfl | rfl <;>
         simp [turnAmong, turnStep, turnLevel_at, rdesc_wdesc, rlc_wlc, turnerAmong, again, overAmong, *])

/-- The vector loop's turn: FFS.TACT is clear, which is noted as a write, and the next strip begins or the loop has ended (R204, R216). -/
theorem turnVloop_after (s : State) :
    turnVloop s = (if (s.c.vloop.strip + 1).toNat * s.c.vloop.vlmax < s.c.vloop.n.toNat then
        { s with c := { s.c with
          sys := { s.c.sys with ffs := setBit s.c.sys.ffs 47 false }, dirty := (s.mark (.sys 6)).c.dirty
          vloop := { s.c.vloop with strip := s.c.vloop.strip + 1 }, pc := s.c.vloop.first } }
      else
        { s with c := { s.c with
          sys := { s.c.sys with ffs := setBit s.c.sys.ffs 47 false }, dirty := (s.mark (.sys 6)).c.dirty
          vloop := { s.c.vloop with active := false, strip := 0 } } }) := by
  unfold turnVloop
  dsimp only
  split <;> rfl

/-- Where every level takes part. -/
theorem turnLevels_after (s : State) :
    (turnLevels s.c.pc s).c.pc = ((turnerAmong (fun _ => true) s).elim (s.c.pc + 4) fun l => descFirst (s.rdesc l)) ∧
    ∀ l < 3,
      (turnLevels s.c.pc s).rlc l =
        (if turnerAmong (fun _ => true) s = some l then s.rlc l - 1 else if overAmong (fun _ => true) l s then 0 else s.rlc l) ∧
      (turnLevels s.c.pc s).rdesc l = (if overAmong (fun _ => true) l s then setBit (s.rdesc l) 63 false else s.rdesc l) := by
  obtain ⟨h2, hp, hl⟩ := turnAmong_after (fun _ => true) s
  unfold turnLevels
  cases ht : turnerAmong (fun _ => true) s with
  | some m => simp only [ht, Option.isSome_some] at h2 hp hl ⊢; simp only [h2, if_true]; exact ⟨hp, hl⟩
  | none =>
    simp only [ht, Option.isSome_none] at h2 hl ⊢
    simp only [h2, Bool.false_eq_true, if_false]
    exact ⟨rfl, hl⟩

theorem turnLevels_else (p : Word) (s : State) :
    ∃ lc desc pc dirty, turnLevels p s = { s with c := { s.c with lc := lc, desc := desc, pc := pc, dirty := dirty } } := by
  obtain ⟨lc, desc, pc, dirty, h⟩ := turnAmong_else (fun _ => true) p s
  unfold turnLevels
  dsimp only
  split
  · exact ⟨_, _, _, _, h⟩
  · rw [h]; exact ⟨lc, desc, p + 4, dirty, rfl⟩

/-- A level that the levels inside the vector loop have ended is not at its last word, and the others are as they were. -/
theorem again_after {q : Nat → Bool} {s u : State} {l : Nat} (hl : l < 3) (hp : u.c.pc = s.c.pc)
    (ha : ∀ l < 3, u.rlc l = (if overAmong q l s then 0 else s.rlc l) ∧
      u.rdesc l = (if overAmong q l s then setBit (s.rdesc l) 63 false else s.rdesc l)) :
    atLast l u = (atLast l s && !overAmong q l s) ∧ again l u = again l s := by
  obtain ⟨h1, h2⟩ := ha l hl
  unfold again atLast
  rw [h1, h2, hp]
  by_cases ho : overAmong q l s = true
  · have hn : ¬ 1 < (s.rlc l).toNat := by unfold overAmong at ho; simp at ho; omega
    simp [ho, hn, descActive, bit_setBit_false]
  · simp [ho]

/-- PC and the loops after the end of a word (R131, R204, R205). -/
theorem advance_loops (s : State) : LoopsAfter s (advance s.c.pc s) := by
  by_cases he : endsVloop s.c.vloop s.c.pc = true
  · have hq : inStrip s = insideVloop s := funext fun l => by simp [inStrip, he]
    obtain ⟨h2, hp, hl⟩ := turnAmong_after (insideVloop s) s
    obtain ⟨lc, desc, pc, dirty, hu⟩ := turnAmong_else (insideVloop s) s.c.pc s
    unfold advance
    cases ht : turnerAmong (insideVloop s) s with
    | some m =>
      simp only [ht, Option.isSome_some] at h2 hp hl
      simp only [he, h2, if_true]
      refine ⟨by simp [nextStrip, vloopTurns, turner, hq, ht, hp], by rw [hu]; simp [nextStrip, vloopTurns, hq, ht], fun l h => ?_⟩
      have ho : levelOver l s = overAmong (insideVloop s) l s := by
        unfold levelOver reached overAmong
        rw [hq, ht]
        cases insideVloop s l <;> simp
      simpa [turner, hq, ht, ho] using hl l h
    | none =>
      simp only [ht, Option.isSome_none, Option.elim_none, reduceCtorEq, if_false] at h2 hp hl
      simp only [he, h2, if_true, Bool.false_eq_true, if_false]
      have hv : (turnAmong (insideVloop s) s.c.pc s).1.c.vloop = s.c.vloop := by rw [hu]
      have hn : vloopTurns s = true := by simp [vloopTurns, he, hq, ht]
      generalize turnAmong (insideVloop s) s.c.pc s = r at *
      rw [turnVloop_after, hv]
      by_cases hs : (s.c.vloop.strip + 1).toNat * s.c.vloop.vlmax < s.c.vloop.n.toNat
      · have ha : s.c.vloop.active = true := by unfold endsVloop at he; simp at he; exact he.1
        have hx : nextStrip s = true := by rw [nextStrip, hn]; simp only [hs, decide_true, Bool.and_self]
        simp only [hs, if_true, ha]
        refine ⟨by simp [hx], by simp [hx, ha], fun l h => ?_⟩
        have ho : levelOver l s = overAmong (insideVloop s) l s := by
          unfold levelOver reached overAmong
          rw [hq, ht, hx]
          cases insideVloop s l <;> simp
        have hw : turner s = none := by simp [turner, hq, ht, hx]
        rw [ho, hw]
        simp only [reduceCtorEq, if_false]
        exact hl l h
      · have hx : nextStrip s = false := by rw [nextStrip, decide_eq_false hs, Bool.and_false]
        simp only [hs, if_false, Bool.false_eq_true]
        rw [← hp]
        generalize hw : ({ r.1 with c := { r.1.c with
          sys := { r.1.c.sys with ffs := setBit r.1.c.sys.ffs 47 false }, dirty := (r.1.mark (.sys 6)).c.dirty
          vloop := { s.c.vloop with active := false, strip := 0 } } } : State) = w
        have wpc : w.c.pc = s.c.pc := by rw [← hw]; exact hp
        have wl : ∀ l < 3, w.rlc l = (if overAmong (insideVloop s) l s then 0 else s.rlc l) ∧
            w.rdesc l = (if overAmong (insideVloop s) l s then setBit (s.rdesc l) 63 false else s.rdesc l) := by
          rw [← hw]; exact hl
        have wt : turnerAmong (fun _ => true) w = turnerAmong (fun _ => true) s := by
          unfold turnerAmong
          simp only [(again_after (by decide : 2 < 3) wpc wl).2, (again_after (by decide : 1 < 3) wpc wl).2,
            (again_after (by decide : 0 < 3) wpc wl).2, List.find?_cons, List.find?_nil]
        have hturn : turner s = turnerAmong (fun _ => true) s := by simp [turner, hq, ht, hx]
        obtain ⟨tp, tl⟩ := turnLevels_after w
        obtain ⟨lc', desc', pc', dirty', htl⟩ := turnLevels_else w.c.pc w
        have wv : w.c.vloop = { s.c.vloop with active := false, strip := 0 } := by rw [← hw]
        rw [wt] at tp
        refine ⟨?_, by rw [hp, ← wpc, htl]; simp [hx, hn, wv], fun l h => ?_⟩
        · rw [hp, hx, hturn, ← wpc, tp]
          cases hz : turnerAmong (fun _ => true) s with
          | none => rfl
          | some l =>
            obtain ⟨h3, ha⟩ := turnerAmong_some hz
            simp [(wl l h3).2, notOver ha]
        · obtain ⟨tl1, tl2⟩ := tl l h
          obtain ⟨w1, w2⟩ := wl l h
          have ho : levelOver l s = (overAmong (insideVloop s) l s || overAmong (fun _ => true) l w) := by
            unfold levelOver reached
            rw [hq, ht, hx, hturn]
            unfold overAmong
            rw [ht, wt, (again_after h wpc wl).1, w1]
            unfold overAmong
            rw [ht]
            cases atLast l s <;> cases insideVloop s l <;> by_cases hc : (s.rlc l).toNat ≤ 1 <;>
              cases turnerAmong (fun _ => true) s <;> simp [hc]
          rw [hp, ← wpc, tl1, tl2, w1, w2, wt, hturn, ho]
          by_cases o1 : overAmong (insideVloop s) l s = true
          · have hne : turnerAmong (fun _ => true) s ≠ some l := fun hz => by
              have := notOver (q := insideVloop s) (turnerAmong_some hz).2; simp_all
            simp [o1, hne, setBit_setBit]
          · simp [o1]
  · have hq : inStrip s = fun _ => false := funext fun l => by simp [inStrip, he]
    have hn : turnerAmong (fun _ => false) s = none := by simp [turnerAmong]
    have hx : nextStrip s = false := by simp [nextStrip, vloopTurns, he]
    have ho : ∀ l, levelOver l s = overAmong (fun _ => true) l s := fun l => by
      simp [levelOver, reached, overAmong, turner, hq, hn, hx]
    have ht : turner s = turnerAmong (fun _ => true) s := by simp [turner, hq, hn, hx]
    obtain ⟨lc, desc, pc, dirty, hu⟩ := turnLevels_else s.c.pc s
    obtain ⟨tp, tl⟩ := turnLevels_after s
    unfold advance
    simp only [he, Bool.false_eq_true, if_false]
    refine ⟨by simp [hx, ht, tp], by rw [hu]; simp [hx, vloopTurns, he], fun l h => ?_⟩
    rw [ho, ht]
    exact tl l h

/-- RETIRED and FFS after the end of a word. -/
theorem advance_sys (s : State) : (advance s.c.pc s).c.sys =
    (if vloopTurns s then { s.c.sys with ffs := setBit s.c.sys.ffs 47 false } else s.c.sys) := by
  have hl : ∀ u : State, (turnLevels s.c.pc u).c.sys = u.c.sys := fun u => by
    obtain ⟨lc, desc, pc, dirty, hu⟩ := turnLevels_else s.c.pc u
    rw [hu]
  obtain ⟨h2, -, -⟩ := turnAmong_after (insideVloop s) s
  obtain ⟨lc, desc, pc, dirty, hu⟩ := turnAmong_else (insideVloop s) s.c.pc s
  have hr : (turnAmong (insideVloop s) s.c.pc s).1.c.sys = s.c.sys := by rw [hu]
  unfold advance vloopTurns
  by_cases he : endsVloop s.c.vloop s.c.pc = true
  · have hq : inStrip s = insideVloop s := funext fun l => by simp [inStrip, he]
    have ht : (turnVloop (turnAmong (insideVloop s) s.c.pc s).1).c.sys = { s.c.sys with ffs := setBit s.c.sys.ffs 47 false } := by
      rw [turnVloop_after, ← hr]; split <;> rfl
    simp only [he, if_true, h2, hq, Bool.true_and]
    cases turnerAmong (insideVloop s) s <;> simp only [Option.isSome_none, Option.isSome_some, Option.isNone_none, Option.isNone_some,
      Bool.false_eq_true, if_false, if_true, hr]
    split
    · exact ht
    · rw [hl, ht]
  · simp only [he, Bool.false_and, Bool.false_eq_true, if_false, hl]

/-- A word that does not transfer control has completed. -/
theorem complete_completed (s : State) : Completed s (complete s) := by
  have h := advance_sys (retire s)
  refine ⟨?_, advance_loops (retire s), ?_⟩
  · show (advance (retire s).c.pc (retire s)).c.sys.retired = _
    rw [h]; split <;> rfl
  · show (advance (retire s).c.pc (retire s)).c.sys.ffs = _
    rw [h]; show (if vloopTurns s = true then _ else _ : SysRegs).ffs = _; split <;> rfl

/-! Frames. -/

/-- What is taken out of the context stands apart from the end of a word. -/
def Apart (erase : Context → Context) : Prop :=
  ∀ t : State, quiet { t with c := erase t.c } = quiet { quiet t with c := erase (quiet t).c }

theorem apart_nothing : Apart nothing := fun _ => by simp [quiet, nothing, setBit_setBit]
theorem apart_scalars : Apart scalars := fun _ => by simp [quiet, scalars, setBit_setBit]
theorem apart_addresses : Apart addresses := fun _ => by simp [quiet, addresses, setBit_setBit]
theorem apart_queues : Apart queues := fun _ => by simp [quiet, queues, setBit_setBit]
theorem apart_epEnd : Apart epEnd := fun _ => by simp [quiet, epEnd, setBit_setBit]
theorem apart_vectors : Apart vectors := fun _ => by simp [quiet, vectors, epEnd, setBit_setBit]
theorem apart_preds : Apart preds := fun _ => by simp [quiet, preds, epEnd, setBit_setBit]

theorem Frame.of_quiet {erase : Context → Context} (he : Apart erase) {s u t : State} (h : Frame erase s u) (hq : quiet t = quiet u) :
    Frame erase s t := by
  unfold Frame at *
  rw [he t, hq, ← he u, h]

/-- The end of a word keeps a frame. -/
theorem Frame.complete {erase : Context → Context} (he : Apart erase) {s u : State} (h : Frame erase s u) :
    Frame erase s (Machine.complete u) := h.of_quiet he (quiet_complete u)

theorem Frame.refl (erase : Context → Context) (s : State) : Frame erase s s := rfl

theorem frame_wx (s : State) (d : BitVec 5) (v : Word) : Frame scalars s (s.wx d v) := by
  unfold Frame State.wx; (repeat' split) <;> rfl

theorem frame_wa (s : State) (d : Nat) (r : AReg) : Frame addresses s (s.wa d r) := rfl

theorem scalarWritten_wx (s : State) (d : BitVec 5) (v : Word) : ScalarWritten d v s (s.wx d v) :=
  ⟨fun n => rx_wx s d n v, hiddenBank_wx s d v⟩

theorem completed_of_quiet_end {s u : State} (hr : u.c.sys.retired = s.c.sys.retired) (hp : u.c.pc = s.c.pc)
    (hl : u.c.lc = s.c.lc) (hd : u.c.desc = s.c.desc) (hv : u.c.vloop = s.c.vloop) (hf : u.c.sys.ffs = s.c.sys.ffs) :
    Completed s (Machine.complete u) := by
  have h := complete_completed u
  simp only [Completed, LoopsAfter, levelOver, reached, turner, nextStrip, vloopTurns, inStrip, insideVloop, turnerAmong, again, atLast,
    State.rlc, State.rdesc, hr, hp, hl, hd, hv, hf] at h ⊢
  exact h

/-- What `quiet` keeps, field by field, for the context. -/
theorem quiet_c_eq {s t : State} (h : quiet s = quiet t) {α : Type} (f : State → α) (hf : ∀ u, f (quiet u) = f u) : f s = f t := by
  rw [← hf s, ← hf t, h]

@[simp] theorem complete_rx (s : State) (n : BitVec 5) : (complete s).rx n = s.rx n :=
  quiet_c_eq (quiet_complete s) (fun u => u.rx n) fun _ => rfl
@[simp] theorem complete_hiddenBank (s : State) : hiddenBank (complete s) = hiddenBank s :=
  quiet_c_eq (quiet_complete s) hiddenBank fun _ => rfl
@[simp] theorem complete_ra (s : State) (n : Nat) : (complete s).ra n = s.ra n :=
  quiet_c_eq (quiet_complete s) (fun u => u.ra n) fun _ => rfl
@[simp] theorem complete_mem (s : State) : (complete s).mem = s.mem :=
  quiet_c_eq (quiet_complete s) (fun u => u.mem) fun _ => rfl

end Sys2Proof.Machine
end

