-- ==== Sys2Proof/Laws/Words.lean ====
section
/-!
SUPPORT. How a word begins and ends: AP words with and without a payload (R70), words that only compute, supervisor words (R99), and what
taking a trap or an arrival and returning from them write (R108, R109, R114, R115).
-/

namespace Sys2Proof.Machine

@[simp] theorem Res.out_ok (s : State) : (Res.ok () s : Res Unit).out = .next s := rfl
@[simp] theorem Res.out_trap (t : TrapInfo) (s : State) : (Res.trap t s : Res Unit).out = .next (takeTrap t s) := rfl
@[simp] theorem Res.out_wait (n : Nat) (s : State) : (Res.wait n s : Res Unit).out = .next { s with c := { s.c with wait := n } } := rfl
@[simp] theorem Res.bind_ok {α β : Type} (a : α) (s : State) (k : α → State → Res β) : (Res.ok a s).bind k = k a s := rfl
@[simp] theorem Res.bind_trap {α β : Type} (t : TrapInfo) (s : State) (k : α → State → Res β) : (Res.trap t s : Res α).bind k = .trap t s := rfl
@[simp] theorem Res.bind_wait {α β : Type} (n : Nat) (s : State) (k : α → State → Res β) : (Res.wait n s : Res α).bind k = .wait n s := rfl

/-- However a word's effect ends, a next state follows. -/
theorem Res.out_next (r : Res Unit) : ∃ t, r.out = .next t := by cases r <;> exact ⟨_, rfl⟩

/-- An AP word with no payload pending has its effect. -/
theorem apWord_ready {s : State} (k : State → Res Unit) (h : ApReady s) : apWord s k = (k s).out := by unfold apWord; rw [if_neg (by simp [h])]

/-- An AP word takes ILLEGAL_INSN where a payload is pending for it (R70). -/
theorem apWord_pending {s : State} (k : State → Res Unit) (h : s.c.pfxLive = true) : apWord s k = .next (takeTrap (s.illegal true) s) := by
  unfold apWord; rw [if_pos h]

/-- An AP word always answers a next state. -/
theorem apWord_next (s : State) (k : State → Res Unit) : ∃ t, apWord s k = .next t := by
  unfold apWord
  split
  · exact ⟨_, rfl⟩
  · exact Res.out_next _

/-- A word that only computes leaves its result, completed. -/
theorem apPure_ready {s : State} (k : State → State) (h : ApReady s) : apPure s k = .next (complete (k s)) := apWord_ready _ h

/-- A word that only writes a scalar register: the register, the frame and the end of the word at once. -/
theorem apPure_wx {s : State} (d : BitVec 5) (v : Word) (h : ApReady s) :
    ∃ t, apPure s (fun s => s.wx d v) = .next t ∧ ScalarWritten d v s t ∧ Frame scalars s t ∧ Completed s t := by
  refine ⟨_, apPure_ready _ h, ⟨fun n => ?_, ?_⟩, (frame_wx s d v).complete apart_scalars, ?_⟩
  · rw [complete_rx]; exact rx_wx s d n v
  · rw [complete_hiddenBank]; exact hiddenBank_wx s d v
  · refine completed_of_quiet_end ?_ ?_ ?_ ?_ ?_ ?_ <;> (unfold State.wx; (repeat' split) <;> rfl)

/-- A supervisor word at supervisor level has its effect. -/
theorem apSuper_ready {s : State} (k : State → Res Unit) (h : ApReady s) (hp : s.prv = true) : apSuper s k = (k s).out := by
  unfold apSuper; rw [apWord_ready _ h]; simp [hp]

/-- A supervisor word at user level takes PRIV and does nothing else (R99). -/
theorem apSuper_user {s : State} (k : State → Res Unit) (h : ApReady s) (hp : s.prv = false) :
    apSuper s k = .next (takeTrap (s.privTrap true) s) := by
  unfold apSuper; rw [apWord_ready _ h]; simp [hp]

/-! Bits of a word. -/

theorem setBit_getLsbD (w : Word) (i j : Nat) (b : Bool) (hj : j < 64) : (setBit w i b).getLsbD j = if j = i then b else w.getLsbD j := by
  unfold setBit
  cases b <;> by_cases h : i = j
  · subst h; simp
  · simp [hj, Ne.symm h]
  · subst h; simp [hj]
  · simp [hj, Ne.symm h]

/-! Matrix issues that have begun complete (R243): they change memory, counters and the race records, the scratch image, and the blocks
of control space; no register. -/

/-- A register write of control space leaves the context alone. -/
theorem opLwin_c (v : Word) (s : State) : (opLwin v s).c = s.c := by unfold opLwin writeStatus; dsimp only; (repeat' split) <;> rfl
theorem writeTrace_c (o : Nat) (v : Word) (s : State) : (writeTrace o v s).c = s.c := by unfold writeTrace; dsimp only; split <;> rfl
theorem writeFabric_else (o : Nat) (v : Word) (s : State) : ∃ f, writeFabric o v s = { s with fab := f } := by
  unfold writeFabric opFbitInv
  dsimp only
  split
  · exact ⟨_, rfl⟩
  · split
    · exact ⟨_, rfl⟩
    · exact ⟨_, rfl⟩
    · exact ⟨_, rfl⟩
    · split <;> exact ⟨_, rfl⟩
    · exact ⟨s.fab, rfl⟩
theorem writeFabric_c (o : Nat) (v : Word) (s : State) : (writeFabric o v s).c = s.c := by
  obtain ⟨f, h⟩ := writeFabric_else o v s
  rw [h]
theorem writeSlot_c (o : Nat) (v : Word) (s : State) : (writeSlot o v s).c = s.c := by
  unfold writeSlot writeBind; dsimp only; (repeat' split) <;> rfl
theorem writeDispatch_c (o : Nat) (v : Word) (s : State) : (writeDispatch o v s).c = s.c := by
  unfold writeDispatch writeOtherSlot
  (repeat' split) <;> first | exact opLwin_c _ _ | exact writeSlot_c _ _ _ | rfl
theorem ctrlSet_c (off n v : Nat) (s : State) : (ctrlSet off n v s).c = s.c := by
  unfold ctrlSet superWrite
  dsimp only
  split
  · split
    · rw [writeTrace_c]
    · rw [writeFabric_c]
    · split
      · rw [writeDispatch_c]
      · rfl
  · rfl

theorem ctrlStore_c (off n v : Nat) (s : State) : (ctrlStore off n v s).c = s.c := ctrlSet_c _ _ _ _

/-- The second context differs from the first in the scratch image and the matrix state alone. -/
def ImageOnly (c d : Context) : Prop := ∃ m mat, d = { c with scratch := m, mat := mat }

theorem ImageOnly.refl (c : Context) : ImageOnly c c := ⟨c.scratch, c.mat, rfl⟩
theorem ImageOnly.trans {a b c : Context} (h : ImageOnly a b) (g : ImageOnly b c) : ImageOnly a c := by
  obtain ⟨_, _, rfl⟩ := h
  obtain ⟨m, mat, rfl⟩ := g
  exact ⟨m, mat, rfl⟩

theorem putBytes_image (s : State) (loc : Nat) (bs : List Byte) : ImageOnly s.c (putBytes s loc bs).c := by
  unfold putBytes
  split
  · exact .refl _
  · exact ⟨_, s.c.mat, rfl⟩

theorem ctrlPut_c (n off : Nat) (bs : List Byte) (s : State) : (ctrlPut n off bs s).c = s.c := by
  induction n generalizing off bs s with
  | zero => rfl
  | succ n ih => unfold ctrlPut; dsimp only; split; · rfl
                 rw [ih, ctrlStore_c]

theorem busPut_image (s : State) (loc : Nat) (bs : List Byte) : ImageOnly s.c (busPut s loc bs).c := by
  unfold busPut
  split
  · rw [ctrlPut_c]; exact .refl _
  · exact putBytes_image (clearCounters s loc bs.length) loc bs

theorem counterAdd_image (s : State) (loc amount : Nat) (h : List (Path × List Nat)) : ImageOnly s.c (counterAdd s loc amount h).c := by
  unfold counterAdd
  dsimp only
  split
  · show ImageOnly s.c (ctrlSet _ _ _ _).c
    rw [ctrlSet_c]; exact .refl _
  · exact putBytes_image _ _ _

theorem foldl_image {α : Type} (f : State → α → State) (hf : ∀ s a, ImageOnly s.c (f s a).c) (l : List α) (s : State) :
    ImageOnly s.c (l.foldl f s).c := by
  induction l generalizing s with
  | nil => exact .refl _
  | cons a r ih => exact (hf s a).trans (ih _)

theorem finishIssue_image (s : State) (i : MIssue) : ImageOnly s.c (finishIssue s i).c := by
  unfold finishIssue
  dsimp only
  have h1 := foldl_image (fun s w => if (ctrlOff w.1).isSome then s else putBytes (clearCounters s w.1 1) w.1 [w.2])
    (fun s w => by
      split
      · exact .refl _
      · exact putBytes_image (clearCounters s w.1 1) w.1 [w.2]) i.writes s
  have h2 := foldl_image (fun s (r : Nat × List Byte) => busPut s r.1 r.2) (fun s r => busPut_image s r.1 r.2)
  split
  · exact h1.trans (h2 _ _)
  · exact h1.trans ((h2 _ _).trans (counterAdd_image _ _ _ _))

theorem finishIssues_image (s : State) : ImageOnly s.c (finishIssues s).c := by
  unfold finishIssues
  split
  · exact .refl _
  · refine ImageOnly.trans (foldl_image _ finishIssue_image _ s) ⟨_, _, rfl⟩

/-- Without an issue that has begun nothing completes. -/
@[simp] theorem finishIssues_none (s : State) (h : s.c.mat.issues = []) : finishIssues s = s := by unfold finishIssues; rw [h]

/-- A field of the context that no issue writes. -/
theorem finishIssues_field {α : Type} (f : Context → α) (hf : ∀ c m mat, f { c with scratch := m, mat := mat } = f c) (s : State) :
    f (finishIssues s).c = f s.c := by
  obtain ⟨m, mat, h⟩ := finishIssues_image s
  rw [h, hf]

/-! Taking a trap (R108). -/

@[simp] theorem takeTrap_pc (t : TrapInfo) (s : State) : (takeTrap t s).c.pc = s.c.sys.tvec := finishIssues_field (·.sys.tvec) (fun _ _ _ => rfl) s
@[simp] theorem takeTrap_tpc (t : TrapInfo) (s : State) : (takeTrap t s).c.sys.tpc = t.tpc := rfl
@[simp] theorem takeTrap_tcause (t : TrapInfo) (s : State) : (takeTrap t s).c.sys.tcause = tcauseOf t := rfl
@[simp] theorem takeTrap_tval (t : TrapInfo) (s : State) : (takeTrap t s).c.sys.tval = t.tval := rfl
@[simp] theorem takeTrap_taux0 (t : TrapInfo) (s : State) : (takeTrap t s).c.sys.taux0 = t.taux0 := rfl
@[simp] theorem takeTrap_taux1 (t : TrapInfo) (s : State) : (takeTrap t s).c.sys.taux1 = t.taux1 := rfl
@[simp] theorem takeTrap_x (t : TrapInfo) (s : State) : (takeTrap t s).c.x = s.c.x := finishIssues_field (·.x) (fun _ _ _ => rfl) s
@[simp] theorem takeTrap_xArr (t : TrapInfo) (s : State) : (takeTrap t s).c.xArr = s.c.xArr := finishIssues_field (·.xArr) (fun _ _ _ => rfl) s
@[simp] theorem takeTrap_a (t : TrapInfo) (s : State) : (takeTrap t s).c.a = s.c.a := finishIssues_field (·.a) (fun _ _ _ => rfl) s
@[simp] theorem takeTrap_d (t : TrapInfo) (s : State) : (takeTrap t s).c.d = s.c.d := finishIssues_field (·.d) (fun _ _ _ => rfl) s
@[simp] theorem takeTrap_q (t : TrapInfo) (s : State) : (takeTrap t s).c.q = s.c.q := finishIssues_field (·.q) (fun _ _ _ => rfl) s
@[simp] theorem takeTrap_v (t : TrapInfo) (s : State) : (takeTrap t s).c.v = s.c.v := finishIssues_field (·.v) (fun _ _ _ => rfl) s
@[simp] theorem takeTrap_vtag (t : TrapInfo) (s : State) : (takeTrap t s).c.vtag = s.c.vtag := finishIssues_field (·.vtag) (fun _ _ _ => rfl) s
@[simp] theorem takeTrap_p (t : TrapInfo) (s : State) : (takeTrap t s).c.p = s.c.p := finishIssues_field (·.p) (fun _ _ _ => rfl) s
@[simp] theorem takeTrap_k (t : TrapInfo) (s : State) : (takeTrap t s).c.k = s.c.k := finishIssues_field (·.k) (fun _ _ _ => rfl) s
@[simp] theorem takeTrap_z (t : TrapInfo) (s : State) : (takeTrap t s).c.z = s.c.z := finishIssues_field (·.z) (fun _ _ _ => rfl) s
@[simp] theorem takeTrap_lc (t : TrapInfo) (s : State) : (takeTrap t s).c.lc = s.c.lc := finishIssues_field (·.lc) (fun _ _ _ => rfl) s
@[simp] theorem takeTrap_desc (t : TrapInfo) (s : State) : (takeTrap t s).c.desc = s.c.desc := finishIssues_field (·.desc) (fun _ _ _ => rfl) s
@[simp] theorem takeTrap_vloop (t : TrapInfo) (s : State) : (takeTrap t s).c.vloop = s.c.vloop := finishIssues_field (·.vloop) (fun _ _ _ => rfl) s
@[simp] theorem takeTrap_sbuf (t : TrapInfo) (s : State) : (takeTrap t s).c.sbuf = s.c.sbuf := finishIssues_field (·.sbuf) (fun _ _ _ => rfl) s
@[simp] theorem takeTrap_fpctl (t : TrapInfo) (s : State) : (takeTrap t s).c.sys.fpctl = s.c.sys.fpctl :=
  finishIssues_field (·.sys.fpctl) (fun _ _ _ => rfl) s

/-- Memory after a trap: the issues that had begun have written theirs. -/
theorem takeTrap_mem (t : TrapInfo) (s : State) : (takeTrap t s).mem = (finishIssues s).mem := rfl

/-- A trap where no matrix issue has begun is its entry alone. -/
theorem takeTrap_idle (t : TrapInfo) (s : State) (h : s.c.mat.issues = []) : takeTrap t s = enterTrap t s := by
  unfold takeTrap; rw [finishIssues_none _ h]

/-- STATUS after a trap: PRV is 1, PPRV holds what PRV was, and every other bit is as it was. -/
theorem takeTrap_status (t : TrapInfo) (s : State) (j : Nat) (hj : j < 64) :
    (takeTrap t s).c.sys.status.getLsbD j = if j = 0 then true else if j = 1 then s.prv else s.c.sys.status.getLsbD j := by
  have hs : (finishIssues s).c.sys.status = s.c.sys.status := finishIssues_field (·.sys.status) (fun _ _ _ => rfl) s
  have hp : (finishIssues s).prv = s.prv := by unfold State.prv; rw [hs]
  show (setBit (setBit (finishIssues s).c.sys.status 1 (finishIssues s).prv) 0 true).getLsbD j = _
  rw [setBit_getLsbD _ _ _ _ hj, setBit_getLsbD _ _ _ _ hj, hs, hp]

/-! Taking an arrival (R114). -/

@[simp] theorem takeArrival_pc (s : State) : (takeArrival s).c.pc = s.c.sys.avec := finishIssues_field (·.sys.avec) (fun _ _ _ => rfl) s
@[simp] theorem takeArrival_arpc (s : State) : (takeArrival s).c.sys.arpc = s.c.pc := finishIssues_field (·.pc) (fun _ _ _ => rfl) s
@[simp] theorem takeArrival_x (s : State) : (takeArrival s).c.x = s.c.x := finishIssues_field (·.x) (fun _ _ _ => rfl) s
@[simp] theorem takeArrival_xArr (s : State) : (takeArrival s).c.xArr = s.c.xArr := finishIssues_field (·.xArr) (fun _ _ _ => rfl) s
@[simp] theorem takeArrival_a (s : State) : (takeArrival s).c.a = s.c.a := finishIssues_field (·.a) (fun _ _ _ => rfl) s
@[simp] theorem takeArrival_v (s : State) : (takeArrival s).c.v = s.c.v := finishIssues_field (·.v) (fun _ _ _ => rfl) s
@[simp] theorem takeArrival_tpc (s : State) : (takeArrival s).c.sys.tpc = s.c.sys.tpc := finishIssues_field (·.sys.tpc) (fun _ _ _ => rfl) s
@[simp] theorem takeArrival_arrivals (s : State) : (takeArrival s).c.arrivals = s.c.arrivals - 1 :=
  congrArg (· - 1) (finishIssues_field (·.arrivals) (fun _ _ _ => rfl) s)

/-- Memory after an arrival: the issues that had begun have written theirs (R114, R243). -/
theorem takeArrival_mem (s : State) : (takeArrival s).mem = (finishIssues s).mem := rfl

/-- STATUS after an arrival is taken: AIN is 1 and every other bit is as it was. -/
theorem takeArrival_status (s : State) (j : Nat) (hj : j < 64) :
    (takeArrival s).c.sys.status.getLsbD j = if j = 4 then true else s.c.sys.status.getLsbD j := by
  have hs : (finishIssues s).c.sys.status = s.c.sys.status := finishIssues_field (·.sys.status) (fun _ _ _ => rfl) s
  exact (setBit_getLsbD _ _ _ _ hj).trans (by rw [hs])

/-! Returning (R71, R109, R115). -/

/-- The second state differs from the first in the convoy, the transient results, the pending payload and its bit of STATUS, and in the
interrupted levels. -/
def LevelOnly (s t : State) : Prop :=
  ∃ convoy windows bypass salt levels live st, t = { s with c := { s.c with
    convoy := convoy, windows := windows, bypass := bypass, replaySalt := salt, levels := levels, pfxLive := live
    sys := { s.c.sys with status := st } } } ∧ ∀ j < 64, j ≠ 2 → st.getLsbD j = s.c.sys.status.getLsbD j

/-- A return may drop PFXP and changes no other bit of STATUS. -/
theorem resumePfx_only (p : Word) (x : Option Word) (s : State) : LevelOnly s (resumePfx p x s) := by
  unfold resumePfx
  split
  · exact ⟨s.c.convoy, s.c.windows, s.c.bypass, s.c.replaySalt, s.c.levels, true, s.c.sys.status, rfl, fun _ _ _ => rfl⟩
  · exact ⟨s.c.convoy, s.c.windows, s.c.bypass, s.c.replaySalt, s.c.levels, false, _, rfl,
      fun j hj h2 => by rw [setBit_getLsbD _ _ _ _ hj, if_neg h2]⟩

theorem popLevel_only (p : Bool) (x : Word) (s : State) : LevelOnly s (popLevel p x s) := by
  unfold popLevel
  split
  all_goals
    obtain ⟨convoy, windows, bypass, salt, levels, live, st, h, hj⟩ := resumePfx_only x _ _
    exact ⟨convoy, windows, bypass, salt, levels, live, st, h, hj⟩

theorem LevelOnly.field {α : Type} {s t : State} (h : LevelOnly s t) (f : State → α)
    (hf : ∀ (s : State) convoy windows bypass salt levels live st, f { s with c := { s.c with
      convoy := convoy, windows := windows, bypass := bypass, replaySalt := salt, levels := levels, pfxLive := live
      sys := { s.c.sys with status := st } } } = f s) : f t = f s := by
  obtain ⟨convoy, windows, bypass, salt, levels, live, st, rfl, -⟩ := h
  exact hf ..

theorem LevelOnly.status {s t : State} (h : LevelOnly s t) (j : Nat) (hj : j < 64) (h2 : j ≠ 2) :
    t.c.sys.status.getLsbD j = s.c.sys.status.getLsbD j := by
  obtain ⟨convoy, windows, bypass, salt, levels, live, st, rfl, hs⟩ := h
  exact hs j hj h2

/-- The return point changes the channels, the reports and the replay alone. -/
theorem returnPoint_else (s : State) : ∃ chan remote flt rep replay, (returnPoint s).2 =
    { s with c := { s.c with chan := chan, remote := remote, lastFlt := flt, lastRep := rep, replay := replay } } := by
  unfold returnPoint
  split
  · exact ⟨_, s.c.remote, none, s.c.lastRep, none, rfl⟩
  · split
    · exact ⟨s.c.chan, _, s.c.lastFlt, none, none, rfl⟩
    · exact ⟨s.c.chan, s.c.remote, s.c.lastFlt, s.c.lastRep, some s.c.sys.tpc, rfl⟩

/-- Where a return goes, and what it keeps. -/
theorem trapReturn_field {α : Type} (f : State → α)
    (hl : ∀ (s : State) convoy windows bypass salt levels live st, f { s with c := { s.c with
      convoy := convoy, windows := windows, bypass := bypass, replaySalt := salt, levels := levels, pfxLive := live
      sys := { s.c.sys with status := st } } } = f s)
    (s : State) (v : α)
    (h : f { (retire (returnPoint s).2).withStatus (setBit (setBit (retire (returnPoint s).2).c.sys.status 0 s.pprv) 1 false) with
      c := { ((retire (returnPoint s).2).withStatus (setBit (setBit (retire (returnPoint s).2).c.sys.status 0 s.pprv) 1 false)).c with
        pc := (returnPoint s).1, exempt := true } } = v) : f (trapReturn s) = v :=
  ((popLevel_only _ _ _).field f hl).trans h

@[simp] theorem trapReturn_pc (s : State) : (trapReturn s).c.pc = (returnPoint s).1 :=
  trapReturn_field (·.c.pc) (fun _ _ _ _ _ _ _ _ => rfl) s _ rfl
@[simp] theorem trapReturn_mem (s : State) : (trapReturn s).mem = s.mem := by
  obtain ⟨_, _, _, _, _, h⟩ := returnPoint_else s
  exact trapReturn_field (·.mem) (fun _ _ _ _ _ _ _ _ => rfl) s _ (by rw [h]; rfl)
@[simp] theorem trapReturn_x (s : State) : (trapReturn s).c.x = s.c.x := by
  obtain ⟨_, _, _, _, _, h⟩ := returnPoint_else s
  exact trapReturn_field (·.c.x) (fun _ _ _ _ _ _ _ _ => rfl) s _ (by rw [h]; rfl)
@[simp] theorem trapReturn_a (s : State) : (trapReturn s).c.a = s.c.a := by
  obtain ⟨_, _, _, _, _, h⟩ := returnPoint_else s
  exact trapReturn_field (·.c.a) (fun _ _ _ _ _ _ _ _ => rfl) s _ (by rw [h]; rfl)
@[simp] theorem trapReturn_v (s : State) : (trapReturn s).c.v = s.c.v := by
  obtain ⟨_, _, _, _, _, h⟩ := returnPoint_else s
  exact trapReturn_field (·.c.v) (fun _ _ _ _ _ _ _ _ => rfl) s _ (by rw [h]; rfl)

/-- STATUS after a trap return: PRV takes PPRV, PPRV is 0, and every other bit but PFXP is as it was. -/
theorem trapReturn_status (s : State) (j : Nat) (hj : j < 64) (h2 : j ≠ 2) :
    (trapReturn s).c.sys.status.getLsbD j = if j = 0 then s.pprv else if j = 1 then false else s.c.sys.status.getLsbD j := by
  obtain ⟨_, _, _, _, _, h⟩ := returnPoint_else s
  refine ((popLevel_only _ _ _).status j hj h2).trans ?_
  show (setBit (setBit (returnPoint s).2.c.sys.status 0 s.pprv) 1 false).getLsbD j = _
  rw [setBit_getLsbD _ _ _ _ hj, setBit_getLsbD _ _ _ _ hj, h]
  by_cases h0 : j = 0
  · subst h0; simp
  · simp [h0]

@[simp] theorem arrivalReturn_pc (s : State) : (arrivalReturn s).c.pc = s.c.sys.arpc :=
  (popLevel_only _ _ _).field (·.c.pc) fun _ _ _ _ _ _ _ _ => rfl
@[simp] theorem arrivalReturn_mem (s : State) : (arrivalReturn s).mem = s.mem :=
  (popLevel_only _ _ _).field (·.mem) fun _ _ _ _ _ _ _ _ => rfl

end Sys2Proof.Machine
end

