-- ==== Sys2Proof/Laws/Access.lean ====
section
/-!
SUPPORT. What one access on the CORE path can change (R37, R41, R45, R46, R286, R288), however it ends: the A and D bits in memory, the cached
translations, the fabric's state, the accesses answered "moved", the race records and what `.rlx` reads have seen; no register.
-/

namespace Sys2Proof.Machine

/-- The state that a result leaves. -/
def Res.state {α : Type} : Res α → State
  | .ok _ s => s
  | .trap _ s => s
  | .wait _ s => s

/-- The second state differs from the first in what an access can change. -/
def AccessOnly (s u : State) : Prop :=
  ∃ mem tlb fab moved recs next seen,
    u = { s with mem := mem, tlb := tlb, fab := fab, recs := recs, nextRec := next, c := { s.c with moved := moved, seen := seen } }

theorem AccessOnly.refl (s : State) : AccessOnly s s := ⟨s.mem, s.tlb, s.fab, s.c.moved, s.recs, s.nextRec, s.c.seen, rfl⟩

theorem AccessOnly.trans {s t u : State} (h : AccessOnly s t) (g : AccessOnly t u) : AccessOnly s u := by
  obtain ⟨_, _, _, _, _, _, _, rfl⟩ := h
  obtain ⟨mem, tlb, fab, moved, recs, next, seen, rfl⟩ := g
  exact ⟨mem, tlb, fab, moved, recs, next, seen, rfl⟩

/-- An access changes no field of the context but the list of accesses answered "moved" and what `.rlx` reads have seen. -/
theorem AccessOnly.c {s u : State} (h : AccessOnly s u) : ∃ moved seen, u.c = { s.c with moved := moved, seen := seen } := by
  obtain ⟨_, _, _, moved, _, _, seen, rfl⟩ := h
  exact ⟨moved, seen, rfl⟩

theorem cacheLeaf_only (s : State) (va : Nat) (e : Word) (size entry : Nat) : AccessOnly s (cacheLeaf s va e size entry) :=
  ⟨s.mem, _, s.fab, s.c.moved, s.recs, s.nextRec, s.c.seen, rfl⟩

theorem setAD_only (s : State) (va : Nat) (e : Word) (size entry : Nat) (acc : Access) : AccessOnly s (setAD s va e size entry acc) := by
  have hw : ∀ m e', AccessOnly s (cacheLeaf { s with mem := m } va e' size entry) :=
    fun m e' => ⟨m, _, s.fab, s.c.moved, s.recs, s.nextRec, s.c.seen, rfl⟩
  unfold setAD
  generalize (setBit (if acc.write then setBit e 5 true else e) 4 true) = e'
  by_cases he : e' = e
  · simpa [he] using cacheLeaf_only s va e size entry
  · simpa [he] using hw _ e'

theorem translate_only (s : State) (va : Word) (n : Nat) (acc : Access) : AccessOnly s (translate s va n acc).2 := by
  unfold translate
  dsimp only
  split
  · exact .refl s
  · split
    · exact .refl s
    · exact .refl s
    · split
      · exact cacheLeaf_only _ _ _ _ _
      · split
        · split <;> exact setAD_only _ _ _ _ _ _
        · exact setAD_only _ _ _ _ _ _

/-- The gate changes the fabric's state, the list of accesses answered "moved" and the cached translations alone. -/
def GateOnly (s u : State) : Prop := ∃ tlb fab moved, u = { s with tlb := tlb, fab := fab, c := { s.c with moved := moved } }

theorem GateOnly.refl (s : State) : GateOnly s s := ⟨s.tlb, s.fab, s.c.moved, rfl⟩

theorem GateOnly.trans {s t u : State} (h : GateOnly s t) (g : GateOnly t u) : GateOnly s u := by
  obtain ⟨_, _, _, rfl⟩ := h
  obtain ⟨tlb, fab, moved, rfl⟩ := g
  exact ⟨tlb, fab, moved, rfl⟩

theorem GateOnly.access {s u : State} (h : GateOnly s u) : AccessOnly s u ∧ u.mem = s.mem := by
  obtain ⟨tlb, fab, moved, rfl⟩ := h
  exact ⟨⟨s.mem, tlb, fab, moved, s.recs, s.nextRec, s.c.seen, rfl⟩, rfl⟩

theorem fab_gate (s : State) (f : Fabric) : GateOnly s { s with fab := f } := ⟨s.tlb, f, s.c.moved, rfl⟩

theorem sendMsg_gate (m : FabMsg) (s : State) : GateOnly s (sendMsg m s) := by
  unfold sendMsg
  split
  · exact fab_gate s _
  · exact .refl s

theorem endMoved_gate (s : State) (who : Agent) (va : Word) : GateOnly s (endMoved s who va) := by
  unfold endMoved
  split
  · exact .refl s
  · exact ⟨s.tlb, s.fab, _, rfl⟩

theorem noteMoved_gate (s : State) (who : Agent) (va : Word) (t : TrapInfo) : GateOnly s (noteMoved s who va t) := by
  unfold noteMoved dropPage
  dsimp only
  split
  · exact ⟨_, s.fab, s.c.moved, rfl⟩
  · exact ⟨_, s.fab, _, rfl⟩

theorem gateAnswer_gate (who : Agent) (s : State) (va : Word) (x : Xlat) (wr : Bool) (r : AckResult) (t : TrapInfo) :
    GateOnly s (gateAnswer who s va x wr r t).state := by
  unfold gateAnswer
  dsimp only
  split
  · exact fab_gate s _
  · exact fab_gate s _
  · exact (fab_gate s _).trans (noteMoved_gate _ _ _ _)
  · exact fab_gate s _

theorem remoteGate_gate (who : Agent) (s : State) (va : Word) (x : Xlat) (n : Nat) (wr : Bool) (t : TrapInfo) :
    GateOnly s (remoteGate who s va x n wr t).state := by
  have hok := endMoved_gate s who va
  have home : GateOnly s (if x.home != 0 || (holdersOf s (x.loc / 128) wr).isEmpty then Res.ok () (endMoved s who va)
      else if canRecall s (x.loc / 128) wr then .wait 8 (recallLine s (x.loc / 128) wr)
      else .trap (nackTrap t va 3) (dropRecall s (x.loc / 128)) : Res Unit).state := by
    split
    · exact hok
    · split <;> exact fab_gate s _
  unfold remoteGate
  dsimp only
  split
  · exact .refl s
  split
  · exact .refl s
  split
  · exact hok
  split
  · exact home
  split
  · exact hok
  split
  · exact .refl s
  split
  · exact gateAnswer_gate ..
  split
  · exact hok
  split
  · exact .refl s
  split
  · exact sendMsg_gate _ s
  · exact (sendMsg_gate _ s).trans (noteMoved_gate ..)
  · exact (sendMsg_gate _ s).trans (fab_gate _ _)

theorem noteSeen_only (s : State) (loc n : Nat) : AccessOnly s (noteSeen s loc n) := by
  unfold noteSeen
  dsimp only
  split
  · exact .refl s
  · exact ⟨s.mem, s.tlb, s.fab, s.c.moved, s.recs, s.nextRec, _, rfl⟩

/-- What an access that has passed its checks records. -/
theorem recorded_only (s : State) (k : AccKind) (rlx rd : Bool) (loc n sector : Nat) (pc : Word) :
    let u := if rlx then (if k == .read then noteSeen s loc n else s) else if rd then addRecord s .core k sector pc else s
    AccessOnly s u ∧ u.mem = s.mem := by
  have hn : (noteSeen s loc n).mem = s.mem := by unfold noteSeen; dsimp only; split <;> rfl
  dsimp only
  split
  · split
    · exact ⟨noteSeen_only _ _ _, hn⟩
    · exact ⟨.refl s, rfl⟩
  · split
    · exact ⟨⟨s.mem, s.tlb, s.fab, s.c.moved, _, _, s.c.seen, rfl⟩, rfl⟩
    · exact ⟨.refl s, rfl⟩

/-- However an access on the CORE path ends, it has changed nothing else, and memory only as its translation did. -/
theorem coreAccess_after (s : State) (va : Word) (n : Nat) (k : AccKind) (rlx : Bool) (t : TrapInfo) :
    ∃ u, u = (translate s va n { write := AccKind.isWrite k, fetch := false, user := !s.prv }).2 ∧
      AccessOnly u (coreAccess s va n k rlx t).state ∧ (coreAccess s va n k rlx t).state.mem = u.mem := by
  refine ⟨_, rfl, ?_⟩
  unfold coreAccess
  dsimp only
  generalize translate s va n _ = x
  obtain ⟨x, s1⟩ := x
  cases x with
  | error c => exact ⟨.refl _, rfl⟩
  | ok x =>
    dsimp only
    obtain ⟨ha, hm⟩ := (remoteGate_gate .core s1 va x n (AccKind.isWrite k) t).access
    generalize remoteGate .core s1 va x n (AccKind.isWrite k) t = r at ha hm ⊢
    cases r with
    | trap i s2 => exact ⟨ha, hm⟩
    | wait i s2 => exact ⟨ha, hm⟩
    | ok a s2 =>
      rw [Res.bind_ok]
      split
      · exact ⟨ha, hm⟩
      · split
        · exact ⟨ha, hm⟩
        · obtain ⟨hb, hc⟩ := recorded_only s2 k rlx x.rd x.loc n (sectorOf s2 x.loc) s2.c.pc
          exact ⟨ha.trans hb, hc.trans hm⟩

theorem coreAccess_only (s : State) (va : Word) (n : Nat) (k : AccKind) (rlx : Bool) (t : TrapInfo) :
    AccessOnly s (coreAccess s va n k rlx t).state := by
  obtain ⟨u, rfl, h, -⟩ := coreAccess_after s va n k rlx t
  exact (translate_only s va n _).trans h

/-- However an access on the CORE path ends, memory keeps its canonical form. -/
theorem coreAccess_mem_wf (s : State) (va : Word) (n : Nat) (k : AccKind) (rlx : Bool) (t : TrapInfo) (h : s.mem.wf = true) :
    (coreAccess s va n k rlx t).state.mem.wf = true := by
  obtain ⟨u, rfl, -, hm⟩ := coreAccess_after s va n k rlx t
  rw [hm]
  exact translate_mem_wf _ _ _ _ h

end Sys2Proof.Machine
end

