-- ==== Sys2Proof/Laws/Elements.lean ====
section
/-!
SUPPORT. The laws of elements in register images (R17, R183): an element written is what a read of it sees, and no other element changes.
-/

namespace Sys2Proof.Machine

/-- The widths that a vector operand can have (R182, R183). -/
def elemWidth (w : Nat) : Prop := w = 4 ∨ w = 8 ∨ w = 16 ∨ w = 32 ∨ w = 64

theorem setBits_getLsbD (img : VReg) (w pos v j : Nat) (hj : j < 4096) :
    (setBits img w pos v).getLsbD j = if pos ≤ j ∧ j < pos + w then v.testBit (j - pos) else img.getLsbD j := by
  unfold setBits
  simp only [BitVec.getLsbD_or, BitVec.getLsbD_and, BitVec.getLsbD_not, BitVec.getLsbD_ofNat, hj, decide_true, Bool.true_and,
    ← Nat.shiftLeft_eq, Nat.testBit_shiftLeft, Nat.testBit_two_pow_sub_one, Nat.testBit_mod_two_pow]
  by_cases h1 : pos ≤ j
  · by_cases h2 : j < pos + w
    · have h3 : j - pos < w := by omega
      simp [h1, h2, h3]
    · have h3 : ¬ j - pos < w := by omega
      simp [h1, h2, h3]
  · simp [h1]

theorem elemBit_bound {w rot i : Nat} (hw : elemWidth w) (hi : i < 4096 / w) : elemBit w rot i + w ≤ 4096 := by
  unfold elemBit
  rcases hw with rfl | rfl | rfl | rfl | rfl <;> omega

theorem elemBit_apart {w rot i j : Nat} (hw : elemWidth w) (hi : i < 4096 / w) (hj : j < 4096 / w) (hne : i ≠ j) :
    elemBit w rot i + w ≤ elemBit w rot j ∨ elemBit w rot j + w ≤ elemBit w rot i := by
  unfold elemBit
  by_cases h : (i + rot) % 64 = (j + rot) % 64
  · have : i / 64 < j / 64 ∨ j / 64 < i / 64 := by omega
    rw [h]
    rcases hw with rfl | rfl | rfl | rfl | rfl <;> omega
  · have h1 : w * (i / 64) + w ≤ 64 := by rcases hw with rfl | rfl | rfl | rfl | rfl <;> omega
    have h2 : w * (j / 64) + w ≤ 64 := by rcases hw with rfl | rfl | rfl | rfl | rfl <;> omega
    omega

theorem extract_setBits_same (img : VReg) (w pos v : Nat) (h : pos + w ≤ 4096) :
    ((setBits img w pos v).extractLsb' pos w).toNat = v % 2 ^ w := by
  rw [← BitVec.toNat_ofNat v w]
  congr 1
  apply BitVec.eq_of_getLsbD_eq
  intro j hj
  rw [BitVec.getLsbD_extractLsb', setBits_getLsbD _ _ _ _ _ (by omega), if_pos (by omega), BitVec.getLsbD_ofNat]
  simp [hj]

theorem extract_setBits_other (img : VReg) (w pos v q : Nat) (hq : q + w ≤ 4096) (h : q + w ≤ pos ∨ pos + w ≤ q) :
    (setBits img w pos v).extractLsb' q w = img.extractLsb' q w := by
  apply BitVec.eq_of_getLsbD_eq
  intro j hj
  rw [BitVec.getLsbD_extractLsb', BitVec.getLsbD_extractLsb', setBits_getLsbD _ _ _ _ _ (by omega), if_neg (by omega)]

theorem elemWidth_pos {w : Nat} (hw : elemWidth w) : 0 < 4096 / w := by
  rcases hw with rfl | rfl | rfl | rfl | rfl <;> decide

@[simp] theorem setElem_length (imgs : List VReg) (w rot e v : Nat) : (setElem imgs w rot e v).length = imgs.length := by simp [setElem]

/-- A read of an element after an element is set. -/
theorem elemAt_setElem (imgs : List VReg) (w rot e v i : Nat) (hw : elemWidth w) (hi : i / (4096 / w) < imgs.length) :
    elemAt (setElem imgs w rot e v) w rot i = if i = e then v % 2 ^ w else elemAt imgs w rot i := by
  have hk := elemWidth_pos hw
  have hm (x : Nat) : x % (4096 / w) < 4096 / w := Nat.mod_lt _ hk
  unfold elemAt setElem
  simp only [List.getD_eq_getElem?_getD, List.getElem?_modify]
  by_cases hr : e / (4096 / w) = i / (4096 / w)
  · obtain ⟨img, himg⟩ : ∃ img, imgs[i / (4096 / w)]? = some img := ⟨_, List.getElem?_eq_getElem (by omega)⟩
    simp only [hr, himg, Option.map_eq_map, Option.map_some, if_true, Option.getD_some]
    by_cases h : i = e
    · subst h
      rw [if_pos rfl]
      exact extract_setBits_same _ _ _ _ (elemBit_bound hw (hm i))
    · rw [if_neg h, extract_setBits_other _ _ _ _ _ (elemBit_bound hw (hm i))]
      refine elemBit_apart hw (hm i) (hm e) fun hc => h ?_
      rw [← Nat.div_add_mod i (4096 / w), ← Nat.div_add_mod e (4096 / w), hr, hc]
  · have h : i ≠ e := fun h => hr (by rw [h])
    rw [if_neg h]
    cases imgs[i / (4096 / w)]? <;> simp [hr]

/-- The elements an element function gives, and the flags it sets, over a list of elements. -/
theorem foldl_setElem (f : Nat → Nat × Flags) (w rot : Nat) (hw : elemWidth w) (es : List Nat) (imgs : List VReg) (fl : Flags) :
    let r := es.foldl (fun (acc : List VReg × Flags) e => let r := f e; (setElem acc.1 w rot e r.1, acc.2 ||| r.2)) (imgs, fl)
    r.1.length = imgs.length ∧ r.2 = es.foldl (fun acc e => acc ||| (f e).2) fl ∧
      ∀ i, i / (4096 / w) < imgs.length → elemAt r.1 w rot i = if i ∈ es then (f i).1 % 2 ^ w else elemAt imgs w rot i := by
  induction es generalizing imgs fl with
  | nil => simp
  | cons e es ih =>
    obtain ⟨h1, h2, h3⟩ := ih (setElem imgs w rot e (f e).1) (fl ||| (f e).2)
    refine ⟨by simpa using h1, h2, fun i hlt => ?_⟩
    rw [List.foldl_cons]
    refine (h3 i (by simpa using hlt)).trans ?_
    rw [elemAt_setElem _ _ _ _ _ _ hw hlt]
    by_cases hi : i ∈ es
    · simp [hi]
    · by_cases h : i = e
      · subst h; simp [hi]
      · simp [hi, h]

/-! The register file. -/

@[simp] theorem writeV_v (n : Nat) (img : VReg) (t : Tag) (s : State) : (writeV n img t s).c.v = upd s.c.v n img := rfl
@[simp] theorem writeV_vtag (n : Nat) (img : VReg) (t : Tag) (s : State) : (writeV n img t s).c.vtag = upd s.c.vtag n t := rfl

/-- The file after a group is written. -/
theorem writeGroup_file (res : Result) (reg n : Nat) (s : State) :
    (n < reg ∨ reg + res.length ≤ n → nth (writeGroup reg res s).c.v n 0 = nth s.c.v n 0 ∧
      nth (writeGroup reg res s).c.vtag n .general = nth s.c.vtag n .general) ∧
    (reg ≤ n → n < 32 → ∀ x, res[n - reg]? = some x → nth (writeGroup reg res s).c.v n 0 = x.1 ∧
      nth (writeGroup reg res s).c.vtag n .general = x.2) := by
  induction res generalizing reg s with
  | nil => simp [writeGroup]
  | cons p res ih =>
    obtain ⟨img, t⟩ := p
    obtain ⟨h1, h2⟩ := ih (reg + 1) (writeV reg img t s)
    constructor
    · intro h
      simp only [List.length_cons] at h
      obtain ⟨a, b⟩ := h1 (by omega)
      simp only [writeGroup]
      rw [a, b]
      simp only [writeV_v, writeV_vtag]
      exact ⟨nth_upd_other _ _ _ _ _ (by omega), nth_upd_other _ _ _ _ _ (by omega)⟩
    · intro hr hn x hx
      simp only [writeGroup]
      by_cases he : reg = n
      · subst he
        rw [Nat.sub_self] at hx
        obtain rfl : (img, t) = x := by simpa using hx
        obtain ⟨a, b⟩ := h1 (by omega)
        rw [a, b]
        exact ⟨nth_upd_same _ _ _ _ hn, nth_upd_same _ _ _ _ hn⟩
      · rw [show n - reg = (n - (reg + 1)) + 1 by omega, List.getElem?_cons_succ] at hx
        exact h2 (by omega) hn x hx

end Sys2Proof.Machine
end

