-- ==== Sys2Proof/Laws/EpWords.lean ====
section
/-!
SUPPORT. What an element-wise word does (R69, R73, R183, R188): `elementwise_result` says all of it once.
-/

namespace Sys2Proof.Machine

/-! VLMAX and the registers of an operand (R182, R183). -/

/-- VLMAX is 0 or a power of two, and at least 128. -/
theorem vlmax_pow (v : Word) : ∃ k, 7 ≤ k ∧ vlmaxOf v = 2 ^ k := by
  have hg : field v 8 2 < 4 := by unfold field; exact (v.extractLsb' 8 2).isLt
  have hw : ∀ f : BitVec 4, plainWidth f = 4 ∨ plainWidth f = 8 ∨ plainWidth f = 16 ∨ plainWidth f = 32 := by decide
  have hb : ∀ b, blockWidth b = 4 ∨ blockWidth b = 8 := fun b => by unfold blockWidth; split <;> simp
  have key : ∀ g < 4, ∀ w, w = 4 ∨ w = 8 ∨ w = 16 ∨ w = 32 → ∃ k, 7 ≤ k ∧ 2 ^ g * 4096 / w = 2 ^ k := by
    intro g hg w h
    rcases h with rfl | rfl | rfl | rfl
    · exact ⟨g + 10, by omega, by rw [Nat.pow_add]; omega⟩
    · exact ⟨g + 9, by omega, by rw [Nat.pow_add]; omega⟩
    · exact ⟨g + 8, by omega, by rw [Nat.pow_add]; omega⟩
    · exact ⟨g + 7, by omega, by rw [Nat.pow_add]; omega⟩
  unfold vlmaxOf
  dsimp only
  split
  · exact key _ hg _ (hw _)
  · exact key _ hg _ (by rcases hb (field v 12 4 - 1) with h | h <;> simp [h])

/-- An element below VLMAX lies in one of the operand's registers. -/
theorem elem_in_regs (v : Word) (w e : Nat) (hw : elemWidth w) (he : e < vlmaxOf v) : e / (4096 / w) < regCount (vlmaxOf v) w := by
  obtain ⟨k, hk, h⟩ := vlmax_pow v
  rw [h] at he ⊢
  have key : ∀ j, ∃ q, 2 ^ (7 + j) = 128 * q ∧ (q = 1 ∨ q = 2 ∨ q = 4 ∨ q % 8 = 0) := by
    intro j
    refine ⟨2 ^ j, by rw [Nat.pow_add], ?_⟩
    match j with
    | 0 => simp
    | 1 => simp
    | 2 => simp
    | j + 3 => right; right; right; rw [Nat.pow_add]; omega
  obtain ⟨j, rfl⟩ : ∃ j, k = 7 + j := ⟨k - 7, by omega⟩
  obtain ⟨q, hq, hc⟩ := key j
  rw [hq] at he ⊢
  unfold regCount
  rcases hw with rfl | rfl | rfl | rfl | rfl <;> omega

@[simp] theorem mem_regs (vlmax : Nat) (o : Opnd) (n : Nat) : n ∈ o.regs vlmax ↔ o.reg ≤ n ∧ n < o.reg + regCount vlmax o.width := by
  simp only [Opnd.regs, List.mem_map, List.mem_range]
  constructor
  · rintro ⟨i, hi, rfl⟩; omega
  · intro h; exact ⟨n - o.reg, by omega, by omega⟩

@[simp] theorem regs_length (vlmax : Nat) (o : Opnd) : (o.regs vlmax).length = regCount vlmax o.width := by simp [Opnd.regs]

/-- An element of an operand, through the function that its registers are read with. -/
theorem elemAt_regs (o : Opnd) (vlmax rot e : Nat) (g : Nat → VReg) (h : e / (4096 / o.width) < regCount vlmax o.width) :
    elemAt ((o.regs vlmax).map g) o.width rot e =
      ((g (o.reg + e / (4096 / o.width))).extractLsb' (elemBit o.width rot (e % (4096 / o.width))) o.width).toNat := by
  unfold elemAt
  congr 2
  simp [Opnd.regs, List.getD_eq_getElem?_getD, h]

/-- An element of a list of images. -/
theorem elemAt_list (imgs : List VReg) (w rot e : Nat) (x : VReg) (h : imgs[e / (4096 / w)]? = some x) :
    elemAt imgs w rot e = (x.extractLsb' (elemBit w rot (e % (4096 / w))) w).toNat := by
  unfold elemAt
  congr 2
  simp [List.getD_eq_getElem?_getD, h]

/-! The results of a word. -/

/-- The registers of a state that has the results written. -/
structure Wrote (w : EpWord) (d : Opnd) (res : Result) (s t : State) : Prop where
  direct : w.t = false → ∀ n, d.reg ≤ n → n < 32 → ∀ x, res[n - d.reg]? = some x →
    nth t.c.v n 0 = x.1 ∧ nth t.c.vtag n .general = x.2
  copy : ∀ c, copyOf s d = some c → ∀ n, c.reg ≤ n → n < 32 → ∀ x, res[n - c.reg]? = some x →
    nth t.c.v n 0 = x.1 ∧ nth t.c.vtag n .general = x.2
  rest : ∀ n, n ∉ fileRegs s w d → nth t.c.v n 0 = nth s.c.v n 0 ∧ nth t.c.vtag n .general = nth s.c.vtag n .general

/-- A destination and its copy are whole groups that share no register (R69, R70, R183). -/
theorem copy_apart {s : State} {w : EpWord} {d c : Opnd} (hd : w.dst = some d) (ho : operandsOk (vlmaxNow s) w = true)
    (hp : payloadOk s w = true) (hc : copyOf s d = some c) :
    c.width = d.width ∧ (c.reg + regCount (vlmaxNow s) d.width ≤ d.reg ∨ d.reg + regCount (vlmaxNow s) d.width ≤ c.reg) := by
  unfold copyOf at hc
  unfold payloadOk at hp
  cases hy : payload s with
  | none => rw [hy] at hc; simp at hc
  | some y =>
    rw [hy] at hc hp
    by_cases hcpe : y.cpe = true
    · simp only [hcpe, if_true, Option.some.injEq] at hc
      simp only [hcpe, if_true, hd, Bool.and_eq_true, bne_iff_ne, ne_eq, beq_iff_eq] at hp
      have ha : d.reg % regCount (vlmaxNow s) d.width = 0 := by
        simp only [operandsOk, EpWord.operands, hd, List.cons_append, List.nil_append, List.all_cons, Bool.and_eq_true,
          Opnd.aligned, beq_iff_eq] at ho
        exact ho.1.1
      subst hc
      refine ⟨rfl, ?_⟩
      obtain ⟨⟨-, -⟩, ⟨hne, hm⟩, -⟩ := hp
      show y.cpv + _ ≤ _ ∨ _ ≤ y.cpv
      have hn : 0 < regCount (vlmaxNow s) d.width := by unfold regCount; omega
      generalize regCount (vlmaxNow s) d.width = n at *
      obtain ⟨p, hp⟩ := Nat.dvd_of_mod_eq_zero hm
      obtain ⟨q, hq⟩ := Nat.dvd_of_mod_eq_zero ha
      rw [hp, hq] at hne ⊢
      rcases Nat.lt_trichotomy p q with h | h | h
      · left; calc n * p + n = n * (p + 1) := by rw [Nat.mul_add, Nat.mul_one]
          _ ≤ n * q := Nat.mul_le_mul_left n h
      · exact absurd (by rw [h]) hne
      · right; calc n * q + n = n * (q + 1) := by rw [Nat.mul_add, Nat.mul_one]
          _ ≤ n * p := Nat.mul_le_mul_left n h
    · simp [hcpe] at hc

/-- Noting transient results as written changes the marks alone. -/
theorem noteTransient_else (reg : Nat) (res : Result) (s : State) :
    ∃ dirty, noteTransient reg res s = { s with c := { s.c with dirty := dirty } } := by
  unfold noteTransient
  generalize res.zipIdx = l
  induction l generalizing s with
  | nil => exact ⟨s.c.dirty, rfl⟩
  | cons i r ih =>
    obtain ⟨dirty, h⟩ := ih (s.mark (.win s.c.levels.length (reg + i.2)))
    exact ⟨dirty, h⟩

@[simp] theorem noteTransient_c_v (reg : Nat) (res : Result) (s : State) : (noteTransient reg res s).c.v = s.c.v := by
  obtain ⟨_, h⟩ := noteTransient_else reg res s
  rw [h]

@[simp] theorem noteTransient_c_vtag (reg : Nat) (res : Result) (s : State) : (noteTransient reg res s).c.vtag = s.c.vtag := by
  obtain ⟨_, h⟩ := noteTransient_else reg res s
  rw [h]

/-- The file after a word's results are written, where every register of the destination has its result. -/
theorem writeResults_wrote {s : State} {w : EpWord} {d : Opnd} {res : Result} (hd : w.dst = some d)
    (ho : operandsOk (vlmaxNow s) w = true) (hp : payloadOk s w = true) (hl : res.length = regCount (vlmaxNow s) d.width) :
    Wrote w d res s (writeResults w res s) := by
  have hcopy : ∀ c, copyOf s d = some c → c.width = d.width ∧
      (c.reg + regCount (vlmaxNow s) d.width ≤ d.reg ∨ d.reg + regCount (vlmaxNow s) d.width ≤ c.reg) :=
    fun c hc => copy_apart hd ho hp hc
  -- what is written before the copy
  let s1 := if w.t then noteTransient d.reg res s else writeGroup d.reg res s
  have hs1 : writeResults w res s = (match copyOf s d with | some c => writeGroup c.reg res s1 | none => s1) := by
    unfold writeResults copyOf
    rw [hd]
    cases payload s with
    | none => rfl
    | some y => dsimp only; split <;> rfl
  have h1 : w.t = false → ∀ n, d.reg ≤ n → n < 32 → ∀ x, res[n - d.reg]? = some x →
      nth s1.c.v n 0 = x.1 ∧ nth s1.c.vtag n .general = x.2 := fun ht => by
    simp only [s1, ht, Bool.false_eq_true, if_false]
    exact fun n => (writeGroup_file res d.reg n s).2
  have hr : ∀ n, n ∉ (if w.t then [] else d.regs (vlmaxNow s)) →
      nth s1.c.v n 0 = nth s.c.v n 0 ∧ nth s1.c.vtag n .general = nth s.c.vtag n .general := by
    intro n hn
    by_cases ht : w.t = true
    · simp [s1, ht]
    · simp only [ht, Bool.false_eq_true, if_false, mem_regs] at hn
      simp only [s1, ht, Bool.false_eq_true, if_false]
      exact (writeGroup_file res d.reg n s).1 (by omega)
  rw [hs1]
  cases hc : copyOf s d with
  | none =>
    refine ⟨h1, fun c h => by simp [hc] at h, fun n hn => hr n fun h => hn ?_⟩
    simp only [fileRegs, hc, List.append_nil]
    exact h
  | some c =>
    obtain ⟨hw, ha⟩ := hcopy c hc
    refine ⟨fun ht n hn h32 x hx => ?_, fun c' hc' => ?_, fun n hn => ?_⟩
    · have hb : n - d.reg < res.length := (List.getElem?_eq_some_iff.1 hx).1
      obtain ⟨a, b⟩ := (writeGroup_file res c.reg n s1).1 (by omega)
      exact ⟨a.trans (h1 ht n hn h32 x hx).1, b.trans (h1 ht n hn h32 x hx).2⟩
    · obtain rfl : c = c' := by simpa [hc] using hc'
      exact fun n => (writeGroup_file res c.reg n s1).2
    · have hn1 : n ∉ (if w.t then [] else d.regs (vlmaxNow s)) := fun h => hn (List.mem_append_left _ h)
      have hn2 : n ∉ c.regs (vlmaxNow s) := fun h => hn (by simp only [fileRegs, hc]; exact List.mem_append_right _ h)
      rw [mem_regs, hw] at hn2
      obtain ⟨a, b⟩ := (writeGroup_file res c.reg n s1).1 (by omega)
      exact ⟨a.trans (hr n hn1).1, b.trans (hr n hn1).2⟩

/-! The end of an EP-class word. -/

theorem clearPayload_v (s : State) : (clearPayload s).c.v = s.c.v := by unfold clearPayload; split <;> rfl
theorem clearPayload_vtag (s : State) : (clearPayload s).c.vtag = s.c.vtag := by unfold clearPayload; split <;> rfl
theorem clearPayload_windows (s : State) : (clearPayload s).c.windows = s.c.windows := by unfold clearPayload; split <;> rfl

@[simp] theorem complete_v (s : State) : (complete s).c.v = s.c.v := quiet_c_eq (quiet_complete s) (fun u => u.c.v) fun _ => rfl
@[simp] theorem complete_vtag (s : State) : (complete s).c.vtag = s.c.vtag :=
  quiet_c_eq (quiet_complete s) (fun u => u.c.vtag) fun _ => rfl
@[simp] theorem complete_windows (s : State) : (complete s).c.windows = s.c.windows :=
  quiet_c_eq (quiet_complete s) (fun u => u.c.windows) fun _ => rfl
@[simp] theorem complete_fpctl (s : State) : (complete s).c.sys.fpctl = s.c.sys.fpctl :=
  quiet_c_eq (quiet_complete s) (fun u => u.c.sys.fpctl) fun _ => rfl
@[simp] theorem complete_vfmt (s : State) : (complete s).c.sys.vfmt = s.c.sys.vfmt :=
  quiet_c_eq (quiet_complete s) (fun u => u.c.sys.vfmt) fun _ => rfl

/-- The writes of a group leave everything but the file and the marks as it was. -/
theorem writeGroup_else (res : Result) (reg : Nat) (s : State) :
    ∃ v tg dirty, writeGroup reg res s = { s with c := { s.c with v := v, vtag := tg, dirty := dirty } } := by
  induction res generalizing reg s with
  | nil => exact ⟨s.c.v, s.c.vtag, s.c.dirty, rfl⟩
  | cons p res ih =>
    obtain ⟨img, t⟩ := p
    obtain ⟨v, tg, dirty, h⟩ := ih (reg + 1) (writeV reg img t s)
    exact ⟨v, tg, dirty, h⟩

theorem writeResults_else (w : EpWord) (res : Result) (s : State) :
    ∃ v tg dirty, writeResults w res s = { s with c := { s.c with v := v, vtag := tg, dirty := dirty } } := by
  unfold writeResults
  cases w.dst with
  | none => exact ⟨_, _, _, rfl⟩
  | some d =>
    dsimp only
    have h0 : ∃ v tg dirty, (if w.t then noteTransient d.reg res s else writeGroup d.reg res s) = { s with c := { s.c with v := v, vtag := tg, dirty := dirty } } := by
      split
      · obtain ⟨dirty, h⟩ := noteTransient_else d.reg res s
        exact ⟨s.c.v, s.c.vtag, dirty, h⟩
      · exact writeGroup_else _ _ _
    cases payload s with
    | none => exact h0
    | some y =>
      dsimp only
      split
      · obtain ⟨v, tg, dirty, h⟩ := h0
        obtain ⟨v', tg', dirty', h'⟩ := writeGroup_else res y.cpv (if w.t then noteTransient d.reg res s else writeGroup d.reg res s)
        rw [h', h]
        exact ⟨v', tg', dirty', rfl⟩
      · exact h0

/-- The post edges change the happens-before sets and what waits to be joined, and nothing else. -/
theorem hJoin_else (l : List (Path × List Nat)) (s : State) : ∃ hb, hJoin s l = { s with c := { s.c with hb := hb } } := by
  induction l generalizing s with
  | nil => exact ⟨s.c.hb, rfl⟩
  | cons q r ih =>
    obtain ⟨p, ids⟩ := q
    obtain ⟨hb, h⟩ := ih { s with c := { s.c with hb := upd s.c.hb p.num (unionIds ids (nth s.c.hb p.num [])) } }
    exact ⟨hb, h⟩

theorem joinPosts_else (ns : List Nat) (s : State) :
    ∃ hb postR, joinPosts ns s = { s with c := { s.c with hb := hb, postR := postR } } := by
  unfold joinPosts
  dsimp only
  split
  · exact ⟨s.c.hb, s.c.postR, rfl⟩
  · obtain ⟨hb, h⟩ := hJoin_else (ns.flatMap fun n => nth s.c.postR n []) s
    rw [h]
    exact ⟨hb, _, rfl⟩

/-- What the end of an EP-class word writes into the context, beside its results. -/
theorem epSettle_else (w : EpWord) (res : Result) (s : State) : ∃ hb postR replay live e st,
    epSettle w res s = { writeResults w res s with c := { (writeResults w res s).c with
      convoy := convoyWith s w.cls, windows := windowsAfter s w res, bypass := [], hb := hb, postR := postR, replay := replay
      pfxLive := live, sys := { s.c.sys with estart := e, status := st } } } ∧
    setBit st 2 false = setBit s.c.sys.status 2 false := by
  obtain ⟨v, tg, dirty, hw⟩ := writeResults_else w res s
  unfold epSettle clearPayload
  dsimp only
  by_cases hr : replaying s = true
  · simp only [hr, if_true]
    obtain ⟨hb, postR, hj⟩ := joinPosts_else (w.readRegs (vlmaxNow s)) { writeResults w res s with c := { (writeResults w res s).c with
      convoy := convoyWith s w.cls, windows := windowsAfter s w res, bypass := [], replay := none
      sys := { (writeResults w res s).c.sys with estart := 0 } } }
    rw [hj, hw]
    split
    · exact ⟨hb, postR, none, false, 0, _, rfl, setBit_setBit _ _ _ _⟩
    · exact ⟨hb, postR, none, s.c.pfxLive, 0, s.c.sys.status, rfl, rfl⟩
  · simp only [hr, Bool.false_eq_true, if_false]
    obtain ⟨hb, postR, hj⟩ := joinPosts_else (w.readRegs (vlmaxNow s)) { writeResults w res s with c := { (writeResults w res s).c with
      convoy := convoyWith s w.cls, windows := windowsAfter s w res, bypass := [] } }
    rw [hj, hw]
    split
    · exact ⟨hb, postR, s.c.replay, false, s.c.sys.estart, _, rfl, setBit_setBit _ _ _ _⟩
    · exact ⟨hb, postR, s.c.replay, s.c.pfxLive, s.c.sys.estart, s.c.sys.status, rfl, rfl⟩

@[simp] theorem epSettle_v (w : EpWord) (res : Result) (s : State) : (epSettle w res s).c.v = (writeResults w res s).c.v := by
  obtain ⟨_, _, _, _, _, _, h, -⟩ := epSettle_else w res s
  rw [h]
@[simp] theorem epSettle_vtag (w : EpWord) (res : Result) (s : State) : (epSettle w res s).c.vtag = (writeResults w res s).c.vtag := by
  obtain ⟨_, _, _, _, _, _, h, -⟩ := epSettle_else w res s
  rw [h]
@[simp] theorem epSettle_windows (w : EpWord) (res : Result) (s : State) : (epSettle w res s).c.windows = windowsAfter s w res := by
  obtain ⟨_, _, _, _, _, _, h, -⟩ := epSettle_else w res s
  rw [h]

/-- The end of an EP-class word changes only what `vectors` takes out. -/
theorem frame_epSettle (w : EpWord) (res : Result) (s : State) : Frame vectors s (epSettle w res s) := by
  obtain ⟨v, tg, dirty, hw⟩ := writeResults_else w res s
  obtain ⟨hb, postR, replay, live, e, st, h, hs⟩ := epSettle_else w res s
  unfold Frame
  rw [h, hw]
  simp [quiet, vectors, epEnd, hs]

/-- What the end of an EP-class word keeps of the loops, RETIRED, PC and the flags. -/
structure Kept (s u : State) : Prop where
  retired : u.c.sys.retired = s.c.sys.retired
  pc : u.c.pc = s.c.pc
  lc : u.c.lc = s.c.lc
  desc : u.c.desc = s.c.desc
  vloop : u.c.vloop = s.c.vloop
  ffs : u.c.sys.ffs = s.c.sys.ffs
  fpctl : u.c.sys.fpctl = s.c.sys.fpctl
  vfmt : u.c.sys.vfmt = s.c.sys.vfmt

theorem kept_epSettle (w : EpWord) (res : Result) (s : State) : Kept s (epSettle w res s) := by
  obtain ⟨v, tg, dirty, hw⟩ := writeResults_else w res s
  obtain ⟨hb, postR, replay, live, e, st, h, -⟩ := epSettle_else w res s
  rw [h, hw]
  constructor <;> rfl

theorem Kept.completed {s u : State} (h : Kept s u) : Completed s (complete u) :=
  completed_of_quiet_end h.retired h.pc h.lc h.desc h.vloop h.ffs

/-! Flags (R84). -/

theorem orFlags_fpctl (f : Flags) (s : State) : (orFlags f s).c.sys.fpctl = s.c.sys.fpctl ||| f.zeroExtend 64 := by
  unfold orFlags
  split
  · rename_i h; simp [h]
  · rfl
@[simp] theorem orFlags_v (f : Flags) (s : State) : (orFlags f s).c.v = s.c.v := by unfold orFlags; split <;> rfl
@[simp] theorem orFlags_vtag (f : Flags) (s : State) : (orFlags f s).c.vtag = s.c.vtag := by unfold orFlags; split <;> rfl
@[simp] theorem orFlags_windows (f : Flags) (s : State) : (orFlags f s).c.windows = s.c.windows := by unfold orFlags; split <;> rfl
@[simp] theorem orFlags_vfmt (f : Flags) (s : State) : (orFlags f s).c.sys.vfmt = s.c.sys.vfmt := by unfold orFlags; split <;> rfl

theorem flags_masked (w : Word) (f : Flags) : (w ||| BitVec.setWidth 64 f) &&& 18446744073709551360#64 = w &&& 18446744073709551360#64 := by
  have hm : ∀ j < 8, (18446744073709551360#64).getLsbD j = false := by decide
  apply BitVec.eq_of_getLsbD_eq
  intro j hj
  simp only [BitVec.getLsbD_and, BitVec.getLsbD_or]
  by_cases h : j < 8
  · simp only [hm j h, Bool.and_false]
  · have : f.getLsbD j = false := BitVec.getLsbD_of_ge _ _ (by omega)
    simp [this]

/-- Flags lie in what `epEnd` takes out. -/
theorem frame_orFlags {s t : State} (f : Flags) (h : Frame vectors s t) : Frame vectors s (orFlags f t) := by
  unfold orFlags
  split
  · exact h
  · refine Eq.trans ?_ h
    simp [quiet, vectors, epEnd, State.withSys, flags_masked]

theorem completed_orFlags {s t : State} (f : Flags) (h : Completed s t) : Completed s (orFlags f t) := by
  unfold orFlags
  split
  · exact h
  · exact h

/-! Transient results (R73). -/

/-- A word with T = 1 leaves its results where its readers find them. -/
theorem readV_bypass {s t : State} {w : EpWord} {d : Opnd} {res : Result} (hd : w.dst = some d) (ht : w.t = true)
    (hw : t.c.windows = windowsAfter s w res) (n : Nat) (x : VReg × Tag) (hn : n ∈ d.regs (vlmaxNow s)) (hle : d.reg ≤ n)
    (hx : res[n - d.reg]? = some x) : readV t n = x := by
  unfold readV
  rw [hw]
  unfold windowsAfter
  simp only [hd, ht, if_true, List.findSome?_append, List.findSome?_cons, List.findSome?_nil]
  have hold : ∀ l : List Window, List.findSome? (fun v => v.regs.find? fun r => r.1 == n)
      ((l.map fun v => { v with
        consumed := v.consumed || v.touches (w.readRegs (vlmaxNow s))
        results := if (some d).isSome = true then v.results + 1 else v.results
        regs := v.regs.filter fun r => !(writeRegs s w).contains r.1 }).filter fun v => !v.regs.isEmpty) = none := by
    intro l
    rw [List.findSome?_eq_none_iff]
    intro v hv
    rw [List.mem_filter, List.mem_map] at hv
    obtain ⟨⟨u, -, rfl⟩, -⟩ := hv
    rw [List.find?_eq_none]
    intro r hr
    rw [List.mem_filter] at hr
    intro he
    have : r.1 = n := by simpa using he
    have hin : n ∈ writeRegs s w := by unfold writeRegs; rw [hd]; exact List.mem_append_left _ hn
    have := hr.2
    simp_all
  rw [hold]
  have hnew : ((res.zipIdx.map fun i => (d.reg + i.2, i.1.1, i.1.2)).find? fun r => r.1 == n) = some (n, x.1, x.2) := by
    have hgen : ∀ (l : Result) (k : Nat), k ≤ n - d.reg → l[n - d.reg - k]? = some x →
        (((l.zipIdx k).map fun i => (d.reg + i.2, i.1.1, i.1.2)).find? fun r => r.1 == n) = some (n, x.1, x.2) := by
      intro l
      induction l with
      | nil => intro k _ h; simp at h
      | cons p l ih =>
        intro k hk h
        simp only [List.zipIdx_cons, List.map_cons, List.find?_cons]
        by_cases he : d.reg + k = n
        · subst he
          have : d.reg + k - d.reg - k = 0 := by omega
          rw [this] at h
          obtain rfl : p = x := by simpa using h
          simp
        · have hne : (d.reg + k == n) = false := by simpa using he
          rw [hne]
          rw [show n - d.reg - k = (n - d.reg - (k + 1)) + 1 by omega, List.getElem?_cons_succ] at h
          exact ih (k + 1) (by omega) h
    exact hgen res 0 (by omega) (by simpa using hx)
  simp [hnew]

/-! Element-wise words (R188). -/

theorem mem_todo (s : State) (e : Nat) : e ∈ (epEnv s).todo ↔ acts s e = true := by
  simp only [EpEnv.todo, EpEnv.lives, acts, EpEnv.live, List.mem_filter, List.mem_range, decide_eq_true_eq, Bool.and_eq_true]

theorem finalTags_image (v : EpEnv) (imgs : List VReg) (tag : Nat → Tag) (i : Nat) (x : VReg) (h : imgs[i]? = some x) :
    ∃ t, (finalTags v imgs tag)[i]? = some (x, t) := by
  unfold finalTags
  rw [List.getElem?_map, List.getElem?_zipIdx, h]
  exact ⟨_, rfl⟩

theorem finalTags_length (v : EpEnv) (imgs : List VReg) (tag : Nat → Tag) : (finalTags v imgs tag).length = imgs.length := by
  simp [finalTags]

theorem baseImages_length (s : State) (w : EpWord) (d : Opnd) : (baseImages s w d).length = regCount (vlmaxNow s) d.width := by
  unfold baseImages
  split
  · rename_i h
    simp only [Bool.and_eq_true, beq_iff_eq] at h
    exact h.2
  · simp

/-- All that an element-wise word does, where its checks pass: each element it acts on takes its result, every
other element of the destination and every other register keeps its value, and the flags are the union of those the elements set. -/
theorem elementwise_result {s : State} {w : EpWord} {d : Opnd} {f : Nat → Nat × Flags} {tag : Nat → Tag} (hd : w.dst = some d)
    (hw : elemWidth d.width) (ho : operandsOk (vlmaxNow s) w = true) (hp : payloadOk s w = true) :
    VectorResult vectors w d (fun e => (f e).1) (unionFlags s fun e => (f e).2) s (elementwise w d f tag s) := by
  let v := epEnv s
  let r := mapElems v d (baseImages s w d) f
  let res := finalTags v r.1 tag
  obtain ⟨hlen, hfl, hel⟩ := foldl_setElem f d.width v.rot hw v.todo (baseImages s w d) 0
  change r.1.length = _ at hlen
  change r.2 = _ at hfl
  have hel : ∀ i, i / (4096 / d.width) < regCount (vlmaxNow s) d.width →
      elemAt r.1 d.width (rotNow s) i = if acts s i then (f i).1 % 2 ^ d.width else startElem s w d i := by
    intro i hi
    refine (hel i (by rw [baseImages_length]; exact hi)).trans ?_
    simp only [show v.todo = (epEnv s).todo from rfl, mem_todo]
    rfl
  rw [baseImages_length] at hlen
  have hres : res.length = regCount (vlmaxNow s) d.width := by rw [finalTags_length, hlen]
  have hwrote := writeResults_wrote (res := res) hd ho hp hres
  have ht : elementwise w d f tag s = orFlags r.2 (complete (epSettle w res s)) := rfl
  have hv : (elementwise w d f tag s).c.v = (writeResults w res s).c.v := by rw [ht]; simp
  have hvt : (elementwise w d f tag s).c.vtag = (writeResults w res s).c.vtag := by rw [ht]; simp
  have hwin : (elementwise w d f tag s).c.windows = windowsAfter s w res := by rw [ht]; simp
  have hvl' : vlmaxNow (elementwise w d f tag s) = vlmaxNow s := by
    unfold vlmaxNow; rw [ht]; simp [(kept_epSettle w res s).vfmt]
  have himg : ∀ e, e < vlmaxNow s → ∃ x t, r.1[e / (4096 / d.width)]? = some x ∧ res[e / (4096 / d.width)]? = some (x, t) ∧
      (x.extractLsb' (elemBit d.width (rotNow s) (e % (4096 / d.width))) d.width).toNat =
        if acts s e then (f e).1 % 2 ^ d.width else startElem s w d e := by
    intro e he
    have hlt : e / (4096 / d.width) < r.1.length := by rw [hlen]; exact elem_in_regs _ _ _ hw he
    have hx : r.1[e / (4096 / d.width)]? = some r.1[e / (4096 / d.width)] := List.getElem?_eq_getElem hlt
    obtain ⟨t, h⟩ := finalTags_image v r.1 tag _ _ hx
    exact ⟨_, t, hx, h, by rw [← hel e (elem_in_regs _ _ _ hw he), elemAt_list _ _ _ _ _ hx]⟩
  refine ⟨fun e he h32 => ?_, fun c hc e he h32 => ?_, fun n hn => ?_, ?_, ?_, ?_⟩
  · obtain ⟨x, t, -, hr, hx⟩ := himg e he
    have hlt : e / (4096 / d.width) < regCount (vlmaxNow s) d.width := elem_in_regs _ _ _ hw he
    unfold resultElem
    by_cases htt : w.t = true
    · rw [if_pos htt, readOpnd, hvl', elemAt_regs _ _ _ _ _ hlt,
        readV_bypass hd htt hwin _ (x, t) ((mem_regs _ _ _).2 ⟨Nat.le_add_right _ _, Nat.add_lt_add_left hlt _⟩) (Nat.le_add_right _ _)
          (by rw [Nat.add_sub_cancel_left]; exact hr)]
      exact hx
    · rw [if_neg htt, fileElem, elemAt_regs _ _ _ _ _ hlt, hv,
        (hwrote.direct (by simpa using htt) _ (Nat.le_add_right _ _) h32 (x, t) (by rw [Nat.add_sub_cancel_left]; exact hr)).1]
      exact hx
  · obtain ⟨x, t, -, hr, hx⟩ := himg e he
    obtain ⟨hcw, -⟩ := copy_apart hd ho hp hc
    have hlt : e / (4096 / d.width) < regCount (vlmaxNow s) d.width := elem_in_regs _ _ _ hw he
    rw [← hcw] at hlt h32 hr
    rw [fileElem, elemAt_regs _ _ _ _ _ hlt, hv, (hwrote.copy c hc _ (Nat.le_add_right _ _) h32 (x, t) (by rw [Nat.add_sub_cancel_left]; exact hr)).1, hcw]
    exact hx
  · rw [hv, hvt]; exact hwrote.rest n hn
  · rw [ht, orFlags_fpctl, complete_fpctl, (kept_epSettle w res s).fpctl, hfl]
    rfl
  · rw [ht]
    exact frame_orFlags _ ((frame_epSettle w res s).complete apart_vectors)
  · rw [ht]
    exact completed_orFlags _ (kept_epSettle w res s).completed

/-! The beginning of an EP-class word. -/

/-- The checks leave the state alone. -/
theorem epChecks_ok {w : EpWord} {s t : State} (h : epChecks w s = .ok () t) :
    t = s ∧ w.bad = false ∧ operandsOk (vlmaxNow s) w = true ∧ payloadOk s w = true := by
  unfold epChecks at h
  split at h
  · simp at h
  · rename_i hc
    simp only [Bool.or_eq_true, Bool.not_eq_true', not_or, Bool.not_eq_true, Bool.not_eq_false] at hc
    split at h
    · simp at h
    · split at h
      · simp at h
      · split at h
        · simp at h
        · simp only [Res.ok.injEq, true_and] at h
          exact ⟨h.symm, hc.1.1, hc.1.2, hc.2⟩

/-- A vector word that meets no check has its effect. -/
theorem epWord_ready {w : EpWord} {s : State} (k : State → Res Unit) (h : epReady w s = true) :
    epWord w s k = (k s).out ∧ w.bad = false ∧ operandsOk (vlmaxNow s) w = true ∧ payloadOk s w = true := by
  unfold epReady at h
  split at h
  · rename_i t ht
    obtain ⟨rfl, hb, ho, hp⟩ := epChecks_ok ht
    exact ⟨by unfold epWord; rw [ht], hb, ho, hp⟩
  · simp at h

/-- An EP-class word always answers a next state. -/
theorem epWord_next (w : EpWord) (s : State) (k : State → Res Unit) : ∃ t, epWord w s k = .next t := by
  unfold epWord
  split
  · exact Res.out_next _
  · exact ⟨_, rfl⟩
  · exact Res.out_next _

/-- Operand k's element e, as the element function of a word reads it. -/
theorem sources_at (s : State) (reads : List Opnd) (k e : Nat) (o : Opnd) (h : reads[k]? = some o) :
    sources s (epEnv s) reads k e = readElem s o e := by
  unfold sources readElem
  simp only [List.getElem?_map, h, Option.map_some]
  rfl

/-- An element-wise word that meets no check: what `elementwise_result` says of its element function on its operands. -/
theorem lanesWord_result {cls : EpClass} {t : BitVec 1} {d : Opnd} {reads : List Opnd}
    {f : EpEnv → (Nat → Nat → Nat) → Nat → Nat × Flags} {rule : TagRule} {s : State} (hw : elemWidth d.width)
    (h : epReady { cls := cls, t := t == 1#1, dst := some d, reads := reads } s = true) :
    ∃ u, lanesWord cls t d reads f rule s = .next u ∧
      VectorResult vectors { cls := cls, t := t == 1#1, dst := some d, reads := reads } d
        (fun e => (f (epEnv s) (sources s (epEnv s) reads) e).1)
        (unionFlags s fun e => (f (epEnv s) (sources s (epEnv s) reads) e).2) s u := by
  obtain ⟨hk, -, ho, hp⟩ := epWord_ready (fun s => .ok () (elementResult { cls := cls, t := t == 1#1, dst := some d, reads := reads } d f rule s)) h
  exact ⟨_, hk, elementwise_result rfl hw ho hp⟩

/-- The width of a plain format is an element width. -/
theorem elemWidth_plain (f : BitVec 4) : elemWidth (plainWidth f) := by revert f; unfold elemWidth; decide

/-- No element sets a flag. -/
theorem unionFlags_zero (s : State) : unionFlags s (fun _ => 0) = 0 := by
  unfold unionFlags
  induction (epEnv s).todo with
  | nil => rfl
  | cons e l ih =>
    have h0 : (0 : Flags) ||| (0 : Flags) = 0 := by decide
    show l.foldl _ ((0 : Flags) ||| (0 : Flags)) = 0
    rw [h0]
    exact ih

/-- A result is known by the low bits of each element and by its flags. -/
theorem vectorResult_congr {erase : Context → Context} {w : EpWord} {d : Opnd} {f g : Nat → Nat} {fl fl' : Flags} {s t : State}
    (h : VectorResult erase w d f fl s t) (hf : ∀ e, f e % 2 ^ d.width = g e % 2 ^ d.width) (hfl : fl = fl') :
    VectorResult erase w d g fl' s t := by
  subst hfl
  obtain ⟨h1, h2, h3⟩ := h
  exact ⟨fun e a b => by rw [h1 e a b, hf], fun c hc e a b => by rw [h2 c hc e a b, hf], h3⟩

end Sys2Proof.Machine
end

