-- ==== Sys2Proof/Laws/Sluice.lean ====
section
/-!
SUPPORT. Sluice is a bijection on the counter for every key (R94), and what follows of the digits of two positions.
-/

namespace Sys2Proof.Machine

theorem mulHiLo_low (c a : BitVec 32) : (mulHiLo c a).2 = c * a := by
  apply BitVec.eq_of_toNat_eq
  simp [mulHiLo, BitVec.toNat_mul]

theorem mul_left_inj_p {a b : BitVec 32} (h : 0xB5A39C6D#32 * a = 0xB5A39C6D#32 * b) : a = b := by
  have key : ∀ x : BitVec 32, 0xdcf0cd65#32 * (0xB5A39C6D#32 * x) = x := fun x => by
    rw [← BitVec.mul_assoc, show 0xdcf0cd65#32 * 0xB5A39C6D#32 = 1#32 from by decide, BitVec.one_mul]
  rw [← key a, h, key b]

theorem mul_left_inj_q {a b : BitVec 32} (h : 0xE0F15A27#32 * a = 0xE0F15A27#32 * b) : a = b := by
  have key : ∀ x : BitVec 32, 0x37107597#32 * (0xE0F15A27#32 * x) = x := fun x => by
    rw [← BitVec.mul_assoc, show 0x37107597#32 * 0xE0F15A27#32 = 1#32 from by decide, BitVec.one_mul]
  rw [← key a, h, key b]

theorem rotateLeft_inj {a b : BitVec 32} {n : Nat} (hn : n < 32) (h : a.rotateLeft n = b.rotateLeft n) : a = b := by
  apply BitVec.eq_of_getLsbD_eq
  intro i hi
  have e : ∀ x : BitVec 32, (x.rotateLeft n).getLsbD ((i + n) % 32) = x.getLsbD i := fun x => by
    rw [BitVec.getLsbD_rotateLeft, Nat.mod_eq_of_lt hn]
    by_cases hw : i + n < 32
    · rw [Nat.mod_eq_of_lt hw]
      simp [hw, show ¬ i + n < n by omega]
    · have : (i + n) % 32 = i + n - 32 := by omega
      rw [this]
      simp [show i + n - 32 < n by omega, show 32 - n + (i + n - 32) = i by omega]
  rw [← e a, h, e b]

/-- A round loses nothing. -/
theorem sluiceRound_inj {s t : SluiceState} (h : sluiceRound s = sluiceRound t) : s = t := by
  obtain ⟨a0, a1, a2, a3, ak, al⟩ := s
  obtain ⟨b0, b1, b2, b3, bk, bl⟩ := t
  simp only [sluiceRound, SluiceState.mk.injEq, mulHiLo_low] at h
  obtain ⟨h0, h1, h2, h3, h4, h5⟩ := h
  obtain rfl := mul_left_inj_q (rotateLeft_inj (by decide) h1)
  obtain rfl := mul_left_inj_p (rotateLeft_inj (by decide) h3)
  obtain rfl : ak = bk := by simpa using h4
  obtain rfl : al = bl := by simpa using h5
  obtain rfl : a1 = b1 := by simpa using h0
  obtain rfl : a3 = b3 := by simpa using h2
  rfl

theorem sluiceRounds_inj (n : Nat) {s t : SluiceState} (h : sluiceRounds n s = sluiceRounds n t) : s = t := by
  induction n generalizing s t with
  | zero => exact h
  | succ n ih => exact sluiceRound_inj (ih h)

/-- The key words go their own way. -/
theorem sluiceRounds_keys (n : Nat) {s t : SluiceState} (h0 : s.k0 = t.k0) (h1 : s.k1 = t.k1) :
    (sluiceRounds n s).k0 = (sluiceRounds n t).k0 ∧ (sluiceRounds n s).k1 = (sluiceRounds n t).k1 := by
  induction n generalizing s t with
  | zero => exact ⟨h0, h1⟩
  | succ n ih => exact ih (by simp [sluiceRound, h0]) (by simp [sluiceRound, h1])

/-- Two calls with one key, domain and salt give one result only for one index and one draw. -/
theorem sluice_inj {key : Word} {dom salt : Nat} {i j : Word} {m n : BitVec 32} (h : sluice key dom salt i m = sluice key dom salt j n) :
    i = j ∧ m = n := by
  unfold sluice at h
  dsimp only at h
  generalize hs : (SluiceState.mk m (i.extractLsb' 0 32) (i.extractLsb' 32 32) (BitVec.ofNat 32 (dom % 256 * 2 ^ 24 + salt % 2 ^ 24))
    (key.extractLsb' 0 32) (key.extractLsb' 32 32)) = s at h
  generalize ht : (SluiceState.mk n (j.extractLsb' 0 32) (j.extractLsb' 32 32) (BitVec.ofNat 32 (dom % 256 * 2 ^ 24 + salt % 2 ^ 24))
    (key.extractLsb' 0 32) (key.extractLsb' 32 32)) = t at h
  have hk := sluiceRounds_keys 10 (s := s) (t := t) (by rw [← hs, ← ht]) (by rw [← hs, ← ht])
  have he : sluiceRounds 10 s = sluiceRounds 10 t := by
    generalize sluiceRounds 10 s = a at h hk
    generalize sluiceRounds 10 t = b at h hk
    obtain ⟨a0, a1, a2, a3, ak, al⟩ := a
    obtain ⟨b0, b1, b2, b3, bk, bl⟩ := b
    dsimp only at h hk
    have hb : ∀ i < 128, (a3 ++ a2 ++ a1 ++ a0).getLsbD i = (b3 ++ b2 ++ b1 ++ b0).getLsbD i := fun i _ => by rw [h]
    simp only [BitVec.getLsbD_append] at hb
    have e0 : a0 = b0 := BitVec.eq_of_getLsbD_eq fun i hi => by have := hb i (by omega); simpa [hi] using this
    have e1 : a1 = b1 := BitVec.eq_of_getLsbD_eq fun i hi => by
      have := hb (i + 32) (by omega)
      simpa [hi, show ¬ i + 32 < 32 by omega] using this
    have e2 : a2 = b2 := BitVec.eq_of_getLsbD_eq fun i hi => by
      have := hb (i + 32 + 32) (by omega)
      simpa [hi, show ¬ i + 32 + 32 < 32 by omega, show ¬ i + 32 < 32 by omega] using this
    have e3 : a3 = b3 := BitVec.eq_of_getLsbD_eq fun i hi => by
      have := hb (i + 32 + 32 + 32) (by omega)
      simpa [hi, show ¬ i + 32 + 32 + 32 < 32 by omega, show ¬ i + 32 + 32 < 32 by omega, show ¬ i + 32 < 32 by omega] using this
    rw [e0, e1, e2, e3, hk.1, hk.2]
  have hst := sluiceRounds_inj 10 he
  rw [← hs, ← ht] at hst
  simp only [SluiceState.mk.injEq, and_true] at hst
  obtain ⟨hm, h1, h2⟩ := hst
  refine ⟨BitVec.eq_of_getLsbD_eq fun b hb => ?_, hm⟩
  by_cases hl : b < 32
  · have := congrArg (·.getLsbD b) h1
    simpa [BitVec.getLsbD_extractLsb', hl] using this
  · have := congrArg (·.getLsbD (b - 32)) h2
    simpa [BitVec.getLsbD_extractLsb', show b - 32 < 32 by omega, show 32 + (b - 32) = b by omega] using this

/-- The digits of two positions that the generator gives differ among the second 128 (R265, R275). -/
theorem digits_differ (seed : Word) (x y : ZElem) (h : x.pos ≠ y.pos) :
    ∃ n, 129 ≤ n ∧ n ≤ 256 ∧ x.digit seed n ≠ y.digit seed n := by
  apply Classical.byContradiction
  intro hn
  have he : sluice seed 1 0 x.pos 1#32 = sluice seed 1 0 y.pos 1#32 := by
    apply BitVec.eq_of_getLsbD_eq
    intro i hi
    have hd : x.digit seed (256 - i) = y.digit seed (256 - i) := by
      apply Classical.byContradiction
      intro hne
      exact hn ⟨256 - i, by omega, by omega, hne⟩
    unfold ZElem.digit genDigit at hd
    rw [if_neg (by omega), if_neg (by omega)] at hd
    rw [show (256 - i - 1) / 128 = 1 by omega, show 127 - (256 - i - 1) % 128 = i by omega] at hd
    exact hd
  exact h (sluice_inj he).1

end Sys2Proof.Machine
end

