-- ==== Sys2Proof/Tests/Slice0.lean ====
section
/-!
SUPPORT. The model's own tests: words written out from the encodings of the manual and the instructions they stand for, ill-formed
instructions that `Instr.wf` refuses, and for each obligation with hypotheses a state and operands that meet them.
-/

open Sys2Proof Sys2Proof.Machine Sys2Proof.Claims

namespace Sys2Proof.Tests

set_option Elab.async false

/-- Every word of the list decodes to the instruction beside it. -/
abbrev decodesTo (l : List (Nat × Instr)) : Prop := ∀ p ∈ l, decodeTableWord 32 p.1 = some p.2

/-! Words built from the fields of the opcode table, one or more for each row. -/

theorem test_words_pfx : decodesTo
    [(0x027A4000, .pfx 3 1 1 9)] := by decide

theorem test_words_alu_1 : decodesTo
    [(0x04112400, .add 1 2 9), (0x04511401, .sub 5 2 5), (0x04511C02, .and 5 2 7),
     (0x04210C03, .or 2 2 3), (0x04428C04, .xor 4 5 3), (0x04211C05, .andn 2 2 7),
     (0x04412406, .orn 4 2 9), (0x04511007, .sll 5 2 4), (0x04639C08, .srl 6 7 7),
     (0x04131C09, .sra 1 6 7), (0x0441100A, .rotl 4 2 4), (0x0413240B, .rotr 1 6 9),
     (0x0422180C, .slt 2 4 6), (0x04230C0D, .sltu 2 6 3), (0x04521C0E, .seq 5 4 7),
     (0x0473900F, .sne 7 7 4)] := by decide

theorem test_words_alu_2 : decodesTo
    [(0x04131C10, .min 1 6 7), (0x04619411, .max 6 3 5), (0x04132012, .minu 1 6 8),
     (0x04130C13, .maxu 1 6 3), (0x04519814, .adds 5 3 6), (0x04631815, .subs 6 6 6),
     (0x04721816, .addus 7 4 6), (0x04529417, .subus 5 5 5), (0x0431A418, .mul 3 3 9),
     (0x0423A419, .mulh 2 7 9), (0x04211C1A, .mulhu 2 2 7), (0x0433181B, .mulhsu 3 6 6),
     (0x0433981C, .div 3 7 6), (0x04330C1D, .divu 3 6 3), (0x0413181E, .rem 1 6 6),
     (0x0424141F, .remu 2 8 5)] := by decide

theorem test_words_alu_3 : decodesTo
    [(0x04229820, .addw 2 5 6), (0x04138C21, .subw 1 7 3), (0x04731C22, .sllw 7 6 7),
     (0x04741423, .srlw 7 8 5), (0x04339424, .sraw 3 7 5), (0x04529C25, .mulw 5 5 7),
     (0x04728030, .clz 7 5), (0x04140031, .ctz 1 8), (0x04120032, .popc 1 4),
     (0x04438033, .brev 4 7), (0x04610034, .sextb 6 2), (0x04138035, .sexth 1 7),
     (0x04620036, .sextw 6 4), (0x04630037, .zextw 6 6), (0x0403003E, .jr 6),
     (0x0472803F, .jalr 7 5)] := by decide

theorem test_words_alui : decodesTo
    [(0x06338006, .addi 3 7 6), (0x06621003, .andi 6 4 3), (0x06422004, .ori 4 4 4),
     (0x06513006, .xori 5 2 6), (0x0611C009, .slti 1 3 9), (0x0631D008, .sltiu 3 3 8),
     (0x0622E006, .slli 2 5 6), (0x0672E403, .srli 7 5 3), (0x0622E806, .srai 2 5 6),
     (0x06526C04, .rotri 5 4 4), (0x0672F009, .addiw 7 5 9)] := by decide

theorem test_words_lih : decodesTo
    [(0x08500004, .lih 5 4)] := by decide

theorem test_words_br : decodesTo
    [(0x0A060005, .beqz 6 5), (0x0A230007, .bnez 3 7), (0x0A440003, .bltz 4 3),
     (0x0A620002, .bgez 2 2), (0x0A820003, .bgtz 2 3), (0x0AA20007, .blez 2 7),
     (0x0AC00002, .bra 2)] := by decide

theorem test_words_jc : decodesTo
    [(0x0C000001, .j 1), (0x0D000004, .call 4)] := by decide

theorem test_words_loop : decodesTo
    [(0x0E940400, .loop 1 5 4)] := by decide

theorem test_words_ld : decodesTo
    [(0x10330003, .lb 3 3 3), (0x10242007, .lh 2 4 7), (0x10354007, .lw 3 5 7),
     (0x10326008, .ld 3 2 8), (0x10758007, .lbu 7 5 7), (0x1066A008, .lhu 6 6 8),
     (0x1014C009, .lwu 1 4 9), (0x1007E008, .pref 7 8)] := by decide

theorem test_words_st_1 : decodesTo
    [(0x12670007, .sb 6 7 7), (0x12442006, .sh 4 4 6), (0x12414006, .sw 4 1 6),
     (0x12646003, .sd 6 4 3), (0x1221A000, .atadd 2 1), (0x1224A200, .atand 2 4),
     (0x1221A400, .ator 2 1), (0x1235A600, .atxor 3 5), (0x1211A800, .atmin 1 1),
     (0x1215AA00, .atmax 1 5), (0x1225AC00, .atminu 2 5), (0x1213AE00, .atmaxu 1 3),
     (0x1251B000, .atswp 5 1), (0x1217B200, .atcas 1 7), (0x12258000, .ataddw 2 5),
     (0x12428200, .atandw 4 2)] := by decide

theorem test_words_st_2 : decodesTo
    [(0x12638400, .atorw 6 3), (0x12358600, .atxorw 3 5), (0x12348800, .atminw 3 4),
     (0x12118A00, .atmaxw 1 1), (0x12748C00, .atminuw 7 4), (0x12448E00, .atmaxuw 4 4),
     (0x12439000, .atswpw 4 3), (0x12129200, .atcasw 1 2)] := by decide

theorem test_words_ar_1 : decodesTo
    [(0x14139400, .amk 1 7 5), (0x14620001, .amov 6 4), (0x14442002, .aperm 4 8 8),
     (0x14230C03, .aadd 2 6 3), (0x14231404, .anar 2 6 5), (0x14239C05, .aset 2 7 7),
     (0x14141C06, .adiff 1 8 7), (0x14338008, .aget 3 7), (0x14710009, .agetb 7 2),
     (0x1464000A, .agetl 6 8), (0x1433000B, .agetp 3 6), (0x14319410, .dset 3 3 5),
     (0x14718011, .dgetl 7 3), (0x14720012, .dgets 7 4), (0x14120018, .mtlc 1 4),
     (0x14410019, .mflc 4 2)] := by decide

theorem test_words_ar_2 : decodesTo
    [(0x1421001A, .mflb 2 2), (0x1411801B, .mtlb 1 3)] := by decide

theorem test_words_qop : decodesTo
    [(0x16040002, .qw 4 2), (0x16220007, .qr 2 7), (0x16440003, .qbr 4 3),
     (0x16640007, .qbrz 4 7)] := by decide

theorem test_words_sync : decodesTo
    [(0x18000003, .bar 3), (0x18219007, .signal 2 3 7), (0x18422008, .waitc 4 4 8),
     (0x18003009, .fence 1 1), (0x18004007, .xfence 7), (0x18005000, .ifence)] := by decide

theorem test_words_sys : decodesTo
    [(0x1A000003, .trap 3), (0x1A001000, .tret), (0x1A002000, .aexit),
     (0x1A403004, .mfsr 4 4), (0x1A014007, .mtsr 2 7), (0x1A035002, .xinv 6 2)] := by decide

theorem test_words_cpy : decodesTo
    [(0x1C4423A0, .cpy 4 8 8 3 1 1), (0x1C200101, .cst 2 1), (0x1C000202, .cabt 2)] := by decide

theorem test_words_gth : decodesTo
    [(0x1E4196C5, .gth 4 3 5 2 1 1 5)] := by decide

theorem test_words_vi_1 : decodesTo
    [(0x21419606, .vadd 0 1 8 6 11 6), (0x214A5612, .vsub 0 1 9 9 11 2), (0x214A4E21, .vmul 0 1 9 9 7 1),
     (0xA1324A36, .vmulh 1 1 6 9 5 6), (0x21195244, .vadds 0 1 3 5 9 4), (0x214A1056, .vsubs 0 1 9 8 8 6),
     (0x21394A61, .vmin 0 1 7 5 5 1), (0x21415077, .vmax 0 1 8 5 8 7), (0x21294E85, .vand 0 1 5 5 7 5),
     (0xA139D692, .vor 1 1 7 7 11 2), (0xA14216A5, .vxor 1 1 8 8 11 5), (0x212212B1, .vandn 0 1 4 8 9 1),
     (0xA1220AC7, .vsll 1 1 4 8 5 7), (0x2121D2D6, .vsrl 0 1 4 7 9 6), (0x214212E5, .vsra 0 1 8 8 9 5),
     (0x21194CF3, .vrshr 0 1 3 5 6 3)] := by decide

theorem test_words_vi_2 : decodesTo
    [(0xA1418106, .vabs 1 1 8 6 6), (0x212A0115, .vneg 0 1 5 8 5), (0x2129C125, .vmov 0 1 5 7 5),
     (0xA1225333, .vmacc 1 1 4 9 9 3), (0x21300142, .vid 0 1 6 2), (0xA1311151, .vwmacc 1 1 6 4 8 1)] := by decide

theorem test_words_vf : decodesTo
    [(0xA278820F, .vfadd 1 0 15 2 1 15), (0xA333AC1F, .vfsub 1 1 6 14 22 15), (0xA3D52C2F, .vfmul 1 1 26 20 22 15),
     (0x23CE9C3F, .vfdiv 0 1 25 26 14 15), (0xA21B604E, .vfmin 1 0 3 13 16 14), (0xA3487C5D, .vfmax 1 1 9 1 30 13),
     (0xA327AE6F, .vfmacc 1 1 4 30 23 15), (0xA2ACD27D, .vfnmacc 1 0 21 19 9 13), (0x23DAC08D, .vfabs 0 1 27 11 13),
     (0x23A6809F, .vfneg 0 1 20 26 15), (0x225784AD, .vfwmacc 0 0 10 30 2 13)] := by decide

theorem test_words_vc : decodesTo
    [(0x2519D1B4, .vcvt 0 1 3 7 4 6 3 2), (0xA42B1FFB, .vcvtBlock 1 0 5 12 7 15 3 5)] := by decide

theorem test_words_vp : decodesTo
    [(0x26115401, .vcmpeq 0 2 5 10 1), (0x2621CE13, .vcmpne 0 4 7 7 3), (0x2611D222, .vcmplt 0 2 7 9 2),
     (0x2620CA32, .vcmple 0 4 3 5 2), (0xA6114B00, .pand 1 2 5 5), (0xA6314D10, .por 1 6 5 6),
     (0xA6198B20, .pxor 1 3 6 5), (0x26190D30, .pandn 0 3 4 6), (0x26318140, .pnot 0 6 6),
     (0xA6100150, .pset 1 2), (0xA6380160, .pclr 1 7)] := by decide

theorem test_words_vx_1 : decodesTo
    [(0xA87ABA00, .vxVadd 1 0 15 10 29 0 0), (0xA957EE15, .vxVsub 1 1 10 31 23 0 5), (0xA8861422, .vrsub 1 0 16 24 10 0 2),
     (0x28CCC633, .vxVmul 0 0 25 19 3 0 3), (0x28562041, .vxVmin 0 0 10 24 16 0 1), (0x287A5A57, .vxVmax 0 0 15 9 13 0 7),
     (0x2914CC63, .vxVand 0 1 2 19 6 0 3), (0x299C3C70, .vxVor 0 1 19 16 30 0 0), (0xA8C26285, .vxVxor 1 0 24 9 17 0 5),
     (0xA90EF490, .vxVsll 1 1 1 27 26 0 0), (0x281AEAA0, .vxVsrl 0 0 3 11 21 0 0), (0xA87E16B1, .vxVsra 1 0 15 24 11 0 1),
     (0xA90308C4, .vxVrshr 1 1 0 12 4 0 4), (0xA99802DE, .vbcast 1 1 19 1 0 14), (0xA82D46E3, .vxVwmacc 1 0 5 21 3 0 3),
     (0xA8AD9AF0, .vxVmacc 1 0 21 22 13 0 0)] := by decide

theorem test_words_vx_2 : decodesTo
    [(0xA98F540D, .vxVfadd 1 1 17 29 10 0 13), (0x2967361D, .vxVfsub 0 1 12 28 27 0 13), (0xA8CD242E, .vfrsub 1 0 25 20 18 0 14),
     (0xA89BA03D, .vxVfmul 1 0 19 14 16 0 13), (0x292E264F, .vxVfmin 0 1 5 24 19 0 15), (0x28D4145E, .vxVfmax 0 0 26 16 10 0 14),
     (0x2900026D, .vxVfmacc 0 1 0 0 1 0 13), (0x29A03C7F, .vxVfnmacc 0 1 20 0 30 0 15)] := by decide

theorem test_words_vl : decodesTo
    [(0x2A2F0226, .vld 0 5 14 0 1 1 6), (0xAA11804C, .vldff 1 2 3 0 0 0 12)] := by decide

theorem test_words_vs : decodesTo
    [(0xACC28C06, .vst 1 24 5 0 6 0 6)] := by decide

theorem test_words_vr : decodesTo
    [(0xAF221606, .vperm 1 1 4 8 11 6), (0xAF418C14, .vpermp 1 1 8 6 6 4), (0xAF210025, .pplan 1 1 4 4),
     (0xAF2A4C34, .vredsum 1 1 5 9 6 4), (0xAF1A8E41, .vredmin 1 1 3 10 7 1), (0xAF310C56, .vredmax 1 1 6 4 6 6),
     (0xAF39CC61, .vredand 1 1 7 7 6 1), (0x2F328E77, .vredor 0 1 6 10 7 7), (0x2F21CA85, .vredxor 0 1 4 7 5 5),
     (0x2F29C095, .vscan 0 1 5 7 5), (0x2F2A90A1, .vbrd 0 1 5 10 8 1)] := by decide

theorem test_words_vk : decodesTo
    [(0x30025A01, .vfmt 0 0 9 3 1), (0x30398E02, .vloop 0 7 6 7), (0x30000003, .scommit 0),
     (0xB0280004, .vpart 1 5), (0x30000005, .vtrim 0)] := by decide

theorem test_words_vn : decodesTo
    [(0x3342C00D, .vrcp 0 1 8 11 13), (0x322B801E, .vrsq 0 0 5 14 14), (0xB2BE802F, .vsqrt 1 0 23 26 15),
     (0xB23C403E, .vexp2 1 0 7 17 14), (0x333E004E, .vlog2 0 1 7 24 14), (0xB23BC05E, .vsinpi 1 0 7 15 14),
     (0x338FC06E, .vcospi 0 1 17 31 14), (0xB3C6407D, .vtanh 1 1 24 25 13), (0xB3395103, .vrand 1 1 7 5 8 3)] := by decide

theorem test_words_vg : decodesTo
    [(0x34299022, .vgath 0 5 3 8 1 2), (0x34118A64, .vscat 0 2 3 5 1 4)] := by decide

theorem test_words_mc : decodesTo
    [(0xC3800000, .matt 1 3), (0x43000001, .mattFull 0 2), (0xC2000002, .mdet 1),
     (0xC21A0083, .mldb 1 6 4 4), (0xC2228144, .mldbSp 1 8 5 10), (0xC3000005, .mswap 1 2),
     (0x43110006, .mst 0 2 4 2), (0x435C6407, .mmov 0 2 23 25 0), (0xC20AA8A8, .mgtab 1 2 5 10 5),
     (0x420C0009, .mctr 0 3)] := by decide

theorem test_words_ma : decodesTo
    [(0xC19F2CD0, .mma 1 3 7 6 11 6 1), (0xC18C1111, .mmac 1 3 3 4 8 1), (0x41A7AD12, .mmag 0 3 9 7 11 8 1)] := by decide

theorem test_words_ms : decodesTo
    [(0xC5942930, .mmasp 1 3 5 10 9 1), (0xC49AAD91, .mmaSeq 1 1 6 5 11 12 1), (0xC4089502, .mseq 1 2 1 5 8)] := by decide

theorem test_words_lz : decodesTo
    [(0xE0114000, .znew 1 2 5), (0xE0210E10, .zfork 1 4 4 7), (0xE0398020, .zmov 1 7 6),
     (0xE02A0C30, .zpin 1 5 8 6), (0x60198A40, .zset 0 3 6 5), (0x60198A5F, .zlt 0 3 6 5 1),
     (0xE011CE6F, .zle 1 2 7 7 1), (0x6010C870, .zcmp 0 2 3 4), (0x6119408F, .zcvt 0 1 3 5),
     (0xE1394090, .zlen 1 1 7 5), (0xE119C0A0, .zposl 1 1 3 7), (0x612180B0, .zposh 0 1 4 6),
     (0x61410F7F, .zcnt 0 1 8 4 7 7 1)] := by decide

theorem test_words_rm : decodesTo
    [(0x50728DA8, .raddV 7 5 3 1 2 1 1), (0x50612189, .rmcst 6 2 8 1 2 1)] := by decide

theorem test_words_bp : decodesTo
    [(0x52328C08, .vpost 3 5 3 1), (0x52718001, .hold 7 3)] := by decide
/-! Words that the manual's worked programs print beside their instructions (files 04 to 19). -/

theorem test_program_words_1 : decodesTo
    [(0x06500001, .addi 5 0 1), (0x50621C01, .rmcst 6 4 7 0 0 0), (0x1853A000, .waitc 5 7 0), (0x18004011, .xfence 17),
     (0x10876008, .ld 8 7 8), (0x10966040, .ld 9 6 64), (0x50621C09, .rmcst 6 4 7 0 0 1), (0xA320CA2F, .vfmul 1 1 4 3 5 15),
     (0x026A4000, .pfx 3 0 1 9), (0x02700000, .pfx 3 1 0 0), (0x1A000001, .trap 1), (0x1A064003, .mtsr 12 3),
     (0xE00B8000, .znew 1 1 14), (0xAA830007, .vld 1 16 6 0 0 0 7), (0xAA938007, .vld 1 18 7 0 0 0 7), (0xE00C2430, .zpin 1 1 16 18)] := by decide

theorem test_program_words_2 : decodesTo
    [(0xE0104020, .zmov 1 2 1), (0x30036402, .vloop 0 0 13 18), (0xAA09000F, .vld 1 1 2 0 0 0 15), (0xB210403F, .vexp2 1 0 2 1 15),
     (0xAE18809F, .vscan 1 0 3 2 15), (0xAA218005, .vld 1 4 3 0 0 0 5), (0xAE30C80F, .vperm 1 0 6 3 4 15),
     (0xAA2A0005, .vld 1 5 4 0 0 0 5), (0xAE38CA0F, .vperm 1 0 7 3 5 15), (0xA240CC1F, .vfsub 1 0 8 3 6 15),
     (0x2249CC1F, .vfsub 0 0 9 7 6 15), (0xA252123F, .vfdiv 1 0 10 8 9 15), (0xA86000D6, .vbcast 1 0 12 0 0 6),
     (0x286800D6, .vbcast 0 0 13 0 0 6), (0xE060553F, .zcnt 1 0 12 1 10 3 1), (0xE068953F, .zcnt 1 0 13 2 10 3 1)] := by decide

theorem test_program_words_3 : decodesTo
    [(0xE0184470, .zcmp 1 3 1 2), (0xAC628007, .vst 1 12 5 0 0 0 7), (0xAC6C0007, .vst 1 13 8 0 0 0 7), (0xE0704090, .zlen 1 0 14 1),
     (0x2C748007, .vst 0 14 9 0 0 0 7), (0x1851A000, .waitc 5 3 0), (0x10C46000, .ld 12 4 0), (0xA0200146, .vid 1 0 4 6),
     (0x28292006, .vxVadd 0 0 5 4 16 0 6), (0x52D29C00, .vpost 13 5 7 0), (0x52D31C00, .vpost 13 6 7 0),
     (0x52D39C00, .vpost 13 7 7 0), (0x1913A000, .waitc 17 7 0), (0x11276008, .ld 18 7 8), (0xA84000D6, .vbcast 1 0 8 0 0 6),
     (0x52828001, .hold 8 5)] := by decide

theorem test_program_words_4 : decodesTo
    [(0x52928001, .hold 9 5), (0x52A28001, .hold 10 5), (0x1A703008, .mfsr 7 8), (0x12746000, .sd 7 4 0), (0x18519000, .signal 5 3 0),
     (0xA0631006, .vadd 1 0 12 12 8 6), (0x2C629006, .vst 0 12 5 1 0 0 6), (0xA0631406, .vadd 1 0 12 12 10 6), (0x18000005, .bar 5),
     (0x52D29C08, .vpost 13 5 7 1), (0xB0780001, .vfmt 1 15 0 0 0), (0x1A024003, .mtsr 4 3), (0xE0094000, .znew 1 1 5),
     (0xE0088C30, .zpin 1 1 2 6), (0xE010505F, .zlt 1 2 1 8 1), (0xE070592F, .zcnt 1 0 14 1 12 2 1)] := by decide

theorem test_program_words_5 : decodesTo
    [(0xE0504090, .zlen 1 0 10 1), (0xE0104A10, .zfork 1 2 1 5), (0x06000000, .addi 0 0 0), (0xB0300001, .vfmt 1 6 0 0 0),
     (0x06500004, .addi 5 0 4), (0x14029410, .dset 0 5 5), (0x06600003, .addi 6 0 3), (0x06700040, .addi 7 0 64),
     (0x14131C10, .dset 1 6 7), (0x0680000C, .addi 8 0 12), (0x30020202, .vloop 0 0 8 1), (0xAA098406, .vld 1 1 3 0 2 0 6),
     (0x2E104836, .vredsum 0 0 2 1 4 6), (0x16290004, .qr 9 4), (0xAA098446, .vldff 1 1 3 0 2 0 6), (0xB0100001, .vfmt 1 2 0 0 0)] := by decide

theorem test_program_words_6 : decodesTo
    [(0x286000D6, .vbcast 0 0 12 0 0 6), (0x20621352, .vwmacc 0 0 12 8 9 2), (0xA8830CC6, .vxVrshr 1 0 16 12 6 0 6),
     (0x24A40980, .vcvt 0 0 20 16 2 6 0 0), (0x28830CC6, .vxVrshr 0 0 16 12 6 0 6), (0x24A409B0, .vcvt 0 0 20 16 2 6 3 0),
     (0x18000002, .bar 2), (0x18612000, .waitc 6 2 0), (0x18004003, .xfence 3), (0x10536000, .ld 5 3 0), (0x10546000, .ld 5 4 0),
     (0x06700001, .addi 7 0 1), (0x12736000, .sd 7 3 0), (0x04629404, .xor 6 5 5), (0x14521803, .aadd 5 4 6), (0x12756000, .sd 7 5 0)] := by decide

theorem test_program_words_7 : decodesTo
    [(0x10537000, .ld 5 3 4096), (0x0E744100, .loop 0 29 65), (0x18000001, .bar 1), (0x0F2C0200, .loop 2 11 2),
     (0x1C518860, .cpy 5 3 2 0 0 3), (0x19812000, .waitc 24 2 0), (0x0ABE002D, .blez 30 45), (0x0EAC2900, .loop 1 11 41),
     (0xA80000D6, .vbcast 1 0 0 0 0 6), (0xAA238A02, .vld 1 4 7 0 5 0 2), (0xAA2B0A02, .vld 1 5 6 0 5 0 2),
     (0x20010B52, .vwmacc 0 0 0 4 5 2), (0xA80018C6, .vxVrshr 1 0 0 0 12 0 6), (0x24300980, .vcvt 0 0 6 0 2 6 0 0),
     (0xAC320A02, .vst 1 6 4 0 5 0 2), (0x1A70300B, .mfsr 7 11)] := by decide

theorem test_program_words_8 : decodesTo
    [(0x24300D80, .vcvt 0 0 6 0 3 6 0 0), (0xB0180001, .vfmt 1 3 0 0 0), (0xAA410003, .vld 1 8 2 0 0 0 3),
     (0x1C321820, .cpy 3 4 6 0 0 1), (0x18832000, .waitc 8 6 0), (0x1800400A, .xfence 10), (0x09501000, .lih 21 4096),
     (0xC21C80E3, .mldb 1 7 1 7), (0xC0201CE0, .mma 1 0 8 0 7 7 0), (0xC2249CE8, .mgtab 1 9 1 7 7), (0xC0201CE2, .mmag 1 0 8 0 7 7 0),
     (0xC2000005, .mswap 1 0), (0xC22100E3, .mldb 1 8 2 7), (0xC0804CF1, .mmac 1 1 0 19 7 1), (0xC2800005, .mswap 1 1),
     (0xC2A98006, .mst 1 1 10 3)] := by decide

theorem test_program_words_9 : decodesTo
    [(0xC2000002, .mdet 1), (0x1882A000, .waitc 8 5 0), (0xC08038F1, .mmac 1 1 0 14 7 1), (0xC2000001, .mattFull 1 0),
     (0xC2140009, .mctr 1 5), (0xC20D0043, .mldb 1 3 2 2), (0xC0200850, .mma 1 0 8 0 2 2 1), (0xC2120006, .mst 1 0 4 4),
     (0x06600001, .addi 6 0 1), (0x1862A000, .waitc 6 5 0), (0x18004009, .xfence 9), (0x1074422C, .lw 7 4 556),
     (0xC2000000, .matt 1 0), (0xC0200840, .mma 1 0 8 0 2 2 0), (0x14058010, .dset 0 11 0), (0x14163410, .dset 1 12 13)] := by decide

theorem test_program_words_10 : decodesTo
    [(0x14402C10, .dset 4 0 11), (0x1C419540, .cpy 4 3 5 1 0 2), (0x18E2A000, .waitc 14 5 0), (0x10F46100, .ld 15 4 256),
     (0x1E611E05, .gth 6 2 7 2 0 0 5), (0x16080000, .qw 8 0), (0x30035402, .vloop 0 0 13 10), (0xAA110006, .vld 1 2 2 0 0 0 6),
     (0xB4218406, .vgath 1 4 3 2 0 6), (0x20290806, .vadd 0 0 5 4 4 6), (0x28314106, .vxVadd 0 0 6 5 0 1 6),
     (0xAC320006, .vst 1 6 4 0 0 0 6), (0x30000003, .scommit 0), (0xA8391C96, .vxVsll 1 0 7 4 14 0 6), (0x2041C896, .vor 0 0 8 7 4 6),
     (0x2C428006, .vst 0 8 5 0 0 0 6)] := by decide

theorem test_program_words_11 : decodesTo
    [(0xA04A0A16, .vsub 1 0 9 8 5 6), (0x2E524836, .vredsum 0 0 10 9 4 6), (0x07080001, .addi 16 16 1), (0x162F0004, .qr 15 4),
     (0x1B503023, .mfsr 21 35), (0x117F6000, .ld 23 15 0), (0x077BA001, .ori 23 23 1), (0x137F6000, .sd 23 15 0),
     (0x1A0AD000, .xinv 21 0), (0x1A001000, .tret), (0x06500003, .addi 5 0 3), (0x0E140500, .loop 0 5 5), (0x0E980200, .loop 1 6 2),
     (0x0493A018, .mul 9 7 8), (0x04A52400, .add 10 10 9), (0x08300200, .lih 3 512)] := by decide

theorem test_program_words_12 : decodesTo
    [(0x14211403, .aadd 2 2 5)] := by decide

/-! Ill-formed instructions, one or more for each check of `fieldsOk`. -/

/-- No instruction of the list is well formed. -/
abbrev illFormed (l : List Instr) : Prop := ∀ i ∈ l, ¬ i.wf

/-- R63: loop level 3, or a body of 257 words. -/
theorem test_ill_formed_loop : illFormed
    [.loop 3 1 4, .loop 0 1 256] := by decide

/-- R63: bits 10:5 of the offset of an advance form not zero. -/
theorem test_ill_formed_load_store : illFormed
    [.lb 1 2 0x0820, .lh 1 2 0x0820, .lw 1 2 0x0820, .ld 1 2 0x0820, .lbu 1 2 0x0820, .lhu 1 2 0x0820, .lwu 1 2 0x0820, .sb 1 2 0x0820,
     .sh 1 2 0x0820, .sw 1 2 0x0820, .sd 1 2 0x0820] := by decide

/-- R63: a compare and swap of x0 or x31. -/
theorem test_ill_formed_atomic : illFormed
    [.atcas 0 2, .atcas 31 2, .atcasw 0 2, .atcasw 31 2] := by decide

/-- R63: a register number above 15, or above 5 for a dimension register, or above 2 for a loop register. -/
theorem test_ill_formed_address : illFormed
    [.amk 16 1 1, .amov 16 1, .amov 1 16, .aperm 16 1 1, .aperm 1 16 1, .aadd 16 1 1, .aadd 1 16 1, .anar 16 1 1, .anar 1 16 1,
     .aset 16 1 1, .aset 1 16 1, .adiff 1 16 1, .adiff 1 1 16, .aget 1 16, .agetb 1 16, .agetl 1 16, .agetp 1 16, .dset 6 1 1,
     .dgetl 1 6, .dgets 1 6, .mtlc 3 1, .mflc 1 3, .mflb 1 3, .mtlb 3 1] := by decide

/-- R63: a queue that the word does not reach, a scope above 5, FENCE of kind 0, XFENCE of one path. -/
theorem test_ill_formed_queue_sync : illFormed
    [.qw 1 4, .qr 1 3, .qbr 3 1, .qbr 8 1, .qbrz 3 1, .qbrz 8 1, .bar 6, .signal 1 16 0, .waitc 1 16 0, .fence 0 1, .fence 1 6,
     .xfence 0, .xfence 8] := by decide

/-- R63: a system register that R164 does not name, and XINV of everything with an address. -/
theorem test_ill_formed_system : illFormed
    [.mfsr 1 0x011, .mfsr 1 0x01F, .mfsr 1 0x029, .mfsr 1 0x038, .mfsr 1 0x0FF, .mfsr 1 0x110, .mtsr 1 0x011, .mtsr 1 0x110, .xinv 1 1,
     .xinv 1 3] := by decide

/-- R63: an address register above 15, and a copy of 0 dimensions. -/
theorem test_ill_formed_copy : illFormed
    [.cpy 16 1 1 0 0 1, .cpy 1 16 1 0 0 1, .cpy 1 1 16 0 0 1, .cpy 1 1 1 0 0 0, .gth 16 1 1 0 0 0 0, .gth 1 16 1 0 0 0 0,
     .gth 1 1 16 0 0 0 0] := by decide

/-- R63: a format that is no integer format. -/
theorem test_ill_formed_vector_integer : illFormed
    [.vadd 0 0 0 0 0 8, .vsub 0 0 0 0 0 8, .vmul 0 0 0 0 0 8, .vmulh 0 0 0 0 0 8, .vadds 0 0 0 0 0 8, .vsubs 0 0 0 0 0 8,
     .vmin 0 0 0 0 0 8, .vmax 0 0 0 0 0 8, .vand 0 0 0 0 0 8, .vor 0 0 0 0 0 8, .vxor 0 0 0 0 0 8, .vandn 0 0 0 0 0 8,
     .vsll 0 0 0 0 0 8, .vsrl 0 0 0 0 0 8, .vsra 0 0 0 0 0 8, .vrshr 0 0 0 0 0 8, .vneg 0 0 0 0 8, .vmov 0 0 0 0 8, .vmacc 0 0 0 0 0 8,
     .vid 0 0 0 8, .vrand 0 0 0 0 0 8, .vabs 0 0 1 2 1, .vabs 0 0 1 2 8, .vwmacc 0 0 1 2 3 6] := by decide

/-- R63: a format that is no f16, bf16 or f32. -/
theorem test_ill_formed_vector_float : illFormed
    [.vfadd 0 0 0 0 0 12, .vfsub 0 0 0 0 0 12, .vfmul 0 0 0 0 0 12, .vfdiv 0 0 0 0 0 12, .vfmin 0 0 0 0 0 12, .vfmax 0 0 0 0 0 12,
     .vfmacc 0 0 0 0 0 12, .vfnmacc 0 0 0 0 0 12, .vfabs 0 0 0 0 12, .vfneg 0 0 0 0 12, .vrcp 0 0 0 0 12, .vrsq 0 0 0 0 12,
     .vsqrt 0 0 0 0 12, .vexp2 0 0 0 0 12, .vlog2 0 0 0 0 12, .vsinpi 0 0 0 0 12, .vcospi 0 0 0 0 12, .vtanh 0 0 0 0 12,
     .vfwmacc 0 0 1 2 3 12, .vfwmacc 0 0 1 2 3 15] := by decide

/-- R63: rounding 7, a policy that the destination does not take, a block format above 8, two plain formats. -/
theorem test_ill_formed_vector_convert : illFormed
    [.vcvt 0 0 1 2 15 15 0 7, .vcvt 0 0 1 2 0 15 1 0, .vcvt 0 0 1 2 0 15 2 0, .vcvtBlock 0 0 1 2 15 0 0 7, .vcvtBlock 0 0 1 2 15 9 0 0,
     .vcvtBlock 0 0 1 2 9 15 0 0, .vcvtBlock 0 0 1 2 0 12 0 0, .vcvtBlock 0 0 1 2 0 15 1 0, .vcvtBlock 0 0 1 2 5 15 2 0] := by decide

/-- R63: a predicate above 7, and a format that is neither integer nor float. -/
theorem test_ill_formed_vector_predicate : illFormed
    [.vcmpeq 0 8 1 2 0, .vcmpne 0 8 1 2 0, .vcmplt 0 8 1 2 0, .vcmple 0 8 1 2 0, .vcmpeq 0 1 1 2 8, .vcmpne 0 1 1 2 8,
     .vcmplt 0 1 1 2 8, .vcmple 0 1 1 2 8, .pand 0 8 1 1, .pand 0 1 8 1, .pand 0 1 1 8, .por 0 8 1 1, .por 0 1 8 1, .por 0 1 1 8,
     .pxor 0 8 1 1, .pxor 0 1 8 1, .pxor 0 1 1 8, .pandn 0 8 1 1, .pandn 0 1 8 1, .pandn 0 1 1 8, .pnot 0 8 1, .pnot 0 1 8, .pset 0 8,
     .pclr 0 8, .vpart 0 8] := by decide

/-- R63: a queue above 3 and the formats of each word. -/
theorem test_ill_formed_vector_scalar : illFormed
    [.vxVadd 0 0 0 0 4 1 0, .vxVadd 0 0 0 0 3 1 8, .vxVsub 0 0 0 0 4 1 0, .vxVsub 0 0 0 0 3 1 8, .vrsub 0 0 0 0 4 1 0,
     .vrsub 0 0 0 0 3 1 8, .vxVmul 0 0 0 0 4 1 0, .vxVmul 0 0 0 0 3 1 8, .vxVmin 0 0 0 0 4 1 0, .vxVmin 0 0 0 0 3 1 8,
     .vxVmax 0 0 0 0 4 1 0, .vxVmax 0 0 0 0 3 1 8, .vxVand 0 0 0 0 4 1 0, .vxVand 0 0 0 0 3 1 8, .vxVor 0 0 0 0 4 1 0,
     .vxVor 0 0 0 0 3 1 8, .vxVxor 0 0 0 0 4 1 0, .vxVxor 0 0 0 0 3 1 8, .vxVsll 0 0 0 0 4 1 0, .vxVsll 0 0 0 0 3 1 8,
     .vxVsrl 0 0 0 0 4 1 0, .vxVsrl 0 0 0 0 3 1 8, .vxVsra 0 0 0 0 4 1 0, .vxVsra 0 0 0 0 3 1 8, .vxVrshr 0 0 0 0 4 1 0,
     .vxVrshr 0 0 0 0 3 1 8, .vbcast 0 0 0 4 1 0, .vbcast 0 0 0 3 1 8, .vxVwmacc 0 0 0 0 4 1 0, .vxVwmacc 0 0 0 0 3 1 6,
     .vxVmacc 0 0 0 0 4 1 0, .vxVmacc 0 0 0 0 3 1 8, .vxVfadd 0 0 0 0 4 1 13, .vxVfadd 0 0 0 0 3 1 12, .vxVfsub 0 0 0 0 4 1 13,
     .vxVfsub 0 0 0 0 3 1 12, .vfrsub 0 0 0 0 4 1 13, .vfrsub 0 0 0 0 3 1 12, .vxVfmul 0 0 0 0 4 1 13, .vxVfmul 0 0 0 0 3 1 12,
     .vxVfmin 0 0 0 0 4 1 13, .vxVfmin 0 0 0 0 3 1 12, .vxVfmax 0 0 0 0 4 1 13, .vxVfmax 0 0 0 0 3 1 12, .vxVfmacc 0 0 0 0 4 1 13,
     .vxVfmacc 0 0 0 0 3 1 12, .vxVfnmacc 0 0 0 0 4 1 13, .vxVfnmacc 0 0 0 0 3 1 12] := by decide

/-- R63: a mode above 1, a sweep of 7, a sweep with mode 1 or a 4-bit format. -/
theorem test_ill_formed_vector_memory : illFormed
    [.vld 0 0 0 2 0 0 2, .vld 0 0 0 0 7 0 2, .vld 0 0 0 1 1 0 2, .vld 0 0 0 0 1 0 0, .vldff 0 0 0 2 0 0 2, .vldff 0 0 0 0 7 0 2,
     .vldff 0 0 0 1 1 0 2, .vldff 0 0 0 0 1 0 0, .vst 0 0 0 2 0 0 2, .vst 0 0 0 0 7 0 2, .vst 0 0 0 1 1 0 2, .vst 0 0 0 0 1 0 0,
     .vgath 0 0 1 2 3 0, .vscat 0 0 1 2 3 8] := by decide

/-- R63: a queue that no reduction writes, and a format that the word does not take. -/
theorem test_ill_formed_vector_reduce : illFormed
    [.vredsum 0 0 0 0 3 0, .vredsum 0 0 0 0 8 0, .vredsum 0 0 0 0 0 8, .vredmin 0 0 0 0 3 0, .vredmin 0 0 0 0 8 0,
     .vredmin 0 0 0 0 0 8, .vredmax 0 0 0 0 3 0, .vredmax 0 0 0 0 8 0, .vredmax 0 0 0 0 0 8, .vredand 0 0 0 0 3 0,
     .vredand 0 0 0 0 8 0, .vredand 0 0 0 0 0 8, .vredor 0 0 0 0 3 0, .vredor 0 0 0 0 8 0, .vredor 0 0 0 0 0 8, .vredxor 0 0 0 0 3 0,
     .vredxor 0 0 0 0 8 0, .vredxor 0 0 0 0 0 8, .vscan 0 0 1 2 8] := by decide

/-- R63: a value of VFMT that R181 reserves. -/
theorem test_ill_formed_vector_control : illFormed
    [.vfmt 0 15 1 0 0, .vfmt 0 0 0 1 0, .vfmt 0 0 10 0 0, .vfmt 0 0 0 0 1] := by decide

/-- R63: a register, a K, a format or a queue out of range, formats of two classes, a scale group outside the block formats. -/
theorem test_ill_formed_matrix : illFormed
    [.mldb 0 16 0 0, .mldb 0 0 6 0, .mldb 0 0 0 20, .mldbSp 0 0 0 11, .mldbSp 0 16 0 0, .mldbSp 0 0 6 0, .mst 0 0 16 0, .mst 0 0 0 6,
     .mmov 0 0 0 0 2, .mgtab 0 16 0 0 0, .mgtab 0 0 6 0 0, .mgtab 0 0 0 16 0, .mgtab 0 0 0 0 20, .mctr 0 16, .mma 0 0 0 0 0 4 0,
     .mma 0 0 0 1 5 5 0, .mma 0 0 0 0 20 20 0, .mmac 0 0 4 4 4 0, .mmag 0 0 0 0 0 4 0, .mmag 0 0 0 1 5 5 0, .mmasp 0 0 0 11 11 0,
     .mmasp 0 0 0 0 4 0, .mmaSeq 0 0 0 1 5 5 0, .mmaSeq 0 0 0 0 0 4 0, .mseq 0 16 0 0 0, .mseq 0 0 6 0 0, .mseq 0 0 0 3 0,
     .mseq 0 0 0 0 20] := by decide

/-- R63: a z register above 7, and ZPIN of an odd register. -/
theorem test_ill_formed_lazy : illFormed
    [.znew 0 8 1, .zfork 0 8 1 1, .zfork 0 1 8 1, .zmov 0 8 1, .zmov 0 1 8, .zpin 0 8 2 1, .zpin 0 1 1 1, .zset 0 8 1 1,
     .zlt 0 8 1 1 0, .zlt 0 1 8 1 0, .zle 0 8 1 1 0, .zle 0 1 8 1 0, .zcmp 0 8 1 1, .zcmp 0 1 8 1, .zcmp 0 1 1 8, .zcvt 0 0 1 8,
     .zlen 0 0 1 8, .zposl 0 0 1 8, .zposh 0 0 1 8, .zcnt 0 0 1 8 1 0 0] := by decide

/-- R63: a register above 15, and a transfer past line 3. -/
theorem test_ill_formed_remote : illFormed
    [.raddV 16 1 1 0 0 0 0, .raddV 1 1 16 0 0 0 0, .raddV 1 1 1 3 1 0 0, .raddV 1 1 1 2 2 0 0, .rmcst 16 1 1 0 0 0,
     .rmcst 1 1 16 0 0 0, .rmcst 1 1 1 3 1 0, .vpost 0 1 16 0] := by decide

/-! States that meet the hypotheses of the obligations. -/

/-- An address register over the whole of memory with every permission. -/
def everywhere (p : Word) : AReg := { ptr := p, base := 0, limit := 0x1000000000000, perm := 15 }

/-- A user-level context at 0x4000 with a1 at 0x8000, whose page tables map the first 4 GiB to themselves for user and supervisor alike: the
root table at 0 names the table at 0x1000, and its first four entries are leaves of 1 GiB. -/
def user : State :=
  { State.reset with
    cs := .active
    mem := [(0, 0x01), (1, 0x10), (0x1000, 0x3F), (0x1007, 0x04), (0x1008, 0x3F), (0x100B, 0x40), (0x100F, 0x04), (0x1010, 0x3F),
      (0x1013, 0x80), (0x1017, 0x04), (0x1018, 0x3F), (0x101B, 0xC0), (0x101F, 0x04)]
    c := { Context.reset with pc := 0x4000, a := upd (Vector.replicate 16 AReg.zero) 1 (everywhere 0x8000) } }

/-- The same context with another STATUS. -/
def withStatus (w : Word) (s : State) : State := { s with c := { s.c with sys := { s.c.sys with status := w } } }
/-- The same context at supervisor level. -/
def supervisor : State := withStatus 1 user
/-- The same context at another word. -/
def atPc (p : Word) (s : State) : State := { s with c := { s.c with pc := p } }
/-- With a PFX payload pending. -/
def prefixed : State := { user with c := { user.c with pfxLive := true } }
/-- A loop descriptor: active, with its first word and its length less one. -/
def descOf (first : Nat) (len : Nat) : Word := BitVec.ofNat 64 (2 ^ 63 + len * 2 ^ 48 + first)
/-- With loop level l active over a body. -/
def looping (l first len : Nat) (count : Word) (s : State) : State := (s.wdesc l (descOf first len)).wlc l count
/-- The stepped state of an answer meets a test. -/
def lands (o : Host.Outcome State Fault Refusal) (p : State → Bool) : Bool :=
  match o with
  | .next t => p t
  | _ => false

/-- A result of the machine's operations is a value and a state that meet a test. -/
def okWith {α : Type} (r : Res α) (p : α → State → Bool) : Bool :=
  match r with
  | .ok x u => p x u
  | _ => false

theorem okWith_reaches {s : State} {va : Word} {w : Nat} {k : AccKind} {rlx : Bool} {p : Nat → State → Bool}
    (h : okWith (coreAccess s va w k rlx (s.trapInfo true 0 0)) p = true) : ∃ loc u, Reaches s va w k rlx loc u ∧ p loc u = true := by
  unfold okWith at h
  split at h
  · exact ⟨_, _, ‹_›, h⟩
  · exact absurd h (by decide)

theorem witness_AluRegisterWords : (∃ r, r ∈ aluRows) ∧ ApReady user := ⟨⟨_, List.mem_cons_self⟩, rfl⟩
theorem witness_AluUnaryWords : (∃ r, r ∈ unaryRows) ∧ ApReady user := ⟨⟨_, List.mem_cons_self⟩, rfl⟩
theorem witness_ImmediateWords : (∃ r, r ∈ immRows) ∧ (∃ r, r ∈ shiftRows) ∧ ApReady user :=
  ⟨⟨_, List.mem_cons_self⟩, ⟨_, List.mem_cons_self⟩, rfl⟩
theorem witness_ControlTransfers : (∃ r, r ∈ branchRows) ∧ ApReady (user.wx 1 0x4004) ∧ ((user.wx 1 0x4004).rx 1).toNat % 4 = 0 ∧
    ApReady (user.wx 1 0x4007) ∧ ((user.wx 1 0x4007).rx 1).toNat % 4 ≠ 0 :=
  ⟨⟨_, List.mem_cons_self⟩, by decide⟩

/-- The first and the last place of a word, a place that the nesting rules allow and one that they do not. -/
theorem witness_LoopSetUp :
    ApReady user ∧ user.c.pc.toNat % 4 = 0 ∧ user.c.pc.toNat + 4 < 2 ^ 48 ∧ (2#2).toNat < 3 ∧
    (atPc 0xFFFFFFFFFFF8 user).c.pc.toNat % 4 = 0 ∧ (atPc 0xFFFFFFFFFFF8 user).c.pc.toNat + 4 < 2 ^ 48 ∧
    (∀ m, m < 3 → inBody (user.rdesc m) user.c.pc = false) ∧ inVloop user.c.vloop user.c.pc = false ∧
    ApReady (looping 0 0x4000 7 2 user) ∧ inBody ((looping 0 0x4000 7 2 user).rdesc 0) (looping 0 0x4000 7 2 user).c.pc = true ∧
    ¬ (0 < (0#2).toNat) := by decide

/-- With the vector loop active over words that end at PC, at strip 0 of n elements. -/
def vlooping (n : Word) (s : State) : State :=
  { s with c := { s.c with vloop := { active := true, n := n, strip := 0, vlmax := 128, first := 0x3FF0, last := s.c.pc } } }

/-- The last word of a level with a count above 1, of one with a count of 1, of one whose inner level turns, of no level; and of the vector
loop, with elements left and without. -/
theorem witness_LoopTurns :
    let here (s : State) (l : Nat) := descActive (s.rdesc l) = true ∧ descLast (s.rdesc l) = s.c.pc
    let turns (s : State) (l : Nat) := here s l ∧ 1 < (s.rlc l).toNat
    let turn := looping 2 0x3FF0 4 2 user
    let last := looping 2 0x3FF0 4 1 user
    let both := looping 0 0x3FF0 4 1 turn
    ApReady turn ∧ turns turn 2 ∧ ApReady last ∧ here last 2 ∧ (last.rlc 2).toNat ≤ 1 ∧ ¬turns last 0 ∧ ¬turns last 1 ∧ ¬turns last 2 ∧
    ApReady both ∧ turns both 2 ∧ here both 0 ∧ ¬here user 1 ∧ user.c.vloop.active = false := by decide
theorem witness_LoopTurns_strip :
    let more := vlooping 129 user
    let done := vlooping 128 user
    more.c.vloop.active = true ∧ more.c.vloop.last = more.c.pc ∧ (more.c.vloop.strip + 1).toNat * more.c.vloop.vlmax < more.c.vloop.n.toNat ∧
    done.c.vloop.active = true ∧ done.c.vloop.last = done.c.pc ∧ ¬(done.c.vloop.strip + 1).toNat * done.c.vloop.vlmax < done.c.vloop.n.toNat := by
  decide

/-- A PFX inside its body and at its end, a payload pending, and a vector word that replays under a payload with and without negation. -/
theorem witness_PrefixPending :
    ApReady user ∧ ¬lastWord user ∧ ApReady (looping 0 0x3FF0 4 2 user) ∧ lastWord (looping 0 0x3FF0 4 2 user) ∧ prefixed.c.pfxLive = true ∧
    payload user = none ∧ (payload prefixed).isSome = true ∧ (127 : Nat) < 1024 ∧
    ({ user with c := { user.c with replay := some 0x4000 } } : State).c.replay = some user.c.pc := by
  unfold lastWord
  decide

/-- The last address register, an address at the edge of the address space and one past it, and a pointer at its limit. -/
theorem witness_AddressWords :
    let s := (user.wx 2 0xFFFFFFFFFFFF).wx 3 1
    let t := (user.wx 2 0xFFFFFFFFFFFF).wx 3 2
    ApReady s ∧ (15#5).toNat < 16 ∧ (s.rx 2).toNat + (s.rx 3).toNat ≤ 2 ^ 48 ∧ ApReady t ∧ ¬ (t.rx 2).toNat + (t.rx 3).toNat ≤ 2 ^ 48 := by
  decide
theorem witness_AddressReads : ApReady user := rfl
theorem witness_LoopRegisterWrites :
    ApReady user ∧ (5#5).toNat < 6 ∧ (2#5).toNat < 3 ∧ ¬lastWord user ∧ ¬lastWord (user.wdesc 2 (user.rx 1 &&& 0x81FFFFFFFFFFFFFC)) := by
  unfold lastWord
  decide

/-- A relaxed form under DETERM; no permission; one byte past the limit; an address of 4; an advance past the limit; and one that passes
at the last address. -/
theorem witness_MemoryChecks :
    let det := withStatus 32 user
    let none := user.wa 1 { everywhere 0x8000 with perm := 0 }
    let past := user.wa 1 { everywhere 0x8000 with limit := 0x8007 }
    let odd := user.wa 1 (everywhere 0x8004)
    let edge := (user.wa 1 { everywhere 0x8000 with limit := 0x8008 }).wx 2 9
    let last := (user.wa 1 { everywhere 0x8000 with limit := 0x8008 }).wx 2 8
    (memForm 0x1000).rlx = true ∧ det.determ = true ∧ ApReady det ∧
    (memForm 0).rlx = false ∧ bit (none.ra 1).perm 0 = false ∧ bit (none.ra 1).perm 1 = false ∧
    ¬ (past.ra 1).ptr.toNat + 8 ≤ (past.ra 1).limit.toNat ∧ (odd.ra 1).ptr.toNat % 8 ≠ 0 ∧ bit (odd.ra 1).perm 0 = true ∧
    (memForm 0x802).advance = some 2 ∧ bit (edge.ra 1).perm 1 = true ∧ (edge.ra 1).ptr.toNat + 8 ≤ (edge.ra 1).limit.toNat ∧
    ¬ (edge.ra 1).ptr.toNat + (edge.rx 2).toNat ≤ (edge.ra 1).limit.toNat ∧
    (last.ra 1).ptr.toNat + (last.rx 2).toNat ≤ (last.ra 1).limit.toNat ∧ (∃ m, m ∈ memRows) ∧ (∃ m, m ∈ everyAtomic) ∧
    bit (user.ra 1).perm 2 = true ∧ bit (none.ra 1).perm 2 = false := by
  refine ⟨?_, ?_, ?_, ?_, ?_, ?_, ?_, by decide +kernel, ?_, ?_, ?_, ?_, ?_, ?_, ⟨_, List.mem_cons_self⟩, ⟨_, List.mem_cons_self⟩, ?_, ?_⟩ <;> decide

/-- Rows 5 to 7 of R150 for a read of 8 bytes at 0x8000 at user level: the translation, and what the fabric answers. -/
def readAt (s : State) : (Except (BitVec 8) Xlat) × State := translate s 0x8000 8 { write := false, fetch := false, user := !s.prv }
def readGate (s : State) : Res Xlat :=
  match (readAt s).1 with
  | .error c => .trap (s.trapInfo true c 0x8000) (readAt s).2
  | .ok x =>
    match remoteGate .core (readAt s).2 0x8000 x 8 false (s.trapInfo true 0 0) with
    | .ok _ u => .ok x u
    | .trap r u => .trap r u
    | .wait n u => .wait n u
/-- The answer of the fabric is of the kind named, or meets a test. -/
def gateFails (s : State) (c : BitVec 8) : Bool := match (readAt s).1 with | .error e => e == c | .ok _ => false
def gateTraps (s : State) : Bool := match readGate s with | .trap .. => true | _ => false
def gateWaits (s : State) : Bool := match readGate s with | .wait .. => true | _ => false
theorem gate_traps {s : State} (h : gateTraps s = true) (k : (match (readAt s).1 with | .ok _ => true | .error _ => false) = true) :
    ∃ x r u, (readAt s).1 = .ok x ∧ remoteGate .core (readAt s).2 0x8000 x 8 false (s.trapInfo true 0 0) = .trap r u := by
  unfold gateTraps readGate at h
  split at k
  · rename_i x hx
    simp only [hx] at h
    split at h
    · rename_i ht; split at ht <;> simp_all
    · exact absurd h (by decide)
  · exact absurd k (by decide)
theorem gate_waits {s : State} (h : gateWaits s = true) :
    ∃ x n u, (readAt s).1 = .ok x ∧ remoteGate .core (readAt s).2 0x8000 x 8 false (s.trapInfo true 0 0) = .wait n u := by
  unfold gateWaits readGate at h
  split at h
  · rename_i hw
    split at hw
    · exact absurd hw (by simp)
    · rename_i hx
      split at hw <;> simp_all
  · exact absurd h (by decide)
theorem gate_passes {s : State} {p : Xlat → State → Bool} (h : okWith (readGate s) p = true) :
    ∃ x u, (readAt s).1 = .ok x ∧ remoteGate .core (readAt s).2 0x8000 x 8 false (s.trapInfo true 0 0) = .ok () u ∧ p x u = true := by
  unfold okWith readGate at h
  split at h
  · rename_i hw
    split at hw
    · exact absurd hw (by simp)
    · rename_i hx
      split at hw <;> simp_all
  · exact absurd h (by decide)

/-- A line of this package that another package holds and can be asked for, or not. -/
def lentLine (pa : Nat) (routed : Bool) (s : State) : State :=
  { s with fab := { s.fab with
      dir := [{ line := pa / 128, state := .modified, sharers := [5], reqs := [], pending := [] }]
      routes := if routed then 0x10 <<< 40 else 0, links := 0xFFFF } }
/-- The first GiB has RD set, under a carve-out beyond it, and another context has written to the sector of 0x8000. -/
def recorded (s : State) : State :=
  { s with
    mem := s.mem.map fun c => if c.1 = 0x1007 then (c.1, 0x24) else c
    dev := { s.dev with mbase := 0x100000000, msize := 0x10000000 }
    recs := [{ sector := 0x8000 / 32, id := 7, berth := 5, member := 1, path := .core, kind := .write, pc := 0x1000, launch := s.c.launch }] }
/-- Watchpoint 0 covers reads of the 8 bytes at 0x8000. -/
def watched (s : State) : State := { s with c := { s.c with dbg := upd (upd s.c.dbg 4 0x8001) 8 0x31 } }

theorem witness_MemoryChecks_access :
    ApReady (watched user) ∧ gateFails { user with mem := [] } 0x08 = true ∧
    (∃ x r u, (readAt (lentLine 0x8000 false user)).1 = .ok x ∧
      remoteGate .core (readAt (lentLine 0x8000 false user)).2 0x8000 x 8 false ((lentLine 0x8000 false user).trapInfo true 0 0) = .trap r u) ∧
    (∃ x n u, (readAt (lentLine 0x8000 true user)).1 = .ok x ∧
      remoteGate .core (readAt (lentLine 0x8000 true user)).2 0x8000 x 8 false ((lentLine 0x8000 true user).trapInfo true 0 0) = .wait n u) ∧
    (∃ x u, (readAt (recorded user)).1 = .ok x ∧
      remoteGate .core (readAt (recorded user)).2 0x8000 x 8 false ((recorded user).trapInfo true 0 0) = .ok () u ∧
      (x.rd && (findRace u (hSet u .core) .read (sectorOf u x.loc)).isSome) = true) ∧
    (∃ x u, (readAt (watched user)).1 = .ok x ∧
      remoteGate .core (readAt (watched user)).2 0x8000 x 8 false ((watched user).trapInfo true 0 0) = .ok () u ∧
      (!x.rd && decide (watchHit u 0x8000 8 true false = some 0)) = true) :=
  ⟨rfl, by decide +kernel, gate_traps (by decide +kernel) (by decide +kernel), gate_waits (by decide +kernel),
    gate_passes (p := fun x u => x.rd && (findRace u (hSet u .core) .read (sectorOf u x.loc)).isSome) (by decide +kernel),
    gate_passes (p := fun x u => !x.rd && decide (watchHit u 0x8000 8 true false = some 0)) (by decide +kernel)⟩

/-- A location in package memory, where plain bytes lie, in a state whose memories have the canonical form. -/
def plainBytes (loc : Nat) (u : State) : Bool := decide (ctrlOff loc = none) && u.mem.wf && u.c.scratch.wf

theorem plainBytes_spec {loc : Nat} {u : State} (h : plainBytes loc u = true) : ctrlOff loc = none ∧ MemoriesOk u := by
  simp only [plainBytes, Bool.and_eq_true, decide_eq_true_eq] at h
  exact ⟨h.1.1, h.1.2, h.2⟩

theorem witness_LoadsRead :
    (∃ r, r ∈ loadRows) ∧ ApReady user ∧ (∀ w ∈ [1, 2, 4, 8], memChecks user (user.ra 1) { l := true } w (memForm 0) = none) ∧
    ∀ w ∈ [1, 2, 4, 8], ∃ loc u, Reaches user (wordOf (memAddr (user.ra 1) (memForm 0))) w .read false loc u ∧ plainBytes loc u = true :=
  ⟨⟨_, List.mem_cons_self⟩, rfl, by decide, fun w hw => okWith_reaches (by revert w; decide)⟩
theorem witness_StoresWrite :
    (∃ r, r ∈ storeRows) ∧ ApReady user ∧ (∀ w ∈ [1, 2, 4, 8], memChecks user (user.ra 1) { s := true } w (memForm 0) = none) ∧
    ∀ w ∈ [1, 2, 4, 8], ∃ loc u, Reaches user (wordOf (memAddr (user.ra 1) (memForm 0))) w .write false loc u ∧ plainBytes loc u = true :=
  ⟨⟨_, List.mem_cons_self⟩, rfl, by decide, fun w hw => okWith_reaches (by revert w; decide)⟩
theorem witness_AtomicsUpdate :
    (∃ r, r ∈ atomicRows) ∧ ApReady user ∧
    (∀ w ∈ [4, 8], pointChecks (user.ra 1) { a := true } (user.ra 1).ptr.toNat w = none) ∧
    ∀ w ∈ [4, 8], ∃ loc u, Reaches user (user.ra 1).ptr w .atomic false loc u ∧ plainBytes loc u = true :=
  ⟨⟨_, List.mem_cons_self⟩, rfl, by decide, fun w hw => okWith_reaches (by revert w; decide)⟩
theorem witness_TranslationFrame : user.mem.wf = true := by decide

/-- Queues that are empty, full and in between, with an oldest entry that is written and one that is not. -/
def queued (l : List QEntry) : State := user.wq 4 l
def ready : QEntry := { val := 7, filled := true }
def awaited : QEntry := { val := 0, filled := false }
theorem witness_QueueWords :
    ApReady (queued []) ∧ ((queued []).rq 4).length < 64 ∧ ¬ ((queued (List.replicate 64 ready)).rq 4).length < 64 ∧
    (queued [ready]).rq 4 = ready :: [] ∧ ready.filled = true ∧ ((queued [awaited]).rq 4).head? = some awaited ∧ awaited.filled = false ∧
    ((queued []).rq 4).head? = none ∧ (queued [ready, awaited, ready]).rq 4 = [ready] ++ awaited :: [ready] := by decide
theorem witness_QueueBranches :
    ApReady (queued [ready]) ∧ (7#5).toNat < 8 ∧ (queued [ready]).rq 4 = ready :: [] ∧ ready.val ≠ 0 ∧
    (queued [{ ready with val := 0 }]).rq 4 = { ready with val := 0 } :: [] ∧
    ((queued [awaited]).rq 4).head? = some awaited ∧ awaited.filled = false := by decide

/-- A barrier of the given number of members, of which some others have arrived. -/
def gathering (members others : Nat) (arrived : Bool) : State :=
  withBarrier user 5 { Barrier.reset with members := members, others := others, arrived := arrived }
theorem witness_BarrierWords :
    let lastOne := gathering 3 2 false
    let early := gathering 3 1 false
    let waiting := gathering 3 1 true
    ApReady lastOne ∧ (5#3).toNat < 6 ∧ (barrierAt lastOne 5).arrived = false ∧ (barrierAt lastOne 5).released = false ∧
    (barrierAt lastOne 5).members ≤ (barrierAt lastOne 5).others + 1 ∧
    ApReady early ∧ (barrierAt early 5).arrived = false ∧ (barrierAt early 5).released = false ∧
    (barrierAt early 5).others + 1 < (barrierAt early 5).members ∧
    waiting.cs ≠ .none ∧ (barrierAt waiting 5).arrived = true ∧ (barrierAt waiting 5).members ≤ (barrierAt waiting 5).others + 2 ∧
    early.cs ≠ .none ∧ ¬ ((barrierAt early 5).arrived = true) ∧ inBarrier 5 ⟨0, 0, 0⟩ early.c ∧ ¬inBarrier 5 ⟨1, 0, 0⟩ early.c ∧
    (let out := withBarrier user 5 { Barrier.reset with members := 3, released := true, out := [(.core, [7])] }
     ApReady out ∧ (barrierAt out 5).released = true) ∧ inBarrier 3 ⟨0, 9, 15⟩ early.c ∧ ¬inBarrier 3 ⟨0, 9, 0⟩ early.c ∧
    inBarrier 2 ⟨0, 0, 0⟩ early.c ∧ ¬inBarrier 2 ⟨0, 9, 0⟩ early.c ∧ early.saved = [] ∧ early.sh = none ∧ early.dev.trctl = 0 := by
  unfold inBarrier
  decide

theorem witness_SignalAdds :
    ApReady user ∧ pointChecks (user.ra 1) { a := true } (counterAddr (user.ra 1) 0) 8 = none ∧
    ∃ loc u, Reaches user (wordOf (counterAddr (user.ra 1) 0)) 8 .syncWrite false loc u ∧
      (plainBytes loc u && decide (loc % 8 = 0)) = true :=
  ⟨rfl, by decide, okWith_reaches (by decide)⟩
theorem witness_WaitForCounter :
    ApReady user ∧ pointChecks (user.ra 1) { l := true } (counterAddr (user.ra 1) 0) 8 = none ∧ user.dev.trctl = 0 ∧
    (∃ loc u, Reaches user (wordOf (counterAddr (user.ra 1) 0)) 8 .syncRead false loc u ∧
      decide ((user.rx 2).toNat ≤ loadValue u loc 8) = true) ∧
    (∃ loc u, Reaches (user.wx 2 1) (wordOf (counterAddr (user.ra 1) 0)) 8 .syncRead false loc u ∧
      decide (((user.wx 2 1).rx 2).toNat ≤ loadValue u loc 8) = false) ∧
    (let s := { user with ir := 0x1820A000, c := { user.c with wait := 10 } }
     s.cs = .active ∧ s.c.wait = 10 ∧ waitcFields s.ir = some (2, 1, 0)) :=
  ⟨rfl, by decide, rfl, okWith_reaches (by decide),
    (okWith_reaches (p := fun loc u => !decide (((user.wx 2 1).rx 2).toNat ≤ loadValue u loc 8)) (by decide)).imp
      fun _ h => h.imp fun _ h => ⟨h.1, by simpa using h.2⟩, by decide⟩
/-- A FENCE that has met a store of another context of its group, which a FENCE.rel at QUAD came before. -/
theorem witness_FenceWords :
    let n : RelNote := { launch := 0, berth := 0, die := 0, rels := [(2, [7])] }
    let s : State := { user with c := { user.c with seen := [n] } }
    ApReady s ∧ n ∈ s.c.seen ∧ (2, [7]) ∈ n.rels ∧ within s n 2 = true ∧ within s n 5 = true ∧ (3#2).getLsbD 0 = true ∧
    (3#2).getLsbD 1 = true ∧ (1#2).getLsbD 1 = false ∧ (2#2).getLsbD 0 = false ∧ Path.copy ∈ maskPaths 2 := by decide
theorem witness_TrapEntry : ApReady user ∧ user.cs = .active := ⟨rfl, rfl⟩
theorem witness_TrapReturn :
    let back := { supervisor with c := { supervisor.c with sys := { supervisor.c.sys with tpc := 0x4000 } } }
    let odd := { supervisor with c := { supervisor.c with sys := { supervisor.c.sys with tpc := 0x4002 } } }
    ApReady back ∧ back.prv = true ∧ resumedChannel back = none ∧ resumedReport back = none ∧ back.c.sys.tpc.toNat % 4 = 0 ∧
    ApReady user ∧ user.prv = false ∧
    ApReady odd ∧ odd.prv = true ∧ resumedChannel odd = none ∧ resumedReport odd = none ∧ odd.c.sys.tpc.toNat % 4 ≠ 0 := by decide
theorem witness_TrapRoundTrip :
    (user.trapInfo true 0x05 0).tpc = user.c.pc ∧ user.c.pc.toNat % 4 = 0 ∧ user.c.lastFlt = none ∧ user.c.lastRep = none ∧
    user.pfxp = user.c.pfxLive ∧ user.c.mat.issues = [] := by decide
theorem witness_ArrivalHandling :
    let due := { withStatus 8 user with c := { (withStatus 8 user).c with arrivals := 1 } }
    let inside := withStatus 24 user
    due.cs = .active ∧ 0 < due.c.arrivals ∧ due.prv = false ∧ due.aie = true ∧ due.ain = false ∧
    supervisor.prv = true ∧ user.aie = false ∧ inside.ain = true ∧ user.c.arrivals = 0 ∧
    ApReady inside ∧ inside.prv = false ∧ inside.c.sys.arpc.toNat % 4 = 0 ∧ ApReady user ∧ user.ain = false ∧ ApReady supervisor := by
  decide
theorem witness_SystemRegisters :
    (∃ r, r ∈ sysTable ∧ r.1 < 0x20) ∧ ApReady supervisor ∧ supervisor.prv = true ∧ ApReady user ∧ 0x20 ≤ (0x020#12).toNat ∧ user.prv = false ∧
    ¬lastWord user ∧ ¬lastWord supervisor ∧ (0x03, BitVec.allOnes 64) ∈ userWritable ∧ (∃ r, r ∈ supervisorWritable ∧ r.1 < 0x20) ∧
    (∃ k, k < 15 ∧ (0x10E : Nat) = 0x100 + k ∧ debugKeeps 14 = debugKeeps k) ∧ (0x10F : Nat) ∈ sysFixed ∧ (0x10 : Nat) < 0x20 ∧
    (let s := user.wx 1 15
     ApReady s ∧ ¬lastWord s ∧ vfmtOk (s.rx 1) = true ∧ vfmtBreaksLoop s (s.rx 1) = false) ∧ vfmtOk ((user.wx 1 0xF000).rx 1) = false ∧
    vfmtBreaksLoop ((vlooping 1 user).wx 1 0) (((vlooping 1 user).wx 1 0).rx 1) = true := by
  unfold lastWord
  refine ⟨⟨_, List.mem_cons_self, by decide⟩, rfl, ?_, rfl, ?_, ?_, ?_, ?_, List.mem_cons_self, ⟨_, List.mem_cons_self, by decide⟩, ⟨14, by
    decide, rfl, rfl⟩, ?_⟩ <;> decide +kernel
theorem witness_StatusAndFlags : ApReady user ∧ user.prv = false ∧ ApReady supervisor ∧ supervisor.prv = true := by decide
theorem witness_InvalidateWords :
    let s := { supervisor with ir := 0x1A00D002, c := { supervisor.c with wait := 6 } }
    ApReady supervisor ∧ supervisor.prv = true ∧ (0#2).getLsbD 1 = false ∧ (1#2).getLsbD 1 = false ∧ (2#2).getLsbD 1 = true ∧
    (3#2).getLsbD 1 = true ∧ s.cs = .active ∧ s.c.wait = 6 ∧ xinvFields s.ir = some (1, 2) ∧ ApReady user ∧ user.prv = false := by decide
theorem witness_DecodeEncode : (Instr.add 31 31 31).wf ∧ encode? (.add 31 31 31) = some 0x05FFFC00 := by decide
theorem witness_DecodeUnique : decode 0x05FFFC00 = .ok (.add 31 31 31) := rfl

/-! Vector words: a context inside a vector loop of n elements, with the 32-bit float format of 128 elements. -/

def strip (n : Word) : State :=
  { user with
    c := { user.c with
      vloop := { active := true, n := n, strip := 0, vlmax := 128, first := 0x3000, last := 0x5000 }
      sys := { user.c.sys with vfmt := 15 } } }
/-- The same with another VFMT. -/
def formatted (f : Word) (n : Word) : State := { strip n with c := { (strip n).c with sys := { (strip n).c.sys with vfmt := f } } }
/-- With register r holding an image. -/
def holding (r : Nat) (img : VReg) (s : State) : State := { s with c := { s.c with v := upd s.c.v r img } }
/-- The same outside a vector loop, and with a format. -/
def noLoop (f : Word) : State := { formatted f 1 with c := { (formatted f 1).c with vloop := VLoop.off } }

/-- Every element that a word acts on lies below VL. -/
theorem acts_lt {s : State} {e : Nat} (h : acts s e = true) : e < vlNow s := by
  simp only [acts, EpEnv.live, Bool.and_eq_true, decide_eq_true_eq] at h
  exact h.1.1

theorem witness_VectorInteger :
    (∃ r, r ∈ laneRows) ∧ (∃ r, r ∈ lane1Rows) ∧ (∃ r, r ∈ laneXRows) ∧ (∀ r ∈ laneRows, ∀ f ∈ [0#4, 7#4], (r.1 0 0 8 16 24 f).wf) ∧
    (∀ r ∈ lane1Rows, (r.1 0 1 8 16 6).wf) ∧ (Instr.vid 0 0 8 6).wf ∧ (∀ r ∈ laneXRows, (r.1 0 0 8 16 3 1 6).wf) ∧
    (Instr.vbcast 0 0 8 3 1 6).wf ∧
    (∀ t ∈ [0#1, 1#1], epReady (laneWord t (vreg 8 32) [vreg 16 32, vreg 24 32]) (strip 2) = true) ∧
    epReady (laneWord 0 (vreg 8 4) [vreg 16 4, vreg 24 4]) (noLoop 0) = true ∧
    epReady (laneWord 1 (vreg 8 32) [vreg 16 32]) (strip 2) = true ∧ epReady (laneWord 0 (vreg 8 32) []) (strip 2) = true ∧
    entryMissing (strip 2) 3 = true :=
  ⟨⟨_, List.mem_cons_self⟩, ⟨_, List.mem_cons_self⟩, ⟨_, List.mem_cons_self⟩, by decide⟩
theorem witness_scalar_operand :
    (∃ u, ScalarOperand 3 1 7 ((strip 2).wq 3 [ready]) u) ∧ ScalarOperand 3 0 ((strip 2).rx 3) (strip 2) (strip 2) :=
  ⟨⟨_, [], by decide, rfl⟩, rfl, rfl⟩
theorem witness_VectorMultiplyAdd :
    (∀ f ∈ [0#4, 7#4], (Instr.vmacc 0 0 8 16 24 f).wf) ∧ (Instr.vwmacc 0 0 8 16 24 4).wf ∧ (Instr.vxVmacc 0 0 8 16 3 0 6).wf ∧
    (Instr.vxVwmacc 0 0 8 16 3 1 4).wf ∧ epReady (laneWord 0 (vreg 8 32) [vreg 16 32, vreg 24 32, vreg 8 32]) (strip 2) = true ∧
    epReady (laneWord 0 (vreg 8 32) [vreg 16 16, vreg 24 16, vreg 8 32]) (strip 2) = true ∧
    epReady (laneWord 0 (vreg 8 32) [vreg 16 32, vreg 8 32]) (strip 2) = true ∧
    epReady (laneWord 0 (vreg 8 32) [vreg 16 16, vreg 8 32]) (strip 2) = true := by decide
theorem witness_VectorFloat :
    (∃ r, r ∈ floatRows) ∧ (∃ r, r ∈ floatXRows) ∧ (∀ r ∈ floatRows, ∀ f ∈ [13#4, 15#4], (r.1 0 0 8 16 24 f).wf) ∧
    (Instr.vfabs 0 0 8 16 15).wf ∧ (Instr.vfmacc 0 0 8 16 24 15).wf ∧ (Instr.vfwmacc 0 0 8 16 24 13).wf ∧
    (∀ r ∈ floatXRows, (r.1 0 0 8 16 3 1 15).wf) ∧ (Instr.vxVfmacc 0 0 8 16 3 0 15).wf ∧
    epReady (laneWord 0 (vreg 8 32) [vreg 16 32, vreg 24 32]) (strip 2) = true ∧ epReady (laneWord 0 (vreg 8 32) [vreg 16 32]) (strip 2) = true ∧
    epReady (laneWord 0 (vreg 8 32) [vreg 16 32, vreg 24 32, vreg 8 32]) (strip 2) = true ∧
    epReady (laneWord 0 (vreg 8 32) [vreg 16 16, vreg 24 16, vreg 8 32]) (strip 2) = true ∧
    epReady (laneWord 0 (vreg 8 32) [vreg 16 32, vreg 8 32]) (strip 2) = true :=
  ⟨⟨_, List.mem_cons_self⟩, ⟨_, List.mem_cons_self⟩, by decide⟩

/-- 1.0 and 2.0 in each format, with an exact sum, difference, product and quotient that are not zero. -/
theorem witness_FloatArithmetic :
    (1 : Nat) ≠ 0 ∧ (∃ f, f ∈ laneFloats) ∧
    (∀ p ∈ [(fmtF16, 0x3C00, 0x4000), (fmtBf16, 0x3F80, 0x4000), (fmtF32, 0x3F800000, 0x40000000)],
      finite (p.1.decode p.2.1) = true ∧ finite (p.1.decode p.2.2) = true ∧
      let x := ratOf (p.1.decode p.2.1)
      let y := ratOf (p.1.decode p.2.2)
      x + y ≠ 0 ∧ x - y ≠ 0 ∧ x * y ≠ 0 ∧ x ≠ 0 ∧ y ≠ 0 ∧ x * y + y ≠ 0 ∧ x - x * y ≠ 0) ∧
    (let v := ratOf (fmtF16.decode 0x3C00) * ratOf (fmtF16.decode 0x4000) + ratOf (fmtF32.decode 0x3F800000)
     finite (fmtF32.decode 0x3F800000) = true ∧ v ≠ 0) :=
  ⟨by decide, ⟨_, List.mem_cons_self⟩, by decide +kernel, by decide +kernel⟩
theorem witness_FloatSpecialCases :
    (∃ f, f ∈ laneFloats) ∧ fmtF32.decode 0x7FC00000 = .nan ∧ fmtF32.decode 0x7F800000 = .inf false ∧ fmtF32.decode 0xFF800000 = .inf true ∧
    fmtF32.decode 0x3F800000 ≠ .nan ∧ (∃ m e, fmtF32.decode 0x3F800000 = .fin false m e) ∧ (∃ e, fmtF32.decode 0x80000000 = .fin true 0 e) ∧
    finite (fmtF32.decode 0x3F800000) = true ∧ finite (fmtF32.decode 0x40000000) = true ∧
    ratOf (fmtF32.decode 0x3F800000) < ratOf (fmtF32.decode 0x40000000) := by
  refine ⟨⟨_, List.mem_cons_self⟩, ?_, ?_, ?_, ?_, ⟨_, _, rfl⟩, ⟨_, rfl⟩, ?_, ?_, ?_⟩ <;> decide +kernel
/-- Zero sums and products of every sign, 0 divided by 1, infinities against zeros in a product, and −0 beside +0. -/
theorem witness_FloatSpecialCases_exact :
    let z (b : Nat) := valueOf fmtF32 b
    (∀ b ∈ [0, 0x80000000, 0x3F800000, 0xBF800000], finite (fmtF32.decode b) = true) ∧
    z 0x3F800000 + z 0xBF800000 = 0 ∧ z 0x80000000 + z 0x80000000 = 0 ∧ z 0x3F800000 - z 0x3F800000 = 0 ∧ z 0x80000000 - z 0 = 0 ∧
    z 0x80000000 * z 0x3F800000 = 0 ∧ z 0 = 0 ∧ z 0x3F800000 ≠ 0 ∧ minus fmtF32 0x80000000 = true ∧ minus fmtF32 0 = false ∧
    -(z 0x3F800000 * z 0x3F800000) + z 0x3F800000 = 0 ∧ z 0x3F800000 * z 0x3F800000 + z 0xBF800000 = 0 ∧
    (∃ p, fmtF32.decode 0x7F800000 = .inf p) ∧ (∃ p e, fmtF32.decode 0 = .fin p 0 e) ∧ ¬(∃ p e, fmtF32.decode 0x3F800000 = .fin p 0 e) ∧
    orderOf (fmtF32.decode 0xFF800000) < orderOf (fmtF32.decode 0) := by
  have one : fmtF32.decode 0x3F800000 = .fin false (2 ^ 23) (-23) := by decide +kernel
  refine ⟨?_, ?_, ?_, ?_, ?_, ?_, ?_, ?_, ?_, ?_, ?_, ?_, ⟨_, rfl⟩, ⟨_, _, rfl⟩, fun ⟨p, e, h⟩ => by rw [one] at h; simp at h, ?_⟩ <;> decide +kernel
theorem witness_CompareWords :
    (∃ r, r ∈ compareRows) ∧ (∃ r, r ∈ predRows) ∧ (∀ r ∈ compareRows, (r.1 0 7 8 16 6).wf ∧ (r.1 0 7 8 16 15).wf) ∧
    fmtInt 6 = true ∧ fmtFloat 15 = true ∧ (∀ r ∈ predRows, (r.1 0 7 1 2).wf) ∧
    epReady (predicateWord [vreg 8 32, vreg 16 32]) (strip 2) = true ∧ epReady (predicateWord []) (strip 2) = true :=
  ⟨⟨_, List.mem_cons_self⟩, ⟨_, List.mem_cons_self⟩, by decide⟩

/-- Values inside and outside a destination's range, at its ends, and beyond a float format's. -/
theorem witness_ConversionRounding :
    plainFmt 6 = .int 32 true ∧ plainFmt 13 = .flt fmtF16 ∧ plainFmt 15 = .flt fmtF32 ∧ 0x7F7FFFFF < 2 ^ fmtF32.bits ∧
    finite (fmtF32.decode 0x7F7FFFFF) = true ∧ intBottom 6 ≤ 2 ^ 31 - 1 ∧ 2 ^ 31 - 1 ≤ intTop 6 ∧ ¬ 2 ^ 31 ≤ intTop 6 ∧
    overflowBound fmtF16 < absRat (ratOf (.fin false 1 17)) ∧ 11 ≤ (13#4).toNat := by decide +kernel

/-- In e5m2 and e2m1: a value between two patterns, one of them the least normal; the largest finite value; one beyond it and below one unit
more, one at that unit and one past it. -/
theorem witness_ConversionRounding_float :
    plainFmt 12 = .flt fmtE5m2 ∧ plainFmt 8 = .flt fmtE2m1 ∧ (12#4).toNat < 16 ∧ 11 ≤ (12#4).toNat ∧ fmtE5m2.top = .special ∧ fmtE2m1.top = .normal ∧
    (∀ f ∈ [fmtE5m2, fmtE2m1], ∀ l ∈ [0, 2 ^ f.mb - 1, 2 ^ f.mb], l + 1 < f.sign ∧ finite (f.decode (l + 1)) = true ∧
      let x := (valueOf f l + valueOf f (l + 1)) / 2
      valueOf f l ≤ x ∧ x < valueOf f (l + 1)) ∧
    (∀ p ∈ [(fmtE5m2, 0x7B), (fmtE2m1, 7)], p.2 < p.1.sign ∧ finite (p.1.decode p.2) = true ∧
      (∀ b ∈ List.range p.1.sign, finite (p.1.decode b) = true → b ≤ p.2) ∧
      let L := valueOf p.1 p.2
      let next := L + (L - valueOf p.1 (p.2 - 1))
      L < (L + next) / 2 ∧ (L + next) / 2 < next ∧ next < 2 * next) ∧
    absRat (ratOf (.fin true 15 12)) = 61440 ∧ valueOf fmtE5m2 0x7B < 61440 := by decide +kernel

/-- One element that converts, and one that traps. -/
theorem witness_VectorConvert :
    (Instr.vcvt 0 0 8 16 6 15 3 0).wf ∧ epReady (laneWord 0 (vreg 8 32) [vreg 16 32]) (strip 1) = true ∧
    (∀ e, acts (strip 1) e = true → (plainFmt 6).round 0 3 (randomBits (strip 1) 0 e)
      ((plainFmt 15).decode (readElem (strip 1) (vreg 16 32) e)) ≠ none) ∧
    (let s := holding 16 0x7FC00000 (strip 1)
     epReady (laneWord 0 (vreg 8 32) [vreg 16 32]) s = true ∧ acts s 0 = true ∧
     (plainFmt 6).round 0 3 (randomBits s 0 0) ((plainFmt 15).decode (readElem s (vreg 16 32) 0)) = none) ∧
    (Instr.vcvtBlock 0 0 8 16 15 3 0 0).wf ∧ (Instr.vcvtBlock 0 0 8 16 3 15 0 0).wf ∧ fmtFloat 15 = true ∧ fmtFloat 3 = false := by
  refine ⟨by decide, by decide, ?_, by decide +kernel⟩
  intro e h
  obtain rfl : e = 0 := by have := acts_lt h; have : vlNow (strip 1) = 1 := by decide
                           omega
  decide +kernel

/-- Scales that are as many as the word needs, and that are not: VFMT's block field names mxf8a, and its scale count is 0 or 9. -/
theorem witness_VectorConvert_block :
    let word : EpWord := { laneWord 0 (vreg 8 32) [vreg 16 8] with bad := field (noLoop 0x4000).c.sys.vfmt 12 4 != 4 }
    let back : EpWord := { laneWord 0 (vreg 8 8) [vreg 16 32] with bad := field (noLoop 0x4000).c.sys.vfmt 12 4 != 4 }
    let short := noLoop 0x904000
    epReady word (noLoop 0x4000) = true ∧ epReady back (noLoop 0x4000) = true ∧
    suppliedCount (noLoop 0x4000) (blocksFor 3 (vlNow (noLoop 0x4000))) = blocksFor 3 (vlNow (noLoop 0x4000)) ∧
    epReady word short = true ∧ suppliedCount short (blocksFor 3 (vlNow short)) ≠ blocksFor 3 (vlNow short) := by decide

/-- A loop over elements ends as it is claimed to. -/
theorem loop_ends {α : Type} {x : α × State × Option Stop} {o : Option Stop} (h : x.2.2 = o) : ∃ g u, x = (g, u, o) :=
  ⟨x.1, x.2.1, by subst h; rfl⟩

/-- The loop has stopped at an element with a trap of a cause. -/
def stopsWith (e : Nat) (c : BitVec 8) : Option Stop → Bool
  | some (.trap e' r) => e' == e && r.cause == c
  | _ => false
theorem loop_traps {α : Type} {x : α × State × Option Stop} {e : Nat} {c : BitVec 8} (h : stopsWith e c x.2.2 = true) :
    ∃ g u r, x = (g, u, some (.trap e r)) ∧ r.cause = c := by
  obtain ⟨g, u, o⟩ := x
  unfold stopsWith at h
  split at h
  · simp only [Bool.and_eq_true, beq_iff_eq] at h
    obtain ⟨rfl, rfl⟩ := h
    exact ⟨g, u, _, by simp_all, rfl⟩
  · exact absurd h (by decide)

/-! What stops a vector word before its effect. -/

/-- The word of VADD v8, v16, v24 under the 32-bit format. -/
def addWord : EpWord := laneWord 0 (vreg 8 32) [vreg 16 32, vreg 24 32]
/-- A convoy that is open with some words, so many of which are of class arith. -/
def convoyOf (total arith : Nat) (s : State) : State :=
  { s with c := { s.c with convoy := { Convoy.fresh with opened := true, total := total, arith := arith } } }
/-- A transient window over a register, whose word stood at 0x3000, with so many results after it. -/
def windowed (r results : Nat) (s : State) : State :=
  { s with c := { s.c with windows := [{ regs := [(r, 0, .uniform)], addr := 0x3000, results := results, consumed := false }] } }
/-- With a hold on a register. -/
def holdOn (r : Nat) (s : State) : State := { s with c := { s.c with hold := upd s.c.hold r 1 } }

/-- Misaligned registers; a full convoy; a convoy with two arithmetic words; a result read too late; one lost as v8 is written again, and
one lost as a third result comes; and a register that is held. -/
theorem witness_WordStops :
    operandsOk (vlmaxNow (formatted 0 1)) (laneWord 0 (vreg 9 32) []) = false ∧ addWord.bad = false ∧
    operandsOk (vlmaxNow (strip 2)) addWord = true ∧ payloadOk (strip 2) addWord = true ∧ (strip 2).ir.getLsbD 31 = false ∧
    (∀ n ∈ [(8, 0), (7, 2), (7, 1)], ConvoyOk (convoyOf n.1 n.2 (strip 2)).c.convoy ∧ (convoyOf n.1 n.2 (strip 2)).c.convoy.opened = true ∧
      (convoyOf n.1 n.2 (strip 2)).c.convoy.total = n.1 ∧ (convoyOf n.1 n.2 (strip 2)).c.convoy.arith = n.2) ∧
    (∃ v, (windowed 16 3 (strip 2)).c.windows = [] ++ v :: [] ∧ 3 ≤ v.results ∧ ∃ r ∈ v.regs, r.1 ∈ addWord.readRegs (vlmaxNow (strip 2))) ∧
    (∃ v, (windowed 8 0 (strip 2)).c.windows = [] ++ v :: [] ∧ v.consumed = false ∧ v.results < 3 ∧
      (¬∃ r ∈ v.regs, r.1 ∈ addWord.readRegs (vlmaxNow (strip 2))) ∧ ∃ r ∈ v.regs, r.1 ∈ writeRegs (windowed 8 0 (strip 2)) addWord) ∧
    (∃ v, (windowed 3 2 (strip 2)).c.windows = [] ++ v :: [] ∧ v.consumed = false ∧ v.results = 2 ∧ addWord.dst.isSome = true ∧
      ¬∃ r ∈ v.regs, r.1 ∈ addWord.readRegs (vlmaxNow (strip 2))) ∧
    (strip 2).c.windows = [] ∧ (∃ n ∈ addWord.readRegs (vlmaxNow (strip 2)) ++ writeRegs (holdOn 24 (strip 2)) addWord,
      nth (holdOn 24 (strip 2)).c.hold n 0 ≠ 0) := by
  unfold ConvoyOk
  refine ⟨?_, ?_, ?_, ?_, ?_, ?_, ⟨_, rfl, ?_⟩, ⟨_, rfl, ?_⟩, ⟨_, rfl, ?_⟩, ?_, ⟨24, ?_⟩⟩ <;> decide +kernel

/-- A first element, and then one past the limit of a1. -/
def trimmed : State := (strip 2).wa 1 { everywhere 0x8000 with limit := 0x8004 }
/-- Three dimensions of 2 elements each, for a sweep. -/
def swept : State := { strip 8 with c := { (strip 8).c with d := Vector.replicate 6 { len := 2, stride := 4 } } }

theorem witness_VectorLoads :
    (Instr.vld 0 8 1 0 0 0 6).wf ∧ epReady (vldForm (strip 1) 0 8 1 0 0 0 6).y (strip 1) = true ∧
    wordChecks (strip 1) ((strip 1).ra 1) false 0 32 = none ∧ (Instr.vld 0 8 1 1 0 0 6).wf ∧
    wordChecks (strip 1) ((strip 1).ra 1) false 1 32 = none ∧
    (∃ got u, loadLoop (strip 1) ((strip 1).ra 1) 32 0 (vldForm (strip 1) 0 8 1 0 0 0 6).addr = (got, u, none)) ∧
    (∃ got u r, loadLoop trimmed (trimmed.ra 1) 32 0 (vldForm trimmed 0 8 1 0 0 0 6).addr = (got, u, some (.trap 1 r)) ∧ r.cause = 7) ∧
    (Instr.vgath 0 8 1 16 0 6).wf ∧ epReady (vgathForm (strip 1) 0 8 1 16 0 6).y (strip 1) = true ∧
    (∃ got u, loadLoop (strip 1) ((strip 1).ra 1) 32 0 (vgathForm (strip 1) 0 8 1 16 0 6).addr = (got, u, none)) := by
  refine ⟨?_, ?_, ?_, ?_, ?_, loop_ends (by decide +kernel), loop_traps (by decide +kernel), ?_, ?_, loop_ends (by decide +kernel)⟩ <;>
    decide +kernel
theorem witness_VectorLoads_first_fault :
    (Instr.vldff 0 8 1 0 0 0 6).wf ∧ epReady (vldForm (strip 1) 0 8 1 0 0 0 6).y (strip 1) = true ∧
    (∃ got u r, loadLoop trimmed (trimmed.ra 1) 32 0 (vldForm trimmed 0 8 1 0 0 0 6).addr = (got, u, some (.trap 1 r)) ∧ r.cause = 7) ∧
    (7 : BitVec 8) ∈ [0x05#8, 0x06, 0x07, 0x08, 0x09] ∧ (∃ k, k < 1 ∧ (epEnv trimmed).live k = true) ∧
    (let s := (strip 1).wa 1 { everywhere 0x8000 with limit := 0x8000 }
     ∃ got u r, loadLoop s (s.ra 1) 32 0 (vldForm s 0 8 1 0 0 0 6).addr = (got, u, some (.trap 0 r)) ∧ r.cause = 7) :=
  ⟨by decide +kernel, by decide +kernel, loop_traps (by decide +kernel), by decide, ⟨0, by decide +kernel⟩, loop_traps (by decide +kernel)⟩
theorem witness_VectorLoads_elements :
    (∃ g u, loadLoop (strip 1) ((strip 1).ra 1) 32 0 (vldForm (strip 1) 0 8 1 0 0 0 6).addr = (g, u, none)) ∧
    (loadLoop (strip 1) ((strip 1).ra 1) 32 0 (vldForm (strip 1) 0 8 1 0 0 0 6).addr).1 ≠ [] ∧
    1 < (swept.rd 0).len.toNat ∧ 1 < (swept.rd 1).len.toNat ∧ 1 < (swept.rd 2).len.toNat ∧
    ctrlOff 0x8000 = none ∧ (epEnv swept).sbase.toNat + 7 = 1 + (swept.rd 0).len.toNat * (1 + (swept.rd 1).len.toNat * 1) :=
  ⟨loop_ends (by decide +kernel), by decide +kernel, by decide +kernel⟩
/-- A sweep of every number of dimensions from either set, at its first element, and past its last. -/
theorem witness_VectorLoads_sweep :
    ∀ h ∈ [1#3, 2#3, 3#3, 4#3, 5#3, 6#3],
      let b := if h.toNat ≤ 3 then 0 else 3
      let len (k : Nat) : Nat := if k < h.toNat - b then (swept.rd (b + k)).len.toNat else 1
      1 ≤ h.toNat ∧ h.toNat ≤ 6 ∧ 0 < len 0 ∧ 0 < len 1 ∧ 0 < len 2 ∧ (epEnv swept).sbase.toNat + 0 = 0 + len 0 * (0 + len 1 * 0) ∧
      len 0 * len 1 * len 2 ≤ (epEnv swept).sbase.toNat + 8 := by decide +kernel
theorem witness_VectorStores :
    (Instr.vst 0 8 1 0 0 0 6).wf ∧ epReady (vstForm (strip 1) 0 8 1 0 0 0 6).y (strip 1) = true ∧
    wordChecks (strip 1) ((strip 1).ra 1) false 0 32 = none ∧ (Instr.vscat 0 8 1 16 0 6).wf ∧
    epReady (vscatForm (strip 1) 0 8 1 16 0 6).y (strip 1) = true ∧
    (let x := storeLoop (strip 1) ((strip 1).ra 1) 32 0 (vstForm (strip 1) 0 8 1 0 0 0 6).addr
     x.2.2 = none ∧ (∀ g ∈ x.1, ctrlOff g.2 = none) ∧ MemoriesOk x.2.1 ∧ BufferOk x.2.1) ∧
    (let x := storeLoop trimmed (trimmed.ra 1) 32 0 (vstForm trimmed 0 8 1 0 0 0 6).addr
     stopsWith 1 7 x.2.2 = true ∧ (∀ g ∈ x.1, ctrlOff g.2 = none) ∧ MemoriesOk x.2.1 ∧
      BufferOk x.2.1) ∧
    (strip 1).cs = .active ∧ MemoriesOk (strip 1) ∧ BufferOk (strip 1) ∧ epReady (vkWord false) (strip 1) = true := by
  unfold MemoriesOk BufferOk
  decide +kernel
theorem witness_ChamberPermutes :
    (Instr.vperm 0 0 8 16 24 6).wf ∧ epReady (classWord .chamber 0 (vreg 8 32) [vreg 16 32, vreg 24 16]) (strip 2) = true ∧
    epReady (classWord .chamber 0 (vreg 8 16) [vreg 16 16]) (strip 2) = true ∧ (4 : Nat) ∈ [4, 8, 16, 32] ∧
    2 ^ 0 * (4096 / 4) ≤ 1024 ∧ 1023 < 2 ^ 0 * (4096 / 4) ∧ 2 ^ 3 * (4096 / 32) ≤ 1024 ∧ 1023 < 2 ^ 3 * (4096 / 32) ∧
    (Instr.vscan 0 0 8 16 6).wf ∧ fmtInt 6 = true ∧ (Instr.vscan 0 0 8 16 15).wf ∧ fmtFloat 15 = true ∧
    epReady (classWord .chamber 0 (vreg 8 32) [vreg 16 32]) (strip 2) = true := by decide +kernel
theorem witness_Reductions :
    (∃ r, r ∈ reduceRows) ∧ (∀ r ∈ reduceRows, (r.1 0 0 8 16 0 6).wf ∧ (r.1 0 0 8 16 7 6).wf) ∧ fmtInt 6 = true ∧
    epReady (classWord .chamber 0 (vreg 8 32) [vreg 16 32]) (strip 2) = true ∧ ((strip 2).rq 7).length < 64 ∧
    (Instr.vredsum 0 0 8 16 4 15).wf ∧ fmtFloat 15 = true ∧
    (let s := (strip 2).wq 4 (List.replicate 64 ready)
     epReady (classWord .chamber 0 (vreg 8 32) [vreg 16 32]) s = true ∧ 64 ≤ (s.rq 4).length) ∧
    (∃ f, f ∈ laneFloats) ∧ (∀ x ∈ [0x3F800000, 0x40000000], finite (fmtF32.decode x) = true) ∧
    [0x3F800000, 0x40000000].foldr (fun x (acc : Rat) => ratOf (fmtF32.decode x) + acc) 0 ≠ 0 := by
  refine ⟨⟨_, List.mem_cons_self⟩, ?_, ?_, ?_, ?_, ?_, ?_, ?_, ⟨_, List.mem_cons_self⟩, ?_, ?_⟩ <;> decide +kernel

/-- VFMT inside a vector loop whose VLMAX it keeps, and one it would change; a VLOOP in no loop and in a loop that ends with it. -/
theorem witness_VectorControl :
    (Instr.vfmt 0 15 0 0 0).wf ∧ vlmaxOf 15 = (strip 1).c.vloop.vlmax ∧ epReady (vkWord false) (strip 1) = true ∧
    (strip 1).c.vloop.active = true ∧ vlmaxOf (vfmtValue 0 0 0 0) ≠ (strip 1).c.vloop.vlmax ∧
    epReady (vkWord false) user = true ∧ user.c.vloop.active = false ∧ (∀ l, l < 3 → inBody (user.rdesc l) user.c.pc = false) ∧
    (let s := looping 0 0x3FF0 8 2 user
     epReady (vkWord false) s = true ∧ inBody (s.rdesc 0) s.c.pc = true ∧ descLast (s.rdesc 0) ≤ s.c.pc + 16) ∧
    (Instr.vpart 0 7).wf ∧ epReady { cls := .control } (strip 1) = true ∧ ¬lastWord (strip 1) := by
  unfold lastWord
  decide +kernel
theorem witness_SpecialFunctions :
    (∃ r, r ∈ specialRows) ∧ (∀ r ∈ specialRows, (r.1 0 0 8 16 13).wf ∧ (r.1 0 0 8 16 15).wf) ∧
    epReady (classWord .special 0 (vreg 8 32) [vreg 16 32]) (strip 2) = true ∧ (Instr.vrand 0 0 8 3 4 6).wf ∧
    epReady (classWord .special 0 (vreg 8 32) []) (strip 2) = true ∧ fmtF32.decode 0x7FC00000 = .nan ∧
    (∃ e, fmtF32.decode 0x80000000 = .fin true 0 e) ∧ fmtF32.decode 0x7F800000 = .inf false ∧ fmtF32.decode 0xFF800000 = .inf true ∧
    (∃ m e, fmtF32.decode 0xBF800000 = .fin true m e ∧ m ≠ 0) ∧ finite (fmtF32.decode 0x40800000) = true ∧
    ratOf (fmtF32.decode 0x40800000) ≠ 0 ∧ 0x40000000 < fmtF32.sign ∧ finite (fmtF32.decode 0x40000000) = true ∧
    ratOf (fmtF32.decode 0x40000000) ≠ 0 ∧
    ratOf (fmtF32.decode 0x40800000) = ratOf (fmtF32.decode 0x40000000) * ratOf (fmtF32.decode 0x40000000) := by
  refine ⟨⟨_, List.mem_cons_self⟩, ?_, ?_, ?_, ?_, ?_, ⟨_, rfl⟩, ?_, ?_, ⟨_, _, rfl, by decide +kernel⟩, ?_, ?_, ?_, ?_, ?_, ?_⟩ <;> decide
    +kernel

/-- Arguments in every range of the f32 algorithms, and exact cases of the short formats. -/
theorem witness_SpecialFunctions_ranges :
    let z (b : Nat) := valueOf fmtF32 b
    (∀ b ∈ [0x43000000, 0xC3200000, 0x3F800000, 0x4B800000, 0x41100000, 0x39000000, 0x39800000, 0x3F000000],
      finite (fmtF32.decode b) = true) ∧
    z 0x43000000 = 128 ∧ z 0xC3200000 = -160 ∧ z 0x3F800000 = 1 * 2 ^ (0 : Int) ∧ z 0x3F800000 = 1 * 4 ^ (0 : Int) ∧
    z 0x4B800000 = 2 ^ 24 ∧ z 0x41100000 = 9 ∧ absRat (z 0x39000000) < 1 / 2 ^ 12 ∧ absRat (z 0x39800000) = 1 / 2 ^ 12 ∧
    2 * z 0x3F000000 = (1 : Int) ∧
    ∀ p ∈ [(fmtF16, 0x3C00, 0x4000), (fmtBf16, 0x3F80, 0x4000)], finite (p.1.decode p.2.1) = true ∧ finite (p.1.decode p.2.2) = true ∧
      0 < valueOf p.1 p.2.1 ∧ p.2.2 < p.1.sign ∧ valueOf p.1 p.2.1 = (1 : Int) ∧ valueOf p.1 p.2.2 = 2 ^ (1 : Int) := by decide +kernel

/-! Copies. -/

/-- A copy of 1 KiB from 0x8000 to 0x4000_0000 in channel 2, with its counter at 0x8000_0000. -/
def moving : Channel :=
  { Channel.free with
    act := true, run := 1024, n1 := 1, n2 := 1, src := 0x8000, dst := 0x40000000, ctr := 0x80000000, user := true, pc := 0x3FFC }
/-- A gather of one row of 16 bytes, with its index at 0xC000_0000. -/
def gathering_ : Channel :=
  { moving with gth := true, run := 16, isz := 4, idx := 0xC0000000, tbl := everywhere 0x8000 }
/-- The same context with a command in channel 2. -/
def busy (c : Channel) : State := withChan user 2 c
/-- The operands of CPY and GTH: three registers over memory, and the lengths of two dimensions. -/
def boxed (run n : BitVec 32) : State :=
  let d0 : DReg := { len := run, stride := 16 }
  let d1 : DReg := { len := n, stride := 16 }
  { user with
    c := { user.c with a := Vector.replicate 16 (everywhere 0x8000), d := upd (Vector.replicate 6 d1) 0 d0 } }

theorem witness_CopyCommands :
    let whole := boxed 16 4
    let empty := boxed 0 4
    let huge := boxed 0x80000000 0x80000000
    let blind := whole.wa 3 { everywhere 0x8000 with perm := 0 }
    let odd := whole.wa 3 (everywhere 0x8004)
    let total (s : State) := (s.rd 0).len.toNat * (s.rd 1).len.toNat * (s.rd 2).len.toNat
    let src (s : State) := boxCheck (s.ra 3) { l := true, e := true } (s.rd 0).len.toNat (s.rd 1).len.toNat 16 (s.rd 2).len.toNat 16
    let dst (s : State) := boxCheck (s.ra 3) { s := true, e := true } (s.rd 0).len.toNat (s.rd 1).len.toNat 16 (s.rd 2).len.toNat 16
    ApReady whole ∧ (chanAt (busy moving) 2).act = true ∧ (chanAt whole 2).act = false ∧
    (∃ cause w, counterChecks (odd.ra 3) = some (cause, w)) ∧ (∃ cause w, counterChecks (blind.ra 3) = some (cause, w)) ∧
    counterChecks (whole.ra 3) = none ∧ 2 ^ 40 ≤ total huge ∧ 0 < total whole ∧ total whole < 2 ^ 40 ∧ (∃ p, src blind = some p) ∧
    src whole = none ∧ (∃ p, dst blind = some p) ∧ dst whole = none ∧ total empty = 0 := by
  refine ⟨rfl, ?_, ?_, ⟨_, _, rfl⟩, ⟨_, _, rfl⟩, ?_, ?_, ?_, ?_, Option.isSome_iff_exists.mp (by decide +kernel), ?_,
    Option.isSome_iff_exists.mp (by decide +kernel), ?_, ?_⟩ <;> decide +kernel
theorem witness_CopyCommands_gather :
    let whole := boxed 16 4
    let blind := whole.wa 3 { everywhere 0x8000 with perm := 0 }
    let odd := whole.wa 3 (everywhere 0x8002)
    let list (s : State) := boxCheck (s.ra 3) { l := true, e := true } ((s.rd 0).len.toNat * 4) 1 0 1 0
    let dst (s : State) := boxCheck (s.ra 3) { s := true, e := true } ((s.rd 0).len.toNat * (s.rd 1).len.toNat) 1 0 1 0
    (∃ p, list blind = some p) ∧ list odd = none ∧ (odd.ra 3).ptr.toNat % 4 ≠ 0 ∧ list whole = none ∧ (whole.ra 3).ptr.toNat % 4 = 0 ∧
    (∃ p, dst blind = some p) ∧ dst whole = none := by
  refine ⟨Option.isSome_iff_exists.mp (by decide +kernel), ?_, ?_, ?_, ?_, Option.isSome_iff_exists.mp (by decide +kernel), ?_⟩ <;> decide
    +kernel
theorem witness_CopyCommands_channel :
    let stopped := { moving with flt := true, cause := some (user.trapInfo true 0x08 0) }
    (∃ q, boxCheckAt AReg.zero { l := true } 0 1 1 0 1 0 = some q) ∧
    (let s := withStatus 1 (busy stopped)
     ApReady s ∧ s.prv = true ∧ (chanAt s 2).act = true ∧ (chanAt s 2).flt = true) ∧
    (let s := withStatus 1 (busy moving)
     s.prv = true ∧ ¬((chanAt s 2).act = true ∧ (chanAt s 2).flt = true)) ∧ user.prv = false ∧ (busy stopped).cs = .active ∧
    (chanAt (busy stopped) 2).flt = true ∧ (chanAt (busy stopped) 2).cause = some (user.trapInfo true 0x08 0) :=
  ⟨Option.isSome_iff_exists.mp (by decide +kernel), by decide +kernel⟩

theorem okWith_spec {α : Type} {r : Res α} {p : α → State → Bool} (h : okWith r p = true) : ∃ x u, r = .ok x u ∧ p x u = true := by
  unfold okWith at h
  split at h
  · exact ⟨_, _, rfl, h⟩
  · exact absurd h (by decide)
/-- A result is a trap of a cause, or a wait. -/
def trapWith {α : Type} (r : Res α) (c : BitVec 8) : Bool :=
  match r with
  | .trap i _ => i.cause == c
  | _ => false
theorem trapWith_spec {α : Type} {r : Res α} {c : BitVec 8} (h : trapWith r c = true) : ∃ i u, r = .trap i u ∧ i.cause = c := by
  unfold trapWith at h
  split at h
  · exact ⟨_, _, rfl, by simpa using h⟩
  · exact absurd h (by decide)
def waits {α : Type} (r : Res α) : Bool :=
  match r with
  | .wait _ _ => true
  | _ => false
theorem waits_spec {α : Type} {r : Res α} (h : waits r = true) : ∃ n u, r = .wait n u := by
  unfold waits at h
  split at h
  · exact ⟨_, _, rfl⟩
  · exact absurd h (by decide)

/-- The pieces of a chunk, as the claim names them. -/
def chunkPieces (c : Channel) : List Piece :=
  mergePieces 256 (piecesFrom (cpyAddr c.src c.run c.n1 c.ss1 c.ss2) c.run false 128 c.off (chunkEnd c))
    (piecesFrom (cpyAddr c.dst c.run c.n1 c.ds1 c.ds2) c.run true 128 c.off (chunkEnd c))
def plainPieces (l : List (Piece × Xlat)) (u : State) : Bool :=
  l.all (fun p => decide (ctrlOff p.2.loc = none) && (decide (p.2.loc + p.1.len ≤ coreLoc) || decide (coreLoc ≤ p.2.loc)))
    && u.mem.wf && u.c.scratch.wf
theorem plainPieces_spec {l : List (Piece × Xlat)} {u : State} (h : plainPieces l u = true) : PiecesPlain l ∧ MemoriesOk u := by
  simp only [plainPieces, Bool.and_eq_true, List.all_eq_true, Bool.or_eq_true, decide_eq_true_eq] at h
  exact ⟨h.1.1, h.1.2, h.2⟩

/-- The only chunk, the last one of several, and a source that is not mapped. -/
theorem witness_CopyTransfers :
    (∀ c ∈ [{ moving with run := 32 }, { moving with run := 1056, off := 1024 }],
      c.act = true ∧ c.flt = false ∧ c.gth = false ∧ c.off < chanTotal c ∧ chanAt (busy c) 2 = c ∧
      ∃ l u, checkPieces 2 c (chunkPieces c) (busy c) = .ok l u ∧ plainPieces l u = true) ∧
    (let c := { moving with src := 0x100000000 }
     ∃ r u, checkPieces 2 c (chunkPieces c) (busy c) = .trap r u ∧ r.cause = 0x08) ∧
    ∃ n u, checkPieces 2 moving (chunkPieces moving) (lentLine 0x8000 true (busy moving)) = .wait n u :=
  ⟨fun c hc => by
      refine ⟨?_, ?_, ?_, ?_, ?_, okWith_spec ?_⟩ <;> revert c <;> decide +kernel,
    trapWith_spec (by decide +kernel), waits_spec (by decide +kernel)⟩
theorem witness_CopyTransfers_gather :
    let c := gathering_
    let rows := (List.range ((chunkEnd c - 1) / c.run - c.off / c.run + 1)).map fun n => c.off / c.run + n
    c.act = true ∧ c.flt = false ∧ c.gth = true ∧ c.off < chanTotal c ∧ chanAt (busy c) 2 = c ∧
    (∃ l u, gatherCheck 2 c (chunkEnd c) rows (busy c) = .ok l u ∧ plainPieces l.1 u = true) ∧
    (let b := { c with idx := 0x100000000 }
     ∃ r u, gatherCheck 2 b (chunkEnd b) rows (busy b) = .trap r u ∧ r.cause = 0x08) ∧
    ∃ n u, gatherCheck 2 c (chunkEnd c) rows (lentLine c.idx.toNat true (busy c)) = .wait n u :=
  ⟨rfl, rfl, rfl, by decide, by decide +kernel, okWith_spec (p := fun (l : List (Piece × Xlat) × List Nat) u => plainPieces l.1 u) (by decide +kernel),
    trapWith_spec (by decide +kernel), waits_spec (by decide +kernel)⟩

/-- After the last chunk: a counter that can be reached, one that is not mapped, and one whose line another package holds. -/
theorem witness_CopyTransfers_end :
    let done := { moving with off := 1024 }
    let check (c : Channel) (s : State) := engineCheck (.channel 2) s (c.prior ++ c.ids) c.ctr 8 .syncWrite c.user (faultInfo 2 c 0)
    let away := lentLine 0x80000000 true (busy done)
    done.act = true ∧ done.flt = false ∧ chanTotal done ≤ done.off ∧ (busy done).dev.trctl = 0 ∧
    (∃ x u, check done (busy done) = .ok x u ∧ (decide (x.loc % 8 = 0) && decide (ctrlOff x.loc = none) && u.mem.wf && u.c.scratch.wf) = true) ∧
    (∃ r u, check { done with ctr := 0x100000000 } (busy done) = .trap r u ∧ r.cause = 0x08) ∧ (∃ n u, check done away = .wait n u) ∧
    (chanAt user 2).act = false ∧ (chanAt (busy { moving with flt := true }) 2).flt = true :=
  ⟨rfl, rfl, by decide, rfl, okWith_spec (p := fun (x : Xlat) u => decide (x.loc % 8 = 0) && decide (ctrlOff x.loc = none) && u.mem.wf && u.c.scratch.wf) (by decide +kernel),
    trapWith_spec (by decide +kernel), waits_spec (by decide +kernel), by decide, by decide⟩

/-- A translation held for an address agrees with the walk of the tables, so that it does not matter which of them is used (R41). -/
def steady (s : State) (va : Nat) : Bool :=
  match s.tlb.find? fun t => t.root == s.c.root && decide (t.va ≤ va) && decide (va < t.va + t.size) with
  | some t => decide (walkFrom s va 3 s.c.root = .leaf t.leaf t.size t.entry)
  | none => true
theorem findLeaf_steady {s : State} {va : Nat} (h : steady s va = true) : findLeaf s va = walkFrom s va 3 s.c.root := by
  unfold findLeaf cachedLeaf
  unfold steady at h
  generalize s.tlb.find? _ = o at h ⊢
  cases o with
  | none => rfl
  | some t => cases Config.tlbUsed s.tick <;> simp_all

/-- An engine's access that is translated, passes the fabric and leaves no race record. -/
def engineOk (who : Agent) (s : State) (va : Word) (n : Nat) (k : AccKind) (user : Bool) (t : TrapInfo) : Option (Xlat × State) :=
  let acc : Access := { write := AccKind.isWrite k, fetch := false, user := user }
  match walkFrom s va.toNat 3 s.c.root with
  | .leaf e size entry =>
    let x : Xlat := { loc := leafPage e + va.toNat % size, home := leafHome e, rd := leafRd e, elr := leafElr e, frz := leafFrz e }
    if steady s va.toNat && decide (va.toNat < 2 ^ 48) && permitted e acc && decide (leafHome e ≠ 2) && !leafRd e then
      match remoteGate who (setAD s va.toNat e size entry acc) va x n acc.write t with
      | .ok _ u => some (x, u)
      | _ => none
    else none
  | _ => none
theorem engineOk_spec {who : Agent} {s u : State} {h : List Nat} {va : Word} {n : Nat} {k : AccKind} {user : Bool} {t : TrapInfo} {x : Xlat}
    (e : engineOk who s va n k user t = some (x, u)) : engineCheck who s h va n k user t = .ok x u := by
  unfold engineOk at e
  simp only at e
  split at e
  · rename_i leaf size entry hw
    split at e
    · rename_i hc
      simp only [Bool.and_eq_true, decide_eq_true_eq, Bool.not_eq_true'] at hc
      obtain ⟨⟨⟨⟨h1, h2⟩, h3⟩, h4⟩, h5⟩ := hc
      split at e
      · rename_i hg
        simp only [Option.some.injEq, Prod.mk.injEq] at e
        obtain ⟨rfl, rfl⟩ := e
        have ht : translate s va n { write := AccKind.isWrite k, fetch := false, user := user } =
            (.ok { loc := leafPage leaf + va.toNat % size, home := leafHome leaf, rd := leafRd leaf, elr := leafElr leaf,
                   frz := leafFrz leaf },
              setAD s va.toNat leaf size entry { write := AccKind.isWrite k, fetch := false, user := user }) := by
          simp only [Machine.translate, findLeaf_steady h1, hw, Nat.not_le.mpr h2, if_false, h3, h4, Bool.not_true, Bool.false_eq_true]
        rw [h5] at hg ht
        simp only [engineCheck, ht, hg, Res.bind, h5, Bool.false_eq_true, if_false]
      · exact absurd e (by simp)
    · exact absurd e (by simp)
  · exact absurd e (by simp)

/-- A span, and spans, whose accesses all pass. -/
def spanOk (k : AccKind) (t : TrapInfo) : List Piece → State → Option (List SpanPart × State)
  | [], s => some ([], s)
  | x :: r, s =>
    (engineOk .matrix s (wordOf x.va) x.len k (!s.prv) t).bind fun l => (spanOk k t r l.2).map fun z => ((l.1, x.len) :: z.1, z.2)
theorem spanOk_spec {h : List Nat} {k : AccKind} {t : TrapInfo} : ∀ {l : List Piece} {s u : State} {ps : List SpanPart},
    spanOk k t l s = some (ps, u) → checkSpan.go h k t l s = .ok ps u
  | [], s, u, ps, e => by simp only [spanOk, Option.some.injEq, Prod.mk.injEq] at e; obtain ⟨rfl, rfl⟩ := e; rfl
  | x :: r, s, u, ps, e => by
    simp only [spanOk, Option.bind_eq_some_iff, Option.map_eq_some_iff, Prod.mk.injEq] at e
    obtain ⟨l, h1, z, h2, rfl, rfl⟩ := e
    simp [checkSpan.go, engineOk_spec h1, Res.bind, spanOk_spec h2]
def spansOk (n : Nat) (k : AccKind) (t : Nat → TrapInfo) : List (Nat × Int) → State → Option (List (List SpanPart) × State)
  | [], s => some ([], s)
  | (i, p) :: r, s =>
    (spanOk k (t i) (piecesFrom (fun o => p + (o : Nat)) (max n 1) false 24 0 n) s).bind fun x =>
      (spansOk n k t r x.2).map fun z => (x.1 :: z.1, z.2)
theorem spansOk_spec {s0 : State} {h : List Nat} {n : Nat} {k : AccKind} {t : Nat → TrapInfo} :
    ∀ {l : List (Nat × Int)} {s u : State} {ps : List (List SpanPart)},
      spansOk n k t l s = some (ps, u) → checkSpans s0 h n k t l s = .ok ps u
  | [], s, u, ps, e => by simp only [spansOk, Option.some.injEq, Prod.mk.injEq] at e; obtain ⟨rfl, rfl⟩ := e; rfl
  | (i, p) :: r, s, u, ps, e => by
    simp only [spansOk, Option.bind_eq_some_iff, Option.map_eq_some_iff, Prod.mk.injEq] at e
    obtain ⟨x, h1, z, h2, rfl, rfl⟩ := e
    simp [checkSpans, checkSpan, spanOk_spec h1, Res.bind, spansOk_spec h2]

/-! The matrix unit. -/

/-- A context that is attached with 16 rows. A grouped table of one group lies across the first two pages: its header, with 1 group, and
the group, of row 0, at the registered address. a1 and d1 describe a tile of columns of one byte. -/
def attachedState : State :=
  { user with
    mem := user.mem ++ [(0x3FFFFFF0, 1), (0x4000000A, 1)]
    c := { user.c with
      a := upd user.c.a 1 (everywhere 0x80000000)
      d := upd user.c.d 1 { len := 1, stride := 64 }
      sys := { user.c.sys with grant := 0x8110 }
      mat := { MatrixState.detached with mr := 16, acc := Vector.replicate 4 { W := List.replicate 16 0, V := List.replicate 16 0 } } } }
/-- The same with another matrix state. -/
def withMatrix (m : MatrixState) : State := { attachedState with c := { attachedState.c with mat := m } }
def noMatrix : MatrixState := attachedState.c.mat
def someTile : Tile :=
  { addr := 0x80000000, K := 1, nsb := 0, nsa := 0, pitch := 64, fb := 0, sparse := false, cols := List.replicate 128 0, ids := [], prior := [] }
def withTile : State := withMatrix { noMatrix with tile := some someTile }
def issue : MIssue := { pc := 0x3FFC, writes := [(0x5000, 7)], ctr := none, prior := [], ids := [] }
def withIssues (n : Nat) (m : MatrixState) : MatrixState := { m with issues := List.replicate n issue }

theorem epReady_passes {w : EpWord} {s : State} (h : epReady w s = true) : EpPasses w s := by
  intro r u e
  simp [epReady, e] at h
/-- A word that waits for a held register has passed the checks too. -/
theorem epWaits_passes {w : EpWord} {s : State} (h : waits (epChecks w s) = true) : EpPasses w s := by
  intro r u e
  simp [waits, e] at h

theorem witness_MatrixAttachment :
    MatReady [] none user ∧ user.c.sys.grant = 0 ∧ (quadFree user).take 1 ≠ [] ∧ (quadFree { user with quadHeld := 15 }).take 4 = [] ∧
    (3#2).toNat < (quadFree user).length ∧ (quadFree { user with quadHeld := 1 }).length ≤ (3#2).toNat ∧
    MatReady [] none attachedState ∧ attached attachedState = true ∧ (withMatrix (withIssues 1 noMatrix)).c.mat.issues ≠ [] ∧
    attachedState.c.mat.issues = [] ∧ (∃ ctr u, releaseCheck attachedState (matInfo attachedState) = .ok ctr u) ∧
    epReady { cls := .matrix } (strip 1) = true ∧ (strip 1).c.vloop.active = true ∧ MemoriesOk withTile ∧
    withTile.c.mat.tile = some someTile ∧ (0x9000 : Nat) % 8 = 0 ∧ ctrlOff 0x9000 = none := by
  unfold MatReady MemoriesOk
  refine ⟨?_, ?_, ?_, ?_, ?_, ?_, ?_, by decide +kernel, ?_, ?_, ⟨_, _, rfl⟩, ?_, ?_, ?_, ?_, ?_, ?_⟩ <;> decide +kernel

/-- The columns of the tile, and the state after their checks. -/
def columns (s : State) : Option (List (List SpanPart) × State) :=
  spansOk 1 .read (matTrap s 0 0) (columnsAt 0x80000000 64) s

theorem witness_MatrixTiles :
    MatReady [] none attachedState ∧ attached attachedState = true ∧ (attachedState.rd 1).len.toNat % 65536 = 1 ∧
    (user.rd 1).len.toNat % 65536 = 0 ∧ 1 ≤ kMax 0 ∧ scalesNeeded 0 1 = 0 ∧ scalesNeeded 11 1 ≠ 0 ∧ columnSize 0 1 false = 1 ∧
    (∃ p, boxCheckAt AReg.zero { l := true, e := true } 0 1 128 64 1 0 = some p) ∧
    boxCheckAt (attachedState.ra 1) { l := true, e := true } 0x80000000 1 128 64 1 0 = none ∧
    ((columns attachedState).any fun z => okWith (releaseCheck z.2 (matInfo attachedState)) fun _ _ => true) = true ∧
    attachedState.c.mat.issues.length < 4 ∧ kMax 0 < 65535 ∧
    (512 : Nat) ≤ 512 ∧ (spanOk .read (matInfo attachedState) (piecesFrom (fun o => 0x8000 + (o : Nat)) 512 false 24 0 512) attachedState).isSome = true := by
  refine ⟨by unfold MatReady; decide +kernel, ?_, ?_, ?_, ?_, ?_, ?_, ?_, Option.isSome_iff_exists.mp (by decide), ?_, ?_, ?_, ?_, ?_, ?_⟩ <;>
    decide +kernel

/-- MMOV with and without its register held, in a vector loop, unattached, and past the last row. -/
theorem witness_MatrixTiles_moves :
    let w : EpWord := { cls := .matrix, dst := some (oneReg 3) }
    let free := withMatrix (withIssues 4 noMatrix)
    EpPasses w attachedState ∧ EpPasses w (holdOn 3 attachedState) ∧ EpPasses w user ∧ EpPasses w (strip 1) ∧
    (strip 1).c.vloop.active = true ∧ user.c.vloop.active = false ∧ attached user = false ∧ attached attachedState = true ∧
    attachedState.c.mat.mr ≤ 0 + 32 * 1 ∧ epReady w free = true ∧ attached free = true ∧ 15 < free.c.mat.mr ∧ 4 ≤ free.c.mat.issues.length :=
  ⟨epReady_passes (by decide +kernel), epWaits_passes (by decide +kernel), epReady_passes (by decide +kernel),
    epReady_passes (by decide +kernel), by decide +kernel⟩

theorem witness_MatrixTiles_rows :
    let shaped (len stride : BitVec 32) : State :=
      { attachedState with c := { attachedState.c with d := upd attachedState.c.d 2 { len := len, stride := stride } } }
    let s := shaped 0x000F0001 512
    let rows (s : State) := (List.range ((s.rd 2).len.toNat % 65536)).map fun n =>
      ((s.rd 2).len.toNat / 65536 + n, ((s.ra 1).ptr.toNat : Int) + (n : Int) * (s.rd 2).stride.toInt)
    epReady { cls := .matrix, dst := some (oneReg 3) } attachedState = true ∧ attachedState.c.vloop.active = false ∧
    attachedState.c.mat.mr ≤ 16 ∧ 15 < attachedState.c.mat.mr ∧
    ((shaped 0 512).rd 2).len.toNat % 65536 = 0 ∧ s.c.mat.mr < ((shaped 0x00100001 512).rd 2).len.toNat / 65536 + 1 ∧
    15 + 1 ≤ s.c.mat.mr ∧ (∃ p, boxCheck AReg.zero { s := true, e := true } 512 1 512 1 0 = some p) ∧
    boxCheck (s.ra 1) { s := true, e := true } 512 1 512 1 0 = none ∧ ((shaped 1 2).rd 2).stride.toInt % 4 ≠ 0 ∧
    (s.ra 1).ptr.toNat % 4 = 0 ∧ (s.rd 2).stride.toInt % 4 = 0 ∧ 4 ≤ (withMatrix (withIssues 4 noMatrix)).c.mat.issues.length ∧
    s.c.mat.issues.length < 4 ∧
    ((spansOk 512 .write (matTrap s 0 0) (rows s) s).any fun z => okWith (matrixCounter z.2 (matInfo s)) fun _ _ => true) = true ∧
    (withMatrix (withIssues 2 noMatrix)).c.mat.issues = issue :: [issue] ∧ MemoriesOk (withMatrix (withIssues 2 noMatrix)) ∧ issue.ctr = none ∧
    (∀ b ∈ issue.writes, ctrlOff b.1 = none) ∧ 4 ≤ (withMatrix (withIssues 4 noMatrix)).c.mat.issues.length ∧
    MatReady [] none user ∧ attached user = false ∧ counterChecks (attachedState.ra 1) = none ∧
    (∃ cause w, counterChecks AReg.zero = some (cause, w)) := by
  unfold MemoriesOk MatReady
  refine ⟨?_, ?_, ?_, ?_, ?_, ?_, ?_, Option.isSome_iff_exists.mp (by decide +kernel), ?_, ?_, ?_, ?_, ?_, ?_, ?_, by decide +kernel, ?_, ?_, ?_, ?_, ?_,
    ?_, ?_, ⟨_, _, rfl⟩⟩ <;> decide +kernel

/-- A sparse tile of K = 4, a grouped shape with its table across two pages, and a sequencer at the first and past the last of its blocks. -/
def sparseTile : Tile := { someTile with K := 4, sparse := true }
def grouped : State :=
  withMatrix { noMatrix with
    group := some { tab := everywhere 0x3FFFFFF0, b := everywhere 0x80000000, shape := { len := 1, stride := 64 }, fb := 0 } }
def sequenced (pos : Nat) : State :=
  withMatrix { noMatrix with
    seq := some { list := [0], pos := pos, a := everywhere 0x80000000, shape := { len := 1, stride := 64 }, fb := 0, off := 0, str := 64 } }

theorem witness_MatrixMultiply :
    MatReady (regsA 0 8 (tileK withTile) false) none withTile ∧ attached withTile = true ∧ tileFor withTile 0 false = some someTile ∧
    tileFor withTile 1 false = none ∧ operandAOk 0 8 0 withTile.c.mat.mr someTile.nsa someTile.K false = true ∧
    operandAOk 0 8 0 withTile.c.mat.mr someTile.nsa 1000 false = false ∧
    operandAOk 11 8 0 withTile.c.mat.mr someTile.nsa someTile.K false = true ∧ scalesNeeded 11 someTile.K ≠ someTile.nsa ∧
    scalesNeeded 0 someTile.K = someTile.nsa ∧
    (let s := withMatrix { noMatrix with tile := some sparseTile }
     MatReady (regsA 0 8 (tileK s) true) none s ∧ tileFor s 0 true = some sparseTile ∧
      operandAOk 0 8 0 s.c.mat.mr sparseTile.nsa sparseTile.K true = true) ∧
    MatReady [] none withTile ∧ withTile.c.mat.issues.length < 4 ∧ 4 ≤ (withMatrix (withIssues 4 withTile.c.mat)).c.mat.issues.length ∧
    someTile.K ≤ kMax 0 ∧ someTile.K ≤ 128 := by
  unfold MatReady
  decide +kernel
theorem witness_MatrixMultiply_sequencer :
    MatReady (regsA 0 8 (seqK (sequenced 0)) false) none (sequenced 0) ∧ attached (sequenced 0) = true ∧ badK 0 1 false = false ∧
    operandAOk 0 8 0 (sequenced 0).c.mat.mr 0 1 false = true ∧ scalesNeeded 0 1 = 0 ∧ (sequenced 0).c.mat.issues.length < 4 ∧
    ((sequenced 1).c.mat.seq.map fun q => q.list[q.pos]?) = some none ∧ ((sequenced 0).c.mat.seq.map fun q => q.list[q.pos]?) = some (some 0) ∧
    okWith (matrixCounter (sequenced 1) (matInfo (sequenced 1))) (fun _ _ => true) = true ∧
    (∃ y, tileBounds AReg.zero 0 0 1 64 false = some y) ∧ tileBounds (everywhere 0x80000000) 0x80000000 0 1 64 false = none ∧
    ((spansOk 1 .read (matTrap (sequenced 0) 0 0) (columnsAt 0x80000000 64) (sequenced 0)).any fun z =>
      okWith (matrixCounter z.2 (matInfo (sequenced 0))) fun _ _ => true) = true := by
  unfold MatReady
  refine ⟨?_, ?_, ?_, ?_, ?_, ?_, ?_, ?_, ?_, Option.isSome_iff_exists.mp (by decide +kernel), ?_, ?_⟩ <;> decide +kernel

/-- The table of `grouped` has one group, of row 0, whose columns can all be read. -/
theorem witness_MatrixMultiply_grouped :
    MatReady (regsA 0 8 (groupK grouped) false) none grouped ∧ attached grouped = true ∧
    (grouped.c.mat.group.map fun sh => (sh.fb, shapeK sh.shape, shapeNsa sh.shape)) = some (0, 1, 0) ∧ grouped.c.mat.issues.length < 4 ∧
    (match grouped.c.mat.group with
      | some sh => okWith (readTable (finishIssues (commitStores grouped)) sh (hSet grouped .matrix)) fun tab u =>
          decide (tab.1 = [{ p := 0x80000000, fr := 0, cnt := 1 }])
            && (spansOk 1 .read (fun _ => matTrap u 0 0 0) (columnAddrs 0x80000000 64) u).any fun z =>
              okWith (matrixCounter z.2 (matInfo grouped)) fun _ _ => true
      | none => false) = true ∧
    trapWith (readTable (finishIssues (commitStores grouped)) { tab := AReg.zero, b := AReg.zero, shape := DReg.zero, fb := 0 }
      (hSet grouped .matrix)) 0x07 = true := by
  unfold MatReady
  decide +kernel
/-- What stops an issue before it waits: a vector loop, no attachment, no tile, group or sequencer, operands that do not fit, and counts of
scales; an operand that is held does not keep the word from its checks. -/
theorem witness_MatrixMultiply_stops :
    let two := withMatrix { noMatrix with tile := some { sparseTile with nsa := 1 } }
    let many := withMatrix { noMatrix with tile := some { someTile with K := 129 } }
    EpPasses { cls := .matrix, reads := [] } (strip 1) ∧ (strip 1).c.vloop.active = true ∧ MatPasses [] user ∧ attached user = false ∧
    MatPasses (regsA 0 8 (tileK withTile) false) withTile ∧ MatPasses (regsA 0 8 (tileK withTile) false) (holdOn 8 withTile) ∧
    MatPasses (regsA 0 8 (tileK two) true) two ∧ tileFor two 0 true = some { sparseTile with nsa := 1 } ∧ tileFor two 1 true = none ∧
    operandAOk 0 9 0 two.c.mat.mr 1 1000 true = false ∧ operandAOk 0 8 0 two.c.mat.mr 1 4 true = true ∧ ({ sparseTile with nsa := 1 } : Tile).nsa ≠ 0 ∧
    MatReady [] none many ∧ tileFor many 0 false = some { someTile with K := 129 } ∧ 128 < 129 ∧ attached many = true ∧
    (128 : Nat) ≤ kMax 0 ∧ scalesNeeded 11 1 ≠ 0 := by
  unfold MatReady
  refine ⟨epReady_passes (by decide +kernel), ?_, ⟨epReady_passes (by decide +kernel), ?_⟩, ?_, ⟨epReady_passes (by decide +kernel), ?_⟩,
    ⟨epWaits_passes (by decide +kernel), ?_⟩, ⟨epReady_passes (by decide +kernel), ?_⟩, ?_⟩ <;> decide +kernel
theorem witness_MatrixMultiply_recorded_stops :
    let fits (q : DReg) (fb h g : BitVec 5) : Bool :=
      decide (fb = h) && badK h (shapeK q) false == false && operandAOk g 8 0 16 (shapeNsa q) (shapeK q) false
    MatPasses (regsA 0 8 (seqK attachedState) false) attachedState ∧ attachedState.c.mat.seq = none ∧ attachedState.c.mat.group = none ∧
    MatPasses (regsA 0 8 (groupK attachedState) false) attachedState ∧ MatPasses (regsA 0 8 (seqK (sequenced 0)) false) (sequenced 0) ∧
    MatPasses (regsA 0 8 (groupK grouped) false) grouped ∧ fits { len := 1, stride := 64 } 0 0 0 = true ∧
    fits { len := 1, stride := 64 } 0 1 0 = false ∧ fits { len := 0, stride := 64 } 0 0 0 = false ∧ fits { len := 1, stride := 64 } 0 0 11 = true ∧
    scalesNeeded 11 (shapeK { len := 1, stride := 64 }) ≠ shapeNsa { len := 1, stride := 64 } ∧
    (attachedState.rd 1).len = 1 ∧ scalesNeeded 11 (shapeK (attachedState.rd 1)) ≠ shapeNsb (attachedState.rd 1) ∧
    MatReady [] none (withMatrix (withIssues 4 noMatrix)) ∧ 4 ≤ (withMatrix (withIssues 4 noMatrix)).c.mat.issues.length := by
  unfold MatReady
  refine ⟨⟨epReady_passes (by decide +kernel), ?_⟩, ?_, ?_, ⟨epReady_passes (by decide +kernel), ?_⟩, ⟨epReady_passes (by decide +kernel), ?_⟩,
    ⟨epReady_passes (by decide +kernel), ?_⟩, ?_⟩ <;> decide +kernel
theorem witness_MatrixMultiply_block_list :
    let s := attachedState.wa 2 (everywhere 0x3FFFFFE0)
    MatReady [] none s ∧ attached s = true ∧ scalesNeeded 0 (shapeK (s.rd 1)) = shapeNsb (s.rd 1) ∧
    (∃ p, boxCheck (s.ra 3) { l := true, e := true } 64 1 0 1 0 = some p) ∧ boxCheck (s.ra 2) { l := true, e := true } 64 1 0 1 0 = none ∧
    s.c.mat.issues.length < 4 ∧ (7#5).toNat < 8 ∧ (s.rq 7).length < 64 ∧ 64 ≤ ((s.wq 7 (List.replicate 64 ready)).rq 7).length ∧
    okWith (checkSpan s (hSet s .matrix) (s.ra 2).ptr.toNat 64 .read (matInfo s)) (fun _ u => okWith (matrixCounter u (matInfo s)) fun _ _ => true) = true := by
  unfold MatReady
  refine ⟨?_, ?_, ?_, Option.isSome_iff_exists.mp (by decide +kernel), ?_, ?_, ?_, ?_, ?_, ?_⟩ <;> decide +kernel
theorem witness_MatrixMultiply_dot :
    (∀ x ∈ [((.fin true 3 0, true) : MElem), (.fin false 5 0, true)], ∃ neg m, x.1 = .fin neg m 0) ∧
    (2 : Nat) ^ 32 - 1 < 2 ^ 32 ∧ finite (fmtF32.decode 0x3F800000) = true ∧
    (let a : List MElem := [(.fin true 3 0, true)]
     let b : List MElem := [(.fin false 5 0, true)]
     a.length = b.length ∧ 0 < a.length ∧ a.length ≤ 32 ∧ (∀ x ∈ a ++ b, finite x.1 = true ∧ x.2 = true) ∧
      (a.zip b).foldr (fun p (sum : Rat) => elemRat p.1 * elemRat p.2 + sum) (ratOf (fmtF32.decode 0x3F800000)) ≠ 0) := by
  refine ⟨?_, by decide, by decide, by decide +kernel⟩
  simp only [List.mem_cons, List.not_mem_nil, or_false, forall_eq_or_imp, forall_eq]
  exact ⟨⟨_, _, rfl⟩, ⟨_, _, rfl⟩⟩

/-! Lazy reals. -/

/-- Register n of z with every element a draw, element e at position e + p. -/
def drawn (n : Nat) (p : Nat) (s : State) : State :=
  { s with c := { s.c with z := upd s.c.z n (Vector.ofFn fun e => freshReal (BitVec.ofNat 64 (e.val + p))) } }
/-- z2 and z3 hold different draws, and z1 has been written by nothing. -/
def draws : State := drawn 3 1000 (drawn 2 0 (strip 1))

theorem staleIn_one {s : State} {n : Nat} (hv : vlNow s = 1) (h : (readZ1 s n 0).stale = false) : ¬staleIn s n := by
  rintro ⟨e, ha, hs⟩
  obtain rfl : e = 0 := by have := acts_lt ha; omega
  exact absurd (h.symm.trans hs) (by decide)

theorem witness_LazyReals :
    (7#5).toNat < 8 ∧ LazyReady (lazyForm 0 none []) draws ∧ LazyReady (lazyForm 0 none [vreg 8 64, vreg 16 32]) draws ∧
    LazyReady (lazyForm 0 none [vreg 8 32, vreg 16 32]) draws ∧ LazyReady (lazyForm 0 none [vreg 8 (thresholdFmt 0).bits]) draws ∧
    LazyReady (lazyForm 1 (some (vreg 8 32)) []) draws ∧ LazyReady (lazyForm 0 (some (vreg 8 32)) [vreg 16 (thresholdFmt 1).bits]) draws ∧
    lazyVfmt draws ∧ ¬lazyVfmt user ∧ staleIn draws 1 ∧ ¬staleIn draws 2 ∧ ¬staleIn draws 3 := by
  unfold LazyReady lazyVfmt
  refine ⟨?_, ?_, ?_, ?_, ?_, ?_, ?_, ?_, ?_, ⟨0, by decide +kernel⟩, staleIn_one (by decide +kernel) (by decide +kernel), staleIn_one (by
    decide +kernel) (by decide +kernel)⟩ <;> decide +kernel

/-- Thresholds of every kind, at the ends of the ranges and inside them. -/
theorem witness_LazyReals_threshold :
    fmtF32.decode 0x7FC00000 = .nan ∧ fmtF32.decode 0x7F800000 = .inf false ∧ fmtF32.decode 0xFF800000 = .inf true ∧
    finite (fmtF32.decode 0) = true ∧ ratOf (fmtF32.decode 0) ≤ 0 ∧ finite (fmtF32.decode 0x3F800000) = true ∧
    1 ≤ ratOf (fmtF32.decode 0x3F800000) ∧ finite (fmtF32.decode 0x3F000000) = true ∧ 0 < ratOf (fmtF32.decode 0x3F000000) ∧
    ratOf (fmtF32.decode 0x3F000000) < 1 ∧
    (freshReal 7).pos ≠ (freshReal 8).pos := by decide +kernel

theorem witness_LazyReals_pair :
    acts draws 0 = true ∧ 0 < segmentCount draws 0 ∧ (∃ m, m < segmentCount draws 0 ∧ (readZ1 draws 1 m).stale = true) ∧
    ∀ m, m < segmentCount draws 0 → (readZ1 draws 2 m).stale = false := by
  have h2 : segmentCount draws 0 = 1 := by decide +kernel
  refine ⟨by decide +kernel, by omega, ⟨0, by decide +kernel⟩, fun m h => ?_⟩
  obtain rfl : m = 0 := by omega
  decide +kernel

/-! The fabric port. -/

/-- A read of a table by an engine that passes, and the members of a group table. -/
def tablePartsOk (t : TrapInfo) : List AccessPart → State → Option ((List Byte × List Nat) × State)
  | [], s => some (([], []), s)
  | p :: r, s =>
    (engineOk .table s p.va p.len .read (!s.prv) t).bind fun z =>
      let q := engineRecord z.2 .remote z.1 p.len .read
      (tablePartsOk t r q.2).map fun l => ((busBytes z.2 z.1.loc p.len ++ l.1.1, q.1 ++ l.1.2), l.2)
theorem tablePartsOk_spec {t : TrapInfo} : ∀ {l : List AccessPart} {s u : State} {x : List Byte × List Nat},
    tablePartsOk t l s = some (x, u) → readTableParts t l s = .ok x u
  | [], s, u, x, e => by simp only [tablePartsOk, Option.some.injEq, Prod.mk.injEq] at e; obtain ⟨rfl, rfl⟩ := e; rfl
  | p :: r, s, u, x, e => by
    simp only [tablePartsOk, Option.bind_eq_some_iff, Option.map_eq_some_iff, Prod.mk.injEq] at e
    obtain ⟨z, h1, m, h2, rfl, rfl⟩ := e
    simp only [readTableParts, engineOk_spec h1, Res.bind, tablePartsOk_spec h2]
def tableReadOk (s : State) (va : Word) (n : Nat) (t : TrapInfo) : Option ((Nat × List Nat) × State) :=
  (tablePartsOk t (accessParts va n) s).map fun l => ((leNat l.1.1, l.1.2), l.2)
theorem tableReadOk_spec {s u : State} {va : Word} {n : Nat} {t : TrapInfo} {x : Nat × List Nat} (e : tableReadOk s va n t = some (x, u)) :
    tableRead s va n t = .ok x u := by
  simp only [tableReadOk, Option.map_eq_some_iff, Prod.mk.injEq] at e
  obtain ⟨z, h1, rfl, rfl⟩ := e
  simp only [tableRead, tablePartsOk_spec h1, Res.bind]
def membersOk (table : Word) (l n : BitVec 2) : List Nat → State → Option ((List (Nat × Word × Xlat) × List Nat) × State)
  | [], s => some (([], []), s)
  | j :: r, s =>
    let t := { s.trapInfo true 0 0 with telem := j }
    (tableReadOk s (table + BitVec.ofNat 64 (0x80 + 8 * j)) 8 t).bind fun e =>
      if e.1.1 % 128 ≠ 0 then none
      else match translateLines (fun _ => t) (lineAddrs l n (BitVec.ofNat 64 e.1.1)) e.2 with
        | .ok ls s2 => (membersOk table l n r s2).map fun m =>
            (((ls.map fun q => (4 * j + q.1, q.2.1, q.2.2)) ++ m.1.1, e.1.2 ++ m.1.2), m.2)
        | _ => none
theorem membersOk_spec {table : Word} {l n : BitVec 2} : ∀ {js : List Nat} {s u : State} {x : List (Nat × Word × Xlat) × List Nat},
    membersOk table l n js s = some (x, u) → readMembers table l n js s = .ok x u
  | [], s, u, x, e => by simp only [membersOk, Option.some.injEq, Prod.mk.injEq] at e; obtain ⟨rfl, rfl⟩ := e; rfl
  | j :: r, s, u, x, e => by
    simp only [membersOk, Option.bind_eq_some_iff] at e
    obtain ⟨z, h1, e⟩ := e
    split at e
    · exact absurd e (by simp)
    · rename_i h2
      split at e
      · rename_i h3
        simp only [Option.map_eq_some_iff, Prod.mk.injEq] at e
        obtain ⟨m, h4, rfl, rfl⟩ := e
        simp only [readMembers, tableReadOk_spec h1, Res.bind, h2, if_false, h3, membersOk_spec h4]
      · exact absurd e (by simp)

/-- A context whose a1 names a line, a2 a completion block, a3 a group table of the given first word with one member and a window. -/
def porting (head : Byte) (head2 : Byte) : State :=
  { strip 2 with
    mem := user.mem ++ [(0x8000, head)] ++ (if head2 = 0 then [] else [(0x8002, head2)]) ++ [(0x8083, 0x40)]
    c := { (strip 2).c with
      a := upd (upd (upd (strip 2).c.a 1 (everywhere 0x40000000)) 2 (everywhere 0x9000)) 3 (everywhere 0x8000) } }
def port : State := porting 1 0
/-- The same with a payload of p9 pending, and with a hold on v4. -/
def badPayload (s : State) : State := { s with c := { s.c with pfxLive := true, sys := { s.c.sys with tpfx := 9 * 2 ^ 21 } } }
def held (n : BitVec 16) (s : State) : State := { s with c := { s.c with hold := upd s.c.hold 4 n } }

theorem witness_RemoteCommands :
    PortReady 4 false port ∧ PortReady 4 true port ∧ (withStatus 32 port).determ = true ∧ port.determ = false ∧
    blockFails (port.ra 2) = none ∧ (∃ cause v, blockFails AReg.zero = some (cause, v)) ∧
    (∃ cause v, blockFails (everywhere 8) = some (cause, v)) ∧
    (∃ p, boxCheck AReg.zero { s := true, e := true } 128 1 0 1 0 = some p) ∧
    boxCheck (port.ra 1) { s := true, e := true } 128 1 0 1 0 = none ∧ (everywhere 0x40000040).ptr.toNat % 128 ≠ 0 ∧
    (port.ra 1).ptr.toNat % 128 = 0 ∧
    (∃ ls u, translateLines (fun k => { port.trapInfo true 0 0 with telem := k }) (lineList 0 0 (port.ra 1).ptr) port = .ok ls u) ∧
    (∃ e u, translateLines (fun k => { port.trapInfo true 0 0 with telem := k }) (lineList 0 0 0x100000000) port = .trap e u ∧ e.cause = 0x08) ∧
    nth port.c.hold 4 0 = 0 ∧ nth (held 1 port).c.hold 4 0 ≠ 0 ∧ payloadOk (badPayload port) { cls := .control } = false := by
  refine ⟨by unfold PortReady; decide +kernel, by unfold PortReady; decide +kernel, ?_, ?_, ?_, ⟨_, _, rfl⟩, ⟨_, _, rfl⟩,
    Option.isSome_iff_exists.mp (by decide), ?_, ?_, ?_, (okWith_spec (p := fun _ _ => true) (by decide +kernel)).imp fun _ h => h.imp
    fun _ h => h.1, trapWith_spec (by decide +kernel), ?_, ?_, ?_⟩ <;> decide +kernel

/-- Legal and illegal heads of a group table, its members, and its window. -/
theorem witness_RemoteCommands_group :
    let need : Need := { l := true, s := true, e := true }
    let c := commitStores port
    (∃ p, boxCheck AReg.zero need 0x80 1 0 1 0 = some p) ∧ boxCheck (port.ra 3) need 0x80 1 0 1 0 = none ∧
    ((tableReadOk c 0x8000 8 (port.trapInfo true 0 0)).any fun h =>
      decide (h.1.1 % 1024 = 1 ∧ h.1.1 / 1024 % 64 = 0 ∧ h.1.1 / 2 ^ 17 = 0) &&
      (tableReadOk h.2 0x8008 8 (port.trapInfo true 0 0)).any fun w =>
        (membersOk 0x8000 0 0 (List.range 1) w.2).any fun m => okWith (checkWindow false 0 m.2) fun _ _ => true) = true ∧
    ((tableReadOk (commitStores (porting 0 4)) 0x8000 8 (port.trapInfo true 0 0)).any fun h => decide (h.1.1 / 2 ^ 17 ≠ 0)) = true ∧
    (∃ p, boxCheck { everywhere 0 with limit := 0x80 } need (0x80 + 8 * 1) 1 0 1 0 = some p) ∧
    boxCheck (port.ra 3) need (0x80 + 8 * 1) 1 0 1 0 = none ∧
    ((tableReadOk (commitStores (porting 1 1)) 0x8000 8 (port.trapInfo true 0 0)).any fun h => decide (h.1.1 / 65536 % 2 = 1)) = true ∧
    vfmtWidth (formatted 0 1) = 4 ∧ vlNow (formatted 0 1) % 2 = 1 ∧ vfmtWidth port ≠ 4 := by
  refine ⟨Option.isSome_iff_exists.mp (by decide +kernel), ?_, ?_, ?_, Option.isSome_iff_exists.mp (by decide +kernel), ?_, ?_, ?_, ?_, ?_⟩
    <;> decide +kernel

/-- A table on a line that another package holds, with a hold count on the word's register. -/
def tableAway (n : BitVec 16) : State := lentLine 0x8000 true (held n port)
theorem witness_RemoteCommands_table_wait :
    PortReady 4 true (tableAway 1) ∧ blockFails ((tableAway 1).ra 2) = none ∧
    boxCheck ((tableAway 1).ra 3) { l := true, s := true, e := true } 0x80 1 0 1 0 = none ∧ nth (tableAway 0).c.hold 4 0 = 0 ∧
    nth (tableAway 1).c.hold 4 0 ≠ 0 ∧
    (∃ k u, tableRead (commitStores (tableAway 0)) 0x8000 8 ((tableAway 0).trapInfo true 0 0) = .wait k u) ∧
    ∃ k u, tableRead (commitStores (tableAway 1)) 0x8000 8 ((tableAway 1).trapInfo true 0 0) = .wait k u := by
  unfold PortReady
  exact ⟨by decide +kernel, by decide +kernel, by decide +kernel, by decide +kernel, by decide +kernel, waits_spec (by decide +kernel),
    waits_spec (by decide +kernel)⟩

/-- Descriptors of a post: legal, and with an element past the register; a hold count at its end and past it. -/
theorem witness_RemoteCommands_post :
    let good : Word := BitVec.ofNat 64 (127 * 2 ^ 40 + 1 * 2 ^ 50)
    let past : Word := BitVec.ofNat 64 (127 * 2 ^ 40 + 2 * 2 ^ 50)
    field good 61 3 = 0 ∧ bit good 39 = false ∧ field good 50 11 ≠ 0 ∧ field good 40 10 + field good 50 11 ≤ 4096 / vfmtWidth port ∧
    4096 / vfmtWidth port < field past 40 10 + field past 50 11 ∧ vfmtWidth port = 32 ∧ ApReady user ∧
    65535 < (nth (held 65535 port).c.hold 4 0).toNat + (((held 65535 port).wx 2 1).rx 2).toNat ∧
    (nth (held 65534 port).c.hold 4 0).toNat + (((held 65534 port).wx 2 1).rx 2).toNat ≤ 65535 := by decide +kernel

/-! What arrives at the port. -/

/-- This package's inbound table is its page table; in `frozen` the last page answers "moved". -/
def home : State := { user with fab := { user.fab with fbit := 1 } }
def frozen : State := { home with mem := user.mem.dropLast ++ [(0x101F, 0x0C)] }
def packet : LinePacket :=
  { off := 0xC0000000, f32 := true, mask := 1, data := 0, rd := true, launch := 0, berth := 0, member := 0, prior := [] }
/-- A record of the packet's first sector. -/
def metLine : State :=
  { home with
    recs := [{ sector := 0xC0000000 / 32, id := 1, berth := 0, member := 0, path := .core, kind := .write, pc := 0x4000, launch := 0 }] }
def transfer (ix : Nat) (acked : Bool) : Transfer :=
  { ix := ix, va := 0x40000000, loc := 0x40000000, line := some packet, post := none, away := true, acked := acked, moved := false, since := 0
    replays := 0, tries := 0 }
def command (k : RemoteKind) (xs : List Transfer) : RemoteCmd :=
  { id := 7, order := 0, kind := k, pc := 0x3FFC, block := 0x9000, table := 0x8000, rep := false, nt := true, xfers := xs, bitmap := 0, nk := false
    bg := false, hu := false, rc := false, other := false, refused := 0, reports := [], wfail := none, written := false, taken := false, deferred := false, ret := 0
    user := true, prior := [], ids := [] }
def commanding (c : RemoteCmd) : State := { user with c := { user.c with remote := [c] } }

theorem witness_RemoteEvents :
    MemoriesOk home ∧ MemoriesOk frozen ∧ packet.off % 128 = 0 ∧ offOf packet.off < ctrlBase ∧ lineCheck user packet = .refused 0 ∧
    lineCheck frozen packet = .moved ∧ lineCheck home packet = .ok ∧ (∃ q, lineRace metLine 0xC0000000 false packet = some q) ∧
    (∃ q, lineRace metLine 0xC0000000 true packet = some q) ∧ lineRace home 0xC0000000 true packet = none ∧
    (let c := command .radd [transfer 3 false]
     commandOf (commanding c) 7 = some c ∧ (c.xfers.find? fun y => y.ix == 3 && !y.acked) = some (transfer 3 false) ∧ finishDue c = false) ∧
    (let c := command .rmcst [transfer 0 false, transfer 2047 false]
     commandOf (commanding c) 7 = some c ∧ c.kind = .rmcst ∧ (∀ x ∈ c.xfers, x.acked = false ∧ x.post = none ∧ x.ix < 2048) ∧
      (c.xfers.map (·.ix)).Nodup) := by
  unfold MemoriesOk
  refine ⟨?_, ?_, ?_, ?_, ?_, ?_, ?_, Option.isSome_iff_exists.mp (by decide +kernel), Option.isSome_iff_exists.mp (by decide +kernel), ?_,
    ?_, ?_⟩ <;> decide +kernel

/-- Completion writes that pass. -/
def writesOk (c : RemoteCmd) : List AccessPart → State → Option (List (Xlat × Nat) × State)
  | [], s => some ([], s)
  | p :: r, s =>
    (engineOk (.port c.id) s p.va p.len .syncWrite c.user (c.info 0 0 0 0)).bind fun x =>
      (writesOk c r x.2).map fun z => ((x.1, p.len) :: z.1, z.2)
theorem writesOk_spec {c : RemoteCmd} : ∀ {l : List AccessPart} {s u : State} {ws : List (Xlat × Nat)},
    writesOk c l s = some (ws, u) → checkWrites c l s = .ok ws u
  | [], s, u, ws, e => by simp only [writesOk, Option.some.injEq, Prod.mk.injEq] at e; obtain ⟨rfl, rfl⟩ := e; rfl
  | p :: r, s, u, ws, e => by
    simp only [writesOk, Option.bind_eq_some_iff, Option.map_eq_some_iff, Prod.mk.injEq] at e
    obtain ⟨x, h1, z, h2, rfl, rfl⟩ := e
    simp only [checkWrites, engineOk_spec h1, Res.bind, writesOk_spec h2]

/-- A command whose bitmap lies in one page, and in two. -/
theorem witness_RemoteEvents_completion :
    (∀ p ∈ [((0x8000 : Word), [(0x8040, 64)]), (0xFFA0, [(0xFFE0, 32), (0x10000, 32)])], let c := { command .rmcst [transfer 3 true] with table := p.1 }
     commandOf (commanding c) 7 = some c ∧ finishDue c = true ∧ c.block.toNat % 16 = 0 ∧
      ((writesOk c (completionWrites c) (commanding c)).any fun z =>
        decide (z.1.map (fun x => (x.1.loc, x.2)) = p.2 ++ [(0x9008, 8), (0x9000, 8)]) && z.2.mem.wf && z.2.c.scratch.wf) = true) ∧
    (let c := command .radd [transfer 3 true]
     commandOf (commanding c) 7 = some c ∧ finishDue c = true ∧ c.kind ≠ .rmcst ∧
      ((writesOk c (completionWrites c) (commanding c)).any fun z =>
        decide (z.1.map (fun x => (x.1.loc, x.2)) = [(0x9008, 8), (0x9000, 8)]) && z.2.mem.wf && z.2.c.scratch.wf) = true) ∧
    (let c := { command .radd [transfer 3 true] with block := 0x100000000 }
     finishDue c = true ∧ ∃ r u, checkWrites c (completionWrites c) (commanding c) = .trap r u ∧ r.cause = 0x08) ∧
    (let c := { command .radd [] with wfail := some (user.trapInfo true 0x08 0) }
     (commanding c).cs = .active ∧ commandOf (commanding c) 7 = some c ∧ reporting c = true) ∧
    (let c := { command .radd [] with written := true, reports := [user.trapInfo true 0x11 0] }
     commandOf (commanding c) 7 = some c ∧ reporting c = true ∧ c.wfail = none ∧ c.reports = user.trapInfo true 0x11 0 :: []) :=
  ⟨by decide +kernel, by decide +kernel, ⟨by decide, trapWith_spec (by decide +kernel)⟩, by decide +kernel, by decide +kernel⟩

/-- This package holds the berth tables at 0x300000. The entry of name 0 and its first location word have the given top bytes; the entry
forwards to package 5, and the location is core 0, or a save area at 0x400000 whose v0 has the given descriptor length. -/
def berths (entry place len : Byte) : State :=
  { home with
    mem := user.mem ++ [(0x300002, 0x40), (0x300003, 0x01), (0x300007, entry)]
      ++ (if place = 0 then [] else [(0x30000A, 0x40), (0x30000F, place)]) ++ [(0x408A40, 1)] ++ (if len = 0 then [] else [(0x40AC02, len)])
    fab := { home.fab with fbbt := 0x300001 } }
def post : Post :=
  { name := 0, desc := 0, width := 32, mask := 1, data := 5, fwd := false, src := 5, id := 3, local_ := false, prior := [] }
theorem witness_RemoteEvents_posts :
    post.local_ = false ∧ post.name.toNat / 2 ^ 22 = user.fab.pkg.toNat ∧ user.dev.trctl = 0 ∧ ¬entryLives user post ∧
    (let s := berths 0xC0 0 0
     entryLives s post ∧ bit (readWord s.mem (postEntry s post)) 62 = true ∧ entryLives s { post with fwd := true } ∧
      ((readWord s.mem (postEntry s post)).truncate 32 : BitVec 32).toNat / 2 ^ 22 = 5 ∧ (routePort s 5).isSome = false ∧
      (routePort { s with fab := { s.fab with routes := BitVec.ofNat _ (0x10 * 2 ^ 40) } } 5).isSome = true) ∧
    (let s := berths 0x80 0 0
     entryLives s post ∧ bit (readWord s.mem (postEntry s post)) 62 = false ∧ field (readWord s.mem (postEntry s post)) 56 2 < 1 ∧
      field post.desc 32 2 ≤ field (readWord s.mem (postEntry s post)) 56 2 ∧
      bit (readWord s.mem (postEntry s post + 8)) 62 = false ∧ bit (readWord s.mem (postEntry s post + 8)) 63 = false ∧
      field (readWord s.mem (postEntry s post + 8)) 0 10 = s.coreNum ∧ s.cs ≠ .none ∧ isReceiver post s.c = true ∧ nth s.c.hold 0 0 = 0 ∧
      nth (upd s.c.hold 0 1) 0 0 ≠ 0 ∧ nth s.c.written 0 0 &&& post.mask = 0 ∧ post.width ∈ [4, 8, 16, 32] ∧ MemoriesOk s) ∧
    (let s := berths 0x80 0x40 0
     entryLives s post ∧ bit (readWord s.mem (postEntry s post + 8)) 62 = true) ∧
    (let s := berths 0x80 0x80 8
     entryLives s post ∧ bit (readWord s.mem (postEntry s post + 8)) 62 = false ∧ bit (readWord s.mem (postEntry s post + 8)) 63 = true ∧
      field (readWord s.mem (postEntry s post + 8)) 12 36 * 4096 = 0x400000 ∧
      imageLen (field (saveWord s.mem 0x400000 0xAC00) 8 8) (field (saveWord s.mem 0x400000 0xAC00) 0 8)
        = some (field (saveWord s.mem 0x400000 0xAC00) 16 16) ∧
      saveNat s.mem 0x400000 0x8A40 2 ≠ 0 ∧ nth (replayOf s 0x400000).written 0 0 &&& post.mask = 0 ∧ MemoriesOk s) ∧
    (let s := berths 0x80 0x80 0
     imageLen (field (saveWord s.mem 0x400000 0xAC00) 8 8) (field (saveWord s.mem 0x400000 0xAC00) 0 8)
        ≠ some (field (saveWord s.mem 0x400000 0xAC00) 16 16)) ∧
    post ∈ { home with fab := { home.fab with posts := [post] } }.fab.posts := by
  unfold entryLives MemoriesOk
  decide +kernel


/-- The line that a packet is for, held by a package that can be asked for it or not; a completion block whose line another package holds; no
completion block in control space. -/
theorem witness_RemoteEvents_holders :
    (∀ routed ∈ [true, false], let s := lentLine 0xC0000000 routed home
      MemoriesOk s ∧ lineCheck s packet = .ok ∧ holdersOf s (0xC0000000 / 128) true ≠ [] ∧
        canRecall s (0xC0000000 / 128) true = routed) ∧
    (let c := command .radd [transfer 3 true]
     let s := lentLine 0x9000 true (commanding c)
     commandOf s 7 = some c ∧ finishDue c = true ∧ ∃ k u, checkWrites c (completionWrites c) s = .wait k u) ∧
    (AckResult.ok ≠ .moved) ∧ (∀ l ∈ [0x8040, 0x9008, 0x9000], ctrlOff l = none ∧ l + 64 ≤ coreLoc) := by
  unfold MemoriesOk
  exact ⟨by decide +kernel, ⟨by decide +kernel, by decide +kernel, waits_spec (by decide +kernel)⟩, by decide, by decide +kernel⟩
/-! Lines, and accesses from and to other packages. -/

def entryOf (line : Nat) (st : LineState) (sharers pending : List Nat) (reqs : List (Nat × Bool)) : DirEntry :=
  { line := line, state := st, sharers := sharers, reqs := reqs, pending := pending }
def withDir (d : DirEntry) : State := { home with fab := { home.fab with dir := [d] } }
/-- Packages 3 to 5 can be reached. -/
def linked (s : State) : State := { s with fab := { s.fab with routes := 0x101010 <<< 24 } }
def asking (w : List Want) : State := { home with fab := { home.fab with wanted := w } }
def want (n : Nat) : Want := { who := .channel 2, key := { line := 9, off := 0, wr := false, elem := 0, idx := 0 }, replays := n }
/-- The sender of a request whose accesses are recorded; and a record that it meets at 0xC0000000. -/
def sender (rd : Bool) : Sender :=
  { launch := 0, berth := 1, member := 0, path := .core, kind := .write, pc := 0x4000, rd := rd, prior := [] }

/-- Requests that are refused, answered "moved" or with a race, queued behind an INV, and served, from a package that can be reached; an IACK
that is not the last and one that is; data that was asked for. -/
theorem witness_FabricEvents_lines :
    pkgOf (128 * 0x1800000) = home.fab.pkg.toNat ∧ reachable (linked home) 4 = true ∧ reachable home 4 = false ∧
    inboundCheck user user.fab.fbit (128 * 0x1800000) false = .refused 0 ∧
    inboundCheck frozen frozen.fab.fbit (128 * 0x1800000) true = .moved ∧ inboundCheck home home.fab.fbit (128 * 0x1800000) true = .ok ∧
    (∃ q, farRace metLine (sectorsOf metLine (128 * 0x1800000) 8) (sender true) = some q) ∧
    farRace home (sectorsOf home (128 * 0x1800000) 8) (sender true) = none ∧
    (∀ h ∈ holdersFor (entryOf 9 .modified [3] [] []) 4 false, reachable (linked home) h = true) ∧
    (∃ h ∈ holdersFor (entryOf 9 .modified [3] [] []) 4 false, reachable home h = false) ∧
    (dirAt (withDir (entryOf 9 .shared [3] [3] [])) 9).pending ≠ [] ∧ (dirAt home 9).pending = [] ∧ (dirAt home 9).reqs = [] ∧
    holdersFor (entryOf 9 .modified [3] [] []) 4 false ≠ [] ∧ holdersFor (entryOf 9 .modified [3] [] []) 3 true = [] ∧
    (0 : Nat) = home.fab.pkg.toNat ∧ home.mem.wf = true ∧
    (without (dirAt (withDir (entryOf 9 .shared [3, 4] [3, 4] [])) 9) 3).pending.filter (· ≠ 3) ≠ [] ∧
    (let d := without (dirAt (withDir (entryOf 9 .shared [3] [3] [(4, true)])) 9) 3
     d.pending.filter (· ≠ 3) = [] ∧ d.reqs = [(4, true)]) ∧
    (asking [want 0]).fab.wanted[0]? = some (want 0) ∧ (asking []).fab.wanted[0]? = none ∧
    (∀ w ∈ (asking [want 0]).fab.wanted, w.key.line ≠ 8) ∧
    ((asking [want 0]).fab.wanted.find? fun w => w.key.line == 9) = some (want 0) ∧ noNews.bits = none ∧ pkgOf (128 * 9) = home.fab.pkg.toNat ∧
    pkgOf (128 * 2 ^ 35) ≠ home.fab.pkg.toNat ∧ (asking [want 2, want 3]).fab.wanted = want 2 :: [want 3] ∧
    (want 2).replays < 3 ∧ 3 ≤ (want 3).replays := by
  refine ⟨?_, ?_, ?_, ?_, ?_, ?_, Option.isSome_iff_exists.mp (by decide +kernel), ?_, ?_, ?_, ?_, ?_, ?_, ?_, by decide +kernel, ?_, ?_, ?_, ?_, ?_, ?_, ?_, by decide +kernel⟩
    <;> decide +kernel
theorem witness_FabricEvents_requests :
    reachable (linked home) 4 = true ∧
    inboundCheck user user.fab.fbit 0xC0000000 false = .refused 0 ∧ inboundCheck home home.fab.fbit 0xC0000000 false = .ok ∧
    inboundCheck user user.fab.fbit 0xC0000000 true = .refused 0 ∧ inboundCheck frozen frozen.fab.fbit 0xC0000000 true = .moved ∧
    inboundCheck home home.fab.fbit 0xC0000000 true = .ok ∧ MemoriesOk home ∧
    (∃ q, farRace metLine (sectorsOf metLine 0xC0000000 8) (sender true) = some q) ∧
    (∀ rd, farRace home (sectorsOf home 0xC0000000 8) (sender rd) = none) ∧
    (∀ wr, ∀ routed ∈ [true, false], let s := lentLine 0xC0000000 routed home
      holdersOf s (0xC0000000 / 128) wr ≠ [] ∧ canRecall s (0xC0000000 / 128) wr = routed) ∧
    (∀ wr, holdersOf home (0xC0000000 / 128) wr = [] ∧ canRecall home (0xC0000000 / 128) wr = true) ∧
    0xC0000000 % 8 = 0 ∧ ctrlOff 0xC0000000 = none ∧ 0xC0000000 < coreLoc := by
  unfold MemoriesOk
  refine ⟨?_, ?_, ?_, ?_, ?_, ?_, ?_, Option.isSome_iff_exists.mp (by decide +kernel), ?_, ?_, ?_, ?_⟩ <;> decide +kernel

/-- Transfers that have been replayed twice and three times, and one that was answered "moved"; accesses of the word being issued, of a
channel and of a command's completion that wait. -/
theorem witness_FabricEvents_moved :
    (∀ n ∈ [2, 3], let x := { transfer 3 false with replays := n, moved := true }
      let c := command .radd [x]
      commandOf (commanding c) 7 = some c ∧ (c.xfers.find? fun y => !y.acked) = some x ∧ (7 : Nat) ≠ 0 ∧ (x.replays < 3 ∨ 3 ≤ x.replays) ∧
        (c.xfers.find? fun y => !y.acked && y.moved) = some x ∧ (c.xfers.find? fun y => y.ix == x.ix && !y.acked) = some x) ∧
    (∀ n, Agent.core ≠ .channel n ∧ Agent.core ≠ .port n) := ⟨by decide +kernel, by simp⟩

/-- At cycle 10: a command's transfers of which the second has waited longest; and accesses of which the second has waited longest, of the
word being issued, of a channel and of a command's completion; then one that has ended. -/
def later (s : State) : State := { s with cycle := 10 }
def movedOf (who : Agent) (since : Word) (ended : Bool) : Moved :=
  { who := who, info := user.trapInfo true 0x11 0, since := since, ended := ended }
def waitingFor (who : Agent) (s : State) : State :=
  later { s with c := { s.c with moved := [movedOf .table 5 false, movedOf who 0 false, movedOf .matrix 0 true] } }
theorem witness_FabricEvents_bound :
    (let x : Transfer := { transfer 3 false with moved := true }
     let b : Transfer := { transfer 2 false with moved := true, since := 5 }
     let c := command .radd [b, x, transfer 4 false]
     let s := later (commanding c)
     commandOf s 7 = some c ∧ c.xfers = [b] ++ x :: [transfer 4 false] ∧ (x.moved && !x.acked) = true ∧
      (∀ y ∈ [b], (s.cycle - y.since).toNat < (s.cycle - x.since).toNat) ∧ ((transfer 4 false).moved && !(transfer 4 false).acked) = false ∧
      (c.xfers.find? fun y => y.ix == x.ix && !y.acked) = some x) ∧
    (∀ who ∈ [Agent.core, .channel 2, .port 7], let s := waitingFor who user
      s.cs = .active ∧ s.c.moved = [movedOf .table 5 false] ++ movedOf who 0 false :: [movedOf .matrix 0 true] ∧
        (movedOf who 0 false).ended = false ∧ (s.cycle - (movedOf .table 5 false).since).toNat < (s.cycle - (movedOf who 0 false).since).toNat ∧
        (movedOf .matrix 0 true).ended = true) ∧
    (chanAt (waitingFor (.channel 2) (busy moving)) 2).act = true ∧ (chanAt (waitingFor (.channel 2) (busy moving)) 2).flt = false ∧
    (let c := command .radd [transfer 3 true]
     commandOf (waitingFor (.port 7) (commanding c)) 7 = some c ∧ finishDue c = true) ∧
    (∃ m ∈ (waitingFor .core user).c.moved, m.ended = true ∧ m.who = .matrix ∧ m.info.tval = 0) := by
  refine ⟨?_, ?_, ?_, ?_, ?_, movedOf .matrix 0 true, ?_⟩ <;> decide +kernel
/-- Fatal events that land, early-released data's among them, and one that does not; at a channel's chunk and at its counter; with and without
a strip handler. -/
theorem witness_FabricEvents_fatal :
    (busy moving).cs = .active ∧ (chanAt (busy moving) 2).act = true ∧ (chanAt (busy moving) 2).flt = false ∧
    bit user.c.sys.shvec 0 = false ∧ user.mem.wf = true ∧ (1#2 : BitVec 2) ≠ 2#2 ∧ releasedEarly user 0x8000 = false ∧
    releasedEarly { user with tlb := [⟨0, 0, 2 ^ 30, 0x100000000000003F, 0x1000⟩] } 0x8000 = true ∧
    (∀ n ∈ [0, 127], ∀ ch ∈ [0, 3], 2 ≤ (BitVec.ofNat 64 (2 + ch + 8 * n)).toNat) ∧ 4 ≤ ((6 : Word).toNat - 2) % 8 ∧
    (let s := { user with c := { user.c with sys := { user.c.sys with shvec := 0x5001 } } }
     s.cs = .active ∧ bit s.c.sys.shvec 0 = true) ∧
    ({ user with spill := some user.c } : State).spill = some user.c ∧ user.spill = none ∧ user.sh = none ∧
    (let s : State := { user with sh := some user.c }
     s.sh = some user.c ∧ s.shReady = false) ∧
    (let s := { user with mem := user.mem.dropLast.dropLast.dropLast ++ [(0x1018, 0x0F), (0x101B, 0xC0), (0x101F, 0x04)] }
     findLeaf s 0xC0000000 = .leaf 0x04000000C000000F (2 ^ 30) 0x1018 ∧
      permitted 0x04000000C000000F { write := true, fetch := false, user := true } = true ∧ bit 0x04000000C000000F 4 = false ∧
      bit 0x04000000C000000F 5 = false) ∧
    findLeaf user 0x100000000 = .miss ∧ findLeaf { user with mem := [(0, 0x41)] } 0 = .malformed := by
  refine ⟨?_, ?_, ?_, ?_, ?_, ?_, ?_, by decide +kernel, ?_, ?_, ?_, ?_, ?_, ?_⟩ <;> decide +kernel

/-! Dispatch. -/

def ready_ (s : State) : State := { s with dev := { s.dev with state := .ready } }
def window (l : List Word) : State := { ready_ user with disp := { user.disp with lwin := l } }
/-- A record at 0x9000 with a version and the given first word's byte 2. -/
def submitted (b : Byte) : State :=
  { window [0x9000] with mem := user.mem ++ (if b = 0 then [] else [(0x9002, b)]) ++ [(0x9006, 1)] }
theorem witness_DispatchEvents_launch :
    user.dev.state ≠ .ready ∧ (window []).dev.state = .ready ∧ (window []).disp.lwin.length < 256 ∧
    256 ≤ (window (List.replicate 256 0)).disp.lwin.length ∧ (window []).mem.wf = true ∧ (submitted 0).disp.lwin = 0x9000 :: [] ∧
    (submitted 0).mem.wf = true ∧ rejectReason (submitted 0) false (readLaunch (submitted 0).mem 0x9000) = 0 ∧
    rejectReason (submitted 4) false (readLaunch (submitted 4).mem 0x9000) ≠ 0 ∧ (readLaunch (submitted 0).mem 0x9000).place = 0 := by
  decide +kernel

/-- An exit that waits for a command, one that ends the context, one with an open window, and one whose matrix counter is not mapped, lies in
memory, or lies on a line that another package holds. -/
theorem witness_DispatchEvents_exit :
    let counter (a : Word) : State := withMatrix { withTile.c.mat with ctr := some a }
    user.cs = .active ∧ (∃ (ctr : Option Counter) (u : State), counterCheck user = .ok ctr u ∧ ctr.isNone = true) ∧ openWindow user = none ∧ commandsPending user = false ∧
    commandsPending (busy moving) = true ∧ openWindow (busy moving) = none ∧
    (let s := { user with c := { user.c with windows := [{ regs := [(3, 0, .uniform)], addr := 0x3FFC, results := 0, consumed := false }] } }
     (openWindow s).isSome = true) ∧
    ({ user with c := { user.c with exiting := true } } : State).c.exiting = true ∧ user.disp.exits = [] ∧
    (∃ r u, counterCheck (counter 0x100000000) = .trap r u ∧ r.cause = 0x08) ∧
    (∃ (ctr : Option Counter) (u : State), counterCheck (counter 0x9000) = .ok ctr u ∧ (ctr.any fun x => decide (ctrlOff x.1 = none)) = true) ∧
    ∃ n u, counterCheck (lentLine 0x9000 true (counter 0x9000)) = .wait n u := by
  refine ⟨rfl, okWith_spec (p := fun (ctr : Option Counter) _ => ctr.isNone) (by decide +kernel), ?_, ?_, ?_, ?_, ?_, rfl, rfl, trapWith_spec (by decide +kernel),
    okWith_spec (p := fun (ctr : Option Counter) _ => ctr.any fun x => decide (ctrlOff x.1 = none)) (by decide +kernel), waits_spec (by decide +kernel)⟩
    <;> decide +kernel

/-- The firmware's note of a context with a save area at 0x400000, and its launch, with contexts on other packages. -/
def noted (st : CtxState) (since : Word) : CtxInfo :=
  { save := 0x400000, scratch := 0x500000, berth := 0, member := 0, die := 15, state := st, since := since, waited := 0 }
def launched (others : Nat) (cs : List CtxInfo) : Launch :=
  { id := 1, rec_ := 0x9000, root := 0, ctr := 0, pre := true, prio := 3, scr := 1, l1m := 1, others := others, pkgs := [], ctxs := cs }
def withLaunches (l : List Launch) (s : State) : State := { s with disp := { s.disp with launches := l } }
/-- The firmware has been told of one end. -/
def told (e : ExitEvent) (s : State) : State := { s with disp := { s.disp with exits := [e] } }
theorem witness_DispatchEvents_ends :
    (∀ p ∈ [(2, noted .exited 0), (1, noted .active 0), (1, noted .exited 0)], let l := launched p.1 [p.2]
      (told (.elsewhere 1) (withLaunches [l] user)).disp.exits = .elsewhere 1 :: [] ∧
      ((told (.elsewhere 1) (withLaunches [l] user)).disp.launches.find? fun k => k.id == 1) = some l ∧ l.ctr = 0 ∧ user.mem.wf = true) ∧
    (let done (l : Launch) : Prop := l.others ≤ 1 ∧ ∀ q ∈ l.ctxs, q.state = .exited
     ¬done (launched 2 [noted .exited 0]) ∧ ¬done (launched 1 [noted .active 0]) ∧ done (launched 1 [noted .exited 0])) ∧
    ∀ e ∈ [ExitEvent.failed 0x400000, .failedElsewhere 1 5 1 0x0A 0x4000], let l := launched 0 [noted .saved 0]
      let s := told e (withLaunches [l] { home with cs := .none, fab := { home.fab with fbbt := 0x300001 } })
      s.disp.exits = e :: [] ∧ launchOf s 0x400000 = some l ∧ (s.disp.launches.find? fun k => k.id == 1) = some l ∧
        (l.ctxs.find? fun q => q.save == 0x400000) = some (noted .saved 0) ∧ s.cs = .none ∧ s.sh = none ∧ s.spill = none ∧
        (∀ c ∈ s.saved, c.sbuf = [] ∧ c.mat.issues = []) ∧ l.ctr = 0 ∧ s.mem.wf = true ∧
        ∀ q ∈ l.ctxs, apart (berthEntry s q.berth.toNat) 8 (l.rec_ + 0x50) 16 := by
  unfold apart
  decide +kernel
/-- The end on another core of a context that lies in a slot here, of a launch's last one, and of one of two; and a context whose spill was
lost. -/
theorem witness_DispatchEvents_here :
    (let s := told (.here 0x400000) { user with c := { user.c with save := 0x400000 } }
     s.disp.exits = .here 0x400000 :: [] ∧ s.cs ≠ .none ∧ s.c.save = 0x400000) ∧
    (∀ l ∈ [launched 0 [noted .active 0], launched 0 [noted .active 0, { noted .saved 0 with save := 0x600000 }]],
      let s := told (.here 0x400000) (withLaunches [l] user)
      s.c.save ≠ 0x400000 ∧ s.sh = none ∧ s.spill = none ∧ launchOf s 0x400000 = some l ∧ l.ctr = 0 ∧ s.mem.wf = true) ∧
    (let done (l : Launch) : Prop := l.others = 0 ∧ ∀ q ∈ l.ctxs, q.save ≠ 0x400000 → q.state = .exited
     done (launched 0 [noted .active 0]) ∧ ¬done (launched 0 [noted .active 0, { noted .saved 0 with save := 0x600000 }])) ∧
    (let s : State := { ready_ user with disp := { user.disp with lost := [0x400000] } }
     s.dev.state = .ready ∧ s.disp.lost = 0x400000 :: []) := by
  decide +kernel

/-- A core whose slot names the save area at 0x400000 and berth name 0, which is live, saved and not busy: the header asks for the given
number of rows, as its byte 2 says. -/
def loadable (rows : Byte) : State :=
  { home with
    mem := user.mem ++ [(0x300007, 0x80), (0x30000F, 0x80), (0x400000, 2)] ++ (if rows = 0 then [] else [(0x400002, rows)])
    fab := { home.fab with fbbt := 0x300001 }
    slot := { home.slot with save := 0x400000 } }
def binds (n : Nat) : State := { loadable 0 with parts := [⟨0x500000, true, n, 8⟩, ⟨0x600000, false, n, 8⟩] }
theorem witness_DispatchEvents_bind :
    bindFree user ∧ bindFieldsZero 1 ∧ ¬bindFieldsZero 0x11 ∧ ¬bindFree { user with pendSwap := true } ∧
    user.dev.holdoff = 0 ∧ 0 < ({ user.dev with holdoff := 10 } : Device).holdoff ∧
    ({ user with sh := some user.c } : State).shReady = false ∧ ({ user with pendSwap := true } : State).pendSwap = true ∧
    user.sh = none ∧ ({ user with cs := .none } : State).cs = .none ∧ notLoadable user ∧ ¬notLoadable (loadable 0) ∧
    bindFree (loadable 0) ∧ (loadable 0).mem.wf = true ∧
    user.cs ≠ .none ∧ user.spill = none ∧ ({ user with spill := some user.c } : State).spill.isSome = true ∧
    ({ user with sh := some user.c } : State).sh = some user.c ∧
    (let s := loadable 0
     apart (namedSave s) 8 (locationAddr s (namedBerth s) (namedMember s)) 8 ∧ apart 0x500000 0x4F000 (locationAddr s 0 0) 8) ∧
    grantRows user.c.sys.grant ≤ 64 := by
  unfold bindFree bindFieldsZero notLoadable apart
  refine ⟨?_, ?_, ?_, ?_, ?_, ?_, ?_, by decide +kernel, ?_, ?_, ?_, ?_, ?_, ?_, ?_, by decide +kernel, ?_, ?_, ?_, ?_⟩ <;> decide +kernel
theorem witness_DispatchEvents_resources :
    noPartition 0x100 (binds 1) ∧ ¬noPartition 0 (binds 1) ∧ ¬noPartition 0x100 (loadable 0) ∧ ¬noBlocks 0x100 (loadable 0) ∧
    noBlocks 0x01000000 (loadable 0) ∧ ¬noBlocks 0x01000000 (loadable 16) := by
  unfold noPartition noBlocks
  refine ⟨Or.inr ⟨by decide, ⟨⟨0x500000, true, 1, 8⟩, by decide⟩, ⟨0x600000, false, 1, 8⟩, by decide⟩, ?_, ?_, ?_, ?_, ?_⟩
  · rintro (h | h)
    · exact absurd h (by decide)
    · exact absurd h.1 (by decide)
  · rintro (h | ⟨_, ⟨p, hp, _⟩, _⟩)
    · exact absurd h (by decide)
    · exact absurd hp (by simp [loadable, home, user, State.reset])
  all_goals decide +kernel

/-- A shadow context that is being filled from 0x400000: from a bad save area, and from one whose 32 descriptors name 8 bytes each. -/
def filling (l : Memory) : State :=
  { loadable 0 with sh := some { Context.reset with save := 0x400000 }, mem := (loadable 0).mem ++ l }
def descriptors : Memory := (List.range 32).map fun n => (0x40AC02 + 8 * n, 8)
theorem witness_DispatchEvents_fill :
    (filling []).sh.isSome = true ∧ (filling []).shReady = false ∧ (filling []).slot.held = [] ∧ (filling []).mem.wf = true ∧
    (∃ off, badField (setHeaderBit (filling []).mem 0x400000 25 false) 0x400000 0 = some off) ∧ (filling descriptors).mem.wf = true ∧
    badField (setHeaderBit (filling descriptors).mem 0x400000 25 false) 0x400000 0 = none := by
  refine ⟨?_, ?_, ?_, ?_, Option.isSome_iff_exists.mp (by decide +kernel), ?_, ?_⟩ <;> decide +kernel

/-- A swap over an empty slot and over an Active context, a spill's end, and the firmware's clocks. -/
def swapping (cs : CtxState) : State := { user with cs := cs, sh := some user.c, shReady := true, pendSwap := true }
def spilled : Context := { Context.reset with save := 0x500000, scratchA := 0x700000, scr := 1 }
def spilling : State := { loadable 0 with spill := some spilled }
theorem witness_DispatchEvents_swap :
    (∀ cs, (swapping cs).sh = some user.c ∧ (swapping cs).shReady = true ∧ (swapping cs).pendSwap = true ∧ (swapping cs).spill = none ∧
      (swapping cs).slot.held = [] ∧ (swapping cs).c.mat.issues = []) ∧ (swapping .none).cs = .none ∧ (swapping .active).cs ≠ .none ∧
    user.slot.ovr = false ∧ user.c.fresh = false ∧ ({ user with slot := { user.slot with ovr := true } } : State).slot.ovr = true ∧
    (let c := { user.c with save := 0x400000, fresh := true }
     let s := withLaunches [launched 0 [noted .runnable 0]] { swapping .none with sh := some c }
     c.fresh = true ∧ s.cs = .none ∧ launchOf s c.save = some (launched 0 [noted .runnable 0])) :=
  ⟨fun _ => ⟨rfl, rfl, rfl, rfl, rfl, rfl⟩, by decide +kernel⟩
theorem witness_DispatchEvents_spill :
    spilling.spill = some spilled ∧ spilling.slot.held = [] ∧ spilling.mem.wf = true ∧ spilled.scratch.wf = true ∧ BanksFit spilled ∧
    isParked spilling spilled.save = false ∧ apart spilled.save 0x4F000 (locationAddr spilling 0 0) 8 ∧
    apart spilled.save 0x4F000 spilled.scratchA 8192 ∧ apart spilled.scratchA 8192 (locationAddr spilling 0 0) 8 ∧
    tagOk (.affine 0 0 32) ∧ tagOk .uniform := by
  unfold apart tagOk BanksFit
  refine ⟨rfl, rfl, ?_, rfl, ?_, ?_, ?_, ?_, ?_, ?_, trivial⟩ <;> decide +kernel
theorem witness_DispatchEvents_parked :
    let l := launched 0 [noted .parked 0]
    let s := withLaunches [l] { user with spill := some { user.c with save := 0x400000 } }
    isParked s 0x400000 = true ∧ isParked user 0x400000 = false ∧ launchOf s 0x400000 = some l ∧
    (∀ q ∈ l.ctxs, q.save ≠ 0x400000 → q.state = .exited) ∧ l.ctr = 0 := by decide

/-- The firmware's choice: an empty core, and one whose context has used its budget, with two that wait, and the Active context's partition
as large as the scratchpad or not; none that waits; hold-off; a valid shadow slot, whose context waited before. -/
def pair : Launch := launched 0 [noted .runnable 0, { noted .runnable 5 with save := 0x600000, die := 0 }]
def choosing : State := withLaunches [pair] { ready_ user with cs := .none, cycle := 10 }
def tired (ps : List Partition) : State :=
  { choosing with cs := .active, c := { user.c with preempt := true }, slot := { user.slot with used := 0x01000000 }, parts := ps }
/-- The Active context's partition, and another's. -/
def whole (owner : Nat) : List Partition := [⟨owner, false, 40, 0⟩]
theorem witness_DispatchEvents_firmware :
    (∀ s ∈ [choosing, tired [], tired (whole 0), tired (whole 0x900000)], chosen s = some (pair, noted .runnable 0) ∧ waiting s ≠ [] ∧
      s.dev.state = .ready ∧ s.disp.lost = [] ∧ bindFree s ∧ s.sh = none ∧ s.dev.holdoff = 0 ∧ s.spill = none) ∧
    Fits choosing pair (noted .runnable 0) ∧ Fits (tired []) pair (noted .runnable 0) ∧
    ¬Fits (tired (whole 0)) pair (noted .runnable 0) ∧ Fits (withoutActive (tired (whole 0))) pair (noted .runnable 0) ∧
    ¬Fits (tired (whole 0x900000)) pair (noted .runnable 0) ∧ ¬Fits (withoutActive (tired (whole 0x900000))) pair (noted .runnable 0) ∧
    pair.scr < 64 ∧ pair.l1m < 64 ∧ waiting user = [] ∧ user.dev.state ≠ .ready := by
  unfold bindFree Fits
  decide +kernel
theorem witness_DispatchEvents_yields :
    Yields choosing 0 ∧ Yields (tired []) 0 ∧ ¬Yields { tired [] with c := user.c } 0 ∧
    (let s : State := { choosing with sh := some { user.c with save := 0x400000 }, shReady := true }
     let l := launched 0 [{ noted .shadow 0 with waited := 5 }]
     s.sh.isSome = true ∧ bindFree s ∧ s.spill = none ∧ s.disp.lost = [] ∧ (withLaunches [l] s).sh = some { user.c with save := 0x400000 } ∧
      launchOf (withLaunches [l] s) 0x400000 = some l ∧ (l.ctxs.find? fun q => q.save == 0x400000) = some { noted .shadow 0 with waited := 5 }) ∧
    (∀ c : CtxState, c = .shadow → c ≠ .runnable) := by
  unfold bindFree
  refine ⟨.inl (by decide +kernel), .inr ⟨by decide +kernel, by decide +kernel, .inl (by decide +kernel)⟩, ?_, by decide +kernel,
    fun _ h => by subst h; decide⟩
  rintro (h | ⟨_, h, _⟩)
  · exact absurd h (by decide +kernel)
  · exact absurd h (by decide +kernel)
theorem witness_DispatchEvents_budget :
    let spent : State := { user with slot := { user.slot with used := 0x01000000 } }
    spent.cs = .active ∧ (budgetOf spent spent.coreNum).toNat ≤ spent.slot.used.toNat ∧ spent.slot.ovr = false ∧
    ¬(budgetOf user user.coreNum).toNat ≤ user.slot.used.toNat := by decide +kernel

/-! The device's blocks. -/

theorem witness_DeviceEvents_registers :
    (8 : Nat) % 8 = 0 ∧ user.coreNum < 1024 ∧ Writer.user ∉ writers 8 ∧ Writer.host ∈ writers 8 ∧ (0x20010 : Nat) ∈ fixedRegs ∧
    (∀ r ∈ [((8 : Nat), (~~~0 : Word)), (0x407F8, 0x1F1F1F1F1F1F1F1F), (0x102FF8, 0xFFFFFFFF), (0x110020, ~~~0), (0x110388, ~~~0)],
      r ∈ plainRows ++ indexedRows) ∧
    Writer.supervisor ∈ writers 0x40008 ∧ Writer.management ∈ writers 0x100010 ∧ Writer.supervisor ∈ writers 0x110050 ∧
    Writer.supervisor ∈ writers 0x110000 ∧ field 2 0 4 ≠ 0 ∧ (field 0 0 4 = 0 ∧ bindFieldsZero 0) ∧ ¬bindFieldsZero 0x10 ∧
    Writer.host ∈ writers 0x100000 ∧ Writer.host ∈ writers 0x120 ∧
    Writer.host ∈ writers 0x18 ∧ (ready_ user).dev.state = .ready ∧ user.dev.state ≠ .ready ∧ user.dev.state ≠ .recovery := by
  unfold bindFieldsZero
  decide +kernel
/-- The device in each of its states, with an empty core and nothing else due. -/
def inState (d : DevState) (tr : Option Bool) : State := { State.reset with dev := { Device.reset with state := d, trained := tr } }
theorem witness_DeviceEvents_boot :
    (∀ p ∈ [(DevState.reset, none), (.rom, some false), (.rom, some true), (.firmware, none), (.ready, none), (.recovery, none)],
      let s := inState p.1 p.2
      s.dev.state = p.1 ∧ s.dev.trained = p.2 ∧ s.agenda = [] ∧ s.cs = .none ∧ s.dev.power = true ∧ s.dev.d3 = false ∧ s.dev.d3cold = false ∧
        s.mem.wf = true) := by decide
theorem witness_DeviceEvents_states :
    let hot : Word := 105
    user.dev.plim.toNat < (3201 : Word).toNat ∧ ¬ (user.dev.plim.toNat < (3200 : Word).toNat ∨ user.dev.twarn.toNat ≤ (94 : Word).toNat) ∧
    ¬ (3200 : Word).toNat < user.dev.plim.toNat ∧ (3199 : Word).toNat < user.dev.plim.toNat ∧ (94 : Word).toNat < user.dev.twarn.toNat ∧
    (ready_ user).dev.state = .ready ∧ ¬(user.dev.state = .firmware ∨ user.dev.state = .ready) ∧
    (104 : Word).toNat < user.dev.tcrit.toNat ∧ user.dev.tcrit.toNat ≤ hot.toNat ∧ coreEmpty State.reset ∧ ¬coreEmpty user ∧
    ({ user with dev := { user.dev with d3 := true } } : State).dev.d3 = true ∧ user.dev.d3 = false ∧ user.dev.d3cold = false ∧
    ({ user with dev := { user.dev with d3 := true, d3cold := true } } : State).dev.d3cold = true ∧ MemoriesOk user ∧
    0xBFFFFFFFF8 + 8 ≤ hbmBytes ∧ hbmBytes < 0xBFFFFFFFF9 + 8 := by
  unfold coreEmpty MemoriesOk
  decide +kernel
theorem witness_DeviceEvents_host :
    (∀ wr, holdersOf user ((user.fab.pkg.toNat * 2 ^ 42 + 0x8000) / 128) wr = []) ∧
    ∀ wr, ∀ routed ∈ [true, false], let s := lentLine 0x8000 routed user
      let line := (s.fab.pkg.toNat * 2 ^ 42 + 0x8000) / 128
      0x8000 + 8 ≤ hbmBytes ∧ holdersOf s line wr ≠ [] ∧ canRecall s line wr = routed := by decide +kernel
/-- A context whose SCTL asks for a sample every 256 cycles, with a TRCTL and a wait. -/
def sampled (ct : Word) (w : Nat) : State :=
  { user with
    c := { user.c with dbg := upd user.c.dbg 13 0x100, wait := w }, cycle := 512
    dev := { user.dev with trctl := ct, trsize := 64, trbase := 0x800000 } }
theorem witness_DeviceEvents_sample :
    (∀ w ct, (sampled ct w).cs = .active ∧ (sampled ct w).dev.trctl = ct ∧ (sampled ct w).c.wait = w ∧ (sampled ct w).dev.ringPend = 0 ∧
      (sampled ct w).dev.portPend = 0 ∧ (sampled ct w).coreNum = 0 ∧ (sampled ct w).cycle.toNat = 512) ∧
    nth (sampled 0 0).c.dbg 13 0 = 0x100 ∧ field (0x100 : Word) 8 24 = 1 ∧ 512 % (1 * 256) = 0 ∧ filterPasses (sampled 0 0) (bit (0x100 : Word) 0) = true ∧
    (sampled 0 0).mem.wf = true ∧ (∀ w ∈ [0, 7], w < 16) ∧ bit (0 : Word) 11 = false ∧
    ([(0x10800 : Word), 0x20800, 0x30800].all fun ct => bit ct 11 && !bit ct 18) = true ∧ field (nth user.c.dbg 13 0) 8 24 = 0 := by
  refine ⟨fun w ct => ⟨rfl, rfl, rfl, rfl, rfl, rfl, rfl⟩, ?_, ?_, ?_, ?_, ?_, ?_, ?_, ?_, ?_⟩ <;> decide +kernel

/-! Steps. -/

/-- A supervisor whose word at PC is ADDI x5, x0, 1, with nothing else due. -/
def atWord : State :=
  { withStatus 1 user with
    dev := { user.dev with state := .ready }
    mem := user.mem.take 13 ++ [(0x4000, 0x01), (0x4002, 0x50), (0x4003, 0x06)] }
theorem witness_StepRunsWord :
    atWord.dev.power = true ∧ atWord.dev.d3 = false ∧ atWord.dev.d3cold = false ∧ atWord.dev.state = .ready ∧ atWord.agenda = [] ∧
    atWord.cs = .active ∧ interruption atWord = none ∧ turnBefore atWord = none ∧ decode 0x06500001 = .ok (.addi 5 0 1) ∧
    ∃ w u, fetch atWord = .ok w u ∧ (decide (w = 0x06500001) && decide (breakHit u = none) && decide (swapTrap u = none)) = true := by
  refine ⟨rfl, rfl, rfl, rfl, rfl, rfl, ?_, ?_, rfl, okWith_spec (p := fun (w : BitVec 32) u => decide (w = 0x06500001) && decide (breakHit u = none)
    && decide (swapTrap u = none)) ?_⟩ <;> decide +kernel
theorem witness_StepGoesOn : State.reset.dev.power = true := rfl

theorem witness_MemoryInvariant : MemInv State.reset ∧ lands (step State.reset) (fun _ => true) = true :=
  ⟨⟨rfl, rfl, fun c h => by rcases h with h | h | h <;> cases h⟩, by decide +kernel⟩
/-! Clauses about what stops a word or a part of it, or turns a request away. -/

/-- A translation passes and the fabric's answer for it is a trap, a wait, or a pass that meets a test. -/
theorem gate_meets {x : Except (BitVec 8) Xlat} {p : Xlat → Bool} (h : x.toOption.any p = true) : ∃ y, x = .ok y ∧ p y = true := by
  cases x with
  | error c => exact absurd h (by simp [Except.toOption])
  | ok y => exact ⟨y, rfl, by simpa [Except.toOption] using h⟩
theorem error_of {x : Except (BitVec 8) Xlat} {c : BitVec 8} (h : (match x with | .error e => e == c | .ok _ => false) = true) : x = .error c := by
  cases x <;> simp_all
/-- One part passes, and the next traps, or waits, or passes. -/
theorem then_traps {α β : Type} {r : Res α} {f : State → Res β} {c : BitVec 8} (h : okWith r (fun _ u => trapWith (f u) c) = true) :
    ∃ x u q v, r = .ok x u ∧ f u = .trap q v ∧ q.cause = c := by
  obtain ⟨x, u, h1, h2⟩ := okWith_spec h
  obtain ⟨q, v, h3, h4⟩ := trapWith_spec h2
  exact ⟨x, u, q, v, h1, h3, h4⟩
theorem then_waits {α β : Type} {r : Res α} {f : State → Res β} (h : okWith r (fun _ u => waits (f u)) = true) :
    ∃ x u n v, r = .ok x u ∧ f u = .wait n v := by
  obtain ⟨x, u, h1, h2⟩ := okWith_spec h
  obtain ⟨n, v, h3⟩ := waits_spec h2
  exact ⟨x, u, n, v, h1, h3⟩
theorem then_passes {α β : Type} {r : Res α} {f : State → Res β} (h : okWith r (fun _ u => okWith (f u) fun _ _ => true) = true) :
    ∃ x u y v, r = .ok x u ∧ f u = .ok y v := by
  obtain ⟨x, u, h1, h2⟩ := okWith_spec h
  obtain ⟨y, v, h3, _⟩ := okWith_spec h2
  exact ⟨x, u, y, v, h1, h3⟩

/-- A loop over elements waits. -/
theorem loop_waits {α : Type} {x : α × State × Option Stop} (h : (match x.2.2 with | some (.wait _) => true | _ => false) = true) :
    ∃ g u n, x = (g, u, some (.wait n)) := by
  obtain ⟨g, u, o⟩ := x
  revert h
  match o with
  | some (.wait n) => exact fun _ => ⟨g, u, n, rfl⟩
  | some (.trap _ _) => exact fun h => absurd h (by simp)
  | none => exact fun h => absurd h (by simp)

/-- A relaxed form under DETERM, and an advance past the limit; an element past a sweep's product, one with no permission, and one at an odd
address; and a loop that waits. -/
theorem witness_VectorLoads_stops :
    (let s := withStatus 32 (strip 1)
     epReady (vldForm s 0 8 1 0 0 1 6).y s = true ∧ s.determ = true) ∧
    (let s := (strip 1).wa 1 { everywhere 0x8000 with limit := 0x8003 }
     epReady (vldForm s 0 8 1 1 0 0 6).y s = true ∧ s.determ = false ∧
      (s.ra 1).limit.toNat < (s.ra 1).ptr.toNat + (vlNow s * (vldForm s 0 8 1 1 0 0 6).d.width + 7) / 8) ∧
    stripAddr swept (epEnv swept) (swept.ra 1) 3 32 8 = none ∧ permOk 0 { l := true } = false ∧ permOk 15 { l := true } = true ∧
    permOk 15 { s := true } = true ∧ ((0x8000 : Nat) : Int) % ((32 / 8 : Nat) : Int) = 0 ∧ ((0x8002 : Nat) : Int) % ((32 / 8 : Nat) : Int) ≠ 0 ∧
    (let s := lentLine 0x8000 true (strip 1)
     ∃ got u n, loadLoop s (s.ra 1) 32 0 (vldForm s 0 8 1 0 0 0 6).addr = (got, u, some (.wait n))) ∧
    (let s := lentLine 0x8000 true (strip 1)
     ∃ got u n, storeLoop s (s.ra 1) 32 0 (vstForm s 0 8 1 0 0 0 6).addr = (got, u, some (.wait n))) := by
  refine ⟨?_, ?_, ?_, ?_, ?_, ?_, ?_, ?_, loop_waits (by decide +kernel), loop_waits (by decide +kernel)⟩ <;> decide +kernel

/-- A lane's access to the 4 bytes at 0x8000: its translation, and what the fabric answers for it. -/
def lanePage (s : State) (wr : Bool) : (Except (BitVec 8) Xlat) × State := translate s 0x8000 4 { write := wr, fetch := false, user := !s.prv }
def laneGate (s : State) (wr : Bool) (y : Xlat) : Res Unit :=
  remoteGate .core (lanePage s wr).2 0x8000 y 4 wr { s.trapInfo false 0 0 with telem := 0, estart := 0, tidx := 0, inLane := true }
/-- A page that is not mapped; a line that another package holds, which can be asked for it or not; a race; a watchpoint; and an element that
passes. -/
theorem witness_VectorLoads_checks :
    (∀ wr ∈ [false, true],
      (lanePage { strip 1 with mem := [] } wr).1 = .error 0x08 ∧
      (∃ y, (lanePage (lentLine 0x8000 false (strip 1)) wr).1 = .ok y ∧ trapWith (laneGate (lentLine 0x8000 false (strip 1)) wr y) 0x11 = true) ∧
      (∃ y, (lanePage (lentLine 0x8000 true (strip 1)) wr).1 = .ok y ∧ waits (laneGate (lentLine 0x8000 true (strip 1)) wr y) = true) ∧
      (∃ y, (lanePage (recorded (strip 1)) wr).1 = .ok y ∧ okWith (laneGate (recorded (strip 1)) wr y) (fun _ v =>
        y.rd && (findRace v (hSet v .core) (if wr then .write else .read) (sectorOf v y.loc)).isSome) = true) ∧
      ∃ y, (lanePage (strip 1) wr).1 = .ok y ∧ okWith (laneGate (strip 1) wr y) (fun _ v =>
        !y.rd && decide (watchHit v 0x8000 4 (!wr) wr = none)) = true) ∧
    ∃ y, (lanePage (watched (strip 1)) false).1 = .ok y ∧ okWith (laneGate (watched (strip 1)) false y) (fun _ v =>
      !y.rd && decide (watchHit v 0x8000 4 true false = some 0)) = true := by
  refine ⟨fun wr h => ⟨error_of ?_, gate_meets ?_, gate_meets ?_, gate_meets ?_, gate_meets ?_⟩, gate_meets ?_⟩
  all_goals first | decide +kernel | (revert wr; decide +kernel)

/-- Entries that are due, and one that is not. -/
theorem witness_VectorStores_commit :
    let e (l : Nat) (due : Bool) : StoreEntry := { lane := 0, addr := l, mask := 255, data := 7, rel := none, due := due }
    let s : State := { strip 1 with c := { (strip 1).c with sbuf := [e 0x9000 true, e 0x9008 false] } }
    s.cs = .active ∧ MemoriesOk s ∧ BufferOk s ∧ s.c.sbuf = [e 0x9000 true] ++ [e 0x9008 false] ∧ (∀ x ∈ [e 0x9000 true], x.due = true) ∧
    (∀ x ∈ [e 0x9008 false], x.due = false) ∧ ({ s with cs := .none } : State).cs ≠ .active ∧ epReady (vkWord false) s = true := by
  unfold MemoriesOk BufferOk
  decide +kernel

/-- VPART and VTRIM while an issue is not complete. -/
theorem witness_VectorControl_issues :
    let s := withMatrix (withIssues 1 noMatrix)
    epReady { cls := .control } s = true ∧ epReady (vkWord false) s = true ∧ s.c.mat.issues ≠ [] ∧ (Instr.vpart 0 7).wf := by decide +kernel

/-- A handler of a stopped channel, and one of a report, with and without a failed completion write, each with its return point. -/
def stoppedAt (back : Word) : Channel := { moving with flt := true, told := true, ret := back }
def resuming (c : Channel) : State :=
  let s := withStatus 1 (busy c)
  { s with c := { s.c with lastFlt := some 2, sys := { s.c.sys with tpc := 0x3FFC } } }
def reported (f : Option TrapInfo) (back : Word) : RemoteCmd :=
  { command .radd [] with taken := true, written := f.isNone, wfail := f, ret := back }
def reporting_ (q : RemoteCmd) : State :=
  let s := withStatus 1 (commanding q)
  { s with c := { s.c with lastRep := some 7, sys := { s.c.sys with tpc := 0x3FFC } } }
theorem witness_TrapReturn_channel :
    (∀ back, let u := resuming (stoppedAt back)
      ApReady u ∧ u.prv = true ∧ u.c.lastFlt = some 2 ∧ nth u.c.chan 2 Channel.free = stoppedAt back ∧ (stoppedAt back).act = true ∧
        (stoppedAt back).flt = true ∧ (stoppedAt back).pc = u.c.sys.tpc ∧ (stoppedAt back).ret = back) ∧
    (0x4000 : Word).toNat % 4 = 0 ∧ (0x4002 : Word).toNat % 4 ≠ 0 := by
  refine ⟨fun back => ⟨rfl, ?_, rfl, rfl, rfl, rfl, rfl, rfl⟩, ?_⟩
  · show bit 1 0 = true
    decide
  · decide
theorem witness_TrapReturn_report :
    ∀ (f : Option TrapInfo) (back : Word), let u := reporting_ (reported f back)
      ApReady u ∧ u.prv = true ∧ resumedChannel u = none ∧ u.c.lastRep = some (reported f back).id ∧ reported f back ∈ u.c.remote ∧
        (∀ c ∈ u.c.remote, c.id = (reported f back).id → c = reported f back) ∧ (reported f back).taken = true ∧
        (reported f back).pc = u.c.sys.tpc ∧ (reported f back).wfail = f ∧ (reported f back).ret = back :=
  fun _ _ => ⟨rfl, show bit 1 0 = true by decide, rfl, rfl, List.mem_singleton.mpr rfl, fun _ h _ => List.mem_singleton.mp h, rfl, rfl, rfl, rfl⟩

/-- Accesses of the matrix unit: not mapped; on a line that another package holds, which can be asked for it or not; a race; and one that
passes. Spans of no byte, and of 32 bytes over two pages, of which the first or the second stops. -/
def matrixPage (s : State) : (Except (BitVec 8) Xlat) × State := translate s 0x8000 8 { write := false, fetch := false, user := !s.prv }
def matrixGate (s : State) (y : Xlat) : Res Unit := remoteGate .matrix (matrixPage s).2 0x8000 y 8 false (matInfo s)
def spanAt (s : State) (p : Int) (n : Nat) : Res (List SpanPart) := checkSpan s [] p n .read (matInfo s)
def pieceAt (s : State) (p : Word) (n : Nat) : Res Xlat := engineCheck .matrix s [] p n .read (!s.prv) (matInfo s)
theorem witness_MatrixTiles_accesses :
    (matrixPage { user with mem := [] }).1 = .error 0x08 ∧
    (∃ y, (matrixPage (lentLine 0x8000 false user)).1 = .ok y ∧ trapWith (matrixGate (lentLine 0x8000 false user) y) 0x11 = true) ∧
    (∃ y, (matrixPage (lentLine 0x8000 true user)).1 = .ok y ∧ waits (matrixGate (lentLine 0x8000 true user) y) = true) ∧
    (∃ y, (matrixPage (recorded user)).1 = .ok y ∧ okWith (matrixGate (recorded user) y) (fun _ v =>
      y.rd && (findRace v [] .read (sectorOf v (32 * (y.loc / 32)))).isSome) = true) ∧
    (∃ y, (matrixPage user).1 = .ok y ∧ okWith (matrixGate user y) (fun _ _ => !y.rd) = true) :=
  ⟨error_of (by decide +kernel), gate_meets (by decide +kernel), gate_meets (by decide +kernel), gate_meets (by decide +kernel),
    gate_meets (by decide +kernel)⟩
theorem witness_MatrixTiles_spans :
    (∃ q u, pieceAt user 0x100000000 32 = .trap q u ∧ q.cause = 0x08) ∧ (∃ n u, pieceAt (lentLine 0x8000 true user) 0x8000 32 = .wait n u) ∧
    (∃ x u q v, pieceAt user 0xFFFFFFF0 16 = .ok x u ∧ spanAt u 0x100000000 16 = .trap q v ∧ q.cause = 0x08) ∧
    (∃ x u n v, pieceAt (lentLine 0x40000000 true user) 0x3FFFFFF0 16 = .ok x u ∧ spanAt u 0x40000000 16 = .wait n v) ∧
    (∃ x u y v, pieceAt user 0x3FFFFFF0 16 = .ok x u ∧ spanAt u 0x40000000 16 = .ok y v) ∧
    (∃ x u y v, spanAt user 0x8000 16 = .ok x u ∧ spanAt u 0x40000000 16 = .ok y v) ∧
    (∃ x u n v, spanAt (lentLine 0x40000000 true user) 0x8000 16 = .ok x u ∧ spanAt u 0x40000000 16 = .wait n v) ∧
    (∃ x u q v, spanAt user 0x8000 16 = .ok x u ∧ spanAt u 0x100000000 16 = .trap q v ∧ q.cause = 0x08) :=
  ⟨trapWith_spec (by decide +kernel), waits_spec (by decide +kernel), then_traps (by decide +kernel), then_waits (by decide +kernel),
    then_passes (by decide +kernel), then_passes (by decide +kernel), then_waits (by decide +kernel), then_traps (by decide +kernel)⟩

/-- The columns and the rows of a tile: not mapped, or on a line that another package holds; a matrix counter that is not mapped, or on such a
line, or that can be reached, with a tile and without; MGTAB with K = 0, and with a scale count that is not the one needed. -/
theorem witness_MatrixTiles_stops :
    let counter (a : Word) (s : State) : State := { s with c := { s.c with mat := { s.c.mat with ctr := some a } } }
    let cols (p : Int) (s : State) := checkSpans s (hSet s .matrix) 1 .read (fun c => { s.trapInfo false 0 0 with telem := c, estart := c })
      (columnsAt p 64) s
    let row (p : Int) (s : State) := checkSpans s (hSet s .matrix) 512 .write (fun c => { s.trapInfo false 0 0 with telem := c, estart := c })
      [(0, p)] s
    let shaped (len : BitVec 32) : State :=
      { attachedState with c := { attachedState.c with d := upd attachedState.c.d 2 { len := len, stride := 64 } } }
    (∀ f ∈ [cols, row], (∃ q u, f 0x100000000 attachedState = .trap q u ∧ q.cause = 0x08) ∧
      ∃ n u, f 0x80000000 (lentLine 0x80000000 true attachedState) = .wait n u) ∧
    (∃ q u, releaseCheck (counter 0x100000000 withTile) (matInfo withTile) = .trap q u ∧ q.cause = 0x08) ∧
    (∃ n u, releaseCheck (lentLine 0x9000 true (counter 0x9000 withTile)) (matInfo withTile) = .wait n u) ∧
    (∃ ctr u, releaseCheck (counter 0x9000 withTile) (matInfo withTile) = .ok ctr u) ∧
    (∃ q u, matrixCounter (counter 0x100000000 attachedState) (matInfo attachedState) = .trap q u ∧ q.cause = 0x08) ∧
    (∃ n u, matrixCounter (lentLine 0x9000 true (counter 0x9000 attachedState)) (matInfo attachedState) = .wait n u) ∧
    (∃ ctr u, matrixCounter (counter 0x9000 attachedState) (matInfo attachedState) = .ok ctr u) ∧ attachedState.c.mat.tile = none ∧
    withTile.c.mat.tile.isSome = true ∧ attachedState.c.mat.ctr = none ∧ (counter 0x9000 attachedState).c.mat.ctr = some 0x9000 ∧
    ((shaped 0).rd 2).len.toNat % 65536 = 0 ∧ ((shaped 65535).rd 2).len.toNat % 65536 = 65535 ∧ kMax 0 < 65535 ∧
    scalesNeeded 0 1 ≠ ((shaped 0x10001).rd 2).len.toNat / 65536 % 256 ∧ scalesNeeded 0 1 = ((shaped 1).rd 2).len.toNat / 65536 % 256 := by
  refine ⟨fun f h => ?_, trapWith_spec (by decide +kernel), waits_spec (by decide +kernel), ?_, trapWith_spec (by decide +kernel),
    waits_spec (by decide +kernel), ?_, ?_⟩
  · simp only [List.mem_cons, List.not_mem_nil, or_false] at h
    obtain rfl | rfl := h <;> exact ⟨trapWith_spec (by decide +kernel), waits_spec (by decide +kernel)⟩
  · exact (okWith_spec (p := fun _ _ => true) (by decide +kernel)).imp fun _ h => h.imp fun _ h => h.1
  · exact (okWith_spec (p := fun _ _ => true) (by decide +kernel)).imp fun _ h => h.imp fun _ h => h.1
  · decide +kernel

/-- A group table that is not mapped; a member that is not aligned; members and a window whose lines are not mapped; a window that can be
translated; a table across two pages, of which the second is not mapped, or lies on a line that another package holds, or reads. -/
def tableOf (va : Word) (s : State) : Res (Nat × List Nat) := tableRead s va 8 (s.trapInfo true 0 0)
def portPiece (va : Word) (n : Nat) (s : State) : Res Xlat := engineCheck .table s (hSet s .remote) va n .read (!s.prv) (s.trapInfo true 0 0)
theorem witness_RemoteCommands_table_stops :
    let members (b : Byte) : State := { port with mem := user.mem ++ [(0x8000, 1), (0x8080, b), (0x8084, 1 - b)] }
    let window (va : Word) := translate port va 128 { write := true, fetch := false, user := !port.prv }
    (∃ q u, tableOf 0x100000000 port = .trap q u ∧ q.cause = 0x08) ∧
    (∃ q u, readMembers 0x8000 0 0 [0] (members 1) = .trap q u ∧ q.cause = 0x05) ∧
    (∃ q u, readMembers 0x8000 0 0 [0] (members 0) = .trap q u ∧ q.cause = 0x08) ∧
    (∃ n u, readMembers 0x8000 0 0 [0] (lentLine 0x8080 true port) = .wait n u) ∧
    (∃ q u, checkWindow true 0x100000000 port = .trap q u ∧ q.cause = 0x08) ∧ (∃ y u, checkWindow true 0x40000000 port = .ok y u) ∧
    (window 0x100000000).1 = .error 0x08 ∧ (∃ y, (window 0x40000000).1 = .ok y ∧ (pkgOf y.loc == port.fab.pkg.toNat) = true) ∧
    (∃ x u q v, portPiece 0xFFFFFFFC 4 port = .ok x u ∧ portPiece 0x100000000 4 u = .trap q v ∧ q.cause = 0x08) ∧
    (∃ x u n v, portPiece 0x3FFFFFFC 4 (lentLine 0x40000000 true port) = .ok x u ∧ portPiece 0x40000000 4 u = .wait n v) ∧
    (∃ x u y v, portPiece 0x3FFFFFFC 4 port = .ok x u ∧ portPiece 0x40000000 4 u = .ok y v) ∧
    (∃ n u, portPiece 0x8000 8 (lentLine 0x8000 true port) = .wait n u) := by
  refine ⟨trapWith_spec (by decide +kernel), trapWith_spec (by decide +kernel), trapWith_spec (by decide +kernel), waits_spec (by decide +kernel),
    trapWith_spec (by decide +kernel), ?_, error_of (by decide +kernel), gate_meets (by decide +kernel), then_traps (by decide +kernel),
    then_waits (by decide +kernel), then_passes (by decide +kernel), waits_spec (by decide +kernel)⟩
  exact (okWith_spec (p := fun _ _ => true) (by decide +kernel)).imp fun _ h => h.imp fun _ h => h.1

/-- With package 5 within reach, whose memory the pages from 0xC0000000 up name, and which accepts every access there or none. -/
def abroad (fbit : Word) (s : State) : State :=
  { s with
    mem := user.mem.dropLast ++ [(0x101D, 0x14), (0x101F, 0x04)] ++ [(5 * 2 ^ 42, 0x01), (5 * 2 ^ 42 + 1, 0x10), (5 * 2 ^ 42 + 5, 0x14),
      (5 * 2 ^ 42 + 0x1018, 0x3F), (5 * 2 ^ 42 + 0x101B, 0xC0), (5 * 2 ^ 42 + 0x101F, 0x04)]
    fab := { s.fab with routes := 0x10 <<< 40, links := 0xFFFF, peers := [{ pkg := 5, fbit := fbit, fbbt := 0, mbase := 0, msize := 0 }] } }

/-- A window in another package. -/
theorem witness_RemoteCommands_window :
    ∃ y, (translate (abroad 0 port) 0xC0000000 128 { write := true, fetch := false, user := !port.prv }).1 = .ok y ∧
      decide (pkgOf y.loc = 5 ∧ pkgOf y.loc ≠ port.fab.pkg.toNat ∧ (routePort (abroad 0 port) 5).isSome = true) = true :=
  gate_meets (by decide +kernel)

/-- Posts: acknowledged with a hint and without; a receiver with no hold, in this core and in a save area; one of this package, from its
command, and served under a name of another package that can be reached or not; and the next of two transfers. -/
def postTransfer (d : Word) : Transfer :=
  { transfer 0 false with line := none, post := some { post with desc := d, local_ := true, id := 7, src := 0 }, away := false }
theorem witness_RemoteEvents_local :
    (∃ p, (postTransfer 0).post = some p ∧ p.local_ = true ∧ p.fwd = false ∧ p.id = 7) ∧ (transfer 3 false).post = none ∧
    (let c := command .vpost [postTransfer 0]
     let s := commanding c
     commandOf s 7 = some c ∧ (c.xfers.find? fun y => y.ix == 0 && !y.acked) = some (postTransfer 0) ∧
      (servedAs s 0).toNat / 2 ^ 22 = s.fab.pkg.toNat ∧ (∃ r hint, (sendPost { post with local_ := true, id := 7 } s).1 = .ack r hint)) ∧
    (let d : Word := 5 * 2 ^ 22
     let p : Post := { post with desc := d, local_ := true, id := 7, src := 0 }
     let s := commanding (command .vpost [postTransfer d])
     (servedAs s (d.truncate 32)).toNat / 2 ^ 22 = 5 ∧ 5 ≠ s.fab.pkg.toNat ∧ reachable s 5 = false ∧ reachable (abroad 0 s) 5 = true ∧
      (sendPost p (abroad 0 s)).1 ≠ .busy ∧ (nextTransfer s).map (fun q => (q.1.id, q.2.ix)) = some (7, 0) ∧
      ∀ c ∈ s.c.remote, finishDue c = false) ∧
    post.name.toNat / 2 ^ 22 = user.fab.pkg.toNat ∧ ¬entryLives user post ∧
    (∃ hint, (deliverPost 1 none post user).1 = .ack .gone hint) := by
  unfold entryLives
  refine ⟨⟨_, rfl, rfl, rfl, rfl⟩, rfl, ⟨by decide +kernel, by decide +kernel, by decide +kernel, .gone, none, by decide +kernel⟩, ?_, ?_, ?_, none, ?_⟩
    <;> decide +kernel
theorem witness_RemoteEvents_unexpected :
    (let s := berths 0x80 0 0
     entryLives s post ∧ isReceiver post s.c = true ∧ nth s.c.hold 0 0 = 0 ∧ MemoriesOk s) ∧
    (let s := { berths 0x80 0x80 8 with mem := (berths 0x80 0x80 8).mem.filter (·.1 ≠ 0x408A40) }
     entryLives s post ∧ bit (readWord s.mem (postEntry s post + 8)) 62 = false ∧ bit (readWord s.mem (postEntry s post + 8)) 63 = true ∧
      imageLen (field (saveWord s.mem 0x400000 0xAC00) 8 8) (field (saveWord s.mem 0x400000 0xAC00) 0 8)
        = some (field (saveWord s.mem 0x400000 0xAC00) 16 16) ∧
      saveNat s.mem 0x400000 0x8A40 2 = 0 ∧ MemoriesOk s) := by
  unfold entryLives MemoriesOk
  decide +kernel

/-- Data that came for an access of a CACHED page and of another; a request that the inbound check refuses though a holder of the line cannot be
reached. -/
theorem witness_FabricEvents_data :
    let near : Want := want 0
    let far : Want := { want 0 with key := { (want 0).key with off := 5 } }
    let some_ : LineNews := { noNews with bits := some 0 }
    near.key.off = 0 ∧ far.key.off ≠ 0 ∧ some_.bits.isSome = true ∧ noNews.bits.isSome = false ∧
    (∀ w ∈ [near, far], ((asking [w]).fab.wanted.find? fun v => v.key.line == 9) = some w) ∧
    (let s := { lentLine 0xC0000000 false user with fab := { (lentLine 0xC0000000 false user).fab with routes := 0x10 <<< 32 } }
     reachable s 4 = true ∧ inboundCheck s s.fab.fbit 0xC0000000 false = .refused 0 ∧
      ∃ h ∈ holdersFor (dirAt s 0x1800000) 4 false, reachable s h = false) := by decide +kernel

/-! The checks of a launch record, for one of a single group with no arguments. -/

/-- A record at 0x9000 with version 1 and the given cells of it and of its lists. -/
def recordOf (l : Memory) : State := { window [0x9000] with mem := user.mem ++ l, fab := { user.fab with routes := 0x10 <<< 40, links := 0xFFFF } }
def recordAt (s : State) : LaunchRec := readLaunch s.mem 0x9000
/-- The only word of the placement list. -/
def placedWord (s : State) (r : LaunchRec) : Word :=
  if r.place = 0 ∧ r.ngrp = 0 then BitVec.ofNat 64 (s.fab.pkg.toNat + 15 * 65536)
  else ((readPhys s r.root.toNat r.place.toNat).map (readWord s.mem)).getD 0
theorem placed_word {s : State} {r : LaunchRec} {ws : List Word} (hn : r.ngrp = 0) (h : PlacementsAre s r ws) : ws = [placedWord s r] := by
  unfold PlacementsAre at h
  unfold placedWord
  split at h
  · rw [if_pos ‹_›, h]
  · rw [if_neg ‹_›]
    rw [hn] at h
    obtain ⟨h1, h2⟩ := h
    obtain ⟨p, h3, h4⟩ := h2 0 (by omega)
    simp only [Nat.mul_zero, BitVec.add_zero] at h3
    match ws, h1 with
    | [w], _ => simpa [h3] using h4
/-- The fields, the placement and the addresses that pass. -/
def fieldsPass (r : LaunchRec) (w : Word) : Bool :=
  decide (field r.head 48 16 = 1 ∧ field r.head 18 2 = 0 ∧ field r.head 6 6 = 0 ∧ (∀ n ∈ List.range 64, n = 3 ∨ n = 5 ∨ bit r.status n = false) ∧
    field w 10 6 = 0 ∧ field w 20 44 = 0 ∧ field r.root 0 12 = 0 ∧ field r.root 52 12 = 0 ∧ r.ctr.toNat % 8 = 0 ∧ r.ngrp = 0 ∧ r.narg = 0)
theorem fields_pass {s : State} {r : LaunchRec} (h : fieldsPass r (placedWord s r) = true) : ¬FieldsBad s r ∧ r.ngrp = 0 ∧ r.narg = 0 := by
  simp only [fieldsPass, decide_eq_true_eq] at h
  obtain ⟨h1, h2, h3, h4, h5, h6, h7, h8, h9, hg, ha⟩ := h
  refine ⟨?_, hg, ha⟩
  rintro (h | h | h | ⟨n, a, b, c, d⟩ | ⟨ws, h, w, hw, e⟩ | ⟨ws, h, k, hk, e⟩ | h | h | h | ⟨_, h⟩ | ⟨_, h⟩)
  · exact h h1
  · exact h h2
  · exact h h3
  · rw [((h4 n (List.mem_range.mpr a)).resolve_left b).resolve_left c] at d
    exact absurd d (by decide)
  · rw [placed_word hg h, List.mem_singleton] at hw
    subst hw
    exact e.elim (· h5) (· h6)
  · omega
  · exact h h7
  · exact h h8
  · exact h h9
  · exact h hg
  · exact h ha
theorem place_passes {s : State} {r : LaunchRec} (hn : r.ngrp = 0)
    (h : decide (let w := placedWord s r; (field w 16 4 ≤ 7 ∨ field w 16 4 = 15) ∧ (field w 0 10 = s.fab.pkg.toNat ∨ (routePort s (field w 0 10)).isSome = true))
      = true) : ¬PlaceBad s r := by
  simp only [decide_eq_true_eq] at h
  rintro ⟨ws, hw, w, hm, e⟩
  rw [placed_word hn hw, List.mem_singleton] at hm
  subst hm
  rcases e with ⟨a, b⟩ | ⟨_, a⟩ | ⟨a, b⟩
  · omega
  · omega
  · rcases h.2 with c | c
    · exact a c
    · simp [b] at c
theorem record_read {s : State} {r : LaunchRec} (hn : r.ngrp = 0) (ha : r.narg = 0)
    (h : ((r.place = 0 || (readPhys s r.root.toNat r.place.toNat).isSome) && (readPhys s r.root.toNat r.pc.toNat).isSome
      && (readPhys s r.root.toNat r.tvec.toNat).isSome && decide (r.ctr = 0)) = true) : ¬RecordUnread s r := by
  simp only [Bool.and_eq_true, Bool.or_eq_true, decide_eq_true_eq, Option.isSome_iff_exists] at h
  obtain ⟨⟨⟨h1, p, h2⟩, q, h3⟩, h4⟩ := h
  rintro (⟨a, k, hk, e⟩ | ⟨k, hk, _⟩ | e | e | ⟨e, _⟩)
  · obtain rfl : k = 0 := by omega
    rcases h1 with h1 | ⟨x, h1⟩
    · exact a ⟨h1, hn⟩
    · simp [h1] at e
  · omega
  · simp [h2] at e
  · simp [h3] at e
  · exact e h4

/-- A record whose only placement word, at 0xA000, has a die that there is not, and one whose only group is for package 5. -/
def badDie : State := recordOf [(0x9006, 1), (0x9041, 0xA0), (0xA002, 8)]
def forFive : State := recordOf [(0x9006, 1), (0x9041, 0xA0), (0xA000, 5), (0xA002, 0x0F)]
theorem places_read (s : State) (p : Nat) (w : Word) (h : (recordAt s).place ≠ 0) (hn : (recordAt s).ngrp = 0)
    (hp : readPhys s (recordAt s).root.toNat (recordAt s).place.toNat = some p) (hw : readWord s.mem p = w) :
    PlacementsAre s (recordAt s) [w] := by
  unfold PlacementsAre
  rw [if_neg fun e => h e.1, hn]
  refine ⟨rfl, fun k hk => ?_⟩
  obtain rfl : k = 0 := by omega
  exact ⟨p, by simpa using hp, by rw [hw]; rfl⟩
theorem place_bad {s : State} {r : LaunchRec} {w : Word} (h : PlacementsAre s r [w]) (e : 7 < field w 16 4 ∧ field w 16 4 ≠ 15) : PlaceBad s r :=
  ⟨[w], h, w, List.mem_singleton_self w, .inl e⟩
theorem place_away {s : State} {r : LaunchRec} {w : Word} (h : PlacementsAre s r [w]) (e : field w 0 10 ≠ s.fab.pkg.toNat) :
    ∃ ws, PlacementsAre s r ws ∧ ∃ w ∈ ws, field w 0 10 ≠ s.fab.pkg.toNat := ⟨[w], h, w, List.mem_singleton_self w, e⟩

theorem badDie_places : PlacementsAre badDie (recordAt badDie) [0x80000] :=
  places_read badDie 0xA000 0x80000 (by decide +kernel) (by decide +kernel) (by decide +kernel) (by decide +kernel)
theorem forFive_places : PlacementsAre forFive (recordAt forFive) [0xF0005] :=
  places_read forFive 0xA000 0xF0005 (by decide +kernel) (by decide +kernel) (by decide +kernel) (by decide +kernel)

/-- Every reason: a reserved bit; 33 units of scratchpad; a die that there is not; a list that is not mapped; and a group for another package,
whose firmware refuses it, or does not. -/
theorem witness_DispatchEvents_reasons :
    let fields := recordOf [(0x9002, 4), (0x9006, 1)]
    let large := recordOf [(0x9000, 33), (0x9006, 1)]
    let unread := recordOf [(0x9006, 1), (0x9044, 1)]
    FieldsBad fields (recordAt fields) ∧
    (¬FieldsBad large (recordAt large) ∧ 32 < (recordAt large).scr) ∧
    (∀ s ∈ [badDie, unread, forFive], ¬FieldsBad s (recordAt s) ∧ ¬(32 < (recordAt s).scr ∨ 40 < (recordAt s).scr + max (recordAt s).l1m 8)) ∧
    PlaceBad badDie (recordAt badDie) ∧ (¬PlaceBad unread (recordAt unread) ∧ RecordUnread unread (recordAt unread)) ∧
    ¬PlaceBad forFive (recordAt forFive) ∧ ¬RecordUnread forFive (recordAt forFive) ∧
    ∃ ws, PlacementsAre forFive (recordAt forFive) ws ∧ ∃ w ∈ ws, field w 0 10 ≠ forFive.fab.pkg.toNat := by
  refine ⟨.inr (.inl (by decide +kernel)), ⟨(fields_pass (by decide +kernel)).1, by decide +kernel⟩, ?_,
    place_bad badDie_places (by decide +kernel),
    ⟨place_passes (by decide +kernel) (by decide +kernel), .inl ⟨by decide +kernel, 0, by decide +kernel, by decide +kernel⟩⟩,
    place_passes (by decide +kernel) (by decide +kernel), record_read (by decide +kernel) (by decide +kernel) (by decide +kernel),
    place_away forFive_places (by decide +kernel)⟩
  intro s h
  simp only [List.mem_cons, List.not_mem_nil, or_false] at h
  rcases h with rfl | rfl | rfl <;> exact ⟨(fields_pass (by decide +kernel)).1, by decide +kernel⟩

/-- A record with one argument, for register 5 of member 0 of group 0. -/
theorem witness_DispatchEvents_arguments :
    let s := recordOf [(0x9004, 0x10), (0x9006, 1), (0x9049, 0xB0), (0xB000, 5), (0xB008, 7)]
    let r := recordAt s
    s.dev.state = .ready ∧ s.disp.lwin = 0x9000 :: [] ∧ s.mem.wf = true ∧ rejectReason s false r = 0 ∧ r.narg = 1 ∧
    PlacementsAre s r [BitVec.ofNat 64 (s.fab.pkg.toNat + 15 * 65536)] ∧ ReadsThrough s r.root r.args (2 * r.narg) [5, 7] ∧
    argHits [5, 7] 0 0 5 0 ∧ ¬argHits [5, 7] 0 0 6 0 ∧ field (BitVec.ofNat 64 (s.fab.pkg.toNat + 15 * 65536)) 0 10 = s.fab.pkg.toNat ∧
    0 ≤ r.nmem := by
  refine ⟨by decide +kernel, by decide +kernel, by decide +kernel, by decide +kernel, by decide +kernel, ?_, ⟨by decide +kernel, fun k hk => ?_⟩, ?_⟩
  · unfold PlacementsAre
    rw [if_pos (by decide +kernel)]
  · have hk' : k < 2 := by revert hk; exact fun h => Nat.lt_of_lt_of_le h (by decide +kernel)
    match k, hk' with
    | 0, _ => exact ⟨0xB000, by decide +kernel, by decide +kernel⟩
    | 1, _ => exact ⟨0xB008, by decide +kernel, by decide +kernel⟩
  · unfold argHits
    decide +kernel

/-- The end of a launch with a counter: not mapped; in this package; in another that can be reached and accepts the write, and in one that refuses
it. -/
def ending (ctr : Word) (u : State) : State := told (.elsewhere 1) (withLaunches [{ launched 1 [noted .exited 0] with ctr := ctr }] u)
theorem witness_DispatchEvents_counter :
    (∀ ctr : Word, ctr ≠ 0 → ∀ u : State, let l := { launched 1 [noted .exited 0] with ctr := ctr }
      (ending ctr u).disp.exits = .elsewhere 1 :: [] ∧ ((ending ctr u).disp.launches.find? fun k => k.id == 1) = some l ∧ l.others ≤ 1 ∧
        (∀ q ∈ l.ctxs, q.state = .exited) ∧ l.ctr ≠ 0 ∧ (ending ctr u).mem = u.mem) ∧
    user.mem.wf = true ∧ (abroad 0 user).mem.wf = true := by
  refine ⟨fun ctr h u => ⟨rfl, rfl, ?_, ?_, h, rfl⟩, ?_⟩
  · exact Nat.le_refl 1
  · simp [launched, noted]
  · decide +kernel
theorem witness_DispatchEvents_counter_near :
    let u (ctr : Word) : State := writeStatus (ending ctr user) 0x9000 3 0
    walkPhys (u 0x100000000) 0 0x100000000 true = none ∧ walkPhys (u 0x8000) 0 0x8000 true = some 0x8000 ∧ pkgOf 0x8000 = user.fab.pkg.toNat ∧
    holdersOf (u 0x8000) (0x8000 / 128) true = [] ∧ ctrlOff 0x8000 = none ∧ 0x8000 < coreLoc := by decide +kernel
def abroadEnded (f : Word) : State := writeStatus (ending 0xC0000000 (abroad f user)) 0x9000 3 0
def farCounter : Nat := 5 * 2 ^ 42 + 0xC0000000
theorem witness_DispatchEvents_counter_away :
    walkPhys (abroadEnded 1) 0 0xC0000000 true = some farCounter ∧ reachable (abroadEnded 1) (pkgOf farCounter) = true ∧
    inboundCheck (abroadEnded 1) (homeFbit (abroadEnded 1) (pkgOf farCounter)) farCounter true = .ok ∧
    walkPhys (abroadEnded 0) 0 0xC0000000 true = some farCounter ∧
    inboundCheck (abroadEnded 0) (homeFbit (abroadEnded 0) (pkgOf farCounter)) farCounter true ≠ .ok ∧
    pkgOf farCounter ≠ user.fab.pkg.toNat ∧ farCounter % 8 = 0 ∧ ctrlOff farCounter = none ∧ farCounter < coreLoc :=
  ⟨by decide +kernel, by decide +kernel, by decide +kernel, by decide +kernel, by decide +kernel, by decide +kernel, by decide +kernel,
    by decide +kernel, by decide +kernel⟩

/-- A copy under way beside a context that does not wait. -/
theorem witness_StepGoesOn_turn :
    let s : State := { ready_ (busy moving) with tick := 16 }
    s.dev.power = true ∧ s.dev.d3 = false ∧ s.dev.d3cold = false ∧ s.dev.state = .ready ∧ s.agenda = [] ∧ s.cs = .active ∧
    interruption s = none ∧ turnsDue s ≠ [] ∧ s.c.wait = 0 ∧ s.tick % 16 = 0 := by decide +kernel

/-! One step on a small state: the values are worked out by hand from the rule or the worked example named. -/

/-- x1 and x2 hold two values. -/
def operands (a b : Word) : State := (user.wx 1 a).wx 2 b
/-- The instruction answers a next state with a value in x3. -/
def gives (s : State) (i : Instr) (v : Word) : Bool := lands (exec i s) fun t => t.rx 3 == v

/-- R136: wrapping, saturation, the high halves, and shift amounts modulo the width. -/
theorem test_alu_corners :
    (gives (operands (-1) 2) (.add 3 1 2) 1 && gives (operands 1 2) (.sub 3 1 2) (-1) &&
      gives (operands 0x7FFFFFFFFFFFFFFF 1) (.adds 3 1 2) 0x7FFFFFFFFFFFFFFF && gives (operands 1 2) (.subus 3 1 2) 0 &&
      gives (operands (-1) (-1)) (.mulh 3 1 2) 0 && gives (operands (-1) (-1)) (.mulhu 3 1 2) 0xFFFFFFFFFFFFFFFE &&
      gives (operands (-1) (-1)) (.mulhsu 3 1 2) (-1) && gives (operands 0x8000000000000000 65) (.sra 3 1 2) 0xC000000000000000 &&
      gives (operands 0x80000000 1) (.sraw 3 1 2) 0xFFFFFFFFC0000000) = true := by decide

/-- R137: division by zero, the one quotient that overflows, and the signs of quotient and remainder. -/
theorem test_division_corners :
    (gives (operands 7 0) (.div 3 1 2) (-1) && gives (operands 7 0) (.rem 3 1 2) 7 &&
      gives (operands 0x8000000000000000 (-1)) (.div 3 1 2) 0x8000000000000000 &&
      gives (operands 0x8000000000000000 (-1)) (.rem 3 1 2) 0 && gives (operands (-7) 2) (.div 3 1 2) (-3) &&
      gives (operands (-7) 2) (.rem 3 1 2) (-1)) = true := by decide

/-- R136, R139, R140: counts of an empty word, the bit order, and signed immediates. -/
theorem test_unary_and_immediate :
    (gives (operands 0 0) (.clz 3 1) 64 && gives (operands 0 0) (.ctz 3 1) 64 && gives (operands 1 0) (.brev 3 1) 0x8000000000000000 &&
      gives (operands 0x80 0) (.sextb 3 1) 0xFFFFFFFFFFFFFF80 && gives (operands 0 0) (.addi 3 1 0xFFF) (-1) &&
      gives (operands 0 0) (.sltiu 3 1 0xFFF) 1 && gives user (.lih 3 0x80000) 0xFFFFFFFF80000000 &&
      gives user (.lih 3 0x00200) 0x200000) = true := by decide

/-- The worked example of an advance that leaves its bounds (07): from 0x0020_0060 to 0x0020_00C0, and then LIMIT with its TVAL. -/
def bounded (p : Word) : State := (user.wa 2 { ptr := p, base := 0x200000, limit := 0x200100, perm := 15 }).wx 5 96
theorem test_advance_within : lands (exec (.aadd 2 2 5) (bounded 0x200060)) (fun t => (t.ra 2).ptr == 0x2000C0) = true := by decide
theorem test_advance_past_limit : lands (exec (.aadd 2 2 5) (bounded 0x2000C0)) (fun t =>
    t.prv && t.c.sys.tval == 0x200120 && t.c.sys.tpc == 0x4000 && (t.ra 2).ptr == 0x2000C0) = true := by decide

/-- R147 to R149: what a store leaves in memory and what loads read from it, least significant byte first. -/
def withBytes (bs : List Byte) : State := { user with mem := writeBytes user.mem 0x8000 bs }
theorem test_store_bytes :
    lands (exec (.sw 3 1 4) (user.wx 3 0x11223344DDEEFF88)) (fun t =>
      (List.range 6).map (fun i => readByte t.mem (0x8003 + i)) == [0, 0x88, 0xFF, 0xEE, 0xDD, 0]) = true := by decide +kernel
theorem test_load_bytes :
    let s := withBytes [0xFF, 0xEE, 0xDD, 0xCC, 0xBB, 0xAA, 0x99, 0x88]
    (gives s (.lb 3 1 0) (-1) && gives s (.lhu 3 1 2) 0xCCDD && gives s (.lw 3 1 4) 0xFFFFFFFF8899AABB &&
      gives s (.ld 3 1 0) 0x8899AABBCCDDEEFF) = true := by decide +kernel

/-- The places of elements in the worked example of R17: lane, slot and byte within the register. -/
theorem test_element_places :
    (elemBit 32 0 70, elemBit 32 8 100, elemBit 32 16 43) = (8 * (8 * 6 + 4), 8 * (8 * 44 + 4), 8 * (8 * 59)) := by decide

/-- The widening accumulate, the rounding shift and the narrowing conversion of the worked example of 10. -/
theorem test_widening_accumulate : (iWmacc 2 100 25 0, iWmacc 2 156 25 0) = (0x09C4, 0xFFFFF63C) := by decide
theorem test_rounding_shift : (iRshr 6 0x09C4 4, iRshr 6 0xFFFFF63C 4) = (156, 2 ^ 32 - 156) := by decide

/-- R192: saturation at both ends, and the high half of a signed product. -/
theorem test_vector_integer : (iAdds 2 127 1, iSubs 2 0x80 1, iAdds 3 255 1, iMulh 2 0x80 0x80, iAbs 2 0x80) = (127, 0x80, 255, 0x40, 127) := by decide

/-- R88, R89: ties go to even; 2049 lies between 2048 and 2050 in f16, and 2^-25 between 0 and the least subnormal. -/
theorem test_round_to_even :
    ((fmtF16.rne (.fin false 2049 0, 0)).1, (fmtF16.rne (.fin false 2051 0, 0)).1, (fmtF16.rne (.fin false 1 (-25), 0)).1,
      (fmtF16.rne (.fin false 3 (-26), 0)).1) = (0x6800, 0x6802, 0, 1) := by decide

/-- The decisions on pinned values of the worked example of 16, for elements 0, 1, 2 and 4 of step 5: the bit and the length. -/
def pinned : ZElem := { pos := 1000, len := 4, held := 0xB000000000000000, stale := false }
theorem test_lazy_decisions :
    ([0x3F000000, 0x3F400000, 0x3F300000, 0x3F800000].map fun c =>
      let r := decideLt 0x7A31 pinned (fmtF32.decode c)
      (r.1, max 4 r.2.1)) = [(false, 4), (true, 4), (false, 4), (true, 4)] := by decide

/-- R83: VBCAST of a NaN with a payload in f32 gives the canonical NaN, with NV; of another value its bits. -/
theorem test_broadcast_nan :
    (lands (exec (.vbcast 0 0 8 3 0 15) ((strip 2).wx 3 0x7FC00001)) (fun t =>
        elemAt [nth t.c.v 8 0] 32 0 1 == 0x7FC00000 && bit t.c.sys.fpctl 0) &&
      lands (exec (.vbcast 0 0 8 3 0 15) ((strip 2).wx 3 0x3F800001)) (fun t =>
        elemAt [nth t.c.v 8 0] 32 0 1 == 0x3F800001 && t.c.sys.fpctl == 0)) = true := by decide +kernel

/-- R257, R260: the lowest byte of a box past the limit that a row touches, with the limit inside a row and in the gap between two. -/
theorem test_box_limit :
    (boxCheck { everywhere 0x1000 with limit := 0x1005 } { l := true } 8 2 16 1 0,
      boxCheck { everywhere 0x1000 with limit := 0x100A } { l := true } 8 2 16 1 0) = (some 0x1005, some 0x1010) := by decide +kernel

end Sys2Proof.Tests
end

section
/-!
PROOFS. What reset leaves (R4, R84, R123, R129, R331).
-/

namespace Sys2Proof.Machine

/-- The arrival set is not in force at reset, and the main registers that `x[n]` then names are all zero (R123). -/
theorem rx_reset (n : BitVec 5) : State.reset.rx n = 0 := by
  by_cases hn : n = 0#5
  · rw [hn]; exact rx_zero _
  · have hain : State.reset.ain = false := rfl
    have hlt : n.toNat < 32 := n.isLt
    rw [rx_eq _ _ hn, hain]
    simp [State.reset, Context.reset, nth, hlt]

/-- The three loop descriptors are zero at reset, and so is what a read past them answers (R129). -/
theorem rdesc_reset (l : Nat) : State.reset.rdesc l = 0 := by
  by_cases hl : l < 3 <;> simp [State.rdesc, State.reset, Context.reset, nth, hl]

/-- No loop level is active at reset: bit 63 of a zero descriptor is clear (R129). -/
theorem descActive_rdesc_reset (l : Nat) : descActive (State.reset.rdesc l) = false := by
  rw [rdesc_reset]; rfl

/-- The memory invariant holds at reset: both memories list nothing, and no context stands beside that of the active slot. -/
theorem memInv_reset : MemInv State.reset := by
  refine ⟨rfl, rfl, fun c hc => ?_⟩
  simp [State.reset] at hc

end Sys2Proof.Machine

namespace Sys2Proof.Proofs

open Sys2Proof.Machine

/-- Settles O35: the clauses about one field are read off `State.reset`, and those about every register, every loop level and every context
are the lemmas above. -/
theorem resetState : Obligations.ResetState := by
  unfold Obligations.ResetState
  exact ⟨rfl, rfl, rfl, rfl, rfl, rx_reset, descActive_rdesc_reset, rfl, rfl, rfl, rfl, rfl, rfl, rfl, rfl, memInv_reset⟩

end Sys2Proof.Proofs
end
